-- ==== Sys2Proof/Word.lean ====
section
/-! DEFINITION. The widths and the plain data the spec names: 32-bit words (spec/00_scope.md R11), bytes,
RGBA8 colours (R17), block types (spec/30_encoding.md R121) and the values of ALPHA_RAMP_RULE (spec/00_scope.md R12). -/

namespace Sys2Proof

/-- A register value, a command word or a buffer handle: `REG_WIDTH` and `HANDLE_WIDTH` are 32 (00_scope R11). -/
abbrev Word := BitVec 32

/-- One byte of buffer space (20_memory R90). -/
abbrev Byte := BitVec 8

/-- An RGBA8 colour, "a tuple `(r, g, b, a)` of four 8-bit values" (00_scope R17). -/
structure Colour where
  r : Byte
  g : Byte
  b : Byte
  a : Byte
  deriving DecidableEq, Repr

/-- `NOCOLOR = (0,0,0,0)`, the missing colour (00_scope R17). -/
def Colour.none : Colour := ⟨0, 0, 0, 0⟩

/-- The block type T of DECODE_BLOCK and ENCODE_BLOCK (30_encoding R121). -/
inductive BlockType where
  | dxt1 | dxt2 | dxt3 | dxt4 | dxt5
  deriving DecidableEq, Repr

/-- The two values of the open parameter ALPHA_RAMP_RULE (00_scope R12, 41_block_codec R216). -/
inductive AlphaRampRule where
  | canonical
  | orderSwapped
  deriving DecidableEq, Repr

end Sys2Proof
end

