-- ==== Sys2Proof/Syntax.lean ====
section
/-! DEFINITION. The syntax: the commands of the engine, one constructor per row of spec/opcode_table.json
(spec/30_encoding.md R123), and the host operations a host program is made of (spec/30_encoding.md R128). -/

namespace Sys2Proof

/-- The commands. A command word has no operand field but the block type T (30_encoding R121), which the opcode table
spells out in the row, so no constructor has an argument; operands come from registers (R122). -/
inductive Instr where
  | resolveIndex
  | fetchColor
  | storeColor
  | decodeBlockDxt1
  | decodeBlockDxt2
  | decodeBlockDxt3
  | decodeBlockDxt4
  | decodeBlockDxt5
  | encodeBlockDxt1
  | encodeBlockDxt2
  | encodeBlockDxt3
  | encodeBlockDxt4
  | encodeBlockDxt5
  | alphaScan
  | convert
  | negotiate
  | negotiateAndConvert
  | release
  deriving DecidableEq, Repr

/-- A value in a host program: a number, or the name hK of a handle (30_encoding R128). -/
inductive HostVal where
  | lit (v : Word)
  | name (k : Nat)
  deriving DecidableEq, Repr

/-- One host operation (30_encoding R128). A register is given by its offset (10_state R31); a command is
`wr 0 w`. `rd` may give the value read a name, as the host of program P4 does (95_test_vectors section 10).
`reset` is the reset event, "an event of the host agent between commands" (70_reset_and_hazards R382). -/
inductive HostOp where
  | wr (off : Nat) (v : HostVal)
  | rd (off : Nat) (bind : Option Nat)
  | halloc (k : Nat) (n : Nat)
  | hwrite (h : HostVal) (off : Nat) (bytes : List Byte)
  | hread (h : HostVal) (off : Nat) (n : Nat)
  | hfree (h : HostVal)
  | reset
  deriving DecidableEq, Repr

end Sys2Proof
end

