-- ==== Sys2Proof/Decode.lean ====
section
/-! DEFINITION. Decoding and encoding of command words (spec/30_encoding.md R120 to R125). A decoder always consumes
exactly one 32-bit word (R120); a word that is no command is rejected by name. -/

namespace Sys2Proof

/-- Why a word is no command (30_encoding R125). The engine raises IllegalCommand for each. -/
inductive DecodeReject where
  /-- a bit of [31:11] is set -/
  | reservedBits
  /-- OPC is 0x00 or above 0x0A -/
  | opcode
  /-- T is not 1..5 for OPC 0x04 or 0x05, or not 0 for another OPC -/
  | blockType
  deriving DecidableEq, Repr

/-- OPC, bits [7:0] (30_encoding R121). -/
def opcField (w : Word) : Byte := w.extractLsb' 0 8

/-- T, bits [10:8] (30_encoding R121). -/
def typeField (w : Word) : BitVec 3 := w.extractLsb' 8 3

/-- The reserved bits [31:11] (30_encoding R121). -/
def reservedField (w : Word) : BitVec 21 := w.extractLsb' 11 21

/-- The block type a T field names: 1 = DXT1 .. 5 = DXT5 (30_encoding R121). -/
def blockTypeOf (t : BitVec 3) : Option BlockType :=
  match t.toNat with
  | 1 => some .dxt1
  | 2 => some .dxt2
  | 3 => some .dxt3
  | 4 => some .dxt4
  | 5 => some .dxt5
  | _ => none

/-- OPC 0x04 with a block type (30_encoding R123). -/
def decodeBlockInstr : BlockType → Instr
  | .dxt1 => .decodeBlockDxt1
  | .dxt2 => .decodeBlockDxt2
  | .dxt3 => .decodeBlockDxt3
  | .dxt4 => .decodeBlockDxt4
  | .dxt5 => .decodeBlockDxt5

/-- OPC 0x05 with a block type (30_encoding R123). -/
def encodeBlockInstr : BlockType → Instr
  | .dxt1 => .encodeBlockDxt1
  | .dxt2 => .encodeBlockDxt2
  | .dxt3 => .encodeBlockDxt3
  | .dxt4 => .encodeBlockDxt4
  | .dxt5 => .encodeBlockDxt5

/-- The commands whose T field is 0, by OPC (30_encoding R123). -/
def plainInstr (opc : Byte) : Option Instr :=
  match opc.toNat with
  | 0x01 => some .resolveIndex
  | 0x02 => some .fetchColor
  | 0x03 => some .storeColor
  | 0x06 => some .alphaScan
  | 0x07 => some .convert
  | 0x08 => some .negotiate
  | 0x09 => some .negotiateAndConvert
  | 0x0A => some .release
  | _ => none

/-- Decoding of a command word, in the order of checks of 30_encoding R124. -/
def decode (w : Word) : Except DecodeReject Instr :=
  if reservedField w ≠ 0 then .error .reservedBits
  else if opcField w = 0x04 then
    match blockTypeOf (typeField w) with
    | some t => .ok (decodeBlockInstr t)
    | none => .error .blockType
  else if opcField w = 0x05 then
    match blockTypeOf (typeField w) with
    | some t => .ok (encodeBlockInstr t)
    | none => .error .blockType
  else
    match plainInstr (opcField w) with
    | none => .error .opcode
    | some i => if typeField w = 0 then .ok i else .error .blockType

/-- The OPC of a command (30_encoding R123); STATUS.OPC records it. -/
def Instr.opc : Instr → Byte
  | .resolveIndex => 0x01
  | .fetchColor => 0x02
  | .storeColor => 0x03
  | .decodeBlockDxt1 => 0x04
  | .decodeBlockDxt2 => 0x04
  | .decodeBlockDxt3 => 0x04
  | .decodeBlockDxt4 => 0x04
  | .decodeBlockDxt5 => 0x04
  | .encodeBlockDxt1 => 0x05
  | .encodeBlockDxt2 => 0x05
  | .encodeBlockDxt3 => 0x05
  | .encodeBlockDxt4 => 0x05
  | .encodeBlockDxt5 => 0x05
  | .alphaScan => 0x06
  | .convert => 0x07
  | .negotiate => 0x08
  | .negotiateAndConvert => 0x09
  | .release => 0x0A

/-- The T field of a command (30_encoding R123). -/
def Instr.typeCode : Instr → BitVec 3
  | .decodeBlockDxt1 => 1
  | .decodeBlockDxt2 => 2
  | .decodeBlockDxt3 => 3
  | .decodeBlockDxt4 => 4
  | .decodeBlockDxt5 => 5
  | .encodeBlockDxt1 => 1
  | .encodeBlockDxt2 => 2
  | .encodeBlockDxt3 => 3
  | .encodeBlockDxt4 => 4
  | .encodeBlockDxt5 => 5
  | .resolveIndex => 0
  | .fetchColor => 0
  | .storeColor => 0
  | .alphaScan => 0
  | .convert => 0
  | .negotiate => 0
  | .negotiateAndConvert => 0
  | .release => 0

/-- The command word of a command: T in [10:8] above OPC in [7:0], zero in [31:11] (30_encoding R121). -/
def encode (i : Instr) : Word := (i.typeCode.setWidth 32 <<< 8) ||| i.opc.setWidth 32

/-- The command read from a table row's word: `nbits` bits numbered as spec/opcode_table.json numbers them; bits above
`nbits` are 0. The hardware has one 32-bit word and no byte layout for it (30_encoding R120, 10_state R32). -/
def decodeTableWord (nbits w : Nat) : Option Instr :=
  match decode (BitVec.ofNat 32 (w % 2 ^ nbits)) with
  | .ok i => some i
  | .error _ => none

end Sys2Proof
end

