-- ==== Sys2Proof/Config.lean ====
section
/-! DEFINITION. What an implementation fixes (spec/00_scope.md R11) and the free values: the raw answers of the
open oracles of spec/00_scope.md R12. None of the opaque constants has a body, so no proof can see a value of it.
Sys2Proof/Machine/Oracles.lean cuts each raw answer down to the properties R12 lets the model assume. -/

namespace Sys2Proof.Config

/-- `MAX_BUF_LEN`, the largest buffer length in bytes (00_scope R11). -/
def maxBufLen : Nat := 2 ^ 32 - 1

/-- `MAX_MIPS`, the number of mip-level register sets (00_scope R11). -/
def maxMips : Nat := 16

/-- `MAX_PAL4`, the entry limit of a 4-bit palette (00_scope R11). -/
def maxPal4 : Nat := 16

/-- `MAX_PAL8`, the entry limit of an 8-bit palette (00_scope R11). -/
def maxPal8 : Nat := 256

/-- Size of the register window in bytes (10_state R30). -/
def regWindow : Nat := 4096

/-- FREE VALUE. The raw answer of the block compressor (00_scope R12 `Compress`; log entry 5). -/
opaque compressRaw : BlockType → List Colour → List Byte

/-- FREE VALUE. The raw answer of the merge/elimination heuristic (00_scope R12 `Reduce`; log entry 5). -/
opaque reduceRaw : List Colour → Nat → List Colour

/-- FREE VALUE. The raw answer of the nearest-match policy (00_scope R12 `Nearest`; log entry 5). -/
opaque nearestRaw : List Colour → Colour → Nat

/-- FREE VALUE. The raw palette of the external quantizer (00_scope R12 `Quantize`; log entry 5). -/
opaque quantizeRaw : List Colour → Nat → List Colour

/-- FREE VALUE. The raw index map of the external quantizer (00_scope R12 `QMap`; log entry 5). -/
opaque qmapRaw : List Colour → Colour → Nat

/-- FREE VALUE. Draw number `k` of the allocator, for `n` bytes: a handle, or none for FAIL
(00_scope R12 `Alloc`; log entry 3). -/
opaque allocDraw : Nat → Nat → Option Word

/-- FREE VALUE. What a 16-bit storage-dimension field holds when the dimension stage 3 computes does not fit it
(a logical dimension of 65533..65535; log entry 6). -/
opaque wideDim : Nat → BitVec 16

end Sys2Proof.Config
end

