-- ==== Sys2Proof/Machine/State.lean ====
section
/-! DEFINITION. The state of the machine as plain data: the register file (spec/10_state.md), the buffer store
(spec/10_state.md R50, spec/20_memory.md), the host agent (spec/30_encoding.md R128 to R130), the parameter
ALPHA_RAMP_RULE (spec/00_scope.md R12); the state after reset (spec/70_reset_and_hazards.md R380); and the reasons a
step can stop. -/

namespace Sys2Proof.Machine

/-- Why a step stops with a fault. No command does: every error of the engine is written to STATUS and the machine
goes on (60_exceptions R350 to R359). -/
inductive Fault where
  /-- Raised by `step` when `hpc` is not the index of a host operation: "a program ends when hpc equals its length"
  (30_encoding R130), and the engine takes a step only when the host issues one (00_scope R5). Safe: the machine stops
  where the hardware would stay idle. -/
  | programEnded
  deriving DecidableEq, Repr

/-- Why a step has no meaning: a move the spec says the host does not have. No command is refused. -/
inductive Refusal where
  /-- Raised by an arm of `exec` for a command that has no meaning yet; no arm does. Safe. -/
  | notModelled (mnemonic : String)
  /-- Raised by the host operations `wr` and `rd` at an offset that is misaligned or outside the window: such an access
  "is outside the block's interface, and the model gives the host no such move" (20_memory R101). Safe. -/
  | registerAccessOutsideInterface
  /-- Raised by `hwrite`, `hread` and `hfree` when the check of 20_memory R93 fails: "the host gets no move that fails
  the check" (20_memory R109). Safe. -/
  | bufferMoveOutsideBounds
  /-- Raised by a host operation that uses a name hK no earlier line has bound (30_encoding R128). Safe. -/
  | unboundHandleName
  deriving DecidableEq, Repr

/-- The four registers of one mip level: MIP_BUF, MIP_SDIM, MIP_LDIM, MIP_SIZE (10_state R48). -/
structure MipRegs where
  buf : Word
  sdim : Word
  ldim : Word
  size : Word
  deriving DecidableEq, Repr

/-- The registers of an unused mip level: all 0. -/
def MipRegs.zero : MipRegs := ⟨0, 0, 0, 0⟩

/-- One live buffer: its handle, its length and the bytes that are not 0, sorted by offset. A byte not listed reads 0,
as Alloc's zero fill leaves it (20_memory R91). -/
structure Buffer where
  handle : Word
  len : Nat
  cells : List Host.Cell
  deriving DecidableEq, Repr

/-- The buffer store: "a finite map from live handles (non-zero 32-bit values) to byte strings" (10_state R50), as the
list of live buffers sorted by handle. -/
structure Memory where
  bufs : List Buffer
  deriving DecidableEq, Repr

/-- The buffer store together with the Alloc oracle's state, which is the model's own: the answers already known, and
how many answers have been drawn from the free value `Config.allocDraw` (00_scope R12; log entry 3). -/
structure Heap where
  mem : Memory
  answers : List (Option Word)
  draws : Nat
  deriving DecidableEq, Repr

/-- What one host operation gave the host (30_encoding R128). -/
inductive Observation where
  /-- `rd REG` read this value -/
  | value (w : Word)
  /-- `hread` read these bytes -/
  | bytes (bs : List Byte)
  /-- `halloc` received this handle -/
  | handle (h : Word)
  /-- `halloc` received FAIL -/
  | allocFailed
  deriving DecidableEq, Repr

/-- The host agent: its program, the position `hpc` in it (00_scope R19), the handles its names hK are bound to, and
what it has observed, newest first. -/
structure HostAgent where
  program : List HostOp
  hpc : Nat
  names : List (Nat × Word)
  observed : List Observation
  deriving DecidableEq, Repr

/-- The state. CMD holds no state (10_state R32), so it has no field. -/
structure State where
  /-- STATUS (10_state R33) -/
  status : Word
  /-- CAPS (10_state R34) -/
  caps : Word
  /-- PZ_CFG (10_state R35) -/
  pzCfg : Word
  /-- ARG0..ARG7 (10_state R36) -/
  args : Vector Word 8
  /-- RES0..RES3 (10_state R37) -/
  res : Vector Word 4
  /-- TB0..TB15 (10_state R38) -/
  tb : Vector Word 16
  /-- IMG_FMT (10_state R43) -/
  imgFmt : Word
  /-- IMG_FLAGS (10_state R44) -/
  imgFlags : Word
  /-- PAL_BUF (10_state R45) -/
  palBuf : Word
  /-- PAL_COUNT (10_state R46) -/
  palCount : Word
  /-- MIP_COUNT (10_state R47) -/
  mipCount : Word
  /-- TGT_FMT (10_state R49) -/
  tgtFmt : Word
  /-- MIP_BUF[i], MIP_SDIM[i], MIP_LDIM[i], MIP_SIZE[i] (10_state R48) -/
  mips : Vector MipRegs 16
  /-- the buffer store (10_state R50) and the allocator's answers -/
  heap : Heap
  /-- the host agent (00_scope R5, R19) -/
  host : HostAgent
  /-- ALPHA_RAMP_RULE, a parameter and not a register (00_scope R12, 70_reset_and_hazards R381); no step changes it -/
  alphaRampRule : AlphaRampRule
  deriving DecidableEq, Repr

/-- The state after reset (70_reset_and_hazards R380): every register 0, the buffer store empty, hpc 0. The host
program is empty: a program is loaded from outside the machine (log entry 1). -/
def State.reset : State where
  status := 0
  caps := 0
  pzCfg := 0
  args := Vector.replicate 8 0
  res := Vector.replicate 4 0
  tb := Vector.replicate 16 0
  imgFmt := 0
  imgFlags := 0
  palBuf := 0
  palCount := 0
  mipCount := 0
  tgtFmt := 0
  mips := Vector.replicate 16 MipRegs.zero
  heap := ⟨⟨[]⟩, [], 0⟩
  host := ⟨[], 0, [], []⟩
  alphaRampRule := .canonical

end Sys2Proof.Machine
end

