-- ==== Sys2Proof/Machine/Flags.lean ====
section
/-! DEFINITION. Bit fields of registers, the error codes of STATUS.ERR (spec/60_exceptions.md R350), and every flag
and status computation: the STATUS word (spec/10_state.md R33, spec/60_exceptions.md R352), the IMG_FLAGS bits
(spec/10_state.md R44), the CAPS bits (R34), PZ_CFG.STRATEGY (R35) and the COUNT fields (R46, R47). -/

namespace Sys2Proof.Machine

/-- `v[lo+n-1 : lo]`, the unsigned value of n bits of a register from bit lo up (00_scope R13). -/
def bits (v : Word) (lo n : Nat) : Nat := (v.extractLsb' lo n).toNat

/-- Bit i of a register (00_scope R13). -/
def bit (v : Word) (i : Nat) : Bool := v.getLsbD i

/-- The register with bit i written and every other bit unchanged: `REG.FIELD <- v` for a one-bit field (00_scope R14). -/
def withBit (v : Word) (i : Nat) (b : Bool) : Word :=
  if b then v ||| BitVec.twoPow 32 i else v &&& ~~~ BitVec.twoPow 32 i

/-- The errors a command can raise (60_exceptions R350). -/
inductive ErrCode where
  | formatError
  | corruptDataError
  | allocationError
  | illegalCommand
  | ownershipError
  | boundsError
  deriving DecidableEq, Repr

/-- The value of STATUS.ERR for an error (60_exceptions R350). -/
def ErrCode.num : ErrCode → Nat
  | .formatError => 1
  | .corruptDataError => 2
  | .allocationError => 3
  | .illegalCommand => 4
  | .ownershipError => 5
  | .boundsError => 6

/-- A raised error with its info, "the stage and the mip level" (00_scope R16). -/
structure Raise where
  code : ErrCode
  stage : Nat
  mip : Option Nat
  deriving DecidableEq, Repr

/-- The fields ERR, STAGE and MIP as STATUS reports them (60_exceptions R352): all 0 on success; on an error MIP is 31
when the info names no level. -/
def errFields : Option Raise → Nat × Nat × Nat
  | none => (0, 0, 0)
  | some e => (e.code.num, e.stage, e.mip.getD 31)

/-- The whole STATUS word, laid out as 10_state R33, from bit 31 down: reserved, MIP, STAGE, OPC, reserved, TRUNCATED,
CHANGED, ERR. -/
def statusWord (opc : Byte) (err : Option Raise) (changed truncated : Bool) : Word :=
  (0 : BitVec 7) ++ BitVec.ofNat 5 (errFields err).2.2 ++ BitVec.ofNat 4 (errFields err).2.1 ++ opc ++ (0 : BitVec 2)
    ++ BitVec.ofBool truncated ++ BitVec.ofBool changed ++ BitVec.ofNat 4 (errFields err).1

/-- STATUS.ERR (10_state R33). -/
def State.errField (s : State) : Nat := bits s.status 0 4
/-- STATUS.CHANGED (10_state R33). -/
def State.changedFlag (s : State) : Bool := bit s.status 4
/-- STATUS.TRUNCATED (10_state R33). -/
def State.truncatedFlag (s : State) : Bool := bit s.status 5
/-- STATUS.OPC (10_state R33). -/
def State.opcReported (s : State) : Nat := bits s.status 8 8
/-- STATUS.STAGE (10_state R33). -/
def State.stageField (s : State) : Nat := bits s.status 16 4
/-- STATUS.MIP (10_state R33). -/
def State.mipField (s : State) : Nat := bits s.status 20 5

/-- IMG_FLAGS.HAS_ALPHA (10_state R44). -/
def State.hasAlpha (s : State) : Bool := bit s.imgFlags 0
/-- IMG_FLAGS.IS_STANDALONE (10_state R44). -/
def State.isStandalone (s : State) : Bool := bit s.imgFlags 1
/-- IMG_FLAGS.ACQUIRED (10_state R44). -/
def State.acquired (s : State) : Bool := bit s.imgFlags 2
/-- PZ_CFG.STRATEGY: false is linear elimination, true the external quantizer (10_state R35). -/
def State.strategy (s : State) : Bool := bit s.pzCfg 0
/-- PAL_COUNT.COUNT (10_state R46). -/
def State.palEntries (s : State) : Nat := bits s.palCount 0 9
/-- MIP_COUNT.COUNT (10_state R47). -/
def State.levels (s : State) : Nat := bits s.mipCount 0 5

/-- `IMG_FLAGS.HAS_ALPHA <- b` (42_conversion_engine R276, R284). -/
def State.setHasAlpha (s : State) (b : Bool) : State := { s with imgFlags := withBit s.imgFlags 0 b }

/-- `IMG_FLAGS.ACQUIRED <- 0` (42_conversion_engine R285). -/
def State.clearAcquired (s : State) : State := { s with imgFlags := withBit s.imgFlags 2 false }

end Sys2Proof.Machine
end

