-- ==== Sys2Proof/Machine/Ops.lean ====
section
/-! DEFINITION. The named operations over memory and registers: the buffer store (spec/20_memory.md), Alloc and Free,
the register window (spec/10_state.md R30, R31), the updates of registers, and the ONE operation that raises an error
(spec/60_exceptions.md R352, R353, R358). There is no return from an error: STATUS keeps its value until the next
command overwrites it (R359). -/

namespace Sys2Proof.Machine

/-! ### The cells of one buffer -/

/-- The byte at offset k: the listed one, or the 0 of the zero fill (20_memory R91). -/
def readCell : List Host.Cell → Nat → Byte
  | [], _ => 0
  | (a, b) :: t, k => if a = k then b else readCell t k

/-- The cells with a byte that is not 0 put at offset k, in order. -/
def insertCell : List Host.Cell → Nat → Byte → List Host.Cell
  | [], k, v => [(k, v)]
  | (a, b) :: t, k, v =>
    if k < a then (k, v) :: (a, b) :: t
    else if k = a then (k, v) :: t
    else (a, b) :: insertCell t k v

/-- The cells with byte v at offset k; writing 0, which an unlisted offset reads as, removes the entry. -/
def writeCell (cells : List Host.Cell) (k : Nat) (v : Byte) : List Host.Cell :=
  if v = 0 then cells.filter (fun c => decide (c.1 ≠ k)) else insertCell cells k v

/-- The cells after bytes are written from offset k up. -/
def writeCells : List Host.Cell → Nat → List Byte → List Host.Cell
  | cells, _, [] => cells
  | cells, k, v :: vs => writeCells (writeCell cells k v) (k + 1) vs

/-- The n bytes from offset k up. -/
def readCells (cells : List Host.Cell) (k n : Nat) : List Byte :=
  (List.range n).map (fun i => readCell cells (k + i))

/-! ### The buffer store -/

/-- The buffer a handle names, if it is live (20_memory R90). -/
def Memory.find (m : Memory) (h : Word) : Option Buffer := m.bufs.find? (fun b => decide (b.handle = h))

/-- `h ∈ Live` (10_state R50). -/
def Memory.live (m : Memory) (h : Word) : Bool := (m.find h).isSome

/-- `Len(h)`, of a live buffer (00_scope R15). -/
def Memory.len? (m : Memory) (h : Word) : Option Nat := (m.find h).map Buffer.len

/-- `h ∈ Live and off + n ≤ Len(h)`, the check every access makes first (20_memory R93). -/
def Memory.inBounds (m : Memory) (h : Word) (off n : Nat) : Bool :=
  match m.find h with
  | some b => decide (off + n ≤ b.len)
  | none => false

/-- The byte at address (h, off), where that address exists: h live and off < Len(h) (20_memory R90). -/
def Memory.byte? (m : Memory) (h : Word) (off : Nat) : Option Byte :=
  match m.find h with
  | some b => if off < b.len then some (readCell b.cells off) else none
  | none => none

/-- A byte list as one little-endian unsigned integer, `Σ byte[i] << (8·i)` (00_scope R15). -/
def leValue : List Byte → Nat
  | [] => 0
  | b :: bs => b.toNat + 2 ^ 8 * leValue bs

/-- The n bytes `(v >> (8·i)) & 0xFF`, i < n (00_scope R15). -/
def leBytes : Nat → Nat → List Byte
  | 0, _ => []
  | n + 1, v => BitVec.ofNat 8 v :: leBytes n (v / 2 ^ 8)

/-- The n bytes at (h, off), or none where the check of 20_memory R93 fails. -/
def Memory.readBytes (m : Memory) (h : Word) (off n : Nat) : Option (List Byte) :=
  match m.find h with
  | some b => if off + n ≤ b.len then some (readCells b.cells off n) else none
  | none => none

/-- A buffer with bytes written from an offset up. -/
def Buffer.write (b : Buffer) (off : Nat) (bs : List Byte) : Buffer := { b with cells := writeCells b.cells off bs }

/-- The store with bytes written at (h, off), with no check. -/
def Memory.put (m : Memory) (h : Word) (off : Nat) (bs : List Byte) : Memory :=
  ⟨m.bufs.map (fun b => if b.handle = h then b.write off bs else b)⟩

/-- The store with bytes written at (h, off), or none where the check of 20_memory R93 fails. -/
def Memory.writeBytes (m : Memory) (h : Word) (off : Nat) (bs : List Byte) : Option Memory :=
  if m.inBounds h off bs.length then some (m.put h off bs) else none

/-- `MemRead(h, off, n)`; none is the BoundsError of 20_memory R93 (00_scope R15). -/
def Memory.read (m : Memory) (h : Word) (off n : Nat) : Option Nat := (m.readBytes h off n).map leValue

/-- `MemWrite(h, off, n, v)`; none is the BoundsError of 20_memory R93 (00_scope R15). -/
def Memory.write (m : Memory) (h : Word) (off n v : Nat) : Option Memory := m.writeBytes h off (leBytes n v)

/-- The list of buffers with one more, in order of handles. -/
def insertBuffer : List Buffer → Buffer → List Buffer
  | [], b => [b]
  | c :: t, b => if b.handle.toNat < c.handle.toNat then b :: c :: t else c :: insertBuffer t b

/-- The store with a new buffer of n zero bytes (20_memory R91). -/
def Memory.insert (m : Memory) (h : Word) (n : Nat) : Memory := ⟨insertBuffer m.bufs ⟨h, n, []⟩⟩

/-- `Free(h)`: "removes h from Live and discards its bytes" (20_memory R92). -/
def Memory.free (m : Memory) (h : Word) : Memory := ⟨m.bufs.filter (fun b => decide (b.handle ≠ h))⟩

/-- `Free(h)` for every handle of a list, in order. -/
def Memory.freeAll (m : Memory) : List Word → Memory
  | [] => m
  | h :: hs => (m.free h).freeAll hs

/-! ### The canonical form -/

/-- Offsets strictly rising from `lo`, below `n`, and no byte 0, which an unlisted offset reads as. -/
def cellsWf (n : Nat) : Nat → List Host.Cell → Bool
  | _, [] => true
  | lo, (a, b) :: t => decide (lo ≤ a) && decide (a < n) && decide (b ≠ 0) && cellsWf n (a + 1) t

/-- A buffer in canonical form, no longer than MAX_BUF_LEN (20_memory R90). -/
def Buffer.wf (b : Buffer) : Bool := decide (b.len ≤ Config.maxBufLen) && cellsWf b.len 0 b.cells

/-- Handles strictly rising from `lo`, each buffer in canonical form. -/
def bufsWf : Nat → List Buffer → Bool
  | _, [] => true
  | lo, b :: t => decide (lo ≤ b.handle.toNat) && b.wf && bufsWf (b.handle.toNat + 1) t

/-- The canonical form of the store: handles strictly rising and not 0 ("handle 0 is never live", 20_memory R102),
every buffer in canonical form. -/
def Memory.wf (m : Memory) : Bool := bufsWf 1 m.bufs

/-! ### Alloc and Free on the state -/

/-- The buffer store of a state. -/
def State.mem (s : State) : Memory := s.heap.mem

/-- The state with another buffer store. -/
def State.setMem (s : State) (m : Memory) : State := { s with heap := { s.heap with mem := m } }

/-- The next answer of the Alloc oracle for n bytes: one already known, or a draw of the free value (log entry 3). -/
def Heap.answer (hp : Heap) (n : Nat) : Option Word × Heap :=
  match hp.answers with
  | a :: rest => (a, { hp with answers := rest })
  | [] => (Config.allocDraw hp.draws n, { hp with draws := hp.draws + 1 })

/-- The answer h of the oracle is one Alloc may give for n bytes: "a handle it returns is non-zero and not live"
(00_scope R12), and no buffer is longer than MAX_BUF_LEN (20_memory R90). -/
def Memory.admits (m : Memory) (h : Word) (n : Nat) : Bool :=
  decide (h ≠ 0) && !m.live h && decide (n ≤ Config.maxBufLen)

/-- `Alloc(n)`: a handle whose new buffer is n zero bytes, or FAIL (20_memory R91). An answer R12 does not admit counts
as FAIL (log entry 3). -/
def State.alloc (s : State) (n : Nat) : State × Option Word :=
  match s.heap.answer n with
  | (some h, hp) =>
    if s.mem.admits h n then ({ s with heap := { hp with mem := s.mem.insert h n } }, some h)
    else ({ s with heap := hp }, none)
  | (none, hp) => ({ s with heap := hp }, none)

/-- `Free(h)` for every handle of a list. -/
def State.freeAll (s : State) (hs : List Word) : State := s.setMem (s.mem.freeAll hs)

/-! ### Register updates -/

/-- `RES0 <- v`. -/
def State.setRes0 (s : State) (v : Word) : State := { s with res := s.res.set 0 v }
/-- `RES1 <- v`. -/
def State.setRes1 (s : State) (v : Word) : State := { s with res := s.res.set 1 v }
/-- All sixteen texel-block registers written. -/
def State.setTb (s : State) (v : Vector Word 16) : State := { s with tb := v }
/-- `IMG_FMT <- v`. -/
def State.setImgFmt (s : State) (v : Word) : State := { s with imgFmt := v }
/-- `TGT_FMT <- v`. -/
def State.setTgtFmt (s : State) (v : Word) : State := { s with tgtFmt := v }
/-- `PAL_BUF <- h; PAL_COUNT <- n`. -/
def State.setPalette (s : State) (h : Word) (n : Word) : State := { s with palBuf := h, palCount := n }
/-- `MIP_COUNT <- n`. -/
def State.setMipCount (s : State) (n : Word) : State := { s with mipCount := n }
/-- Every mip-level register written. -/
def State.setMips (s : State) (v : Vector MipRegs 16) : State := { s with mips := v }
/-- STATUS written. -/
def State.setStatus (s : State) (v : Word) : State := { s with status := v }
/-- `hpc <- hpc + 1`: what every host operation does to the host's position (30_encoding R130). -/
def State.advance (s : State) : State := { s with host := { s.host with hpc := s.host.hpc + 1 } }

/-- A mip-level register file from its levels. -/
def mipsOf (f : Nat → MipRegs) : Vector MipRegs 16 :=
  #v[f 0, f 1, f 2, f 3, f 4, f 5, f 6, f 7, f 8, f 9, f 10, f 11, f 12, f 13, f 14, f 15]

/-- A texel-block register file from its texels. -/
def tbOf (f : Nat → Word) : Vector Word 16 :=
  #v[f 0, f 1, f 2, f 3, f 4, f 5, f 6, f 7, f 8, f 9, f 10, f 11, f 12, f 13, f 14, f 15]

/-- The registers of mip level i (10_state R48). -/
def State.mip (s : State) (i : Nat) : MipRegs := s.mips[i]?.getD MipRegs.zero

/-- Texel-block register TB[t] (10_state R38). -/
def State.tbReg (s : State) (t : Nat) : Word := s.tb[t]?.getD 0

/-! ### The end of a command -/

/-- RAISING AN ERROR: the one operation every error of every command goes through. It writes the whole of STATUS and
nothing else: no register is saved, no mode changes, no control is transferred, and "the host's hpc advances as after
any command" (60_exceptions R352, R358). -/
def State.raiseError (s : State) (opc : Byte) (e : Raise) (truncated : Bool) : State :=
  (s.setStatus (statusWord opc (some e) false truncated)).advance

/-- A command that succeeded: STATUS with ERR = 0, and hpc + 1 (60_exceptions R352, 30_encoding R130). -/
def State.complete (s : State) (opc : Byte) (changed truncated : Bool) : State :=
  (s.setStatus (statusWord opc none changed truncated)).advance

/-- The end of a command other than CONVERT and NEGOTIATE_AND_CONVERT: CHANGED and TRUNCATED are 0 (60_exceptions R352),
and an error leaves every other register and every buffer as they were (R353). -/
def State.finish (s : State) (opc : Byte) : Except Raise State → State
  | .ok t => t.complete opc false false
  | .error e => s.raiseError opc e false

/-! ### The register window -/

/-- The registers of the window (10_state R31). -/
inductive Reg where
  | cmd | status | caps | pzCfg
  | arg (i : Fin 8)
  | res (i : Fin 4)
  | tb (i : Fin 16)
  | imgFmt | imgFlags | palBuf | palCount | mipCount | tgtFmt
  | mipBuf (i : Fin 16)
  | mipSdim (i : Fin 16)
  | mipLdim (i : Fin 16)
  | mipSize (i : Fin 16)
  deriving DecidableEq, Repr

/-- The register at a 4-aligned offset of the window; none at a reserved offset (10_state R31). -/
def regAt (off : Nat) : Option Reg :=
  if off < 0x10 then
    match off / 4 with
    | 0 => some .cmd
    | 1 => some .status
    | 2 => some .caps
    | _ => some .pzCfg
  else if off < 0x30 then some (.arg (Fin.ofNat 8 ((off - 0x10) / 4)))
  else if off < 0x40 then some (.res (Fin.ofNat 4 ((off - 0x30) / 4)))
  else if off < 0x80 then some (.tb (Fin.ofNat 16 ((off - 0x40) / 4)))
  else if off < 0x98 then
    match (off - 0x80) / 4 with
    | 0 => some .imgFmt
    | 1 => some .imgFlags
    | 2 => some .palBuf
    | 3 => some .palCount
    | 4 => some .mipCount
    | _ => some .tgtFmt
  else if off < 0x100 then none
  else if off < 0x200 then
    match (off - 0x100) % 16 / 4 with
    | 0 => some (.mipBuf (Fin.ofNat 16 ((off - 0x100) / 16)))
    | 1 => some (.mipSdim (Fin.ofNat 16 ((off - 0x100) / 16)))
    | 2 => some (.mipLdim (Fin.ofNat 16 ((off - 0x100) / 16)))
    | _ => some (.mipSize (Fin.ofNat 16 ((off - 0x100) / 16)))
  else none

/-- The defined bits of a register; the others are reserved (10_state R33 to R49). -/
def Reg.defined : Reg → Word
  | .cmd => 0
  | .status => 0x01FFFF3F
  | .caps => 0x3F
  | .pzCfg => 0x1
  | .arg _ => 0xFFFFFFFF
  | .res _ => 0xFFFFFFFF
  | .tb _ => 0xFFFFFFFF
  | .imgFmt => 0x07FFFFFF
  | .imgFlags => 0x7
  | .palBuf => 0xFFFFFFFF
  | .palCount => 0x1FF
  | .mipCount => 0x1F
  | .tgtFmt => 0x07FFFFFF
  | .mipBuf _ => 0xFFFFFFFF
  | .mipSdim _ => 0xFFFFFFFF
  | .mipLdim _ => 0xFFFFFFFF
  | .mipSize _ => 0xFFFFFFFF

/-- What a register holds. CMD holds no state and reads 0 (10_state R30, R32). -/
def State.reg (s : State) : Reg → Word
  | .cmd => 0
  | .status => s.status
  | .caps => s.caps
  | .pzCfg => s.pzCfg
  | .arg i => s.args[i]
  | .res i => s.res[i]
  | .tb i => s.tb[i]
  | .imgFmt => s.imgFmt
  | .imgFlags => s.imgFlags
  | .palBuf => s.palBuf
  | .palCount => s.palCount
  | .mipCount => s.mipCount
  | .tgtFmt => s.tgtFmt
  | .mipBuf i => s.mips[i].buf
  | .mipSdim i => s.mips[i].sdim
  | .mipLdim i => s.mips[i].ldim
  | .mipSize i => s.mips[i].size

/-- A host read of a register: "reserved bits of an RW register read as 0", "a host read of a reserved offset returns 0",
"a host read of the write-only CMD register returns 0" (10_state R30). -/
def State.readReg (s : State) (off : Nat) : Word :=
  match regAt off with
  | some r => s.reg r &&& r.defined
  | none => 0

/-- A register written with a value whose reserved bits are already dropped. STATUS and RES are read-only, and CMD holds
no state (10_state R30, R31). -/
def State.setReg (s : State) (r : Reg) (v : Word) : State :=
  match r with
  | .cmd => s
  | .status => s
  | .res _ => s
  | .caps => { s with caps := v }
  | .pzCfg => { s with pzCfg := v }
  | .arg i => { s with args := s.args.set i v }
  | .tb i => { s with tb := s.tb.set i v }
  | .imgFmt => { s with imgFmt := v }
  | .imgFlags => { s with imgFlags := v }
  | .palBuf => { s with palBuf := v }
  | .palCount => { s with palCount := v }
  | .mipCount => { s with mipCount := v }
  | .tgtFmt => { s with tgtFmt := v }
  | .mipBuf i => { s with mips := s.mips.set i { s.mips[i] with buf := v } }
  | .mipSdim i => { s with mips := s.mips.set i { s.mips[i] with sdim := v } }
  | .mipLdim i => { s with mips := s.mips.set i { s.mips[i] with ldim := v } }
  | .mipSize i => { s with mips := s.mips.set i { s.mips[i] with size := v } }

/-- A host write of a register other than CMD: writes to reserved bits, reserved offsets and read-only registers are
ignored, and a defined field keeps any value written (10_state R30). -/
def State.writeReg (s : State) (off : Nat) (v : Word) : State :=
  match regAt off with
  | some r => s.setReg r (v &&& r.defined)
  | none => s

end Sys2Proof.Machine
end

