-- ==== Sys2Proof/Machine/Format.lean ====
section
/-! DEFINITION. Format descriptors: the descriptor word (spec/10_state.md R40, spec/30_encoding.md R127), the raster
formats with their depths and palette-entry depths (R42), well-formedness (R53), and dimension words (R48). -/

namespace Sys2Proof.Machine

/-- A format descriptor `(raster, depth, rowAlign, order, palMode, comp)` (00_scope R18), each field as its code in the
descriptor word. Two descriptors are identical when all six fields are equal. -/
structure Desc where
  raster : BitVec 4
  depth : BitVec 8
  rowAlign : BitVec 8
  order : BitVec 2
  palMode : BitVec 2
  comp : BitVec 3
  deriving DecidableEq, Repr

/-- The descriptor a register holds (10_state R40). -/
def Desc.ofWord (w : Word) : Desc where
  raster := w.extractLsb' 0 4
  depth := w.extractLsb' 4 8
  rowAlign := w.extractLsb' 12 8
  order := w.extractLsb' 20 2
  palMode := w.extractLsb' 22 2
  comp := w.extractLsb' 24 3

/-- `desc(raster, depth, rowAlign, order, palMode, comp)`, the descriptor word (30_encoding R127). -/
def Desc.toWord (D : Desc) : Word :=
  D.raster.setWidth 32 ||| (D.depth.setWidth 32 <<< 4) ||| (D.rowAlign.setWidth 32 <<< 12)
    ||| (D.order.setWidth 32 <<< 20) ||| (D.palMode.setWidth 32 <<< 22) ||| (D.comp.setWidth 32 <<< 24)

/-- The raster formats (00_scope R3). -/
inductive Raster where
  | default | r1555 | r565 | r4444 | lum | r8888 | r888 | r555 | lumAlpha
  deriving DecidableEq, Repr

/-- The raster format of a RASTER code; none for the reserved codes 9..15 (10_state R40). -/
def rasterOf (c : BitVec 4) : Option Raster :=
  match c.toNat with
  | 0 => some .default
  | 1 => some .r1555
  | 2 => some .r565
  | 3 => some .r4444
  | 4 => some .lum
  | 5 => some .r8888
  | 6 => some .r888
  | 7 => some .r555
  | 8 => some .lumAlpha
  | _ => none

/-- The RASTER code of a raster format (10_state R40). -/
def Raster.code : Raster → BitVec 4
  | .default => 0
  | .r1555 => 1
  | .r565 => 2
  | .r4444 => 3
  | .lum => 4
  | .r8888 => 5
  | .r888 => 6
  | .r555 => 7
  | .lumAlpha => 8

/-- The raster format of a descriptor. Reserved codes have none; they count as DEFAULT, which has no pixel layout
(10_state R42), and WF refuses both before any texel is touched. -/
def Desc.rasterF (D : Desc) : Raster := (rasterOf D.raster).getD .default

/-- The colour orders (00_scope R3). -/
inductive Order where
  | rgba | bgra | abgr
  deriving DecidableEq, Repr

/-- The colour order of an ORDER code; code 3 is reserved (10_state R40), refused by WF, and counts as RGBA here. -/
def Desc.orderF (D : Desc) : Order :=
  match D.order.toNat with
  | 1 => .bgra
  | 2 => .abgr
  | _ => .rgba

/-- PALMODE codes (10_state R40). -/
def palNone : BitVec 2 := 0
/-- PAL4 (10_state R40). -/
def pal4 : BitVec 2 := 1
/-- PAL8 (10_state R40). -/
def pal8 : BitVec 2 := 2

/-- The block type of a COMP code: none for NONE and for the reserved codes 6 and 7 (10_state R40). -/
def compType (c : BitVec 3) : Option BlockType :=
  match c.toNat with
  | 1 => some .dxt1
  | 2 => some .dxt2
  | 3 => some .dxt3
  | 4 => some .dxt4
  | 5 => some .dxt5
  | _ => none

/-- `D.comp = NONE`. -/
def Desc.isRaw (D : Desc) : Bool := decide (D.comp = 0)

/-- COMP 6 or 7, the reserved codes (10_state R40). -/
def Desc.reservedComp (D : Desc) : Bool := decide (D.comp = 6) || decide (D.comp = 7)

/-- The depths allowed for a direct texel (10_state R42). -/
def depthSet : Raster → List Nat
  | .default => []
  | .r1555 => [16]
  | .r565 => [16]
  | .r4444 => [16]
  | .lum => [8]
  | .r8888 => [32]
  | .r888 => [24, 32]
  | .r555 => [16]
  | .lumAlpha => [16]

/-- `EntryDepth`, the depth of a palette entry (10_state R42). DEFAULT has none; it is 0 here, and no rule reads it. -/
def entryDepth : Raster → Nat
  | .default => 0
  | .r1555 => 16
  | .r565 => 16
  | .r4444 => 16
  | .lum => 8
  | .r8888 => 32
  | .r888 => 32
  | .r555 => 16
  | .lumAlpha => 16

/-- Bytes of one palette entry (20_memory R97). -/
def Desc.entryBytes (D : Desc) : Nat := entryDepth D.rasterF / 8

/-- The formats WF refuses in ABGR order (10_state R53). -/
def refusesAbgr : Raster → Bool
  | .default => false
  | .r1555 => true
  | .r565 => true
  | .r4444 => false
  | .lum => false
  | .r8888 => false
  | .r888 => true
  | .r555 => true
  | .lumAlpha => false

/-- The checks direct and indexed descriptors share: RASTER in 1..8, ROWALIGN ≥ 1, ORDER in 0..2, and no ABGR with
1555, 565, 555 or 888 (10_state R53). -/
def Desc.pixelsOk (D : Desc) : Bool :=
  (match rasterOf D.raster with
    | none => false
    | some .default => false
    | some f => !(decide (D.order = 2) && refusesAbgr f))
  && decide (D.rowAlign ≠ 0) && decide (D.order ≠ 3)

/-- `WF(D)` (10_state R53). -/
def Desc.wf (D : Desc) : Bool :=
  if D.comp = 0 then
    if D.palMode = palNone then D.pixelsOk && (depthSet D.rasterF).contains D.depth.toNat
    else if D.palMode = pal4 then D.pixelsOk && (decide (D.depth = 4) || decide (D.depth = 8))
    else if D.palMode = pal8 then D.pixelsOk && decide (D.depth = 8)
    else false
  else !D.reservedComp && decide (D.palMode = palNone) && decide (D.order ≠ 3)

/-- `MaxEntries(PAL4) = 16`, `MaxEntries(PAL8) = 256` (10_state R54). -/
def maxEntries (palMode : BitVec 2) : Nat := if palMode = pal4 then Config.maxPal4 else Config.maxPal8

/-- `BlockBytes` (41_block_codec R200). -/
def blockBytes : BlockType → Nat
  | .dxt1 => 8
  | .dxt2 => 16
  | .dxt3 => 16
  | .dxt4 => 16
  | .dxt5 => 16

/-- Width of a dimension word, bits [15:0] (10_state R48). -/
def dimW (w : Word) : Nat := bits w 0 16
/-- Height of a dimension word, bits [31:16] (10_state R48). -/
def dimH (w : Word) : Nat := bits w 16 16

/-- A 16-bit dimension field. A dimension that does not fit, for which the spec states no value, is a free value
(log entry 6). -/
def dimField (v : Nat) : BitVec 16 := if v < 2 ^ 16 then BitVec.ofNat 16 v else Config.wideDim v

/-- A dimension word from width and height (10_state R48). -/
def dimWord (w h : Nat) : Word := dimField h ++ dimField w

/-- `roundup(v, a)` (00_scope R13). -/
def roundup (v a : Nat) : Nat := (v + a - 1) / a * a

/-- `RowBytes(w, d)` (20_memory R95). -/
def rowBytes (w d : Nat) : Nat := (w * d + 7) / 8

/-- `Pitch(w, d, a)` (20_memory R95). -/
def pitch (w d a : Nat) : Nat := roundup (rowBytes w d) a

/-- `RawSize(w, h, d, a)` (20_memory R95). -/
def rawSize (w h d a : Nat) : Nat := pitch w d a * h

/-- Pitch of a row of w texels in a descriptor's layout. -/
def Desc.pitch (D : Desc) (w : Nat) : Nat := Machine.pitch w D.depth.toNat D.rowAlign.toNat

/-- Byte size of a raw level in a descriptor's layout. -/
def Desc.rawSize (D : Desc) (w h : Nat) : Nat := Machine.rawSize w h D.depth.toNat D.rowAlign.toNat

/-- The descriptor of IMG_FMT. -/
def State.imgDesc (s : State) : Desc := Desc.ofWord s.imgFmt
/-- The descriptor of TGT_FMT. -/
def State.tgtDesc (s : State) : Desc := Desc.ofWord s.tgtFmt

/-- IMG_FMT names an indexed image: palMode is PAL4 or PAL8 (10_state R57). -/
def Desc.isIndexed (D : Desc) : Bool := decide (D.palMode = pal4) || decide (D.palMode = pal8)

end Sys2Proof.Machine
end

