-- ==== Sys2Proof/Machine/ColorModel.lean ====
section
/-! DEFINITION. The colour model (spec/40_color_model.md sections 1 and 2): channel rescaling, slots, and decoding and
encoding of a direct item; and the register form of a colour (spec/00_scope.md R17). -/

namespace Sys2Proof.Machine

/-- `pack(c) = c.r | (c.g << 8) | (c.b << 16) | (c.a << 24)` (00_scope R17). -/
def packColour (c : Colour) : Word := c.a ++ c.b ++ c.g ++ c.r

/-- `unpack`, the inverse of pack (00_scope R17). -/
def unpackColour (w : Word) : Colour :=
  ⟨w.extractLsb' 0 8, w.extractLsb' 8 8, w.extractLsb' 16 8, w.extractLsb' 24 8⟩

/-- `Expand(v, w)`, the fetch rescale (40_color_model R150). -/
def expand (v w : Nat) : Nat := v * 255 / (2 ^ w - 1)

/-- `Narrow(c, w)`, the store rescale (40_color_model R151). -/
def narrow (c w : Nat) : Nat := c * (2 ^ w - 1) / 255

/-- Channel roles (40_color_model R153). -/
inductive Role where
  | r | g | b | a
  deriving DecidableEq, Repr

/-- `Seq(order)`: the channel roles from the low bits up (40_color_model R153). -/
def orderSeq : Order → List Role
  | .rgba => [.r, .g, .b, .a]
  | .bgra => [.b, .g, .r, .a]
  | .abgr => [.a, .b, .g, .r]

/-- `Roles(f)`: the width of each role a raster format has (40_color_model R154). LUM and LUM_ALPHA have no slots, and
DEFAULT has no layout. -/
def roleWidth : Raster → Role → Option Nat
  | .r1555, .r => some 5
  | .r1555, .g => some 5
  | .r1555, .b => some 5
  | .r1555, .a => some 1
  | .r565, .r => some 5
  | .r565, .g => some 6
  | .r565, .b => some 5
  | .r565, .a => none
  | .r4444, _ => some 4
  | .r8888, _ => some 8
  | .r888, .a => none
  | .r888, _ => some 8
  | .r555, .a => none
  | .r555, _ => some 5
  | .lum, _ => none
  | .lumAlpha, _ => none
  | .default, _ => none

/-- `Slots(f, o)` (40_color_model R155). -/
def slots (f : Raster) (o : Order) : List (Role × Nat) :=
  (orderSeq o).filterMap (fun role => (roleWidth f role).map (fun w => (role, w)))

/-- The channel of a colour. -/
def channel (c : Colour) : Role → Byte
  | .r => c.r
  | .g => c.g
  | .b => c.b
  | .a => c.a

/-- A colour with one channel replaced. -/
def withChannel (c : Colour) (role : Role) (v : Byte) : Colour :=
  match role with
  | .r => { c with r := v }
  | .g => { c with g := v }
  | .b => { c with b := v }
  | .a => { c with a := v }

/-- The loop of DecodeDirect over slots from bit p up (40_color_model R156). -/
def decodeSlots (word : Nat) : List (Role × Nat) → Nat → Colour → Colour
  | [], _, c => c
  | (role, w) :: rest, p, c =>
    decodeSlots word rest (p + w) (withChannel c role (BitVec.ofNat 8 (expand ((word >>> p) % 2 ^ w) w)))

/-- The loop of EncodeDirect over slots from bit p up (40_color_model R157). -/
def encodeSlots (c : Colour) : List (Role × Nat) → Nat → Nat → Nat
  | [], _, word => word
  | (role, w) :: rest, p, word => encodeSlots c rest (p + w) (word ||| (narrow (channel c role).toNat w <<< p))

/-- The luminance `(r + g + b) div 3` (40_color_model R157). -/
def luminance (c : Colour) : Nat := (c.r.toNat + c.g.toNat + c.b.toNat) / 3

/-- `DecodeDirect(f, o, word)` (40_color_model R156). -/
def decodeDirect (f : Raster) (o : Order) (word : Nat) : Colour :=
  match f with
  | .lum => ⟨BitVec.ofNat 8 word, BitVec.ofNat 8 word, BitVec.ofNat 8 word, 255⟩
  | .lumAlpha => ⟨BitVec.ofNat 8 word, BitVec.ofNat 8 word, BitVec.ofNat 8 word, BitVec.ofNat 8 (word >>> 8)⟩
  | _ => decodeSlots word (slots f o) 0 ⟨0, 0, 0, 255⟩

/-- `EncodeDirect(f, o, d, c)` (40_color_model R157). -/
def encodeDirect (f : Raster) (o : Order) (d : Nat) (c : Colour) : Nat :=
  match f with
  | .lum => luminance c
  | .lumAlpha => luminance c ||| (c.a.toNat <<< 8)
  | _ =>
    let word := encodeSlots c (slots f o) 0 0
    if f = .r888 ∧ d = 32 then word ||| (0xFF <<< 24) else word

end Sys2Proof.Machine
end

