-- ==== Sys2Proof/Machine/Operands.lean ====
section
/-! DEFINITION. The operand forms: raw items, palette entries and blocks in buffer space (spec/20_memory.md R95 to R98),
reading and writing an item, an index and a texel (spec/40_color_model.md R158 to R162), and the checks of the image
registers (spec/10_state.md R54 to R57). A none below is the BoundsError of spec/20_memory.md R93. -/

namespace Sys2Proof.Machine

/-! ### Items and texels -/

/-- The byte offset of the item of texel (x, y) (20_memory R96). -/
def itemOffset (D : Desc) (w x y : Nat) : Nat :=
  if D.depth = 4 then y * D.pitch w + x / 2 else y * D.pitch w + x * (D.depth.toNat / 8)

/-- The number of bytes an access to an item moves (20_memory R96, R100). -/
def itemBytes (D : Desc) : Nat := if D.depth = 4 then 1 else D.depth.toNat / 8

/-- `ReadItem(h, w, D, x, y)` (40_color_model R158). -/
def readItem (m : Memory) (h : Word) (w : Nat) (D : Desc) (x y : Nat) : Option Nat :=
  if D.depth = 4 then (m.read h (itemOffset D w x y) 1).map (fun b => (b >>> (4 * (x % 2))) &&& 0xF)
  else m.read h (itemOffset D w x y) (D.depth.toNat / 8)

/-- `ResolveIndex(D, item)` (40_color_model R159). -/
def indexOfItem (D : Desc) (item : Nat) : Nat :=
  if D.palMode = pal4 ∧ D.depth = 8 then item &&& 0x0F else item

/-- `WriteIndex(h, w, D, x, y, idx)` (40_color_model R160). -/
def writeIndex (m : Memory) (h : Word) (w : Nat) (D : Desc) (x y idx : Nat) : Option Memory :=
  if D.depth = 4 then
    match m.read h (itemOffset D w x y) 1 with
    | none => none
    | some b =>
      m.write h (itemOffset D w x y) 1
        ((b &&& (0xFF - (0xF <<< (4 * (x % 2))))) ||| ((idx &&& 0xF) <<< (4 * (x % 2))))
  else if D.palMode = pal4 then m.write h (y * D.pitch w + x) 1 (idx &&& 0x0F)
  else m.write h (y * D.pitch w + x) 1 (idx &&& 0xFF)

/-- Palette entry idx: EntryDepth bits at offset idx · eb (20_memory R97), decoded (40_color_model R161). -/
def paletteColour (m : Memory) (D : Desc) (pal : Word) (idx : Nat) : Option Colour :=
  (m.read pal (idx * D.entryBytes) D.entryBytes).map (decodeDirect D.rasterF D.orderF)

/-- `FetchTexel(D, pal, n, h, w, x, y)`: a colour and whether it was found (40_color_model R161). -/
def fetchTexel (m : Memory) (D : Desc) (pal : Word) (n : Nat) (h : Word) (w x y : Nat) : Option (Colour × Bool) :=
  match readItem m h w D x y with
  | none => none
  | some item =>
    if D.palMode = palNone then some (decodeDirect D.rasterF D.orderF item, true)
    else if n ≤ indexOfItem D item then some (Colour.none, false)
    else (paletteColour m D pal (indexOfItem D item)).map (fun c => (c, true))

/-- `StoreTexel(D, h, w, x, y, c)` (40_color_model R162). -/
def storeTexel (m : Memory) (D : Desc) (h : Word) (w x y : Nat) (c : Colour) : Option Memory :=
  m.write h (y * D.pitch w + x * (D.depth.toNat / 8)) (D.depth.toNat / 8)
    (encodeDirect D.rasterF D.orderF D.depth.toNat c)

/-- The coordinates (x, y) of a w by h level in row-major order (00_scope R19). -/
def coords (w h : Nat) : List (Nat × Nat) :=
  (List.range h).flatMap (fun y => (List.range w).map (fun x => (x, y)))

/-- A loop of memory accesses in the order of a list; none as soon as one access fails its check. -/
def forMem {α : Type} (f : Memory → α → Option Memory) : List α → Memory → Option Memory
  | [], m => some m
  | a :: rest, m =>
    match f m a with
    | none => none
    | some m' => forMem f rest m'

/-- A search over a list that stops at the first true, and at the first access that fails its check. -/
def anyMem {α : Type} (f : α → Option Bool) : List α → Option Bool
  | [] => some false
  | a :: rest =>
    match f a with
    | none => none
    | some true => some true
    | some false => anyMem f rest

/-- The colours of a level in row-major order. -/
def levelColours (m : Memory) (D : Desc) (pal : Word) (n : Nat) (h : Word) (w : Nat) :
    List (Nat × Nat) → Option (List Colour)
  | [] => some []
  | (x, y) :: rest =>
    match fetchTexel m D pal n h w x y with
    | none => none
    | some (c, _) => (levelColours m D pal n h w rest).map (fun cs => c :: cs)

/-! ### The image registers -/

/-- Logical width of level i (10_state R48). -/
def State.lw (s : State) (i : Nat) : Nat := dimW (s.mip i).ldim
/-- Logical height of level i (10_state R48). -/
def State.lh (s : State) (i : Nat) : Nat := dimH (s.mip i).ldim
/-- Storage width of level i (10_state R48). -/
def State.sw (s : State) (i : Nat) : Nat := dimW (s.mip i).sdim
/-- Storage height of level i (10_state R48). -/
def State.sh (s : State) (i : Nat) : Nat := dimH (s.mip i).sdim

/-- `FetchTexel(S, PAL_BUF, PAL_COUNT.COUNT, MIP_BUF[i], lw, x, y)` of level i of the image registers. -/
def State.fetchLevel (s : State) (i x y : Nat) : Option (Colour × Bool) :=
  fetchTexel s.mem s.imgDesc s.palBuf s.palEntries (s.mip i).buf (s.lw i) x y

/-- The buffer h is live and holds at least n bytes. -/
def Memory.holds (m : Memory) (h : Word) (n : Nat) : Bool := m.inBounds h 0 n

/-- `CheckHeader()` (10_state R54). -/
def checkHeader (s : State) : Except Raise Unit :=
  if s.levels = 0 ∨ 16 < s.levels then .error ⟨.formatError, 0, none⟩
  else if s.imgDesc.reservedComp then .error ⟨.corruptDataError, 0, none⟩
  else if !s.imgDesc.wf then .error ⟨.formatError, 0, none⟩
  else if s.imgDesc.palMode = palNone then .ok ()
  else if maxEntries s.imgDesc.palMode < s.palEntries then .error ⟨.formatError, 0, none⟩
  else if s.mem.holds s.palBuf (s.palEntries * s.imgDesc.entryBytes) then .ok ()
  else .error ⟨.corruptDataError, 0, none⟩

/-- `CheckRawMip(i)` (10_state R55). -/
def checkRawMip (s : State) (i : Nat) : Except Raise Unit :=
  if s.lw i = 0 ∨ s.lh i = 0 then .error ⟨.formatError, 0, some i⟩
  else if s.sw i ≠ s.lw i ∨ s.sh i ≠ s.lh i then .error ⟨.formatError, 0, some i⟩
  else if (s.mip i).size.toNat ≠ s.imgDesc.rawSize (s.lw i) (s.lh i) then .error ⟨.corruptDataError, 0, some i⟩
  else if s.mem.holds (s.mip i).buf (s.mip i).size.toNat then .ok ()
  else .error ⟨.corruptDataError, 0, some i⟩

/-- `CheckBlockMip(i, st)` for an image of block type t (10_state R56). -/
def checkBlockMip (s : State) (t : BlockType) (i st : Nat) : Except Raise Unit :=
  if s.lw i = 0 ∨ s.lh i = 0 ∨ s.sw i % 4 ≠ 0 ∨ s.sh i % 4 ≠ 0 ∨ s.sw i < s.lw i ∨ s.sh i < s.lh i then
    .error ⟨.corruptDataError, st, some i⟩
  else if (s.mip i).size.toNat ≠ s.sw i / 4 * (s.sh i / 4) * blockBytes t then .error ⟨.corruptDataError, st, some i⟩
  else if s.mem.holds (s.mip i).buf (s.mip i).size.toNat then .ok ()
  else .error ⟨.corruptDataError, st, some i⟩

/-- A check on each of a list of levels, in order; the first that fails raises. -/
def checkEach (f : Nat → Except Raise Unit) : List Nat → Except Raise Unit
  | [] => .ok ()
  | i :: rest =>
    match f i with
    | .error e => .error e
    | .ok () => checkEach f rest

/-- The handles MIP_BUF[0..MIP_COUNT-1]. -/
def State.mipHandles (s : State) : List Word := (List.range s.levels).map (fun i => (s.mip i).buf)

/-- The non-zero handles the image registers name: PAL_BUF when the image is indexed, and MIP_BUF[0..MIP_COUNT-1]
(10_state R57, 42_conversion_engine R285). -/
def State.imageHandles (s : State) : List Word :=
  ((if s.imgDesc.isIndexed then [s.palBuf] else []) ++ s.mipHandles).filter (fun h => decide (h ≠ 0))

/-- `CheckDistinct()` (10_state R57). -/
def checkDistinct (s : State) : Except Raise Unit :=
  if s.imageHandles.Nodup then .ok () else .error ⟨.formatError, 0, none⟩

end Sys2Proof.Machine
end

