-- ==== Sys2Proof/Machine/BlockCodec.lean ====
section
/-! DEFINITION. The DXT block decoder (spec/41_block_codec.md R200 to R208, R216), bit-exact. The bit positions inside a
block rest on passages the spec itself marks as general knowledge (spec/93_implementation_defined.md G1 to G5;
log entry 9). -/

namespace Sys2Proof.Machine

/-- Byte i of a block. -/
def blockByte (B : List Byte) (i : Nat) : Nat := (B.getD i 0).toNat

/-- The n bytes of a block from byte o up as a little-endian value (41_block_codec R201 to R203). -/
def blockField (B : List Byte) (o n : Nat) : Nat := leValue ((List.range n).map (fun i => B.getD (o + i) 0))

/-- `expand565(c)` as three 8-bit values (r, g, b): R in [15:11], G in [10:5], B in [4:0] (41_block_codec R204, R205). -/
def expand565 (c : Nat) : Nat × Nat × Nat :=
  (expand (c / 2 ^ 11 % 2 ^ 5) 5, expand (c / 2 ^ 5 % 2 ^ 6) 6, expand (c % 2 ^ 5) 5)

/-- A colour from three 8-bit values and an alpha. -/
def opaqueColour (p : Nat × Nat × Nat) : Colour :=
  ⟨BitVec.ofNat 8 p.1, BitVec.ofNat 8 p.2.1, BitVec.ofNat 8 p.2.2, 255⟩

/-- `(i·C0 + j·C1) div n`, per channel, truncating (41_block_codec R206). -/
def mix565 (i j n : Nat) (p q : Nat × Nat × Nat) : Nat × Nat × Nat :=
  ((i * p.1 + j * q.1) / n, (i * p.2.1 + j * q.2.1) / n, (i * p.2.2 + j * q.2.2) / n)

/-- Entry `sel` of the colour palette P; the four-colour branch when col0 > col1 or the type is not DXT1
(41_block_codec R206). -/
def paletteEntry (t : BlockType) (col0 col1 : Nat) (sel : Nat) : Colour :=
  if col1 < col0 ∨ t ≠ .dxt1 then
    match sel with
    | 0 => opaqueColour (expand565 col0)
    | 1 => opaqueColour (expand565 col1)
    | 2 => opaqueColour (mix565 2 1 3 (expand565 col0) (expand565 col1))
    | _ => opaqueColour (mix565 1 2 3 (expand565 col0) (expand565 col1))
  else
    match sel with
    | 0 => opaqueColour (expand565 col0)
    | 1 => opaqueColour (expand565 col1)
    | 2 => opaqueColour (mix565 1 1 2 (expand565 col0) (expand565 col1))
    | _ => Colour.none

/-- The byte of a block at which its colour block stands (41_block_codec R200). -/
def colourOffset : BlockType → Nat
  | .dxt1 => 0
  | .dxt2 => 8
  | .dxt3 => 8
  | .dxt4 => 8
  | .dxt5 => 8

/-- `colour(t)`: the palette entry `sel(t) = (idx >> (2·t)) & 3` of the colour block at byte o (41_block_codec R201, R206). -/
def blockColour (ty : BlockType) (B : List Byte) (o t : Nat) : Colour :=
  paletteEntry ty (blockField B o 2) (blockField B (o + 2) 2) ((blockField B (o + 4) 4 >>> (2 * t)) % 4)

/-- `alpha(t)` of the explicit alpha plane (41_block_codec R202). -/
def explicitAlpha (B : List Byte) (t : Nat) : Nat := ((blockField B 0 8 >>> (4 * t)) % 16) * 17

/-- `Ramp7(a0, a1)`, entry i (41_block_codec R207). -/
def ramp7 (a0 a1 i : Nat) : Nat :=
  match i with
  | 0 => a0
  | 1 => a1
  | _ => ((8 - i) * a0 + (i - 1) * a1) / 7

/-- `Ramp5(a0, a1)`, entry i (41_block_codec R207). -/
def ramp5 (a0 a1 i : Nat) : Nat :=
  match i with
  | 0 => a0
  | 1 => a1
  | 6 => 0
  | 7 => 255
  | _ => ((6 - i) * a0 + (i - 1) * a1) / 5

/-- `AlphaRamp(type, a0, a1)`, entry i, under ALPHA_RAMP_RULE (41_block_codec R216). -/
def alphaRamp (rule : AlphaRampRule) (a0 a1 i : Nat) : Nat :=
  match rule with
  | .canonical => if a1 < a0 then ramp7 a0 a1 i else ramp5 a0 a1 i
  | .orderSwapped => if a1 < a0 then ramp5 a0 a1 i else ramp7 a0 a1 i

/-- The alpha of texel t of an interpolated alpha plane, `AlphaRamp(type, B[0], B[1])[code(t)]` (41_block_codec R203, R208). -/
def rampAlpha (rule : AlphaRampRule) (B : List Byte) (t : Nat) : Nat :=
  alphaRamp rule (blockByte B 0) (blockByte B 1) ((blockField B 2 6 >>> (3 * t)) % 8)

/-- Texel t of `DecodeBlock(type, B)` (41_block_codec R208). DXT2 decodes as DXT3, and DXT4 as DXT5. -/
def decodeTexel (rule : AlphaRampRule) (ty : BlockType) (B : List Byte) (t : Nat) : Colour :=
  match ty with
  | .dxt1 => blockColour .dxt1 B 0 t
  | .dxt2 => { blockColour .dxt2 B 8 t with a := BitVec.ofNat 8 (explicitAlpha B t) }
  | .dxt3 => { blockColour .dxt3 B 8 t with a := BitVec.ofNat 8 (explicitAlpha B t) }
  | .dxt4 => { blockColour .dxt4 B 8 t with a := BitVec.ofNat 8 (rampAlpha rule B t) }
  | .dxt5 => { blockColour .dxt5 B 8 t with a := BitVec.ofNat 8 (rampAlpha rule B t) }

/-- `DecodeBlock(type, B)`: the 16 colours G[0..15] (41_block_codec R208). -/
def decodeBlock (rule : AlphaRampRule) (ty : BlockType) (B : List Byte) : List Colour :=
  (List.range 16).map (decodeTexel rule ty B)

/-- The byte offset of block (bx, by) of a compressed level of storage width sw (20_memory R98). -/
def blockOffset (ty : BlockType) (sw bx bY : Nat) : Nat := (bY * (sw / 4) + bx) * blockBytes ty

/-- The bytes of block (bx, by) of a compressed level (41_block_codec R211). -/
def readBlock (m : Memory) (h : Word) (ty : BlockType) (sw bx bY : Nat) : Option (List Byte) :=
  m.readBytes h (blockOffset ty sw bx bY) (blockBytes ty)

end Sys2Proof.Machine
end

