-- ==== Sys2Proof/Machine/Texel.lean ====
section
/-! DEFINITION. The texel commands RESOLVE_INDEX, FETCH_COLOR and STORE_COLOR (spec/40_color_model.md R163 to R165). -/

namespace Sys2Proof.Machine

/-- The texel a texel command addresses: its level's buffer, logical width, and coordinates. -/
structure TexelRef where
  level : Nat
  buf : Word
  lw : Nat
  x : Nat
  y : Nat
  deriving DecidableEq, Repr

/-- The checks of the texel commands in the order R354 gives: CheckHeader, the kind of image, m, CheckRawMip, x and y
(40_color_model R163 to R165). `kindOk` says which descriptors the command takes. -/
def texelOperand (kindOk : Desc → Bool) (s : State) : Except Raise TexelRef :=
  match checkHeader s with
  | .error e => .error e
  | .ok () =>
    if !kindOk s.imgDesc then .error ⟨.formatError, 0, none⟩
    else if s.levels ≤ s.args[0].toNat then .error ⟨.boundsError, 0, none⟩
    else
      match checkRawMip s s.args[0].toNat with
      | .error e => .error e
      | .ok () =>
        if s.lw s.args[0].toNat ≤ s.args[1].toNat ∨ s.lh s.args[0].toNat ≤ s.args[2].toNat then
          .error ⟨.boundsError, 0, some s.args[0].toNat⟩
        else
          .ok ⟨s.args[0].toNat, (s.mip s.args[0].toNat).buf, s.lw s.args[0].toNat, s.args[1].toNat, s.args[2].toNat⟩

/-- A memory access of a command on level i, or the BoundsError of 20_memory R93. -/
def access {α : Type} (stage : Nat) (mip : Option Nat) : Option α → Except Raise α
  | some a => .ok a
  | none => .error ⟨.boundsError, stage, mip⟩

/-- Kinds the texel commands take: RESOLVE_INDEX an indexed image. -/
def kindIndexed (S : Desc) : Bool := S.isRaw && decide (S.palMode ≠ palNone)
/-- FETCH_COLOR a raw image, direct or indexed. -/
def kindRaw (S : Desc) : Bool := S.isRaw
/-- STORE_COLOR a direct image. -/
def kindDirect (S : Desc) : Bool := S.isRaw && decide (S.palMode = palNone)

/-- RESOLVE_INDEX: `RES0 <- zext_32(ResolveIndex(S, item))` (40_color_model R163). -/
def resolveIndex (s : State) : Except Raise State :=
  match texelOperand kindIndexed s with
  | .error e => .error e
  | .ok t =>
    match access 0 (some t.level) (readItem s.mem t.buf t.lw s.imgDesc t.x t.y) with
    | .error e => .error e
    | .ok item => .ok (s.setRes0 (BitVec.ofNat 32 (indexOfItem s.imgDesc item)))

/-- FETCH_COLOR: `RES0 <- pack(c)`, `RES1 <- (found ? 1 : 0)` (40_color_model R164). -/
def fetchColor (s : State) : Except Raise State :=
  match texelOperand kindRaw s with
  | .error e => .error e
  | .ok t =>
    match access 0 (some t.level) (fetchTexel s.mem s.imgDesc s.palBuf s.palEntries t.buf t.lw t.x t.y) with
    | .error e => .error e
    | .ok (c, found) => .ok ((s.setRes0 (packColour c)).setRes1 (if found then 1 else 0))

/-- STORE_COLOR: StoreTexel of `unpack(ARG3)`; HAS_ALPHA is not updated (40_color_model R165). -/
def storeColor (s : State) : Except Raise State :=
  match texelOperand kindDirect s with
  | .error e => .error e
  | .ok t =>
    match access 0 (some t.level) (storeTexel s.mem s.imgDesc t.buf t.lw t.x t.y (unpackColour s.args[3])) with
    | .error e => .error e
    | .ok m => .ok (s.setMem m)

/-- The meaning of RESOLVE_INDEX (40_color_model R163). -/
def execResolveIndex (s : State) : Host.Outcome State Fault Refusal := .next (s.finish 0x01 (resolveIndex s))

/-- The meaning of FETCH_COLOR (40_color_model R164). -/
def execFetchColor (s : State) : Host.Outcome State Fault Refusal := .next (s.finish 0x02 (fetchColor s))

/-- The meaning of STORE_COLOR (40_color_model R165). -/
def execStoreColor (s : State) : Host.Outcome State Fault Refusal := .next (s.finish 0x03 (storeColor s))

end Sys2Proof.Machine
end

