-- ==== Sys2Proof/Machine/AlphaScan.lean ====
section
/-! DEFINITION. The alpha scan and the ALPHA_SCAN command (spec/42_conversion_engine.md R275, R284). -/

namespace Sys2Proof.Machine

/-- A search over mip levels that stops at the first level that answers true. An access that fails its check raises
BoundsError with the level (20_memory R93). -/
def scanLevels (stage : Nat) (f : Nat → Option Bool) : List Nat → Except Raise Bool
  | [] => .ok false
  | i :: rest =>
    match f i with
    | none => .error ⟨.boundsError, stage, some i⟩
    | some true => .ok true
    | some false => scanLevels stage f rest

/-- Some texel of block (bx, by) of level i inside the logical dimensions has alpha other than 255. -/
def blockHasAlpha (s : State) (ty : BlockType) (i : Nat) (b : Nat × Nat) : Option Bool :=
  (readBlock s.mem (s.mip i).buf ty (s.sw i) b.1 b.2).map (fun B =>
    (List.range 16).any (fun t =>
      decide (4 * b.1 + t % 4 < s.lw i) && decide (4 * b.2 + t / 4 < s.lh i)
        && decide ((decodeTexel s.alphaRampRule ty B t).a ≠ 255)))

/-- Some texel of direct level i has alpha other than 255. -/
def levelHasAlpha (s : State) (i : Nat) : Option Bool :=
  anyMem (fun p => (s.fetchLevel i p.1 p.2).map (fun cf => decide (cf.1.a ≠ 255))) (coords (s.lw i) (s.lh i))

/-- The palette indices texels of level i use, out-of-range ones left out (42_conversion_engine R275). -/
def levelUses (s : State) (i : Nat) : List (Nat × Nat) → Option (List Nat)
  | [] => some []
  | (x, y) :: rest =>
    match readItem s.mem (s.mip i).buf (s.lw i) s.imgDesc x y with
    | none => none
    | some item =>
      (levelUses s i rest).map (fun used =>
        if indexOfItem s.imgDesc item < s.palEntries then indexOfItem s.imgDesc item :: used else used)

/-- The usage set over a list of levels (42_conversion_engine R275). -/
def usedIndices (stage : Nat) (s : State) : List Nat → Except Raise (List Nat)
  | [] => .ok []
  | i :: rest =>
    match levelUses s i (coords (s.lw i) (s.lh i)) with
    | none => .error ⟨.boundsError, stage, some i⟩
    | some u => (usedIndices stage s rest).map (fun us => u ++ us)

/-- Some palette entry in the usage set has alpha other than 255; entries are met in ascending order. -/
def paletteHasAlpha (s : State) (used : List Nat) : Option Bool :=
  anyMem (fun idx => (paletteColour s.mem s.imgDesc s.palBuf idx).map (fun c => decide (c.a ≠ 255)))
    ((List.range s.palEntries).filter (fun idx => used.contains idx))

/-- `AlphaScan()` (42_conversion_engine R275); `stage` is what a failing access reports. -/
def alphaScan (stage : Nat) (s : State) : Except Raise Bool :=
  match compType s.imgDesc.comp with
  | some ty =>
    scanLevels stage (fun i => anyMem (blockHasAlpha s ty i) (coords (s.sw i / 4) (s.sh i / 4))) (List.range s.levels)
  | none =>
    if s.imgDesc.palMode = palNone then scanLevels stage (levelHasAlpha s) (List.range s.levels)
    else
      match usedIndices stage s (List.range s.levels) with
      | .error e => .error e
      | .ok used => access stage none (paletteHasAlpha s used)

/-- The level check of ALPHA_SCAN: CheckRawMip of a raw image, CheckBlockMip of a compressed one (42_conversion_engine R284). -/
def checkLevel (s : State) (i : Nat) : Except Raise Unit :=
  match compType s.imgDesc.comp with
  | some ty => checkBlockMip s ty i 0
  | none => checkRawMip s i

/-- The checks of ALPHA_SCAN: CheckHeader and then each level (42_conversion_engine R284). -/
def checkImage (s : State) : Except Raise Unit :=
  match checkHeader s with
  | .error e => .error e
  | .ok () => checkEach (checkLevel s) (List.range s.levels)

/-- ALPHA_SCAN: `RES0 <- (a ? 1 : 0)`, `HAS_ALPHA <- (a ? 1 : 0)` (42_conversion_engine R284). -/
def alphaScanCommand (s : State) : Except Raise State :=
  match checkImage s with
  | .error e => .error e
  | .ok () =>
    match alphaScan 0 s with
    | .error e => .error e
    | .ok a => .ok ((s.setRes0 (if a then 1 else 0)).setHasAlpha a)

/-- The meaning of ALPHA_SCAN (42_conversion_engine R284). -/
def execAlphaScan (s : State) : Host.Outcome State Fault Refusal := .next (s.finish 0x06 (alphaScanCommand s))

end Sys2Proof.Machine
end

