-- ==== Sys2Proof/Machine/Oracles.lean ====
section
/-! DEFINITION. The open oracles of spec/00_scope.md R12 with exactly the properties R12 lets the model assume. Each is a
free value of Sys2Proof/Config.lean, cut down where its raw answer lacks a property; so every function with the properties
arises from some raw answer, and no other function does (log entry 5). -/

namespace Sys2Proof.Machine

/-- A byte string of length n: cut, or filled with zeros (property P1 of `Compress`). -/
def fitLength (n : Nat) (bs : List Byte) : List Byte := (bs ++ List.replicate n 0).take n

/-- The w-bit value that Expand takes to an 8-bit value, if there is one. -/
def unexpand (v w : Nat) : Option Nat := (List.range (2 ^ w)).find? (fun u => decide (expand u w = v))

/-- A 16-bit c with `(r, g, b) = expand565(c)`, if there is one (00_scope R12 P2). -/
def unexpand565 (r g b : Nat) : Option Nat :=
  match unexpand r 5, unexpand g 6, unexpand b 5 with
  | some x, some y, some z => some (x * 2 ^ 11 + y * 2 ^ 5 + z)
  | _, _, _ => none

/-- The 16-bit c for which every texel of the grid is `(expand565(c), 255)`, if there is one: the case property P2 of
`Compress` speaks of (00_scope R12). -/
def uniform565 (grid : List Colour) : Option Nat :=
  match grid with
  | [] => none
  | g :: _ =>
    if grid.all (fun c => decide (c = g)) && decide (g.a = 255) then unexpand565 g.r.toNat g.g.toNat g.b.toNat
    else none

/-- The alpha plane of a block whose every alpha is 255. -/
def solidAlpha : BlockType → List Byte
  | .dxt1 => []
  | .dxt2 => [255, 255, 255, 255, 255, 255, 255, 255]
  | .dxt3 => [255, 255, 255, 255, 255, 255, 255, 255]
  | .dxt4 => [255, 255, 0, 0, 0, 0, 0, 0]
  | .dxt5 => [255, 255, 0, 0, 0, 0, 0, 0]

/-- A block of one opaque colour c: alpha plane all 255, both endpoints c, every code 0. It stands where the raw
compressor's answer lacks property P2. -/
def solidBlock (ty : BlockType) (c : Nat) : List Byte :=
  solidAlpha ty ++ leBytes 2 c ++ leBytes 2 c ++ [0, 0, 0, 0]

/-- `Compress(type, grid)` with properties P1 and P2 (00_scope R12). -/
def compress (rule : AlphaRampRule) (ty : BlockType) (grid : List Colour) : List Byte :=
  match uniform565 grid with
  | none => fitLength (blockBytes ty) (Config.compressRaw ty grid)
  | some c =>
    if decodeBlock rule ty (fitLength (blockBytes ty) (Config.compressRaw ty grid)) = grid then
      fitLength (blockBytes ty) (Config.compressRaw ty grid)
    else solidBlock ty c

/-- A list with `1 ≤ length ≤ N`, for N ≥ 1: cut to N, or the missing colour alone where it is empty. -/
def atMost (n : Nat) (colours : List Colour) : List Colour :=
  match colours.take n with
  | [] => [Colour.none]
  | c :: cs => c :: cs

/-- `Reduce(colors, N)`, with 1 ≤ length ≤ N (00_scope R12). -/
def reduceColours (colours : List Colour) (n : Nat) : List Colour := atMost n (Config.reduceRaw colours n)

/-- `Quantize(seed, N)`, with 1 ≤ length ≤ N (00_scope R12). -/
def quantize (seed : List Colour) (n : Nat) : List Colour := atMost n (Config.quantizeRaw seed n)

/-- `Nearest(palette, c)`, with 0 ≤ index < length(palette) for a non-empty palette (00_scope R12). -/
def nearest (palette : List Colour) (c : Colour) : Nat := Config.nearestRaw palette c % palette.length

/-- `QMap(palette, c)`, with 0 ≤ index < length(palette) for a non-empty palette (00_scope R12). -/
def quantizerIndex (palette : List Colour) (c : Colour) : Nat := Config.qmapRaw palette c % palette.length

end Sys2Proof.Machine
end

