-- ==== Sys2Proof/Machine/Block.lean ====
section
/-! DEFINITION. The block commands DECODE_BLOCK and ENCODE_BLOCK, one meaning per block type
(spec/41_block_codec.md R220, R221). -/

namespace Sys2Proof.Machine

/-- DECODE_BLOCK T: the block at (ARG0, ARG1) decoded into TB0..TB15 (41_block_codec R220). -/
def decodeBlockAt (ty : BlockType) (s : State) : Except Raise State :=
  match s.mem.readBytes s.args[0] s.args[1].toNat (blockBytes ty) with
  | none => .error ⟨.boundsError, 0, none⟩
  | some B => .ok (s.setTb (tbOf (fun t => packColour (decodeTexel s.alphaRampRule ty B t))))

/-- The grid TB0..TB15 holds (41_block_codec R221). -/
def State.tbGrid (s : State) : List Colour := (List.range 16).map (fun t => unpackColour (s.tbReg t))

/-- ENCODE_BLOCK T for T = DXT1, DXT3 or DXT5: the compressed grid written at (ARG0, ARG1) (41_block_codec R221). -/
def encodeBlockAt (ty : BlockType) (s : State) : Except Raise State :=
  if s.mem.inBounds s.args[0] s.args[1].toNat (blockBytes ty) then
    .ok (s.setMem (s.mem.put s.args[0] s.args[1].toNat (compress s.alphaRampRule ty s.tbGrid)))
  else .error ⟨.boundsError, 0, none⟩

/-- ENCODE_BLOCK T for T = DXT2 or DXT4: "types 2/4 as **encode** targets are explicitly unsupported and must fail with
FormatError" (41_block_codec R209, R221). -/
def encodeUnsupported : Except Raise State := .error ⟨.formatError, 0, none⟩

/-- The meaning of DECODE_BLOCK DXT1 (41_block_codec R220). -/
def execDecodeBlockDxt1 (s : State) : Host.Outcome State Fault Refusal := .next (s.finish 0x04 (decodeBlockAt .dxt1 s))

/-- The meaning of DECODE_BLOCK DXT2 (41_block_codec R220). -/
def execDecodeBlockDxt2 (s : State) : Host.Outcome State Fault Refusal := .next (s.finish 0x04 (decodeBlockAt .dxt2 s))

/-- The meaning of DECODE_BLOCK DXT3 (41_block_codec R220). -/
def execDecodeBlockDxt3 (s : State) : Host.Outcome State Fault Refusal := .next (s.finish 0x04 (decodeBlockAt .dxt3 s))

/-- The meaning of DECODE_BLOCK DXT4 (41_block_codec R220). -/
def execDecodeBlockDxt4 (s : State) : Host.Outcome State Fault Refusal := .next (s.finish 0x04 (decodeBlockAt .dxt4 s))

/-- The meaning of DECODE_BLOCK DXT5 (41_block_codec R220). -/
def execDecodeBlockDxt5 (s : State) : Host.Outcome State Fault Refusal := .next (s.finish 0x04 (decodeBlockAt .dxt5 s))

/-- The meaning of ENCODE_BLOCK DXT1 (41_block_codec R221). -/
def execEncodeBlockDxt1 (s : State) : Host.Outcome State Fault Refusal := .next (s.finish 0x05 (encodeBlockAt .dxt1 s))

/-- The meaning of ENCODE_BLOCK DXT2: FormatError, before the bounds check (41_block_codec R221). -/
def execEncodeBlockDxt2 (s : State) : Host.Outcome State Fault Refusal := .next (s.finish 0x05 encodeUnsupported)

/-- The meaning of ENCODE_BLOCK DXT3 (41_block_codec R221). -/
def execEncodeBlockDxt3 (s : State) : Host.Outcome State Fault Refusal := .next (s.finish 0x05 (encodeBlockAt .dxt3 s))

/-- The meaning of ENCODE_BLOCK DXT4: FormatError, before the bounds check (41_block_codec R221). -/
def execEncodeBlockDxt4 (s : State) : Host.Outcome State Fault Refusal := .next (s.finish 0x05 encodeUnsupported)

/-- The meaning of ENCODE_BLOCK DXT5 (41_block_codec R221). -/
def execEncodeBlockDxt5 (s : State) : Host.Outcome State Fault Refusal := .next (s.finish 0x05 (encodeBlockAt .dxt5 s))

end Sys2Proof.Machine
end

