-- ==== Sys2Proof/Machine/Palettizer.lean ====
section
/-! DEFINITION. The palettizer's palette and index map, both strategies (spec/43_palettizer.md R300 to R303). Its buffers
are written in stage 2 of CONVERT (Sys2Proof/Machine/Convert.lean). -/

namespace Sys2Proof.Machine

/-- The distinct colours in first-appearance order: the list U (43_palettizer R302). -/
def distinctColours (seed : List Colour) : List Colour :=
  seed.foldl (fun U c => if c ∈ U then U else U ++ [c]) []

/-- The palette P of a seed: U as it stands or Reduce(U, N) for linear elimination (43_palettizer R302), Quantize(seed, N)
for the external quantizer (R303). -/
def buildPalette (external : Bool) (seed : List Colour) (n : Nat) : List Colour :=
  if external then quantize seed n
  else if (distinctColours seed).length ≤ n then distinctColours seed
  else reduceColours (distinctColours seed) n

/-- `Map(c)`: the lowest exact index, else Nearest, for linear elimination (43_palettizer R302); QMap for the external
quantizer (R303). -/
def mapColour (external : Bool) (palette : List Colour) (c : Colour) : Nat :=
  if external then quantizerIndex palette c
  else (palette.findIdx? (fun p => decide (p = c))).getD (nearest palette c)

end Sys2Proof.Machine
end

