-- ==== Sys2Proof/Machine/Convert.lean ====
section
/-! DEFINITION. The conversion engine: the entry checks, the three stages and the alpha rescan of CONVERT
(spec/42_conversion_engine.md R250 to R276, spec/41_block_codec.md R211 and R212, spec/43_palettizer.md R304 to R306),
the CONVERT command (R283) and RELEASE (R285). -/

namespace Sys2Proof.Machine

/-! ### Entry -/

/-- `T'`: T with RASTER := EntryFormat(T, HA) when T is indexed, and T itself otherwise (42_conversion_engine R251). -/
def rawTarget (T : Desc) (ha : Bool) : Desc :=
  if T.comp = 0 ∧ T.palMode ≠ palNone ∧ rasterOf T.raster = some .default then
    { T with raster := if ha then Raster.r8888.code else Raster.r888.code }
  else T

/-- `ValidateTarget(S, T)` (42_conversion_engine R251). -/
def targetOk (S T : Desc) (ha : Bool) : Bool :=
  !T.reservedComp && decide (T.palMode ≠ 3) &&
  (if T.comp ≠ 0 then
    decide (T.palMode = palNone) && decide (T.order ≠ 3) && !(decide (T.comp = 2) || decide (T.comp = 4))
      && decide (S.comp ≠ T.comp)
  else (rawTarget T ha).wf)

/-- The checks of CONVERT after ownership and identity, in order: CheckHeader, CheckDistinct, CheckRawMip of a raw source,
ValidateTarget (42_conversion_engine R250). -/
def entryChecks (s : State) : Except Raise Unit :=
  match checkHeader s with
  | .error e => .error e
  | .ok () =>
    match checkDistinct s with
    | .error e => .error e
    | .ok () =>
      match (if s.imgDesc.isRaw then checkEach (checkRawMip s) (List.range s.levels) else .ok ()) with
      | .error e => .error e
      | .ok () =>
        if targetOk s.imgDesc s.tgtDesc s.hasAlpha then .ok () else .error ⟨.formatError, 0, none⟩

/-! ### Stages -/

/-- What a stage leaves: the state, and the error it raised, if it did. -/
structure StageOut where
  state : State
  error : Option Raise
  deriving DecidableEq, Repr

/-- The levels of a stage, in order: allocate a buffer, fill it, go on. Where Alloc fails, or an access fails its check,
every buffer in `new` is freed and the error names stage and level (42_conversion_engine R252). -/
def allocLevels (stage : Nat) (size : Nat → Nat) (fill : State → Nat → Word → Option Memory) :
    List Nat → List Word → State → State × Except Raise (List Word)
  | [], new, s => (s, .ok new)
  | i :: rest, new, s =>
    match s.alloc (size i) with
    | (s1, none) => (s1.freeAll new, .error ⟨.allocationError, stage, some i⟩)
    | (s1, some h) =>
      match fill s1 i h with
      | none => (s1.freeAll (new ++ [h]), .error ⟨.boundsError, stage, some i⟩)
      | some m => allocLevels stage size fill rest (new ++ [h]) (s1.setMem m)

/-- The registers of the levels i < count written by f, the others kept: the commits of 42_conversion_engine R265 to R267 and
R272 write MIP_*[i] for i < count only. DESIGN CHOICE: a level past the chain so keeps what it held, which the spec leaves open
(93_implementation_defined V10, "any value"; log entry 18). -/
def State.setLevels (s : State) (count : Nat) (f : Nat → MipRegs) : State :=
  s.setMips (mipsOf (fun i => if i < count then f i else s.mip i))

/-- `Free(PAL_BUF); PAL_BUF <- 0; PAL_COUNT <- 0` when the image is indexed (42_conversion_engine R265, R272). -/
def State.dropPalette (s : State) : State :=
  if s.imgDesc.isIndexed then (s.freeAll [s.palBuf]).setPalette 0 0 else s

/-! ### Stage 1: decompress -/

/-- `desc(8888, 32, 4, BGRA, NONE, NONE)`, the fixed intermediate (42_conversion_engine R260). -/
def intermediate : Desc := ⟨Raster.r8888.code, 32, 4, 1, palNone, 0⟩

/-- `R1`, the descriptor stage 1 decodes to (42_conversion_engine R260). -/
def stage1Format (T : Desc) : Desc := if T.comp = 0 ∧ T.palMode = palNone then T else intermediate

/-- `DecodeLevel(S, i, Dst, hd)` (41_block_codec R211). -/
def decodeLevel (s : State) (ty : BlockType) (i : Nat) (Dst : Desc) (hd : Word) : Option Memory :=
  forMem (fun m b =>
    match readBlock m (s.mip i).buf ty (s.sw i) b.1 b.2 with
    | none => none
    | some B =>
      forMem (fun m' t =>
        if 4 * b.1 + t % 4 < s.lw i ∧ 4 * b.2 + t / 4 < s.lh i then
          storeTexel m' Dst hd (s.lw i) (4 * b.1 + t % 4) (4 * b.2 + t / 4) (decodeTexel s.alphaRampRule ty B t)
        else some m') (List.range 16) m)
    (coords (s.sw i / 4) (s.sh i / 4)) s.mem

/-- The levels of stage 1, in order (42_conversion_engine R261): a level that CheckBlockMip rejects aborts at level 0 and
cuts the chain at a later one; a failing Alloc aborts at any level. -/
def decodeLevels (ty : BlockType) (R1 : Desc) : List Nat → List Word → State → State × Except Raise (List Word)
  | [], new, s => (s, .ok new)
  | i :: rest, new, s =>
    match checkBlockMip s ty i 1 with
    | .error e => if i = 0 then (s.freeAll new, .error e) else (s, .ok new)
    | .ok () =>
      match s.alloc (R1.rawSize (s.lw i) (s.lh i)) with
      | (s1, none) => (s1.freeAll new, .error ⟨.allocationError, 1, some i⟩)
      | (s1, some h) =>
        match decodeLevel s1 ty i R1 h with
        | none => (s1.freeAll (new ++ [h]), .error ⟨.boundsError, 1, some i⟩)
        | some m => decodeLevels ty R1 rest (new ++ [h]) (s1.setMem m)

/-- The commit of stage 1 (42_conversion_engine R262); `keep` is the length of `new`. -/
def commitStage1 (R1 : Desc) (new : List Word) (s : State) : State :=
  (((s.freeAll s.mipHandles).setMips (mipsOf (fun i =>
      if i < new.length then
        ⟨new.getD i 0, (s.mip i).ldim, (s.mip i).ldim, BitVec.ofNat 32 (R1.rawSize (s.lw i) (s.lh i))⟩
      else MipRegs.zero))).setMipCount (BitVec.ofNat 32 new.length)).setImgFmt R1.toWord

/-- Stage 1 (42_conversion_engine R260 to R262). -/
def stage1 (s : State) (ty : BlockType) (T : Desc) : StageOut :=
  match decodeLevels ty (stage1Format T) (List.range s.levels) [] s with
  | (s1, .error e) => ⟨s1, some e⟩
  | (s1, .ok new) => ⟨commitStage1 (stage1Format T) new s1, none⟩

/-! ### Stage 2: raw reshape -/

/-- The fill of case (a): every texel fetched and stored (42_conversion_engine R265). -/
def recodeLevel (T' : Desc) (s : State) (i : Nat) (h : Word) : Option Memory :=
  forMem (fun m p =>
    match fetchTexel m s.imgDesc s.palBuf s.palEntries (s.mip i).buf (s.lw i) p.1 p.2 with
    | none => none
    | some (c, _) => storeTexel m T' h (s.lw i) p.1 p.2 c)
    (coords (s.lw i) (s.lh i)) s.mem

/-- The fill of case (b): every index read and written (42_conversion_engine R266). -/
def repackLevel (T' : Desc) (s : State) (i : Nat) (h : Word) : Option Memory :=
  forMem (fun m p =>
    match readItem m (s.mip i).buf (s.lw i) s.imgDesc p.1 p.2 with
    | none => none
    | some item => writeIndex m h (s.lw i) T' p.1 p.2 (indexOfItem s.imgDesc item))
    (coords (s.lw i) (s.lh i)) s.mem

/-- The fill of case (c): every texel fetched, mapped and written as an index (43_palettizer R306). -/
def indexLevel (T' : Desc) (palette : List Colour) (s : State) (i : Nat) (h : Word) : Option Memory :=
  forMem (fun m p =>
    match fetchTexel m s.imgDesc s.palBuf s.palEntries (s.mip i).buf (s.lw i) p.1 p.2 with
    | none => none
    | some (c, _) => writeIndex m h (s.lw i) T' p.1 p.2 (mapColour s.strategy palette c))
    (coords (s.lw i) (s.lh i)) s.mem

/-- The entries of a built palette, encoded from index j up (43_palettizer R305). -/
def writePalette (T' : Desc) (hp : Word) : List Colour → Nat → Memory → Option Memory
  | [], _, m => some m
  | c :: cs, j, m =>
    match m.write hp (j * T'.entryBytes) T'.entryBytes
        (encodeDirect T'.rasterF T'.orderF (entryDepth T'.rasterF) c) with
    | none => none
    | some m' => writePalette T' hp cs (j + 1) m'

/-- The size in bytes of level i in the layout of a raw descriptor. -/
def levelSize (T' : Desc) (s : State) (i : Nat) : Nat := T'.rawSize (s.lw i) (s.lh i)

/-- The register part of a commit of stage 2: MIP_BUF[i] and MIP_SIZE[i] for i < count, and IMG_FMT. DEDUCED: count is
MIP_COUNT as stage 1 left it (log entry 19). -/
def setReshaped (T' : Desc) (new : List Word) (s : State) : State :=
  (s.setLevels s.levels (fun i =>
    ⟨new.getD i 0, (s.mip i).sdim, (s.mip i).ldim, BitVec.ofNat 32 (levelSize T' s i)⟩)).setImgFmt T'.toWord

/-- The commit of case (a) (42_conversion_engine R265). -/
def commitRecode (T' : Desc) (new : List Word) (s : State) : State :=
  setReshaped T' new (s.freeAll s.mipHandles).dropPalette

/-- The commit of case (b): the palette is kept (42_conversion_engine R266). -/
def commitRepack (T' : Desc) (new : List Word) (s : State) : State :=
  setReshaped T' new (s.freeAll s.mipHandles)

/-- The commit of case (c): the new palette takes the place of the old (42_conversion_engine R267). -/
def commitPalettize (T' : Desc) (hp : Word) (k : Nat) (new : List Word) (s : State) : State :=
  setReshaped T' new ((s.freeAll s.mipHandles).dropPalette.setPalette hp (BitVec.ofNat 32 k))

/-- Stage 2, case (a) Recode, over the levels stage 1 left (42_conversion_engine R265; log entry 19). -/
def recode (s : State) (T' : Desc) : StageOut :=
  match allocLevels 2 (levelSize T' s) (recodeLevel T') (List.range s.levels) [] s with
  | (s1, .error e) => ⟨s1, some e⟩
  | (s1, .ok new) => ⟨commitRecode T' new s1, none⟩

/-- Stage 2, case (b) Repack, over the levels stage 1 left (42_conversion_engine R266; log entry 19). -/
def repack (s : State) (T' : Desc) : StageOut :=
  match allocLevels 2 (levelSize T' s) (repackLevel T') (List.range s.levels) [] s with
  | (s1, .error e) => ⟨s1, some e⟩
  | (s1, .ok new) => ⟨commitRepack T' new s1, none⟩

/-- The seed: the colours of mip 0 in row-major order (43_palettizer R301). -/
def paletteSeed (s : State) : Option (List Colour) :=
  levelColours s.mem s.imgDesc s.palBuf s.palEntries (s.mip 0).buf (s.lw 0) (coords (s.lw 0) (s.lh 0))

/-- The buffers of Build for a palette P: the palette buffer, then one index buffer per level; and the commit
(43_palettizer R305, R306; 42_conversion_engine R267). A palette Alloc that fails belongs to no mip. DEDUCED: the levels are
those of the current image, so count is MIP_COUNT as stage 1 left it, not as it was when the command started (log entry 19). -/
def palettizeWith (s : State) (T' : Desc) (P : List Colour) : StageOut :=
  match s.alloc (P.length * T'.entryBytes) with
  | (s1, none) => ⟨s1, some ⟨.allocationError, 2, none⟩⟩
  | (s1, some hp) =>
    match writePalette T' hp P 0 s1.mem with
    | none => ⟨s1.freeAll [hp], some ⟨.boundsError, 2, none⟩⟩
    | some m =>
      match allocLevels 2 (levelSize T' s) (indexLevel T' P) (List.range s.levels) [hp] (s1.setMem m) with
      | (s2, .error e) => ⟨s2, some e⟩
      | (s2, .ok new) => ⟨commitPalettize T' hp P.length (new.drop 1) s2, none⟩

/-- Stage 2, case (c) Palettize (42_conversion_engine R267, 43_palettizer R300). -/
def palettize (s : State) (T' : Desc) : StageOut :=
  match paletteSeed s with
  | none => ⟨s, some ⟨.boundsError, 2, some 0⟩⟩
  | some seed => palettizeWith s T' (buildPalette s.strategy seed (maxEntries T'.palMode))

/-- The condition of case (b): a palette kept, of the same entry format and order, that fits the target mode
(42_conversion_engine R264). -/
def repackApplies (s : State) (T' : Desc) : Bool :=
  decide (s.imgDesc.palMode ≠ palNone) && decide (s.imgDesc.raster = T'.raster) && decide (s.imgDesc.order = T'.order)
    && decide (s.palEntries ≤ maxEntries T'.palMode)

/-- Stage 2 (42_conversion_engine R264). -/
def stage2 (s : State) (T' : Desc) : StageOut :=
  if T'.palMode = palNone then recode s T'
  else if repackApplies s T' then repack s T'
  else palettize s T'

/-! ### Stage 3: recompress -/

/-- `Virtual(comp, alpha)` (42_conversion_engine R271). -/
def virtualRaster (ty : BlockType) (alpha : Bool) : Raster :=
  match ty with
  | .dxt1 => if alpha then .r1555 else .r565
  | .dxt2 => .r4444
  | .dxt3 => .r4444
  | .dxt4 => .r8888
  | .dxt5 => .r8888

/-- The texels of block (bx, by) of level i, edges repeated (41_block_codec R210, R212). -/
def blockCoords (s : State) (i : Nat) (b : Nat × Nat) : List (Nat × Nat) :=
  (List.range 16).map (fun t => (min (4 * b.1 + t % 4) (s.lw i - 1), min (4 * b.2 + t / 4) (s.lh i - 1)))

/-- `EncodeLevel(type, Src, i, he)` (41_block_codec R212). -/
def encodeLevel (ty : BlockType) (s : State) (i : Nat) (he : Word) : Option Memory :=
  forMem (fun m b =>
    match levelColours m s.imgDesc s.palBuf s.palEntries (s.mip i).buf (s.lw i) (blockCoords s i b) with
    | none => none
    | some G => m.writeBytes he (blockOffset ty (roundup (s.lw i) 4) b.1 b.2) (compress s.alphaRampRule ty G))
    (coords (roundup (s.lw i) 4 / 4) (roundup (s.lh i) 4 / 4)) s.mem

/-- The byte size of an encoded level (42_conversion_engine R272). -/
def encodedSize (ty : BlockType) (s : State) (i : Nat) : Nat :=
  roundup (s.lw i) 4 / 4 * (roundup (s.lh i) 4 / 4) * blockBytes ty

/-- `desc(V, EntryDepth(V), T.rowAlign, T.order, NONE, T.comp)` (42_conversion_engine R272). -/
def compressedDesc (V : Raster) (T : Desc) : Desc :=
  ⟨V.code, BitVec.ofNat 8 (entryDepth V), T.rowAlign, T.order, palNone, T.comp⟩

/-- The commit of stage 3 (42_conversion_engine R272). -/
def commitStage3 (ty : BlockType) (V : Raster) (T : Desc) (new : List Word) (s : State) : State :=
  ((s.freeAll s.mipHandles).dropPalette.setLevels s.levels (fun i =>
    ⟨new.getD i 0, dimWord (roundup (s.lw i) 4) (roundup (s.lh i) 4), (s.mip i).ldim,
      BitVec.ofNat 32 (encodedSize ty s i)⟩)).setImgFmt (compressedDesc V T).toWord

/-- Stage 3, over the levels stage 1 left (42_conversion_engine R270 to R272; log entry 19). -/
def stage3 (s : State) (ty : BlockType) (T : Desc) : StageOut :=
  match alphaScan 3 s with
  | .error e => ⟨s, some e⟩
  | .ok alpha =>
    match allocLevels 3 (encodedSize ty s) (encodeLevel ty) (List.range s.levels) [] s with
    | (s1, .error e) => ⟨s1, some e⟩
    | (s1, .ok new) => ⟨commitStage3 ty (virtualRaster ty alpha) T new s1, none⟩

/-! ### The pipeline -/

/-- What CONVERT leaves: the state, `changed`, `truncated`, and the error it raised, if it did. -/
structure ConvOut where
  state : State
  changed : Bool
  truncated : Bool
  error : Option Raise
  deriving DecidableEq, Repr

/-- Stage 1 when the source is compressed; otherwise nothing runs (42_conversion_engine R253). -/
def runStage1 (s : State) (T : Desc) : StageOut :=
  match compType s.imgDesc.comp with
  | some ty => stage1 s ty T
  | none => ⟨s, none⟩

/-- Stage 2 runs: neither side is compressed after stage 1, and the image is not yet T' (42_conversion_engine R253). -/
def reshapes (s : State) (T T' : Desc) : Bool := s.imgDesc.isRaw && T.isRaw && decide (s.imgDesc ≠ T')

/-- Stage 2 when it runs (42_conversion_engine R253). -/
def runStage2 (s : State) (T T' : Desc) : StageOut :=
  if reshapes s T T' then stage2 s T' else ⟨s, none⟩

/-- Stage 3 when the target is compressed (42_conversion_engine R253). -/
def runStage3 (s : State) (T : Desc) : StageOut :=
  match compType T.comp with
  | some ty => stage3 s ty T
  | none => ⟨s, none⟩

/-- PAL_BUF and PAL_COUNT are 0 after a conversion whose result is not indexed (10_state R45, 42_conversion_engine R280;
log entry 7). -/
def State.settlePalette (s : State) : State := if s.imgDesc.isIndexed then s else s.setPalette 0 0

/-- Stage 4 and the result, when some stage ran; otherwise nothing changed (42_conversion_engine R253, R276, R281). -/
def finishPipeline (s : State) (ran truncated : Bool) : ConvOut :=
  if ran then
    match alphaScan 4 s with
    | .error e => ⟨s, false, truncated, some e⟩
    | .ok a => ⟨(s.setHasAlpha a).settlePalette, true, truncated, none⟩
  else ⟨s, false, truncated, none⟩

/-- The pipeline of CONVERT (42_conversion_engine R253). TRUNCATED is what stage 1 left (R262, 60_exceptions R352). -/
def pipeline (s : State) (T T' : Desc) : ConvOut :=
  match runStage1 s T with
  | ⟨s1, some e⟩ => ⟨s1, false, false, some e⟩
  | ⟨s1, none⟩ =>
    match runStage2 s1 T T' with
    | ⟨s2, some e⟩ => ⟨s2, false, decide (s1.levels < s.levels), some e⟩
    | ⟨s2, none⟩ =>
      match runStage3 s2 T with
      | ⟨s3, some e⟩ => ⟨s3, false, decide (s1.levels < s.levels), some e⟩
      | ⟨s3, none⟩ =>
        finishPipeline s3 (!s.imgDesc.isRaw || reshapes s1 T T' || !T.isRaw) (decide (s1.levels < s.levels))

/-- CONVERT: ownership, identity, the entry checks, the pipeline (42_conversion_engine R250, R253). -/
def convertImage (s : State) : ConvOut :=
  if s.isStandalone = false then ⟨s, false, false, some ⟨.ownershipError, 0, none⟩⟩
  else if s.imgDesc = s.tgtDesc then ⟨s, false, false, none⟩
  else
    match entryChecks s with
    | .error e => ⟨s, false, false, some e⟩
    | .ok () => pipeline s s.tgtDesc (rawTarget s.tgtDesc s.hasAlpha)

/-- The end of CONVERT and NEGOTIATE_AND_CONVERT (60_exceptions R352, R353). -/
def ConvOut.finish (o : ConvOut) (opc : Byte) : State :=
  match o.error with
  | none => o.state.complete opc o.changed o.truncated
  | some e => o.state.raiseError opc e o.truncated

/-- The meaning of CONVERT (42_conversion_engine R283). -/
def execConvert (s : State) : Host.Outcome State Fault Refusal := .next ((convertImage s).finish 0x07)

end Sys2Proof.Machine
end

