-- ==== Sys2Proof/Machine/Negotiator.lean ====
section
/-! DEFINITION. The capability negotiator and its two commands (spec/44_negotiator.md R330 to R333). -/

namespace Sys2Proof.Machine

/-- The CAPS bit for DXTn is bit n - 1 (10_state R34, 44_negotiator R330). -/
def capsSupports (caps : Word) (ty : BlockType) : Bool :=
  match ty with
  | .dxt1 => bit caps 0
  | .dxt2 => bit caps 1
  | .dxt3 => bit caps 2
  | .dxt4 => bit caps 3
  | .dxt5 => bit caps 4

/-- The raw descriptor of a raster format at its entry depth, with a row alignment and an order (44_negotiator R330). -/
def expandedDesc (f : Raster) (rowAlign : BitVec 8) (order : BitVec 2) : Desc :=
  ⟨f.code, BitVec.ofNat 8 (entryDepth f), rowAlign, order, palNone, 0⟩

/-- ORDER kept, but ABGR replaced by BGRA for 565 and 1555 (44_negotiator R330). -/
def negotiatedOrder (order : BitVec 2) (V : Raster) : BitVec 2 :=
  if order = 2 ∧ (V = .r565 ∨ V = .r1555) then 1 else order

/-- The second half of Negotiate: a palette the capabilities do not support is dropped (44_negotiator R330). -/
def negotiatePalette (S : Desc) (caps : Word) : Except Raise Desc :=
  if S.palMode ≠ palNone ∧ bit caps 5 = false then
    match rasterOf S.raster with
    | none => .error ⟨.formatError, 0, none⟩
    | some .default => .error ⟨.formatError, 0, none⟩
    | some f => .ok (expandedDesc f S.rowAlign S.order)
  else .ok S

/-- `Negotiate(S, ha, caps)` (44_negotiator R330). -/
def negotiateDesc (S : Desc) (ha : Bool) (caps : Word) : Except Raise Desc :=
  if S.reservedComp || decide (S.palMode = 3) then .error ⟨.formatError, 0, none⟩
  else
    match compType S.comp with
    | some ty =>
      if capsSupports caps ty then negotiatePalette S caps
      else .ok (expandedDesc (virtualRaster ty ha) S.rowAlign (negotiatedOrder S.order (virtualRaster ty ha)))
    | none => negotiatePalette S caps

/-- NEGOTIATE: `TGT_FMT <- Negotiate(IMG_FMT, IMG_FLAGS.HAS_ALPHA, CAPS)` (44_negotiator R332). -/
def negotiateTarget (s : State) : Except Raise State :=
  match negotiateDesc s.imgDesc s.hasAlpha s.caps with
  | .error e => .error e
  | .ok T => .ok (s.setTgtFmt T.toWord)

/-- The meaning of NEGOTIATE (44_negotiator R332). -/
def execNegotiate (s : State) : Host.Outcome State Fault Refusal := .next (s.finish 0x08 (negotiateTarget s))

/-- NEGOTIATE_AND_CONVERT: an error of the negotiation ends the command; then CONVERT runs, and the TGT_FMT written stays
written if it fails (44_negotiator R333). -/
def negotiateAndConvert (s : State) : State :=
  match negotiateTarget s with
  | .error e => s.raiseError 0x09 e false
  | .ok t => (convertImage t).finish 0x09

/-- The meaning of NEGOTIATE_AND_CONVERT (44_negotiator R333). -/
def execNegotiateAndConvert (s : State) : Host.Outcome State Fault Refusal := .next (negotiateAndConvert s)

end Sys2Proof.Machine
end

