-- ==== Sys2Proof/Machine/Release.lean ====
section
/-! DEFINITION. RELEASE, the end of the ownership protocol (spec/42_conversion_engine.md R285). -/

namespace Sys2Proof.Machine

/-- The image registers as RELEASE leaves them: no image, ACQUIRED = 0 (42_conversion_engine R285). -/
def clearImage (s : State) : State :=
  (((s.setMipCount 0).setPalette 0 0).setMips (mipsOf (fun _ => MipRegs.zero))).clearAcquired

/-- RELEASE (42_conversion_engine R285). -/
def releaseImage (s : State) : Except Raise State :=
  if 16 < s.levels then .error ⟨.formatError, 0, none⟩
  else
    match checkDistinct s with
    | .error e => .error e
    | .ok () =>
      if s.isStandalone && !s.acquired then
        if s.imageHandles.all (fun h => s.mem.live h) then .ok (clearImage (s.freeAll s.imageHandles))
        else .error ⟨.boundsError, 0, none⟩
      else .ok (clearImage s)

/-- The meaning of RELEASE (42_conversion_engine R285). -/
def execRelease (s : State) : Host.Outcome State Fault Refusal := .next (s.finish 0x0A (releaseImage s))

end Sys2Proof.Machine
end

