-- ==== Sys2Proof/Machine/Dispatch.lean ====
section
/-! DEFINITION. The dispatch of a decoded command to its meaning: one arm per constructor of Instr
(spec/30_encoding.md R123, R124). -/

namespace Sys2Proof.Machine

def exec (i : Instr) (s : State) : Host.Outcome State Fault Refusal :=
  match i with
  | .resolveIndex => Sys2Proof.Machine.execResolveIndex s
  | .fetchColor => Sys2Proof.Machine.execFetchColor s
  | .storeColor => Sys2Proof.Machine.execStoreColor s
  | .decodeBlockDxt1 => Sys2Proof.Machine.execDecodeBlockDxt1 s
  | .decodeBlockDxt2 => Sys2Proof.Machine.execDecodeBlockDxt2 s
  | .decodeBlockDxt3 => Sys2Proof.Machine.execDecodeBlockDxt3 s
  | .decodeBlockDxt4 => Sys2Proof.Machine.execDecodeBlockDxt4 s
  | .decodeBlockDxt5 => Sys2Proof.Machine.execDecodeBlockDxt5 s
  | .encodeBlockDxt1 => Sys2Proof.Machine.execEncodeBlockDxt1 s
  | .encodeBlockDxt2 => Sys2Proof.Machine.execEncodeBlockDxt2 s
  | .encodeBlockDxt3 => Sys2Proof.Machine.execEncodeBlockDxt3 s
  | .encodeBlockDxt4 => Sys2Proof.Machine.execEncodeBlockDxt4 s
  | .encodeBlockDxt5 => Sys2Proof.Machine.execEncodeBlockDxt5 s
  | .alphaScan => Sys2Proof.Machine.execAlphaScan s
  | .convert => Sys2Proof.Machine.execConvert s
  | .negotiate => Sys2Proof.Machine.execNegotiate s
  | .negotiateAndConvert => Sys2Proof.Machine.execNegotiateAndConvert s
  | .release => Sys2Proof.Machine.execRelease s

end Sys2Proof.Machine
end

