-- ==== Sys2Proof/WellFormed.lean ====
section
/-! DEFINITION. Well-formedness of syntax: which register accesses are inside the block's interface
(spec/20_memory.md R101), and which host programs use only names they have bound (spec/30_encoding.md R128).
(Descriptors are register contents, not syntax: their WF is in Sys2Proof/Machine/Format.lean.) -/

namespace Sys2Proof

/-- Every command is well formed: it has no operand field (30_encoding R121). -/
def Instr.wf (_ : Instr) : Bool := true

/-- "Register accesses by the host are whole aligned 32-bit words" inside the 4096-byte window (20_memory R101,
10_state R30). -/
def regAccessOk (off : Nat) : Bool := decide (off % 4 = 0) && decide (off < Config.regWindow)

/-- A host operation is well formed when a register access of it is. -/
def HostOp.wf : HostOp → Bool
  | .wr off _ => regAccessOk off
  | .rd off _ => regAccessOk off
  | .halloc _ _ => true
  | .hwrite _ _ _ => true
  | .hread _ _ _ => true
  | .hfree _ => true
  | .reset => true

/-- The name a value uses is among those bound so far. -/
def HostVal.boundIn (names : List Nat) : HostVal → Bool
  | .lit _ => true
  | .name k => names.contains k

/-- The names an operation uses are bound, and the names bound after it. -/
def HostOp.scope (names : List Nat) : HostOp → Bool × List Nat
  | .wr _ v => (v.boundIn names, names)
  | .rd _ none => (true, names)
  | .rd _ (some k) => (true, k :: names)
  | .halloc k _ => (true, k :: names)
  | .hwrite h _ _ => (h.boundIn names, names)
  | .hread h _ _ => (h.boundIn names, names)
  | .hfree h => (h.boundIn names, names)
  | .reset => (true, names)

/-- A host program is well formed when each operation is, and uses only names bound by an earlier line. -/
def programWf : List Nat → List HostOp → Bool
  | _, [] => true
  | names, op :: ops => op.wf && (op.scope names).1 && programWf (op.scope names).2 ops

end Sys2Proof
end

