-- ==== Sys2Proof/Machine/HostMoves.lean ====
section
/-! DEFINITION. The host operations (spec/30_encoding.md R128, spec/20_memory.md R101, R109): register reads and writes,
the issue of a command word (spec/10_state.md R32), and the moves on buffers; and the reset event
(spec/70_reset_and_hazards.md R380 to R382). -/

namespace Sys2Proof.Machine

/-- The value a name hK is bound to. -/
def lookupName : List (Nat × Word) → Nat → Option Word
  | [], _ => none
  | (j, w) :: t, k => if j = k then some w else lookupName t k

/-- A name bound to a value, in the place of any earlier binding. -/
def bindName (names : List (Nat × Word)) (k : Nat) (w : Word) : List (Nat × Word) :=
  (k, w) :: names.filter (fun p => decide (p.1 ≠ k))

/-- A name with no binding: `halloc` received FAIL. -/
def unbindName (names : List (Nat × Word)) (k : Nat) : List (Nat × Word) := names.filter (fun p => decide (p.1 ≠ k))

/-- The value of an operand of a host operation. -/
def State.hostVal (s : State) : HostVal → Option Word
  | .lit v => some v
  | .name k => lookupName s.host.names k

/-- The host observes something. -/
def State.observe (s : State) (o : Observation) : State :=
  { s with host := { s.host with observed := o :: s.host.observed } }

/-- The host binds a name. -/
def State.bind (s : State) (k : Nat) (w : Word) : State :=
  { s with host := { s.host with names := bindName s.host.names k w } }

/-- The host binds a name if one is given. -/
def State.bindOpt (s : State) (k : Option Nat) (w : Word) : State :=
  match k with
  | some k => s.bind k w
  | none => s

/-- The host loses a name. -/
def State.unbind (s : State) (k : Nat) : State :=
  { s with host := { s.host with names := unbindName s.host.names k } }

/-- IllegalCommand: "changes no state other than STATUS, and it writes STATUS.OPC = w[7:0]" (30_encoding R124). -/
def illegalCommand (w : Word) (s : State) : State := s.raiseError (opcField w) ⟨.illegalCommand, 0, none⟩ false

/-- A write of w to CMD: the command w encodes is decoded and executed as one atomic step (10_state R32, 30_encoding R124). -/
def issue (w : Word) (s : State) : Host.Outcome State Fault Refusal :=
  match decode w with
  | .ok i => exec i s
  | .error _ => .next (illegalCommand w s)

/-- `wr REG, v` (30_encoding R128). -/
def hostWrite (off : Nat) (v : Word) (s : State) : Host.Outcome State Fault Refusal :=
  if regAccessOk off then
    if off = 0 then issue v s else .next (s.writeReg off v).advance
  else .refused .registerAccessOutsideInterface

/-- `rd REG` (30_encoding R128). -/
def hostRead (off : Nat) (k : Option Nat) (s : State) : Host.Outcome State Fault Refusal :=
  if regAccessOk off then .next (((s.observe (.value (s.readReg off))).bindOpt k (s.readReg off)).advance)
  else .refused .registerAccessOutsideInterface

/-- `halloc hK, n`: HAlloc(n) (20_memory R109). -/
def hostAlloc (k n : Nat) (s : State) : Host.Outcome State Fault Refusal :=
  match s.alloc n with
  | (s1, some h) => .next ((s1.observe (.handle h)).bind k h).advance
  | (s1, none) => .next ((s1.observe .allocFailed).unbind k).advance

/-- `hwrite hK, off, bytes`: HWrite under the check of 20_memory R93 (R109). -/
def hostPut (h : Word) (off : Nat) (bs : List Byte) (s : State) : Host.Outcome State Fault Refusal :=
  match s.mem.writeBytes h off bs with
  | some m => .next (s.setMem m).advance
  | none => .refused .bufferMoveOutsideBounds

/-- `hread hK, off, n`: HRead under the check of 20_memory R93 (R109). -/
def hostGet (h : Word) (off n : Nat) (s : State) : Host.Outcome State Fault Refusal :=
  match s.mem.readBytes h off n with
  | some bs => .next (s.observe (.bytes bs)).advance
  | none => .refused .bufferMoveOutsideBounds

/-- `hfree hK`: "HFree(h) for a live h" (20_memory R109). -/
def hostFree (h : Word) (s : State) : Host.Outcome State Fault Refusal :=
  if s.mem.live h then .next (s.freeAll [h]).advance else .refused .bufferMoveOutsideBounds

/-- The reset event: every register and the buffer store as State.reset has them (70_reset_and_hazards R380); the host agent,
the oracles and ALPHA_RAMP_RULE are not reset (R381; log entry 10). -/
def hostReset (s : State) : State :=
  { State.reset with
    heap := { s.heap with mem := State.reset.heap.mem }
    host := s.host
    alphaRampRule := s.alphaRampRule }

/-- One host operation (30_encoding R128, R130). -/
def hostStep (op : HostOp) (s : State) : Host.Outcome State Fault Refusal :=
  match op with
  | .wr off v =>
    match s.hostVal v with
    | some w => hostWrite off w s
    | none => .refused .unboundHandleName
  | .rd off k => hostRead off k s
  | .halloc k n => hostAlloc k n s
  | .hwrite h off bs =>
    match s.hostVal h with
    | some w => hostPut w off bs s
    | none => .refused .unboundHandleName
  | .hread h off n =>
    match s.hostVal h with
    | some w => hostGet w off n s
    | none => .refused .unboundHandleName
  | .hfree h =>
    match s.hostVal h with
    | some w => hostFree w s
    | none => .refused .unboundHandleName
  | .reset => .next (hostReset s).advance

/-- The host operation the host performs next (00_scope R19, 30_encoding R130). -/
def fetchOp (s : State) : Option HostOp := s.host.program[s.host.hpc]?

/-- A list with x at position n; positions that did not exist before n hold a register read that is never performed. -/
def putAt (x : HostOp) : Nat → List HostOp → List HostOp
  | 0, [] => [x]
  | 0, _ :: t => x :: t
  | n + 1, [] => .rd 0 none :: putAt x n []
  | n + 1, a :: t => a :: putAt x n t

/-- The state with the host operation it performs next set to the issue of command word w. -/
def placeCommand (w : Word) (s : State) : State :=
  { s with host := { s.host with program := putAt (.wr 0 (.lit w)) s.host.hpc s.host.program } }

end Sys2Proof.Machine
end

