-- ==== Sys2Proof/Machine/Step.lean ====
section
/-! DEFINITION. One step of the machine: the host performs the host operation at hpc (spec/30_encoding.md R130); a write
to CMD runs a command (spec/10_state.md R32). -/

namespace Sys2Proof.Machine

/-- One step. Three outcomes: the next state, the fault that the host program is over, a refusal of a move the host does
not have. -/
def step (s : State) : Host.Outcome State Fault Refusal :=
  match fetchOp s with
  | some op => hostStep op s
  | none => .fault .programEnded

/-- The state with a table row's command word placed where step takes its next instruction: in the host program at hpc
(log entry 1). Bits above `nbits` are 0. -/
def State.withFetchWord (s : State) (nbits w : Nat) : State := placeCommand (BitVec.ofNat 32 (w % 2 ^ nbits)) s

end Sys2Proof.Machine
end

