-- ==== Sys2Proof/Safety.lean ====
section
/-! DEFINITION. What counts as a safe run, in the terms the statements use: the checks of each command written out in the
order of the spec's pseudocode, what a command leaves unchanged, what makes a command ready to run, and the invariant of
the machine. Nothing in the model uses this file. -/

namespace Sys2Proof.Machine

/-! ### Checks in textual order -/

/-- One check of a command: whether it fails, and the error it then raises. -/
abbrev Check := Bool × Raise

/-- "A command reports exactly one error: the one that its rule raises first in textual order" (60_exceptions R354). -/
def firstRaise : List Check → Option Raise
  | [] => none
  | (fails, e) :: rest => if fails then some e else firstRaise rest

/-- `h ∉ Live or Len(h) < n` (10_state R54 to R56). -/
def Memory.tooShort (m : Memory) (h : Word) (n : Nat) : Bool :=
  match m.len? h with
  | some l => decide (l < n)
  | none => true

/-- The checks of `CheckHeader()` (10_state R54). -/
def headerChecks (s : State) : List Check :=
  [(decide (s.levels = 0 ∨ 16 < s.levels), ⟨.formatError, 0, none⟩),
   (decide (s.imgDesc.comp = 6 ∨ s.imgDesc.comp = 7), ⟨.corruptDataError, 0, none⟩),
   (!s.imgDesc.wf, ⟨.formatError, 0, none⟩),
   (decide (s.imgDesc.palMode ≠ palNone) && decide (maxEntries s.imgDesc.palMode < s.palEntries), ⟨.formatError, 0, none⟩),
   (decide (s.imgDesc.palMode ≠ palNone) && s.mem.tooShort s.palBuf (s.palEntries * (entryDepth s.imgDesc.rasterF / 8)),
    ⟨.corruptDataError, 0, none⟩)]

/-- The checks of `CheckRawMip(i)` (10_state R55). -/
def rawMipChecks (s : State) (i : Nat) : List Check :=
  [(decide (s.lw i = 0 ∨ s.lh i = 0), ⟨.formatError, 0, some i⟩),
   (decide (s.sw i ≠ s.lw i ∨ s.sh i ≠ s.lh i), ⟨.formatError, 0, some i⟩),
   (decide ((s.mip i).size.toNat ≠ pitch (s.lw i) s.imgDesc.depth.toNat s.imgDesc.rowAlign.toNat * s.lh i),
    ⟨.corruptDataError, 0, some i⟩),
   (s.mem.tooShort (s.mip i).buf (s.mip i).size.toNat, ⟨.corruptDataError, 0, some i⟩)]

/-- The checks of `CheckBlockMip(i, st)` for block type t (10_state R56). -/
def blockMipChecks (s : State) (t : BlockType) (i st : Nat) : List Check :=
  [(decide (s.lw i = 0 ∨ s.lh i = 0 ∨ s.sw i % 4 ≠ 0 ∨ s.sh i % 4 ≠ 0 ∨ s.sw i < s.lw i ∨ s.sh i < s.lh i),
    ⟨.corruptDataError, st, some i⟩),
   (decide ((s.mip i).size.toNat ≠ s.sw i / 4 * (s.sh i / 4) * blockBytes t), ⟨.corruptDataError, st, some i⟩),
   (s.mem.tooShort (s.mip i).buf (s.mip i).size.toNat, ⟨.corruptDataError, st, some i⟩)]

/-- The checks of a texel command, with the kind of image it refuses: CheckHeader, the kind, m, CheckRawMip(m), x and y
(40_color_model R163 to R165). -/
def texelChecks (wrongKind : Bool) (s : State) : List Check :=
  headerChecks s ++ [(wrongKind, ⟨.formatError, 0, none⟩), (decide (s.levels ≤ s.args[0].toNat), ⟨.boundsError, 0, none⟩)]
    ++ rawMipChecks s s.args[0].toNat
    ++ [(decide (s.lw s.args[0].toNat ≤ s.args[1].toNat ∨ s.lh s.args[0].toNat ≤ s.args[2].toNat),
        ⟨.boundsError, 0, some s.args[0].toNat⟩)]

/-- The checks of RESOLVE_INDEX: `S.comp ≠ NONE or S.palMode = NONE` is the wrong kind (40_color_model R163). -/
def resolveIndexChecks (s : State) : List Check :=
  texelChecks (decide (s.imgDesc.comp ≠ 0 ∨ s.imgDesc.palMode = palNone)) s

/-- The checks of FETCH_COLOR: `S.comp ≠ NONE` is the wrong kind (40_color_model R164). -/
def fetchColorChecks (s : State) : List Check := texelChecks (decide (s.imgDesc.comp ≠ 0)) s

/-- The checks of STORE_COLOR: `S.comp ≠ NONE or S.palMode ≠ NONE` is the wrong kind (40_color_model R165). -/
def storeColorChecks (s : State) : List Check :=
  texelChecks (decide (s.imgDesc.comp ≠ 0 ∨ s.imgDesc.palMode ≠ palNone)) s

/-- The checks of ALPHA_SCAN: CheckHeader, then CheckRawMip or CheckBlockMip of each level (42_conversion_engine R284). -/
def alphaScanChecks (s : State) : List Check :=
  headerChecks s ++ (List.range s.levels).flatMap (fun i =>
    match compType s.imgDesc.comp with
    | none => rawMipChecks s i
    | some t => blockMipChecks s t i 0)

/-- `CheckDistinct()` (10_state R57). -/
def distinctCheck (s : State) : Check := (decide (¬ s.imageHandles.Nodup), ⟨.formatError, 0, none⟩)

/-- The entry checks of CONVERT after ownership and identity: CheckHeader, CheckDistinct, CheckRawMip of each level of a
raw source, ValidateTarget (42_conversion_engine R250). -/
def convertChecks (s : State) : List Check :=
  headerChecks s ++ [distinctCheck s]
    ++ (if s.imgDesc.comp = 0 then (List.range s.levels).flatMap (rawMipChecks s) else [])
    ++ [(!targetOk s.imgDesc s.tgtDesc s.hasAlpha, ⟨.formatError, 0, none⟩)]

/-- The checks of RELEASE (42_conversion_engine R285). -/
def releaseChecks (s : State) : List Check :=
  [(decide (16 < s.levels), ⟨.formatError, 0, none⟩), distinctCheck s,
   (s.isStandalone && !s.acquired && s.imageHandles.any (fun h => !s.mem.live h), ⟨.boundsError, 0, none⟩)]

/-- The words 30_encoding R124 does not refuse: [31:11] zero, OPC in 0x01..0x0A, T in 1..5 for OPC 0x04 and 0x05 and 0 for
every other OPC. -/
def legalWord (w : Word) : Prop :=
  w.toNat / 2 ^ 11 = 0 ∧ 1 ≤ w.toNat % 2 ^ 8 ∧ w.toNat % 2 ^ 8 ≤ 0x0A
    ∧ (if w.toNat % 2 ^ 8 = 0x04 ∨ w.toNat % 2 ^ 8 = 0x05 then 1 ≤ w.toNat / 2 ^ 8 % 2 ^ 3 ∧ w.toNat / 2 ^ 8 % 2 ^ 3 ≤ 5
       else w.toNat / 2 ^ 8 % 2 ^ 3 = 0)

/-! ### What stays -/

/-- CAPS, PZ_CFG and ARG0..ARG7 are as before. -/
def sameConfig (s t : State) : Prop := t.caps = s.caps ∧ t.pzCfg = s.pzCfg ∧ t.args = s.args

/-- IMG_FMT, PAL_BUF, PAL_COUNT, MIP_COUNT and every mip-level register are as before. -/
def sameImage (s t : State) : Prop :=
  t.imgFmt = s.imgFmt ∧ t.palBuf = s.palBuf ∧ t.palCount = s.palCount ∧ t.mipCount = s.mipCount ∧ t.mips = s.mips

/-- The buffer of handle h is as before: its liveness, its length and every byte of it. -/
def sameBuffer (s t : State) (h : Word) : Prop :=
  t.mem.len? h = s.mem.len? h ∧ ∀ off, t.mem.byte? h off = s.mem.byte? h off

/-- Every buffer is as before. -/
def sameBuffers (s t : State) : Prop := ∀ h, sameBuffer s t h

/-- No answer of the allocator has been used. -/
def sameOracle (s t : State) : Prop := t.heap.answers = s.heap.answers ∧ t.heap.draws = s.heap.draws

/-- The host is where it was, but for `hpc <- hpc + 1` (30_encoding R130). -/
def hostAdvances (s t : State) : Prop :=
  t.host.program = s.host.program ∧ t.host.hpc = s.host.hpc + 1 ∧ t.host.names = s.host.names
    ∧ t.host.observed = s.host.observed

/-- Bits [2:1] of IMG_FLAGS, IS_STANDALONE and ACQUIRED, are as before. -/
def sameOwnership (s t : State) : Prop := t.isStandalone = s.isStandalone ∧ t.acquired = s.acquired

/-- Every register is as before, STATUS included. -/
def sameRegisters (s t : State) : Prop :=
  t.status = s.status ∧ sameConfig s t ∧ sameImage s t ∧ t.imgFlags = s.imgFlags ∧ t.tgtFmt = s.tgtFmt ∧ t.res = s.res
    ∧ t.tb = s.tb

/-- Nothing changes but STATUS, the host's position and the allocator's answers: the buffers and every other register are
as before. -/
def onlyStatus (s t : State) : Prop :=
  sameConfig s t ∧ sameImage s t ∧ t.imgFlags = s.imgFlags ∧ t.tgtFmt = s.tgtFmt ∧ t.res = s.res ∧ t.tb = s.tb
    ∧ sameBuffers s t ∧ t.alphaRampRule = s.alphaRampRule

/-! ### When a command is ready -/

/-- Handles the allocator may give one after another: different, not 0, not live, and named by no image register. -/
def freshHandles (s : State) (hs : List Word) : Prop :=
  hs.Nodup ∧ ∀ h ∈ hs, h ≠ 0 ∧ s.mem.live h = false ∧ h ∉ s.imageHandles

/-- The next n answers of the allocator are fresh handles. -/
def allocReady (s : State) (n : Nat) : Prop :=
  ∃ hs rest, s.heap.answers = hs.map some ++ rest ∧ hs.length = n ∧ freshHandles s hs

/-- Every level of the image fits a buffer in the layout of D. -/
def levelsFit (D : Desc) (s : State) : Prop :=
  ∀ i, i < s.levels → D.rawSize (s.lw i) (s.lh i) ≤ Config.maxBufLen

/-- Every level's dimensions, rounded up to multiples of 4, still fit 16 bits. -/
def paddedFit (s : State) : Prop := ∀ i, i < s.levels → s.lw i ≤ 65532 ∧ s.lh i ≤ 65532

/-- The handle of every level is live. -/
def levelsLive (s : State) : Prop := ∀ i, i < s.levels → s.mem.live (s.mip i).buf = true

/-- `T'` of the CONVERT a state is about to run (42_conversion_engine R251). -/
def State.rawTgt (s : State) : Desc := rawTarget s.tgtDesc s.hasAlpha

/-- What a CONVERT needs to succeed, said of the state alone: ownership, an image and a target that pass the entry checks,
a level 0 that decodes if the source is compressed; levels that fit a buffer in each raw layout the stages allocate them in, that
of stage 1 if the source is compressed and that of T' if the target is not; padded dimensions that fit 16 bits if the target is
compressed (log entry 6); and an allocator that gives a handle each of the at most 33 times the stages ask (16 levels twice, and
one palette). -/
def convertReady (s : State) : Prop :=
  s.isStandalone = true ∧ s.imgDesc ≠ s.tgtDesc ∧ firstRaise (convertChecks s) = none
    ∧ (∀ t, compType s.imgDesc.comp = some t → firstRaise (blockMipChecks s t 0 1) = none)
    ∧ (s.imgDesc.comp ≠ 0 → levelsFit (stage1Format s.tgtDesc) s) ∧ (s.tgtDesc.comp = 0 → levelsFit s.rawTgt s)
    ∧ (s.tgtDesc.comp ≠ 0 → paddedFit s) ∧ allocReady s 33

/-- The state an error of CONVERT leaves, by the stage STATUS reports: before stage 2 the image is as it was at the start;
an error of stage 2 or 3 leaves the image as stage 1 left it; one of stage 4 as the last stage left it
(42_conversion_engine R252, 60_exceptions R353). -/
def convertErrorState (s t : State) : Prop :=
  (t.stageField ≤ 1 ∧ onlyStatus s t)
    ∨ ((t.stageField = 2 ∨ t.stageField = 3) ∧ (runStage1 s s.tgtDesc).error = none
        ∧ onlyStatus (runStage1 s s.tgtDesc).state t)
    ∨ (t.stageField = 4
        ∧ onlyStatus (runStage3 (runStage2 (runStage1 s s.tgtDesc).state s.tgtDesc s.rawTgt).state s.tgtDesc).state t)

/-- Some stage of CONVERT runs: the source or the target is compressed, or the raw source is not yet T'
(42_conversion_engine R253, R281). -/
def someStageRuns (s : State) : Bool :=
  !(decide (s.imgDesc.comp = 0) && decide (s.tgtDesc.comp = 0) && decide (s.imgDesc = s.rawTgt))

/-- Stage 2 keeps the palette: the source is raw and indexed, its entry format and order are the target's, and its entries fit
the target's mode; a source that is T' already is such a source (42_conversion_engine R264, R266). -/
def keepsPalette (s : State) : Prop :=
  s.imgDesc.comp = 0 ∧ s.imgDesc.palMode ≠ 0 ∧ s.imgDesc.raster = s.rawTgt.raster ∧ s.imgDesc.order = s.rawTgt.order
    ∧ s.palEntries ≤ (if s.rawTgt.palMode = 1 then 16 else 256)

/-- The registers and buffers of the levels a successful CONVERT of s leaves in t: the logical dimensions of s; of a raw result
the storage dimensions are the logical ones and the size is RawSize, of a compressed one they are the logical ones rounded up to
multiples of 4 and the size is that of the blocks; each buffer is as long as its size says, if a stage ran; and after stage 1
every level past the chain is 0 (42_conversion_engine R262, R265 to R267, R272). -/
def levelsConverted (s t : State) : Prop :=
  (∀ i, i < t.levels →
    (t.mip i).ldim = (s.mip i).ldim
    ∧ (s.tgtDesc.comp = 0 → t.sw i = s.lw i ∧ t.sh i = s.lh i
        ∧ (t.mip i).size.toNat = pitch (s.lw i) s.tgtDesc.depth.toNat s.tgtDesc.rowAlign.toNat * s.lh i)
    ∧ (s.tgtDesc.comp ≠ 0 → t.sw i = roundup (s.lw i) 4 ∧ t.sh i = roundup (s.lh i) 4
        ∧ (t.mip i).size.toNat = t.sw i / 4 * (t.sh i / 4) * (if s.tgtDesc.comp = 1 then 8 else 16))
    ∧ (someStageRuns s = true → t.mem.len? (t.mip i).buf = some (t.mip i).size.toNat))
  ∧ (s.imgDesc.comp ≠ 0 → ∀ i, t.levels ≤ i → i < 16 → t.mip i = ⟨0, 0, 0, 0⟩)

/-- The colour of texel (x, y) of level i of the image: of a compressed image what the texel's block decodes to, of a raw one
what FetchTexel gives, a missing colour as NOCOLOR (41_block_codec R211, 40_color_model R161, 60_exceptions R355). -/
def State.texelColour (s : State) (i x y : Nat) : Option Colour :=
  match compType s.imgDesc.comp with
  | some ty => (readBlock s.mem (s.mip i).buf ty (s.sw i) (x / 4) (y / 4)).map
      (fun B => decodeTexel s.alphaRampRule ty B (4 * (y % 4) + x % 4))
  | none => (s.fetchLevel i x y).map Prod.fst

/-- The palette a CONVERT of s to an indexed target of palette mode `mode` builds: of the colours of level 0 in row-major order,
by the strategy PZ_CFG selects, with at most MaxEntries(mode) entries (43_palettizer R300 to R303). -/
def State.newPalette (s : State) (mode : BitVec 2) : List Colour :=
  buildPalette s.strategy ((coords (s.lw 0) (s.lh 0)).map (fun p => (s.texelColour 0 p.1 p.2).getD Colour.none))
    (if mode = 1 then 16 else 256)

/-- What the levels of a raw result t hold: of every texel of s inside the logical dimensions the item that encodes its colour
where the result is direct; the index s held there, cut to the target's width, where stage 2 keeps the palette; and the new
palette's index of its colour otherwise (41_block_codec R211, 42_conversion_engine R265, R266, 43_palettizer R306). -/
def texelsConverted (s t : State) : Prop :=
  ∀ i x y, i < t.levels → x < s.lw i → y < s.lh i → ∃ c item, s.texelColour i x y = some c
    ∧ readItem t.mem (t.mip i).buf (s.lw i) t.imgDesc x y = some item
    ∧ (t.imgDesc.palMode = palNone → item = encodeDirect t.imgDesc.rasterF t.imgDesc.orderF t.imgDesc.depth.toNat c)
    ∧ (t.imgDesc.palMode ≠ palNone → keepsPalette s → ∃ old,
        readItem s.mem (s.mip i).buf (s.lw i) s.imgDesc x y = some old
        ∧ item = (if t.imgDesc.palMode = pal4 then indexOfItem s.imgDesc old % 16 else indexOfItem s.imgDesc old))
    ∧ (t.imgDesc.palMode ≠ palNone → ¬ keepsPalette s → item = mapColour s.strategy (s.newPalette t.imgDesc.palMode) c)

/-- What no texel of a raw result t covers: the bytes of every row from RowBytes up to Pitch, and the unused nibble at the end of
an odd 4-bit row, keep the 0 of a new buffer (20_memory R91, R95). -/
def paddingZero (s t : State) : Prop :=
  ∀ i y, i < t.levels → y < s.lh i →
    (∀ j, rowBytes (s.lw i) t.imgDesc.depth.toNat ≤ j → j < t.imgDesc.pitch (s.lw i) →
      t.mem.byte? (t.mip i).buf (y * t.imgDesc.pitch (s.lw i) + j) = some 0)
    ∧ (t.imgDesc.depth = 4 → s.lw i % 2 = 1 →
      ∃ b, t.mem.byte? (t.mip i).buf (y * t.imgDesc.pitch (s.lw i) + s.lw i / 2) = some b ∧ b.toNat / 16 = 0)

/-- What the levels of a compressed result t hold: in every block the compressor's answer for the colours of its sixteen texels
of s, edges repeated outside the logical dimensions (41_block_codec R210, R212). -/
def blocksConverted (s t : State) : Prop :=
  ∀ ty, compType s.tgtDesc.comp = some ty → ∀ i bx by', i < t.levels → bx < t.sw i / 4 → by' < t.sh i / 4 →
    ∃ G : List Colour, G.length = 16
      ∧ (∀ k, k < 16 → s.texelColour i (min (4 * bx + k % 4) (s.lw i - 1)) (min (4 * by' + k / 4) (s.lh i - 1))
          = some (G.getD k Colour.none))
      ∧ readBlock t.mem (t.mip i).buf ty (t.sw i) bx by' = some (compress s.alphaRampRule ty G)

/-- The palette a successful CONVERT of s leaves in t: none of a result that is not indexed (log entry 7's reading of R45 and
R280); of an indexed one the source's own where stage 2 keeps it, and else a new one of 1 to MaxEntries entries in a buffer
that just holds them, each entry the encoding of its colour (42_conversion_engine R264, R266, R267, 43_palettizer R305, R307). -/
def paletteConverted (s t : State) : Prop :=
  (t.imgDesc.isIndexed = false → t.palBuf = 0 ∧ t.palCount = 0)
    ∧ (t.imgDesc.isIndexed = true → keepsPalette s →
        t.palBuf = s.palBuf ∧ t.palCount = s.palCount ∧ sameBuffer s t s.palBuf)
    ∧ (t.imgDesc.isIndexed = true → ¬ keepsPalette s →
        1 ≤ t.palEntries ∧ t.palEntries ≤ (if t.imgDesc.palMode = 1 then 16 else 256)
          ∧ t.mem.len? t.palBuf = some (t.palEntries * (entryDepth t.imgDesc.rasterF / 8))
          ∧ t.palEntries = (s.newPalette t.imgDesc.palMode).length
          ∧ ∀ j c, (s.newPalette t.imgDesc.palMode)[j]? = some c →
              t.mem.read t.palBuf (j * (entryDepth t.imgDesc.rasterF / 8)) (entryDepth t.imgDesc.rasterF / 8)
                = some (encodeDirect t.imgDesc.rasterF t.imgDesc.orderF (entryDepth t.imgDesc.rasterF) c))

/-- What a successful CONVERT of s leaves in t, registers and buffers (42_conversion_engine R280, R281, R276, 60_exceptions R352).
Where a stage ran, the new buffers hold what texelsConverted, paddingZero, blocksConverted and paletteConverted say. The alpha
a compressed result's virtual format records is the scan's answer on the raw image stage 3 encodes: the source itself, or what
stage 1 leaves of a compressed source (R270, R272). -/
def convertedTo (s t : State) : Prop :=
  t.errField = 0 ∧ t.changedFlag = someStageRuns s ∧ t.truncatedFlag = decide (t.levels < s.levels)
    ∧ 1 ≤ t.levels ∧ t.levels ≤ s.levels
    ∧ (s.tgtDesc.comp = 0 → t.imgDesc = s.rawTgt)
    ∧ (∀ ty, compType s.tgtDesc.comp = some ty →
        ∃ alpha, t.imgDesc = compressedDesc (virtualRaster ty alpha) s.tgtDesc
          ∧ alphaScan 3 (if s.imgDesc.comp = 0 then s else (runStage1 s s.tgtDesc).state) = .ok alpha)
    ∧ levelsConverted s t ∧ paletteConverted s t
    ∧ (someStageRuns s = true → (s.tgtDesc.comp = 0 → texelsConverted s t ∧ paddingZero s t) ∧ blocksConverted s t)
    ∧ (someStageRuns s = false → sameImage s t ∧ sameBuffers s t)
    ∧ (if someStageRuns s then alphaScan 4 t = .ok t.hasAlpha else t.hasAlpha = s.hasAlpha)
    ∧ sameOwnership s t
    ∧ (∀ h, t.mem.live h = true ↔ (s.mem.live h = true ∧ h ∉ s.imageHandles) ∨ h ∈ t.imageHandles)
    ∧ (∀ h, s.mem.live h = true → h ∉ s.imageHandles → sameBuffer s t h)

/-! ### The invariant -/

/-- STATUS reads as the table of 10_state R33 and the write of 60_exceptions R352 say: reserved bits 0, ERR at most 6; with
no error STAGE and MIP are 0; with an error CHANGED is 0, STAGE is at most 4 and MIP a level or 31; CHANGED and TRUNCATED
are 1 only after CONVERT or NEGOTIATE_AND_CONVERT. -/
def statusOk (s : State) : Prop :=
  s.status &&& ~~~ Reg.status.defined = 0 ∧ s.errField ≤ 6
    ∧ (s.errField = 0 → s.stageField = 0 ∧ s.mipField = 0)
    ∧ (s.errField ≠ 0 → s.changedFlag = false ∧ s.stageField ≤ 4 ∧ (s.mipField < 16 ∨ s.mipField = 31))
    ∧ (s.changedFlag = true ∨ s.truncatedFlag = true → s.opcReported = 7 ∨ s.opcReported = 9)

/-- "Reserved bits of an RW register read as 0" (10_state R30): they hold 0. -/
def reservedClear (s : State) : Prop :=
  s.caps &&& ~~~ Reg.caps.defined = 0 ∧ s.pzCfg &&& ~~~ Reg.pzCfg.defined = 0
    ∧ s.imgFmt &&& ~~~ Reg.imgFmt.defined = 0 ∧ s.imgFlags &&& ~~~ Reg.imgFlags.defined = 0
    ∧ s.palCount &&& ~~~ Reg.palCount.defined = 0 ∧ s.mipCount &&& ~~~ Reg.mipCount.defined = 0
    ∧ s.tgtFmt &&& ~~~ Reg.tgtFmt.defined = 0

/-- The invariant: the buffer store is in canonical form (so handle 0 is never live and no buffer is longer than
MAX_BUF_LEN), reserved bits hold 0, and STATUS reads as its table says. -/
def MachineInv (s : State) : Prop := s.mem.wf = true ∧ reservedClear s ∧ statusOk s

end Sys2Proof.Machine
end

