-- ==== Sys2Proof/Certificates/Slice0/Obligations.lean ====
section
/-! DEFINITION. The statements for the provers. Each docstring names the rules of spec/ the statement rests on. The predicates
used are in Sys2Proof/Safety.lean. -/

section

open Sys2Proof Sys2Proof.Machine

/-! ### Command words -/

/-- The eighteen command words of the opcode map decode to their commands (30_encoding R121, R123). -/
def Obligations.CommandWords : Prop :=
  decode 0x00000001 = .ok .resolveIndex ∧ decode 0x00000002 = .ok .fetchColor ∧ decode 0x00000003 = .ok .storeColor
    ∧ decode 0x00000104 = .ok .decodeBlockDxt1 ∧ decode 0x00000204 = .ok .decodeBlockDxt2
    ∧ decode 0x00000304 = .ok .decodeBlockDxt3 ∧ decode 0x00000404 = .ok .decodeBlockDxt4
    ∧ decode 0x00000504 = .ok .decodeBlockDxt5 ∧ decode 0x00000105 = .ok .encodeBlockDxt1
    ∧ decode 0x00000205 = .ok .encodeBlockDxt2 ∧ decode 0x00000305 = .ok .encodeBlockDxt3
    ∧ decode 0x00000405 = .ok .encodeBlockDxt4 ∧ decode 0x00000505 = .ok .encodeBlockDxt5
    ∧ decode 0x00000006 = .ok .alphaScan ∧ decode 0x00000007 = .ok .convert ∧ decode 0x00000008 = .ok .negotiate
    ∧ decode 0x00000009 = .ok .negotiateAndConvert ∧ decode 0x0000000A = .ok .release

/-- A word decodes to a command exactly when it is that command's word: each of the 2^32 words has at most one meaning, and
no word but the eighteen has one (30_encoding R123, R124, R125). -/
def Obligations.DecodeIffEncode : Prop := ∀ (w : Word) (i : Instr), decode w = .ok i ↔ w = encode i

/-- The decode rule: a word it accepts is dispatched to the command of its OPC and T; any other raises IllegalCommand,
which changes only STATUS and reports w[7:0] (30_encoding R124). -/
def Obligations.DecodeRule : Prop :=
  ∀ (s : State) (w : Word),
    (legalWord w → ∃ i, decode w = .ok i ∧ i.opc.toNat = w.toNat % 2 ^ 8 ∧ i.typeCode.toNat = w.toNat / 2 ^ 8 % 2 ^ 3
      ∧ issue w s = exec i s)
    ∧ (¬ legalWord w → ∃ t, issue w s = .next t ∧ t.errField = 4 ∧ t.opcReported = w.toNat % 2 ^ 8 ∧ t.stageField = 0
      ∧ t.mipField = 31 ∧ t.changedFlag = false ∧ t.truncatedFlag = false ∧ onlyStatus s t ∧ sameOracle s t
      ∧ hostAdvances s t)

/-- Assembling a descriptor word and reading its fields back (30_encoding R127), with the spec's examples. -/
def Obligations.DescriptorWord : Prop :=
  (∀ D : Desc, Desc.ofWord D.toWord = D
    ∧ D.toWord.toNat = D.raster.toNat ||| D.depth.toNat <<< 4 ||| D.rowAlign.toNat <<< 12 ||| D.order.toNat <<< 20
        ||| D.palMode.toNat <<< 22 ||| D.comp.toNat <<< 24)
    ∧ (⟨5, 32, 4, 0, 0, 0⟩ : Desc).toWord = 0x00004205 ∧ (⟨5, 32, 4, 1, 0, 0⟩ : Desc).toWord = 0x00104205
    ∧ (⟨2, 16, 4, 1, 0, 0⟩ : Desc).toWord = 0x00104102 ∧ (⟨5, 8, 4, 0, 2, 0⟩ : Desc).toWord = 0x00804085
    ∧ (⟨2, 16, 4, 1, 0, 1⟩ : Desc).toWord = 0x01104102

/-! ### Steps of the host -/

/-- A step at which the host writes a command's word to CMD is that command's meaning (10_state R32, 30_encoding R130). -/
def Obligations.StepRunsDecodedCommand : Prop :=
  ∀ (s : State) (v : HostVal) (w : Word) (i : Instr),
    fetchOp s = some (.wr 0 v) → s.hostVal v = some w → decode w = .ok i → step s = exec i s

/-- A write of w to CMD issues the command w encodes, in one step, and writes STATUS; CMD holds no state; and a word that encodes
no command raises IllegalCommand, which changes nothing but STATUS (10_state R32, 30_encoding R124). -/
def Obligations.CommandRegister : Prop :=
  ∀ (s : State) (v : HostVal) (w : Word), fetchOp s = some (.wr 0 v) → s.hostVal v = some w →
    step s = issue w s
    ∧ (∃ t, step s = .next t ∧ t.opcReported = w.toNat % 2 ^ 8 ∧ t.readReg 0 = 0)
    ∧ (∀ i, decode w = .ok i → step s = exec i s)
    ∧ (¬ legalWord w → ∃ t, step s = .next t ∧ t.errField = 4 ∧ t.opcReported = w.toNat % 2 ^ 8 ∧ t.stageField = 0
      ∧ t.mipField = 31 ∧ t.changedFlag = false ∧ t.truncatedFlag = false ∧ onlyStatus s t ∧ sameOracle s t
      ∧ hostAdvances s t)

/-- Sequencing: hpc starts at 0 and rises by 1 after each host operation, nothing branches, a program ends at its length, and
a command that raises an error does not stop it (30_encoding R130). Two clauses are the model's choice: that a step at the end of
the program is the fault programEnded (log entry 2), and that hpc rises by 1 after a reset too (log entry 10). -/
def Obligations.Sequencing : Prop :=
  State.reset.host.hpc = 0
    ∧ (∀ s t, step s = .next t → s.host.hpc < s.host.program.length ∧ t.host.hpc = s.host.hpc + 1
        ∧ t.host.program = s.host.program)
    ∧ (∀ s, s.host.hpc = s.host.program.length → step s = .fault .programEnded)
    ∧ (∀ i s, ∃ t, exec i s = .next t ∧ t.host.hpc = s.host.hpc + 1)

/-- What a host access to the register window does: a read-write register keeps its defined bits, reserved bits and offsets
read 0, writes to read-only registers and reserved offsets are ignored, no other register moves, and a misaligned or
out-of-window access is no move (10_state R30, 20_memory R101). The value written is a literal or what a bound name stands for. The
model's choice: a move the host does not have is refused by name (log entry 11), and so is a name that stands for nothing, while a
read may bind its name (log entry 13). -/
def Obligations.RegisterAccess : Prop :=
  ∀ (s : State) (off : Nat),
    (∀ hv v, fetchOp s = some (.wr off hv) → s.hostVal hv = some v → off % 4 = 0 → off < 4096 → off ≠ 0 →
      ∃ t, step s = .next t ∧ hostAdvances s t ∧ t.heap = s.heap
        ∧ t.readReg off = (match regAt off with
            | none => 0
            | some .status => s.readReg off
            | some (.res _) => s.readReg off
            | some r => v &&& r.defined)
        ∧ (∀ o, o % 4 = 0 → o < 4096 → o ≠ off → t.readReg o = s.readReg o))
    ∧ (∀ k, fetchOp s = some (.rd off k) → off % 4 = 0 → off < 4096 →
      ∃ t, step s = .next t ∧ t.host.observed = .value (s.readReg off) :: s.host.observed ∧ onlyStatus s t
        ∧ t.status = s.status ∧ t.heap = s.heap ∧ (∀ j, k = some j → t.hostVal (.name j) = some (s.readReg off)))
    ∧ (∀ r, regAt off = some r → s.readReg off &&& ~~~ r.defined = 0) ∧ (regAt off = none → s.readReg off = 0)
    ∧ (off % 4 ≠ 0 ∨ 4096 ≤ off →
      (∀ hv v, fetchOp s = some (.wr off hv) → s.hostVal hv = some v → step s = .refused .registerAccessOutsideInterface)
      ∧ (∀ k, fetchOp s = some (.rd off k) → step s = .refused .registerAccessOutsideInterface))
    ∧ (∀ hv, fetchOp s = some (.wr off hv) → s.hostVal hv = none → step s = .refused .unboundHandleName)

/-- The register map: which register stands at which offset (10_state R31). -/
def Obligations.RegisterMap : Prop :=
  regAt 0x000 = some .cmd ∧ regAt 0x004 = some .status ∧ regAt 0x008 = some .caps ∧ regAt 0x00C = some .pzCfg
    ∧ (∀ i : Fin 8, regAt (0x010 + 4 * i) = some (.arg i)) ∧ (∀ i : Fin 4, regAt (0x030 + 4 * i) = some (.res i))
    ∧ (∀ t : Fin 16, regAt (0x040 + 4 * t) = some (.tb t))
    ∧ regAt 0x080 = some .imgFmt ∧ regAt 0x084 = some .imgFlags ∧ regAt 0x088 = some .palBuf
    ∧ regAt 0x08C = some .palCount ∧ regAt 0x090 = some .mipCount ∧ regAt 0x094 = some .tgtFmt
    ∧ (∀ k : Fin 26, regAt (0x098 + 4 * k) = none)
    ∧ (∀ i : Fin 16, regAt (0x100 + 16 * i) = some (.mipBuf i) ∧ regAt (0x104 + 16 * i) = some (.mipSdim i)
        ∧ regAt (0x108 + 16 * i) = some (.mipLdim i) ∧ regAt (0x10C + 16 * i) = some (.mipSize i))
    ∧ (∀ k : Fin 896, regAt (0x200 + 4 * k) = none)

/-! ### Reset -/

/-- The state after reset: every register 0, every offset reads 0, no buffer live (70_reset_and_hazards R380). -/
def Obligations.ResetState : Prop :=
  State.reset.status = 0 ∧ State.reset.caps = 0 ∧ State.reset.pzCfg = 0 ∧ (∀ i : Fin 8, State.reset.args[i] = 0)
    ∧ (∀ i : Fin 4, State.reset.res[i] = 0) ∧ (∀ i : Fin 16, State.reset.tb[i] = 0) ∧ State.reset.imgFmt = 0
    ∧ State.reset.imgFlags = 0 ∧ State.reset.palBuf = 0 ∧ State.reset.palCount = 0 ∧ State.reset.mipCount = 0
    ∧ (∀ i : Fin 16, State.reset.mips[i] = ⟨0, 0, 0, 0⟩) ∧ State.reset.tgtFmt = 0
    ∧ (∀ h, State.reset.mem.live h = false) ∧ (∀ off, State.reset.readReg off = 0)

/-- The reset event between commands: the registers and the buffer store are as after reset, and the host goes on; the oracles
and ALPHA_RAMP_RULE are not reset (70_reset_and_hazards R380, R381, R382; reset as a host operation is log entry 10). -/
def Obligations.ResetEvent : Prop :=
  ∀ s, fetchOp s = some .reset → ∃ t, step s = .next t ∧ (∀ off, t.readReg off = 0) ∧ (∀ h, t.mem.live h = false)
    ∧ t.status = 0 ∧ t.res = State.reset.res ∧ t.mips = State.reset.mips ∧ sameOracle s t ∧ hostAdvances s t
    ∧ t.alphaRampRule = s.alphaRampRule

/-- No step, and no reset, changes ALPHA_RAMP_RULE, and a register access cannot: it is a parameter fixed for a run
(70_reset_and_hazards R381). -/
def Obligations.RampRuleFixed : Prop := ∀ s t, step s = .next t → t.alphaRampRule = s.alphaRampRule

/-! ### Buffer space -/

/-- An allocation gives a handle that was not live and is not 0, whose buffer is n zero bytes, or FAIL; it touches no other
buffer (20_memory R91, 00_scope R12). Freeing takes exactly the freed handles out of Live (20_memory R92). The third clause is the
model's choice: the answers that are known come from a list in State, and the next of them is given where it is admissible (log
entry 3). -/
def Obligations.AllocAndFree : Prop :=
  (∀ (s t : State) (n : Nat) (h : Word), s.alloc n = (t, some h) →
    s.mem.live h = false ∧ h ≠ 0 ∧ t.mem.live h = true ∧ t.mem.len? h = some n
      ∧ (∀ j, j < n → t.mem.byte? h j = some 0) ∧ (∀ g, g ≠ h → sameBuffer s t g))
    ∧ (∀ (s t : State) (n : Nat), s.alloc n = (t, none) → sameBuffers s t)
    ∧ (∀ (s : State) (n : Nat) (h : Word) (rest : List (Option Word)), s.heap.answers = some h :: rest → h ≠ 0 →
        s.mem.live h = false → n ≤ Config.maxBufLen → ∃ t, s.alloc n = (t, some h) ∧ t.heap.answers = rest)
    ∧ (∀ (s : State) (hs : List Word) (h : Word),
        (h ∈ hs → (s.freeAll hs).mem.live h = false) ∧ (h ∉ hs → sameBuffer s (s.freeAll hs) h))

/-- Every access checks that h is live and off + n ≤ Len(h); a write puts byte i of the value at off + i and nothing else
changes; a read gives the little-endian value of the bytes (00_scope R15, 20_memory R93, R94). -/
def Obligations.MemoryAccess : Prop :=
  ∀ (m : Memory) (h : Word) (off n v : Nat),
    (m.inBounds h off n = true ↔ ∃ l, m.len? h = some l ∧ off + n ≤ l)
    ∧ ((m.read h off n).isSome = m.inBounds h off n)
    ∧ ((m.write h off n v).isSome = m.inBounds h off n)
    ∧ (∀ a, m.read h off n = some a → a < 2 ^ (8 * n)
        ∧ ∀ i, i < n → m.byte? h (off + i) = some (BitVec.ofNat 8 (a >>> (8 * i))))
    ∧ (∀ m', m.write h off n v = some m' → m'.read h off n = some (v % 2 ^ (8 * n))
        ∧ (∀ i, i < n → m'.byte? h (off + i) = some (BitVec.ofNat 8 (v >>> (8 * i))))
        ∧ (∀ g j, ¬ (g = h ∧ off ≤ j ∧ j < off + n) → m'.byte? g j = m.byte? g j)
        ∧ (∀ g, m'.len? g = m.len? g))

/-- The host's moves on buffers: HAlloc through the same oracle, HWrite and HRead under the bounds check, HFree of a live
handle; a move that fails its check is no move (20_memory R109). No register changes. The model's choice: a move that is none is
refused by name (log entry 11), a failing HAlloc leaves its name unbound, and a name that stands for nothing is refused (log
entry 13). -/
def Obligations.HostBufferMoves : Prop :=
  ∀ s : State,
    (∀ k n, fetchOp s = some (.halloc k n) → ∃ t, step s = .next t ∧ t.heap = (s.alloc n).1.heap
      ∧ t.hostVal (.name k) = (s.alloc n).2 ∧ sameRegisters s t)
    ∧ (∀ v h off bs, fetchOp s = some (.hwrite v off bs) → s.hostVal v = some h →
      (s.mem.inBounds h off bs.length = true → ∃ t, step s = .next t ∧ sameRegisters s t ∧ hostAdvances s t ∧ sameOracle s t
        ∧ (∀ i, i < bs.length → t.mem.byte? h (off + i) = some (bs.getD i 0))
        ∧ (∀ g j, ¬ (g = h ∧ off ≤ j ∧ j < off + bs.length) → t.mem.byte? g j = s.mem.byte? g j)
        ∧ (∀ g, t.mem.len? g = s.mem.len? g))
      ∧ (s.mem.inBounds h off bs.length = false → step s = .refused .bufferMoveOutsideBounds))
    ∧ (∀ v h off n, fetchOp s = some (.hread v off n) → s.hostVal v = some h →
      (s.mem.inBounds h off n = true → ∃ t bs, step s = .next t ∧ bs.length = n
        ∧ t.host.observed = .bytes bs :: s.host.observed ∧ onlyStatus s t ∧ t.status = s.status ∧ t.heap = s.heap
        ∧ (∀ i, i < n → s.mem.byte? h (off + i) = some (bs.getD i 0)))
      ∧ (s.mem.inBounds h off n = false → step s = .refused .bufferMoveOutsideBounds))
    ∧ (∀ v h, fetchOp s = some (.hfree v) → s.hostVal v = some h →
      (s.mem.live h = true → ∃ t, step s = .next t ∧ t.mem.live h = false ∧ (∀ g, g ≠ h → sameBuffer s t g)
        ∧ sameRegisters s t ∧ hostAdvances s t ∧ sameOracle s t)
      ∧ (s.mem.live h = false → step s = .refused .bufferMoveOutsideBounds))
    ∧ (∀ v off bs n, s.hostVal v = none →
      fetchOp s = some (.hwrite v off bs) ∨ fetchOp s = some (.hread v off n) ∨ fetchOp s = some (.hfree v) →
        step s = .refused .unboundHandleName)

/-! ### The colour model -/

/-- The rescale round trips of R152, over every stored value and every 8-bit value (40_color_model R150, R151, R152). -/
def Obligations.RescaleRoundTrips : Prop :=
  (∀ v < 256, narrow (expand v 8) 8 = v) ∧ (∀ c < 256, expand (narrow c 8) 8 = c)
    ∧ (∀ v < 64, narrow (expand v 6) 6 = if v ∈ [0, 21, 42, 63] then v else v - 1)
    ∧ (∀ c < 256, expand (narrow c 6) 6 ≤ c ∧ c ≤ expand (narrow c 6) 6 + 4)
    ∧ (∀ v < 32, narrow (expand v 5) 5 = if v ∈ [0, 31] then v else v - 1)
    ∧ (∀ c < 256, expand (narrow c 5) 5 ≤ c ∧ c ≤ expand (narrow c 5) 5 + 9)
    ∧ (∀ v < 16, narrow (expand v 4) 4 = v) ∧ (∀ c < 256, expand (narrow c 4) 4 ≤ c ∧ c ≤ expand (narrow c 4) 4 + 16)
    ∧ (∀ v < 2, narrow (expand v 1) 1 = v) ∧ (∀ c < 256, expand (narrow c 1) 1 ≤ c ∧ c ≤ expand (narrow c 1) 1 + 254)

/-- Encoding a colour as a direct item and decoding the item: each channel the format has is narrowed and expanded at its
width, a missing alpha reads 255, and luminance stands for R, G and B. The item fits the depth. And where each channel stands in
the item: slot k of Slots(f, o) is bits [p_k + w_k - 1 : p_k] of the word, where p_k is the sum of the widths below it, both when a
word is decoded and when a colour is encoded; luminance is bits [7:0] and the alpha of LUM_ALPHA bits [15:8]; the 555 pad bit is
written 0 and the 888/32 pad byte 0xFF (40_color_model R153 to R157). -/
def Obligations.DirectItemRoundTrip : Prop :=
  ∀ (f : Raster) (o : Order) (d : Nat) (c : Colour), d ∈ depthSet f → ¬ (o = .abgr ∧ refusesAbgr f = true) →
    encodeDirect f o d c < 2 ^ d
    ∧ (∀ k role w, (slots f o)[k]? = some (role, w) →
        let p := (((slots f o).take k).map Prod.snd).sum
        encodeDirect f o d c / 2 ^ p % 2 ^ w = narrow (channel c role).toNat w
        ∧ ∀ word : Nat, channel (decodeDirect f o word) role = BitVec.ofNat 8 (expand (word / 2 ^ p % 2 ^ w) w))
    ∧ (∀ word : Nat, roleWidth f .a = none → f ≠ .lumAlpha → (decodeDirect f o word).a = 255)
    ∧ (f = .r555 → encodeDirect f o d c < 2 ^ 15) ∧ (f = .r888 → d = 32 → encodeDirect f o d c / 2 ^ 24 = 0xFF)
    ∧ (f = .lum → encodeDirect f o d c = luminance c ∧ ∀ word : Nat, decodeDirect f o word
        = ⟨BitVec.ofNat 8 word, BitVec.ofNat 8 word, BitVec.ofNat 8 word, 255⟩)
    ∧ (f = .lumAlpha → encodeDirect f o d c = luminance c + 2 ^ 8 * c.a.toNat ∧ ∀ word : Nat, decodeDirect f o word
        = ⟨BitVec.ofNat 8 word, BitVec.ofNat 8 word, BitVec.ofNat 8 word, BitVec.ofNat 8 (word / 2 ^ 8)⟩)
    ∧ (f = .lum → decodeDirect f o (encodeDirect f o d c)
        = ⟨BitVec.ofNat 8 (luminance c), BitVec.ofNat 8 (luminance c), BitVec.ofNat 8 (luminance c), 255⟩)
    ∧ (f = .lumAlpha → decodeDirect f o (encodeDirect f o d c)
        = ⟨BitVec.ofNat 8 (luminance c), BitVec.ofNat 8 (luminance c), BitVec.ofNat 8 (luminance c), c.a⟩)
    ∧ (f ≠ .lum → f ≠ .lumAlpha → ∀ role,
        channel (decodeDirect f o (encodeDirect f o d c)) role
          = match roleWidth f role with
            | some w => BitVec.ofNat 8 (expand (narrow (channel c role).toNat w) w)
            | none => 255)

/-- The layout of the slots of every pair of format and order WF admits, low bits first (40_color_model R155). -/
def Obligations.SlotLayouts : Prop :=
  slots .r1555 .rgba = [(.r, 5), (.g, 5), (.b, 5), (.a, 1)] ∧ slots .r1555 .bgra = [(.b, 5), (.g, 5), (.r, 5), (.a, 1)]
    ∧ slots .r565 .rgba = [(.r, 5), (.g, 6), (.b, 5)] ∧ slots .r565 .bgra = [(.b, 5), (.g, 6), (.r, 5)]
    ∧ slots .r4444 .rgba = [(.r, 4), (.g, 4), (.b, 4), (.a, 4)] ∧ slots .r4444 .bgra = [(.b, 4), (.g, 4), (.r, 4), (.a, 4)]
    ∧ slots .r4444 .abgr = [(.a, 4), (.b, 4), (.g, 4), (.r, 4)]
    ∧ slots .r8888 .rgba = [(.r, 8), (.g, 8), (.b, 8), (.a, 8)] ∧ slots .r8888 .bgra = [(.b, 8), (.g, 8), (.r, 8), (.a, 8)]
    ∧ slots .r8888 .abgr = [(.a, 8), (.b, 8), (.g, 8), (.r, 8)]
    ∧ slots .r888 .rgba = [(.r, 8), (.g, 8), (.b, 8)] ∧ slots .r888 .bgra = [(.b, 8), (.g, 8), (.r, 8)]
    ∧ slots .r555 .rgba = [(.r, 5), (.g, 5), (.b, 5)] ∧ slots .r555 .bgra = [(.b, 5), (.g, 5), (.r, 5)]

/-! ### Texel commands -/

/-- RESOLVE_INDEX: its checks in order, each with its error; and otherwise RES0 is the index read from the texel's byte, the
nibble of even x the low one (40_color_model R163, R158, R159, 20_memory R96). -/
def Obligations.ResolveIndexCommand : Prop :=
  decode 0x00000001 = .ok .resolveIndex
    ∧ ∀ s : State,
    (firstRaise (resolveIndexChecks s) = none →
      ∃ b : Byte, s.mem.byte? (s.mip s.args[0].toNat).buf
          (s.args[2].toNat * pitch (s.lw s.args[0].toNat) s.imgDesc.depth.toNat s.imgDesc.rowAlign.toNat
            + (if s.imgDesc.depth = 4 then s.args[1].toNat / 2 else s.args[1].toNat)) = some b
        ∧ exec .resolveIndex s = .next ((s.setRes0 (BitVec.ofNat 32
            (if s.imgDesc.depth = 4 then (if s.args[1].toNat % 2 = 0 then b.toNat % 16 else b.toNat / 16)
             else if s.imgDesc.palMode = pal4 then b.toNat % 16 else b.toNat))).complete 0x01 false false))
    ∧ (∀ e, firstRaise (resolveIndexChecks s) = some e → exec .resolveIndex s = .next (s.raiseError 0x01 e false))

/-- FETCH_COLOR: its checks in order, each with its error; and otherwise RES0 is the colour and RES1 whether it was found: of
a direct image the texel's item decoded, of an indexed one the palette entry its index names, and NOCOLOR with RES1 = 0
when the index is not below PAL_COUNT (40_color_model R164, R161, 60_exceptions R355). -/
def Obligations.FetchColorCommand : Prop :=
  decode 0x00000002 = .ok .fetchColor
    ∧ ∀ s : State,
    (firstRaise (fetchColorChecks s) = none →
      (s.imgDesc.palMode = palNone → ∃ v,
        s.mem.read (s.mip s.args[0].toNat).buf
          (s.args[2].toNat * pitch (s.lw s.args[0].toNat) s.imgDesc.depth.toNat s.imgDesc.rowAlign.toNat
            + s.args[1].toNat * (s.imgDesc.depth.toNat / 8)) (s.imgDesc.depth.toNat / 8) = some v
        ∧ exec .fetchColor s = .next
            (((s.setRes0 (packColour (decodeDirect s.imgDesc.rasterF s.imgDesc.orderF v))).setRes1 1).complete 0x02 false false))
      ∧ (s.imgDesc.palMode ≠ palNone → ∃ item,
        readItem s.mem (s.mip s.args[0].toNat).buf (s.lw s.args[0].toNat) s.imgDesc s.args[1].toNat s.args[2].toNat = some item
        ∧ (s.palEntries ≤ indexOfItem s.imgDesc item →
            exec .fetchColor s = .next (((s.setRes0 0).setRes1 0).complete 0x02 false false))
        ∧ (indexOfItem s.imgDesc item < s.palEntries → ∃ v,
            s.mem.read s.palBuf (indexOfItem s.imgDesc item * (entryDepth s.imgDesc.rasterF / 8))
              (entryDepth s.imgDesc.rasterF / 8) = some v
            ∧ exec .fetchColor s = .next (((s.setRes0 (packColour
                (decodeDirect s.imgDesc.rasterF s.imgDesc.orderF v))).setRes1 1).complete 0x02 false false))))
    ∧ (∀ e, firstRaise (fetchColorChecks s) = some e → exec .fetchColor s = .next (s.raiseError 0x02 e false))

/-- STORE_COLOR: its checks in order, each with its error; and otherwise the item of unpack(ARG3) is written at the texel and
nothing else changes, HAS_ALPHA included (40_color_model R165, R162). -/
def Obligations.StoreColorCommand : Prop :=
  decode 0x00000003 = .ok .storeColor
    ∧ ∀ s : State,
    (firstRaise (storeColorChecks s) = none →
      ∃ m, s.mem.write (s.mip s.args[0].toNat).buf
          (s.args[2].toNat * pitch (s.lw s.args[0].toNat) s.imgDesc.depth.toNat s.imgDesc.rowAlign.toNat
            + s.args[1].toNat * (s.imgDesc.depth.toNat / 8)) (s.imgDesc.depth.toNat / 8)
          (encodeDirect s.imgDesc.rasterF s.imgDesc.orderF s.imgDesc.depth.toNat (unpackColour s.args[3])) = some m
        ∧ exec .storeColor s = .next ((s.setMem m).complete 0x03 false false))
    ∧ (∀ e, firstRaise (storeColorChecks s) = some e → exec .storeColor s = .next (s.raiseError 0x03 e false))

/-- On an 8888 image a colour stored and then fetched at the same texel is the colour stored
(40_color_model R152, R162, R161). -/
def Obligations.StoreThenFetch : Prop :=
  ∀ s : State, firstRaise (storeColorChecks s) = none → s.imgDesc.rasterF = .r8888 →
    ∃ t u, exec .storeColor s = .next t ∧ exec .fetchColor t = .next u ∧ u.errField = 0 ∧ u.res[0] = s.args[3]
      ∧ u.res[1] = 1

/-! ### Block commands -/

/-- DECODE_BLOCK, for each of the five types (commands decodeBlockDxt1 to decodeBlockDxt5): BoundsError unless the 8 or 16
bytes at (ARG0, ARG1) are inside the buffer; otherwise TB[t] is texel t of the decoded block, and nothing else changes
(41_block_codec R220). -/
def Obligations.DecodeBlockCommand : Prop :=
  (decode 0x00000104 = .ok .decodeBlockDxt1 ∧ decode 0x00000204 = .ok .decodeBlockDxt2
    ∧ decode 0x00000304 = .ok .decodeBlockDxt3 ∧ decode 0x00000404 = .ok .decodeBlockDxt4
    ∧ decode 0x00000504 = .ok .decodeBlockDxt5)
    ∧ ∀ (ty : BlockType) (s : State),
    blockBytes ty = (if ty = .dxt1 then 8 else 16)
    ∧ (s.mem.tooShort s.args[0] (s.args[1].toNat + blockBytes ty) = true →
        exec (decodeBlockInstr ty) s = .next (s.raiseError 0x04 ⟨.boundsError, 0, none⟩ false))
    ∧ (s.mem.tooShort s.args[0] (s.args[1].toNat + blockBytes ty) = false →
        ∃ (B : List Byte) (v : Vector Word 16), B.length = blockBytes ty
          ∧ (∀ j, j < blockBytes ty → s.mem.byte? s.args[0] (s.args[1].toNat + j) = some (B.getD j 0))
          ∧ (∀ t : Fin 16, v[t] = packColour ((decodeBlock s.alphaRampRule ty B).getD t Colour.none))
          ∧ exec (decodeBlockInstr ty) s = .next ((s.setTb v).complete 0x04 false false))

/-- The colour palette of a block: endpoints expanded from 565, the four-colour branch when col0 > col1 or the type is not
DXT1, else the midpoint and transparent black; and the colour of texel t is the entry its two bits select, all of it for DXT1,
its r, g and b for the other types. Which bits belong to which texel is the S3TC convention the spec gives as general knowledge
(41_block_codec R201, R204, R205, R206; log entry 9). -/
def Obligations.ColourPalette : Prop :=
  (∀ (ty : BlockType) (c0 c1 : Nat), c0 < 2 ^ 16 → c1 < 2 ^ 16 →
    let rgb := fun (c : Colour) => (c.r.toNat, c.g.toNat, c.b.toNat)
    let ex := fun (c : Nat) => (c / 2 ^ 11 * 255 / 31, c / 2 ^ 5 % 64 * 255 / 63, c % 32 * 255 / 31)
    let mix := fun (i j n : Nat) => ((i * (ex c0).1 + j * (ex c1).1) / n, (i * (ex c0).2.1 + j * (ex c1).2.1) / n,
      (i * (ex c0).2.2 + j * (ex c1).2.2) / n)
    let P := paletteEntry ty c0 c1
    rgb (P 0) = ex c0 ∧ (P 0).a = 255 ∧ rgb (P 1) = ex c1 ∧ (P 1).a = 255
      ∧ (c1 < c0 ∨ ty ≠ .dxt1 → rgb (P 2) = mix 2 1 3 ∧ (P 2).a = 255 ∧ rgb (P 3) = mix 1 2 3 ∧ (P 3).a = 255)
      ∧ (c0 ≤ c1 → ty = .dxt1 → rgb (P 2) = mix 1 1 2 ∧ (P 2).a = 255 ∧ P 3 = ⟨0, 0, 0, 0⟩))
    ∧ (∀ (rule : AlphaRampRule) (ty : BlockType) (B : List Byte) (t : Nat), t < 16 →
        let at' := fun (j : Nat) => (B.getD ((if ty = .dxt1 then 0 else 8) + j) 0).toNat
        let entry := paletteEntry ty (at' 0 + 256 * at' 1) (at' 2 + 256 * at' 3) (at' (4 + t / 4) / 4 ^ (t % 4) % 4)
        let c := decodeTexel rule ty B t
        c.r = entry.r ∧ c.g = entry.g ∧ c.b = entry.b ∧ (ty = .dxt1 → c.a = entry.a))

/-- The alpha ramps under both values of ALPHA_RAMP_RULE: which one, its entries, and that every entry is an 8-bit value; the
default is CANONICAL. The weights and the codes 6 and 7 are the S3TC convention the spec gives as general knowledge
(41_block_codec R207, R216; log entry 9). -/
def Obligations.AlphaRamps : Prop :=
  State.reset.alphaRampRule = .canonical
    ∧ ∀ (a0 a1 : Nat), a0 ≤ 255 → a1 ≤ 255 →
    let isRamp7 := fun (R : Nat → Nat) =>
      R 0 = a0 ∧ R 1 = a1 ∧ ∀ i, 2 ≤ i → i ≤ 7 → R i = ((8 - i) * a0 + (i - 1) * a1) / 7
    let isRamp5 := fun (R : Nat → Nat) =>
      R 0 = a0 ∧ R 1 = a1 ∧ (∀ i, 2 ≤ i → i ≤ 5 → R i = ((6 - i) * a0 + (i - 1) * a1) / 5) ∧ R 6 = 0 ∧ R 7 = 255
    (a1 < a0 → isRamp7 (alphaRamp .canonical a0 a1) ∧ isRamp5 (alphaRamp .orderSwapped a0 a1))
      ∧ (a0 ≤ a1 → isRamp5 (alphaRamp .canonical a0 a1) ∧ isRamp7 (alphaRamp .orderSwapped a0 a1))
      ∧ (∀ rule i, i < 8 → alphaRamp rule a0 a1 i ≤ 255)

/-- The alpha of a decoded texel: of DXT2 and DXT3 its nibble times 17, of DXT4 and DXT5 the ramp entry its three bits select.
DXT2 decodes exactly as DXT3 and DXT4 exactly as DXT5, and ALPHA_RAMP_RULE has no effect on DXT1, DXT2 and DXT3. Which bits
belong to which texel is the S3TC convention the spec gives as general knowledge (41_block_codec R202, R203, R208, R216; log
entry 9). -/
def Obligations.DecodedAlpha : Prop :=
  (∀ s, exec .decodeBlockDxt2 s = exec .decodeBlockDxt3 s ∧ exec .decodeBlockDxt4 s = exec .decodeBlockDxt5 s)
    ∧ (∀ (ty : BlockType) (r r' : AlphaRampRule) (B : List Byte), ty = .dxt1 ∨ ty = .dxt2 ∨ ty = .dxt3 →
        decodeBlock r ty B = decodeBlock r' ty B)
    ∧ (∀ (rule : AlphaRampRule) (B : List Byte) (t : Nat), t < 16 →
        let at' := fun (j : Nat) => (B.getD j 0).toNat
        let codes := at' 2 + 2 ^ 8 * at' 3 + 2 ^ 16 * at' 4 + 2 ^ 24 * at' 5 + 2 ^ 32 * at' 6 + 2 ^ 40 * at' 7
        (decodeTexel rule .dxt3 B t).a.toNat = at' (t / 2) / 16 ^ (t % 2) % 16 * 17
          ∧ (decodeTexel rule .dxt5 B t).a.toNat = alphaRamp rule (at' 0) (at' 1) (codes / 8 ^ t % 8))

/-- ENCODE_BLOCK: types DXT2 and DXT4 raise FormatError before anything else; for DXT1, DXT3 and DXT5 (commands
encodeBlockDxt1, encodeBlockDxt3, encodeBlockDxt5) BoundsError unless the 8 or 16 bytes at (ARG0, ARG1) are inside the
buffer, and otherwise the compressor's bytes for TB0..TB15 are written there and nothing else changes
(41_block_codec R209, R221). -/
def Obligations.EncodeBlockCommand : Prop :=
  (decode 0x00000105 = .ok .encodeBlockDxt1 ∧ decode 0x00000205 = .ok .encodeBlockDxt2
    ∧ decode 0x00000305 = .ok .encodeBlockDxt3 ∧ decode 0x00000405 = .ok .encodeBlockDxt4
    ∧ decode 0x00000505 = .ok .encodeBlockDxt5)
    ∧ ∀ s : State,
    exec .encodeBlockDxt2 s = .next (s.raiseError 0x05 ⟨.formatError, 0, none⟩ false)
    ∧ exec .encodeBlockDxt4 s = .next (s.raiseError 0x05 ⟨.formatError, 0, none⟩ false)
    ∧ (∀ ty, ty = .dxt1 ∨ ty = .dxt3 ∨ ty = .dxt5 →
      (s.mem.tooShort s.args[0] (s.args[1].toNat + blockBytes ty) = true →
        exec (encodeBlockInstr ty) s = .next (s.raiseError 0x05 ⟨.boundsError, 0, none⟩ false))
      ∧ (s.mem.tooShort s.args[0] (s.args[1].toNat + blockBytes ty) = false →
        ∃ m, s.mem.writeBytes s.args[0] s.args[1].toNat
            (compress s.alphaRampRule ty ((List.range 16).map (fun t => unpackColour (s.tbReg t)))) = some m
          ∧ exec (encodeBlockInstr ty) s = .next ((s.setMem m).complete 0x05 false false)))

/-- What may be assumed of the block compressor: P1, its length; P2, a uniform opaque colour that 565 can hold decodes back
exactly (00_scope R12, 41_block_codec R209). -/
def Obligations.CompressorProperties : Prop :=
  ∀ (rule : AlphaRampRule) (ty : BlockType) (grid : List Colour), ty = .dxt1 ∨ ty = .dxt3 ∨ ty = .dxt5 →
    (compress rule ty grid).length = (if ty = .dxt1 then 8 else 16)
    ∧ (∀ c, c < 2 ^ 16 → grid = List.replicate 16 (opaqueColour (expand565 c)) →
        decodeBlock rule ty (compress rule ty grid) = grid)

/-- A uniform opaque 565 colour in TB0..TB15, encoded to a buffer and decoded from it, leaves TB0..TB15 as they were
(41_block_codec R220, R221, 00_scope R12). -/
def Obligations.EncodeThenDecode : Prop :=
  ∀ (ty : BlockType) (s : State) (c : Nat), ty = .dxt1 ∨ ty = .dxt3 ∨ ty = .dxt5 → c < 2 ^ 16 →
    (∀ t : Fin 16, s.tb[t] = packColour (opaqueColour (expand565 c))) →
    s.mem.tooShort s.args[0] (s.args[1].toNat + blockBytes ty) = false →
    ∃ t u, exec (encodeBlockInstr ty) s = .next t ∧ exec (decodeBlockInstr ty) t = .next u ∧ t.errField = 0
      ∧ u.errField = 0 ∧ u.tb = s.tb

/-! ### The alpha scan -/

/-- What the alpha scan answers: for a compressed image whether some texel inside the logical dimensions decodes to an alpha
other than 255, for a direct one whether some texel has one, for an indexed one whether some palette entry that some texel
uses has one; an index that names no entry does not count (42_conversion_engine R275). -/
def Obligations.AlphaScanMeaning : Prop :=
  ∀ (s : State) (stage : Nat) (b : Bool), alphaScan stage s = .ok b →
    (∀ ty, compType s.imgDesc.comp = some ty → (b = true ↔
      ∃ i bx by' t B, i < s.levels ∧ bx < s.sw i / 4 ∧ by' < s.sh i / 4 ∧ t < 16
        ∧ 4 * bx + t % 4 < s.lw i ∧ 4 * by' + t / 4 < s.lh i
        ∧ readBlock s.mem (s.mip i).buf ty (s.sw i) bx by' = some B ∧ (decodeTexel s.alphaRampRule ty B t).a ≠ 255))
    ∧ (compType s.imgDesc.comp = none → s.imgDesc.palMode = palNone → (b = true ↔
      ∃ i x y c found, i < s.levels ∧ x < s.lw i ∧ y < s.lh i ∧ s.fetchLevel i x y = some (c, found) ∧ c.a ≠ 255))
    ∧ (compType s.imgDesc.comp = none → s.imgDesc.palMode ≠ palNone → (b = true ↔
      ∃ i x y item c, i < s.levels ∧ x < s.lw i ∧ y < s.lh i
        ∧ readItem s.mem (s.mip i).buf (s.lw i) s.imgDesc x y = some item ∧ indexOfItem s.imgDesc item < s.palEntries
        ∧ paletteColour s.mem s.imgDesc s.palBuf (indexOfItem s.imgDesc item) = some c ∧ c.a ≠ 255))

/-- ALPHA_SCAN: its checks in order, each with its error; and otherwise RES0 and HAS_ALPHA are the answer of the alpha scan,
which meets no access out of bounds (42_conversion_engine R284, 20_memory R93). -/
def Obligations.AlphaScanCommand : Prop :=
  decode 0x00000006 = .ok .alphaScan
    ∧ ∀ s : State,
    (firstRaise (alphaScanChecks s) = none →
      ∃ a, alphaScan 0 s = .ok a
        ∧ exec .alphaScan s = .next (((s.setRes0 (if a then 1 else 0)).setHasAlpha a).complete 0x06 false false))
    ∧ (∀ e, firstRaise (alphaScanChecks s) = some e → exec .alphaScan s = .next (s.raiseError 0x06 e false))

/-! ### CONVERT -/

/-- WF, clause by clause (10_state R53, R42). -/
def Obligations.WellFormedDescriptor : Prop :=
  ∀ D : Desc,
    let pixels := 1 ≤ D.raster.toNat ∧ D.raster.toNat ≤ 8 ∧ 1 ≤ D.rowAlign.toNat ∧ D.order.toNat ≤ 2
      ∧ ¬ (D.order = 2 ∧ (D.raster = 1 ∨ D.raster = 2 ∨ D.raster = 7 ∨ D.raster = 6))
    let depthOk := (D.raster.toNat ∈ [1, 2, 3, 7, 8] → D.depth.toNat = 16) ∧ (D.raster.toNat = 4 → D.depth.toNat = 8)
      ∧ (D.raster.toNat = 5 → D.depth.toNat = 32) ∧ (D.raster.toNat = 6 → D.depth.toNat = 24 ∨ D.depth.toNat = 32)
    D.wf = true ↔
      (D.comp.toNat = 0 ∧ D.palMode.toNat = 0 ∧ pixels ∧ depthOk)
      ∨ (D.comp.toNat = 0 ∧ D.palMode.toNat = 1 ∧ pixels ∧ (D.depth.toNat = 4 ∨ D.depth.toNat = 8))
      ∨ (D.comp.toNat = 0 ∧ D.palMode.toNat = 2 ∧ pixels ∧ D.depth.toNat = 8)
      ∨ (1 ≤ D.comp.toNat ∧ D.comp.toNat ≤ 5 ∧ D.palMode.toNat = 0 ∧ D.order.toNat ≤ 2)

/-- ValidateTarget and T', line by line (42_conversion_engine R251). -/
def Obligations.TargetValidation : Prop :=
  ∀ (S T : Desc) (ha : Bool),
    let entryFormat : BitVec 4 := if T.raster = 0 then (if ha then 5 else 6) else T.raster
    (rawTarget T ha = if T.comp = 0 ∧ T.palMode ≠ 0 then { T with raster := entryFormat } else T)
    ∧ (targetOk S T ha = true ↔
        T.comp ≠ 6 ∧ T.comp ≠ 7 ∧ T.palMode ≠ 3
        ∧ (T.comp ≠ 0 → T.palMode = 0 ∧ T.order.toNat ≤ 2 ∧ T.comp ≠ 2 ∧ T.comp ≠ 4 ∧ S.comp ≠ T.comp)
        ∧ (T.comp = 0 → T.palMode = 0 → T.wf = true)
        ∧ (T.comp = 0 → T.palMode ≠ 0 → { T with raster := entryFormat }.wf = true))

/-- CONVERT's entry: OwnershipError on a borrowed image; the identity fast path, which comes before the image checks and
changes nothing; then CheckHeader, CheckDistinct, CheckRawMip of each raw level and ValidateTarget, each with its error; and
then the pipeline (42_conversion_engine R250). -/
def Obligations.ConvertEntry : Prop :=
  ∀ s : State,
    (s.isStandalone = false → exec .convert s = .next (s.raiseError 0x07 ⟨.ownershipError, 0, none⟩ false))
    ∧ (s.isStandalone = true → s.imgDesc = s.tgtDesc → exec .convert s = .next (s.complete 0x07 false false))
    ∧ (s.isStandalone = true → s.imgDesc ≠ s.tgtDesc →
        (∀ e, firstRaise (convertChecks s) = some e → exec .convert s = .next (s.raiseError 0x07 e false))
        ∧ (firstRaise (convertChecks s) = none →
            exec .convert s = .next ((pipeline s s.tgtDesc s.rawTgt).finish 0x07)))

/-- CONVERT completes: from every state that is ready it gives a next state with ERR = 0 and all that R280 lists: the new
descriptor, the chain with every level's dimensions, size and buffer length, the palette, HAS_ALPHA, the ownership flags, and a
buffer store in which exactly the image's superseded buffers are gone and no other buffer has moved. And what the new buffers hold,
read off the source: every texel's item or index, every block, zeros in what no texel covers, every palette entry
(42_conversion_engine R280, R281, R276, R262, R265 to R267, R272, 41_block_codec R211, R212, 43_palettizer R305, R306). The model's
reading: the palette registers of a result that is not indexed (log entry 7), and after a cut the stages work on the levels that
stage 1 left (log entry 19). -/
def Obligations.ConvertCompletes : Prop :=
  ∀ s : State, MachineInv s → convertReady s → ∃ t, exec .convert s = .next t ∧ t.opcReported = 7 ∧ convertedTo s t

/-- The errors of CONVERT: OwnershipError and FormatError before any stage, CorruptDataError before any stage or of level 0 in
stage 1, AllocationError in stages 1 to 3; never BoundsError, and never one in stage 4. The premises leave out what log entries
6 and 8 name: a padded dimension of a compressed target that does not fit 16 bits, and a level whose handle is stale
(42_conversion_engine R282, 20_memory R93). -/
def Obligations.ConvertErrors : Prop :=
  ∀ s t : State, s.mem.wf = true → levelsLive s → (s.tgtDesc.comp ≠ 0 → paddedFit s) → exec .convert s = .next t → t.errField ≠ 0 →
    (t.errField = 5 ∧ t.stageField = 0 ∧ s.isStandalone = false)
    ∨ (t.errField = 1 ∧ t.stageField = 0)
    ∨ (t.errField = 2 ∧ (t.stageField = 0 ∨ (t.stageField = 1 ∧ t.mipField = 0)))
    ∨ (t.errField = 3 ∧ 1 ≤ t.stageField ∧ t.stageField ≤ 3)

/-- STATUS.CHANGED is 1 exactly when CONVERT succeeds and at least one stage ran (42_conversion_engine R281). -/
def Obligations.ChangedFlag : Prop :=
  ∀ s t : State, exec .convert s = .next t →
    (t.changedFlag = true ↔ t.errField = 0 ∧ s.imgDesc ≠ s.tgtDesc ∧ someStageRuns s = true)

/-- STATUS.TRUNCATED is 1 exactly when stage 1 cut the chain, whatever becomes of the later stages
(42_conversion_engine R261, R262, 60_exceptions R352). -/
def Obligations.TruncatedFlag : Prop :=
  ∀ s t : State, exec .convert s = .next t → t.levels ≤ s.levels ∧ t.truncatedFlag = decide (t.levels < s.levels)

/-- A stage that raises an error leaves the registers and every buffer as they were when it started, and nothing it allocated
live (42_conversion_engine R252). -/
def Obligations.FailedStageLeavesNoTrace : Prop :=
  ∀ (s : State) (ty : BlockType) (T T' : Desc) (e : Raise),
    ((stage1 s ty T).error = some e → onlyStatus s (stage1 s ty T).state ∧ (stage1 s ty T).state.status = s.status)
    ∧ ((stage2 s T').error = some e → onlyStatus s (stage2 s T').state ∧ (stage2 s T').state.status = s.status)
    ∧ ((stage3 s ty T).error = some e → onlyStatus s (stage3 s ty T).state ∧ (stage3 s ty T).state.status = s.status)

/-- Stage 1 fills a new buffer with every texel of the level inside its logical dimensions: texel t of its block, encoded in
the destination's format; it writes no padding and no other buffer (41_block_codec R211). -/
def Obligations.DecodeLevelTexels : Prop :=
  ∀ (s : State) (ty : BlockType) (i : Nat) (D : Desc) (h : Word),
    firstRaise (blockMipChecks s ty i 1) = none → D.wf = true → D.comp = 0 → D.palMode = palNone → h ≠ (s.mip i).buf →
    s.mem.inBounds h 0 (D.rawSize (s.lw i) (s.lh i)) = true →
    ∃ m, decodeLevel s ty i D h = some m
      ∧ (∀ x y, x < s.lw i → y < s.lh i → ∃ B, readBlock s.mem (s.mip i).buf ty (s.sw i) (x / 4) (y / 4) = some B
          ∧ readItem m h (s.lw i) D x y = some (encodeDirect D.rasterF D.orderF D.depth.toNat
              (decodeTexel s.alphaRampRule ty B (4 * (y % 4) + x % 4))))
      ∧ (∀ y j, y < s.lh i → rowBytes (s.lw i) D.depth.toNat ≤ j → j < D.pitch (s.lw i) →
          m.byte? h (y * D.pitch (s.lw i) + j) = s.mem.byte? h (y * D.pitch (s.lw i) + j))
      ∧ (∀ g, g ≠ h → m.find g = s.mem.find g)

/-- Stage 2, case (a): every texel of the new level is the texel fetched from the old one, a missing colour as NOCOLOR, encoded
in T'; no padding and no other buffer is written (42_conversion_engine R265, 60_exceptions R355). -/
def Obligations.RecodeLevelTexels : Prop :=
  ∀ (s : State) (i : Nat) (D : Desc) (h : Word),
    firstRaise (headerChecks s) = none → s.imgDesc.comp = 0 → firstRaise (rawMipChecks s i) = none →
    D.wf = true → D.comp = 0 → D.palMode = palNone → h ≠ (s.mip i).buf → (s.imgDesc.palMode ≠ palNone → h ≠ s.palBuf) →
    s.mem.inBounds h 0 (D.rawSize (s.lw i) (s.lh i)) = true →
    ∃ m, recodeLevel D s i h = some m
      ∧ (∀ x y, x < s.lw i → y < s.lh i → ∃ c found, s.fetchLevel i x y = some (c, found)
          ∧ readItem m h (s.lw i) D x y = some (encodeDirect D.rasterF D.orderF D.depth.toNat c))
      ∧ (∀ y j, y < s.lh i → rowBytes (s.lw i) D.depth.toNat ≤ j → j < D.pitch (s.lw i) →
          m.byte? h (y * D.pitch (s.lw i) + j) = s.mem.byte? h (y * D.pitch (s.lw i) + j))
      ∧ (∀ g, g ≠ h → m.find g = s.mem.find g)

/-- Stage 2's choice of case, and case (b): recode to a target that has no palette, repack where the source is indexed with the
target's entry format and order and a palette that fits the target's mode, palettize otherwise; and repacking makes every item of
the new level the index of the old level's item, cut to 4 bits when T' is PAL4, so that the upper nibble of an 8-bit PAL4 item is 0;
no padding, no unused nibble and no other buffer is written (42_conversion_engine R264, R266, 40_color_model R159, R160,
20_memory R95, R96, R100). -/
def Obligations.RepackLevelIndices : Prop :=
  (∀ (s : State) (D : Desc),
    let kept := s.imgDesc.palMode ≠ 0 ∧ s.imgDesc.raster = D.raster ∧ s.imgDesc.order = D.order
      ∧ s.palEntries ≤ (if D.palMode = 1 then 16 else 256)
    (D.palMode = 0 → stage2 s D = recode s D) ∧ (D.palMode ≠ 0 → kept → stage2 s D = repack s D)
      ∧ (D.palMode ≠ 0 → ¬ kept → stage2 s D = palettize s D))
  ∧ ∀ (s : State) (i : Nat) (D : Desc) (h : Word),
    firstRaise (headerChecks s) = none → s.imgDesc.comp = 0 → s.imgDesc.palMode ≠ palNone →
    firstRaise (rawMipChecks s i) = none → D.wf = true → D.comp = 0 → D.palMode ≠ palNone → h ≠ (s.mip i).buf →
    s.mem.inBounds h 0 (D.rawSize (s.lw i) (s.lh i)) = true →
    ∃ m, repackLevel D s i h = some m
      ∧ (∀ x y, x < s.lw i → y < s.lh i → ∃ item item',
          readItem s.mem (s.mip i).buf (s.lw i) s.imgDesc x y = some item ∧ readItem m h (s.lw i) D x y = some item'
          ∧ item' = (if D.palMode = pal4 then indexOfItem s.imgDesc item % 16 else indexOfItem s.imgDesc item)
          ∧ indexOfItem D item' = item')
      ∧ (∀ y j, y < s.lh i → rowBytes (s.lw i) D.depth.toNat ≤ j → j < D.pitch (s.lw i) →
          m.byte? h (y * D.pitch (s.lw i) + j) = s.mem.byte? h (y * D.pitch (s.lw i) + j))
      ∧ (D.depth = 4 → s.lw i % 2 = 1 → ∀ y, y < s.lh i → ∃ b b' : Byte,
          s.mem.byte? h (y * D.pitch (s.lw i) + s.lw i / 2) = some b ∧ m.byte? h (y * D.pitch (s.lw i) + s.lw i / 2) = some b'
          ∧ b'.toNat / 16 = b.toNat / 16)
      ∧ (∀ g, g ≠ h → m.find g = s.mem.find g)

/-- Stage 2, case (c): every index of a new level is the palette index of the texel fetched from the old one, below the palette's
length, so no index is masked; no padding, no unused nibble and no other buffer is written (43_palettizer R306, R307, R308,
20_memory R95, R96, R100). -/
def Obligations.IndexLevelIndices : Prop :=
  ∀ (s : State) (i : Nat) (D : Desc) (P : List Colour) (h : Word),
    firstRaise (headerChecks s) = none → s.imgDesc.comp = 0 → firstRaise (rawMipChecks s i) = none →
    D.wf = true → D.comp = 0 → D.palMode ≠ palNone → 1 ≤ P.length → P.length ≤ maxEntries D.palMode →
    h ≠ (s.mip i).buf → (s.imgDesc.palMode ≠ palNone → h ≠ s.palBuf) →
    s.mem.inBounds h 0 (D.rawSize (s.lw i) (s.lh i)) = true →
    ∃ m, indexLevel D P s i h = some m
      ∧ (∀ x y, x < s.lw i → y < s.lh i → ∃ c found, s.fetchLevel i x y = some (c, found)
          ∧ mapColour s.strategy P c < P.length ∧ readItem m h (s.lw i) D x y = some (mapColour s.strategy P c))
      ∧ (∀ y j, y < s.lh i → rowBytes (s.lw i) D.depth.toNat ≤ j → j < D.pitch (s.lw i) →
          m.byte? h (y * D.pitch (s.lw i) + j) = s.mem.byte? h (y * D.pitch (s.lw i) + j))
      ∧ (D.depth = 4 → s.lw i % 2 = 1 → ∀ y, y < s.lh i → ∃ b b' : Byte,
          s.mem.byte? h (y * D.pitch (s.lw i) + s.lw i / 2) = some b ∧ m.byte? h (y * D.pitch (s.lw i) + s.lw i / 2) = some b'
          ∧ b'.toNat / 16 = b.toNat / 16)
      ∧ (∀ g, g ≠ h → m.find g = s.mem.find g)

/-- Stage 3: every block of the new level is the compressor's answer for its sixteen texels, edges repeated outside the
logical dimensions; no other buffer is written (41_block_codec R210, R212). -/
def Obligations.EncodeLevelBlocks : Prop :=
  ∀ (s : State) (ty : BlockType) (i : Nat) (h : Word),
    firstRaise (headerChecks s) = none → s.imgDesc.comp = 0 → firstRaise (rawMipChecks s i) = none →
    h ≠ (s.mip i).buf → (s.imgDesc.palMode ≠ palNone → h ≠ s.palBuf) →
    s.mem.inBounds h 0 (roundup (s.lw i) 4 / 4 * (roundup (s.lh i) 4 / 4) * blockBytes ty) = true →
    ∃ m, encodeLevel ty s i h = some m
      ∧ (∀ bx by', bx < roundup (s.lw i) 4 / 4 → by' < roundup (s.lh i) 4 / 4 → ∃ G : List Colour, G.length = 16
          ∧ (∀ t, t < 16 → ∃ found, s.fetchLevel i (min (4 * bx + t % 4) (s.lw i - 1)) (min (4 * by' + t / 4) (s.lh i - 1))
              = some (G.getD t Colour.none, found))
          ∧ readBlock m h ty (roundup (s.lw i) 4) bx by' = some (compress s.alphaRampRule ty G))
      ∧ (∀ g, g ≠ h → m.find g = s.mem.find g)

/-! ### The palettizer -/

/-- The palette Build makes. PZ_CFG bit 0 chooses the strategy: the external quantizer's palette is Quantize(seed, N) and its map
is QMap (43_palettizer R303, 10_state R35), and 0 is linear elimination. Of a non-empty seed the palette has between 1 and N entries
and every index is below its length, for both strategies and whatever the oracles answer (43_palettizer R307). The seed is the colours of mip 0 in row-major order, a missing
colour as NOCOLOR, and nothing else (R301). After case (c) of stage 2 PAL_COUNT is the palette's length and the palette buffer holds
exactly its entries one after another, each the encoding of its colour in the entry format at the entry depth (43_palettizer R300,
R304, R305, 42_conversion_engine R267). -/
def Obligations.PaletteBound : Prop :=
  (∀ s : State, s.strategy = bit s.pzCfg 0)
  ∧ (∀ (seed : List Colour) (n : Nat), buildPalette true seed n = quantize seed n)
  ∧ (∀ (P : List Colour) (c : Colour), mapColour true P c = quantizerIndex P c)
  ∧ (∀ (external : Bool) (seed : List Colour) (n : Nat), seed ≠ [] → 1 ≤ n →
    1 ≤ (buildPalette external seed n).length ∧ (buildPalette external seed n).length ≤ n
      ∧ ∀ c, mapColour external (buildPalette external seed n) c < (buildPalette external seed n).length)
  ∧ (∀ s : State, firstRaise (headerChecks s) = none → s.imgDesc.comp = 0 →
      firstRaise (rawMipChecks s 0) = none →
      ∃ seed, paletteSeed s = some seed ∧ seed.length = s.lw 0 * s.lh 0
        ∧ ∀ x y, x < s.lw 0 → y < s.lh 0 → ∃ c found, s.fetchLevel 0 x y = some (c, found)
          ∧ seed[y * s.lw 0 + x]? = some c)
  ∧ (∀ (s t : State) (D : Desc) (seed : List Colour), firstRaise (headerChecks s) = none → s.imgDesc.comp = 0 →
      (∀ i, i < s.levels → firstRaise (rawMipChecks s i) = none) → D.wf = true → D.comp = 0 → D.palMode ≠ palNone →
      palettize s D = ⟨t, none⟩ → paletteSeed s = some seed →
      let P := buildPalette s.strategy seed (if D.palMode = 1 then 16 else 256)
      let eb := entryDepth D.rasterF / 8
      t.palEntries = P.length ∧ t.mem.len? t.palBuf = some (P.length * eb)
        ∧ ∀ j c, P[j]? = some c → t.mem.read t.palBuf (j * eb) eb
            = some (encodeDirect D.rasterF D.orderF (entryDepth D.rasterF) c))

/-- Linear elimination: the distinct colours of the seed in the order they first appear; that list as it stands when it fits, else
what Reduce makes of it; and an exact match at the lowest index where there is one, else Nearest (43_palettizer R302). -/
def Obligations.LinearElimination : Prop :=
  (∀ seed : List Colour, (∀ c, c ∈ distinctColours seed ↔ c ∈ seed)
      ∧ (distinctColours seed).Pairwise (fun a b => seed.idxOf a < seed.idxOf b))
    ∧ (∀ (seed : List Colour) (n : Nat),
        ((distinctColours seed).length ≤ n → buildPalette false seed n = distinctColours seed)
        ∧ (n < (distinctColours seed).length → buildPalette false seed n = reduceColours (distinctColours seed) n))
    ∧ (∀ (P : List Colour) (c : Colour),
        (c ∈ P → P[mapColour false P c]? = some c ∧ ∀ j, j < mapColour false P c → P[j]? ≠ some c)
        ∧ (c ∉ P → mapColour false P c = nearest P c))

/-! ### The negotiator -/

/-- NEGOTIATE: FormatError on reserved codes; an unsupported compression becomes its raw format, ABGR replaced by BGRA for 565
and 1555; an unsupported palette is dropped at the entry depth; everything else is returned unchanged
(44_negotiator R330, R332, 42_conversion_engine R271). -/
def Obligations.NegotiateCommand : Prop :=
  decode 0x00000008 = .ok .negotiate
    ∧ ∀ s : State,
    let S := s.imgDesc
    let comp := S.comp.toNat
    let unsupported := comp ≠ 0 ∧ bit s.caps (comp - 1) = false
    let V : Raster := if comp = 1 then (if s.hasAlpha then .r1555 else .r565) else if comp ≤ 3 then .r4444 else .r8888
    let answer := fun (T : Desc) => exec .negotiate s = .next ((s.setTgtFmt T.toWord).complete 0x08 false false)
    let fails := exec .negotiate s = .next (s.raiseError 0x08 ⟨.formatError, 0, none⟩ false)
    (comp = 6 ∨ comp = 7 ∨ S.palMode = 3 → fails)
      ∧ (¬ (comp = 6 ∨ comp = 7 ∨ S.palMode = 3) →
          (unsupported → answer ⟨V.code, BitVec.ofNat 8 (entryDepth V), S.rowAlign,
              (if S.order = 2 ∧ (V = .r565 ∨ V = .r1555) then 1 else S.order), 0, 0⟩)
          ∧ (¬ unsupported → S.palMode ≠ 0 → bit s.caps 5 = false →
              (1 ≤ S.raster.toNat ∧ S.raster.toNat ≤ 8 →
                answer ⟨S.raster, BitVec.ofNat 8 (entryDepth S.rasterF), S.rowAlign, S.order, 0, 0⟩)
              ∧ (¬ (1 ≤ S.raster.toNat ∧ S.raster.toNat ≤ 8) → fails))
          ∧ (¬ unsupported → (S.palMode = 0 ∨ bit s.caps 5 = true) → answer S))

/-- Negotiation applied to its own result with the same capabilities gives it back (44_negotiator R331). -/
def Obligations.NegotiateIdempotent : Prop :=
  ∀ (S T : Desc) (ha : Bool) (caps : Word), negotiateDesc S ha caps = .ok T → negotiateDesc T ha caps = .ok T

/-- NEGOTIATE_AND_CONVERT: an error of the negotiation, which is FormatError, ends it; otherwise TGT_FMT is written, stays written
whatever CONVERT answers, and the rest is CONVERT, STATUS differing only in OPC; and on a supported descriptor of an owned image it
takes the identity fast path (44_negotiator R333). -/
def Obligations.NegotiateThenConvert : Prop :=
  decode 0x00000009 = .ok .negotiateAndConvert
    ∧ ∀ s : State,
    (∀ e, negotiateDesc s.imgDesc s.hasAlpha s.caps = .error e →
      e.code = .formatError ∧ exec .negotiateAndConvert s = .next (s.raiseError 0x09 e false))
    ∧ (∀ T, negotiateDesc s.imgDesc s.hasAlpha s.caps = .ok T →
      (∃ u v, exec .negotiateAndConvert s = .next u ∧ exec .convert (s.setTgtFmt T.toWord) = .next v
        ∧ u = v.setStatus ((v.status &&& ~~~ (0x0000FF00 : Word)) ||| 0x00000900) ∧ u.tgtFmt = T.toWord)
      ∧ (T = s.imgDesc → s.isStandalone = true →
          exec .negotiateAndConvert s = .next ((s.setTgtFmt T.toWord).complete 0x09 false false)))

/-- NEGOTIATE_AND_CONVERT completes: where the negotiation succeeds and the CONVERT to its target is ready, it gives a next
state with ERR = 0 and what a successful CONVERT leaves, registers and contents (44_negotiator R333, 42_conversion_engine R280; log entries 7 and 19). -/
def Obligations.NegotiateAndConvertCompletes : Prop :=
  ∀ (s : State) (T : Desc), negotiateDesc s.imgDesc s.hasAlpha s.caps = .ok T → MachineInv s →
    convertReady (s.setTgtFmt T.toWord) →
    ∃ t, exec .negotiateAndConvert s = .next t ∧ t.opcReported = 9 ∧ t.tgtFmt = T.toWord
      ∧ convertedTo (s.setTgtFmt T.toWord) t

/-! ### RELEASE -/

/-- RELEASE: its checks in order, each with its error; and otherwise the image's buffers are freed exactly when the engine owns
them, no other buffer changes, and the image registers say that there is no image, with ACQUIRED = 0
(42_conversion_engine R285). -/
def Obligations.ReleaseCommand : Prop :=
  decode 0x0000000A = .ok .release
    ∧ ∀ s : State,
    (firstRaise (releaseChecks s) = none → ∃ t, exec .release s = .next t
      ∧ t.status = statusWord 0x0A none false false ∧ hostAdvances s t ∧ sameConfig s t ∧ sameOracle s t
      ∧ t.res = s.res ∧ t.tb = s.tb ∧ t.tgtFmt = s.tgtFmt ∧ t.imgFmt = s.imgFmt
      ∧ t.imgFlags = s.imgFlags &&& ~~~ (4 : Word) ∧ t.acquired = false
      ∧ t.mipCount = 0 ∧ t.palBuf = 0 ∧ t.palCount = 0 ∧ (∀ i : Fin 16, t.mips[i] = ⟨0, 0, 0, 0⟩)
      ∧ (s.isStandalone = true → s.acquired = false → ∀ h,
          (h ∈ s.imageHandles → s.mem.live h = true ∧ t.mem.live h = false) ∧ (h ∉ s.imageHandles → sameBuffer s t h))
      ∧ (¬ (s.isStandalone = true ∧ s.acquired = false) → sameBuffers s t))
    ∧ (∀ e, firstRaise (releaseChecks s) = some e → exec .release s = .next (s.raiseError 0x0A e false))

/-! ### What stays -/

/-- The frame over registers: which commands write which register, and that no command writes CAPS, PZ_CFG, ARG0..ARG7 or the
host's program (10_state R36, R38, R43, R47, R48, R49, 30_encoding R122, R130). -/
def Obligations.RegisterFrame : Prop :=
  ∀ (i : Instr) (s t : State), exec i s = .next t →
    sameConfig s t ∧ hostAdvances s t ∧ t.alphaRampRule = s.alphaRampRule
    ∧ ((∀ ty, i ≠ decodeBlockInstr ty) → t.tb = s.tb)
    ∧ (i ≠ .negotiate → i ≠ .negotiateAndConvert → t.tgtFmt = s.tgtFmt)
    ∧ (i ≠ .convert → i ≠ .negotiateAndConvert → t.imgFmt = s.imgFmt)
    ∧ (i ≠ .convert → i ≠ .negotiateAndConvert → i ≠ .release → sameImage s t)

/-- RES0..RES3: only RESOLVE_INDEX, FETCH_COLOR and ALPHA_SCAN write them, and not when they raise an error; RES2 and RES3 are
never written, RES1 only by FETCH_COLOR; the host cannot write them; they reset to 0 (10_state R37, 30_encoding R122). -/
def Obligations.ResultRegisters : Prop :=
  (∀ i : Fin 4, State.reset.res[i] = 0)
    ∧ (∀ (i : Instr) (s t : State), exec i s = .next t →
        (i ≠ .resolveIndex → i ≠ .fetchColor → i ≠ .alphaScan → t.res = s.res)
        ∧ (t.errField ≠ 0 → t.res = s.res)
        ∧ t.res[2] = s.res[2] ∧ t.res[3] = s.res[3] ∧ (i ≠ .fetchColor → t.res[1] = s.res[1]))
    ∧ (∀ (s t : State) (off : Nat) (v : Word), fetchOp s = some (.wr off (.lit v)) → off ≠ 0 → step s = .next t →
        t.res = s.res)

/-- IMG_FLAGS: no command writes IS_STANDALONE or a reserved bit; only RELEASE writes ACQUIRED; only CONVERT,
NEGOTIATE_AND_CONVERT and ALPHA_SCAN write HAS_ALPHA; a command that raises an error writes no bit of it (10_state R44, R51). -/
def Obligations.ImageFlags : Prop :=
  ∀ (i : Instr) (s t : State), exec i s = .next t →
    t.isStandalone = s.isStandalone ∧ (∀ k, 3 ≤ k → bit t.imgFlags k = bit s.imgFlags k)
    ∧ (i ≠ .release → t.acquired = s.acquired)
    ∧ (i ≠ .convert → i ≠ .negotiateAndConvert → i ≠ .alphaScan → t.hasAlpha = s.hasAlpha)
    ∧ (t.errField ≠ 0 → t.imgFlags = s.imgFlags)

/-- The frame over buffers. RESOLVE_INDEX, FETCH_COLOR, DECODE_BLOCK, ALPHA_SCAN and NEGOTIATE change no byte. STORE_COLOR
changes no byte outside the item of its texel, ENCODE_BLOCK none outside its block. RELEASE, CONVERT and
NEGOTIATE_AND_CONVERT change no live buffer that the image does not name
(30_encoding R122, 20_memory R92, R100, 42_conversion_engine R280). -/
def Obligations.BufferFrame : Prop :=
  ∀ (i : Instr) (s t : State), exec i s = .next t →
    ((i = .resolveIndex ∨ i = .fetchColor ∨ i = .alphaScan ∨ i = .negotiate ∨ ∃ ty, i = decodeBlockInstr ty) → sameBuffers s t)
    ∧ (i = .storeColor → (∀ g, t.mem.len? g = s.mem.len? g)
        ∧ ∀ g j, ¬ (g = (s.mip s.args[0].toNat).buf
            ∧ s.args[2].toNat * s.imgDesc.pitch (s.lw s.args[0].toNat) + s.args[1].toNat * (s.imgDesc.depth.toNat / 8) ≤ j
            ∧ j < s.args[2].toNat * s.imgDesc.pitch (s.lw s.args[0].toNat) + s.args[1].toNat * (s.imgDesc.depth.toNat / 8)
                + s.imgDesc.depth.toNat / 8) →
          t.mem.byte? g j = s.mem.byte? g j)
    ∧ (∀ ty, i = encodeBlockInstr ty → (∀ g, t.mem.len? g = s.mem.len? g)
        ∧ ∀ g j, ¬ (g = s.args[0] ∧ s.args[1].toNat ≤ j ∧ j < s.args[1].toNat + blockBytes ty) →
          t.mem.byte? g j = s.mem.byte? g j)
    ∧ (i = .release ∨ i = .convert ∨ i = .negotiateAndConvert →
        ∀ h, h ≠ 0 → s.mem.live h = true → h ∉ s.imageHandles → sameBuffer s t h)

/-! ### Errors -/

/-- What STATUS reads after a command: ERR the code of the error raised or 0, OPC, STAGE and MIP as the error names them or 0,
MIP 31 when it names no level, CHANGED and TRUNCATED, and 0 in every reserved bit (60_exceptions R350, R352, 10_state R33). -/
def Obligations.StatusFields : Prop :=
  ∀ (s : State) (opc : Byte) (changed truncated : Bool),
    (let t := s.complete opc changed truncated
     t.errField = 0 ∧ t.opcReported = opc.toNat ∧ t.stageField = 0 ∧ t.mipField = 0 ∧ t.changedFlag = changed
       ∧ t.truncatedFlag = truncated ∧ t.status &&& 0xFE0000C0 = 0)
    ∧ (∀ e : Raise, e.stage ≤ 4 → (∀ k, e.mip = some k → k < 16) →
        let t := s.raiseError opc e truncated
        t.errField = (match e.code with
          | .formatError => 1 | .corruptDataError => 2 | .allocationError => 3 | .illegalCommand => 4
          | .ownershipError => 5 | .boundsError => 6)
        ∧ t.opcReported = opc.toNat ∧ t.stageField = e.stage ∧ t.mipField = e.mip.getD 31 ∧ t.changedFlag = false
        ∧ t.truncatedFlag = truncated ∧ t.status &&& 0xFE0000C0 = 0)

/-- The state after an error. Of a command other than CONVERT and NEGOTIATE_AND_CONVERT: nothing but STATUS has changed, and
nothing has been freed. Of CONVERT: the image as the last committed stage left it, or unchanged. Of NEGOTIATE_AND_CONVERT:
unchanged if the negotiation fails; otherwise TGT_FMT stays written, and then as CONVERT
(60_exceptions R353). -/
def Obligations.StateAfterError : Prop :=
  ∀ (i : Instr) (s t : State), exec i s = .next t → t.errField ≠ 0 →
    hostAdvances s t
    ∧ (i ≠ .convert → i ≠ .negotiateAndConvert → onlyStatus s t ∧ sameOracle s t)
    ∧ (i = .convert → convertErrorState s t)
    ∧ (i = .negotiateAndConvert →
        (∀ e, negotiateDesc s.imgDesc s.hasAlpha s.caps = .error e → onlyStatus s t)
        ∧ (∀ T, negotiateDesc s.imgDesc s.hasAlpha s.caps = .ok T → convertErrorState (s.setTgtFmt T.toWord) t))

/-! ### Whole-machine rules -/

/-- Only NEGOTIATE and NEGOTIATE_AND_CONVERT read CAPS: any other command does the same whatever CAPS holds (10_state R34). -/
def Obligations.CapsUnread : Prop :=
  ∀ (i : Instr) (s t : State) (c : Word), i ≠ .negotiate → i ≠ .negotiateAndConvert → exec i s = .next t →
    exec i { s with caps := c } = .next { t with caps := c }

/-- Every step keeps the invariant: the buffer store in canonical form, reserved bits 0, STATUS as its table says, from every
state that has it (10_state R30, R33, 20_memory R90, R102, 60_exceptions R352). -/
def Obligations.EveryStepKeepsInv : Prop := ∀ s t : State, MachineInv s → step s = .next t → MachineInv t

/-- The state after reset has the invariant (70_reset_and_hazards R380). -/
def Obligations.ResetHasInv : Prop := MachineInv State.reset

end
end

