-- ==== Sys2Proof/Laws/Checks.lean ====
section
/-! SUPPORT. The checks of the commands: each is the first error of the list Sys2Proof/Safety.lean writes out
(spec/10_state.md R54 to R57, spec/60_exceptions.md R354), and what holds when a list has none. -/

namespace Sys2Proof.Machine

/-- The outcome of a check that raises the given error. -/
def raising : Option Raise → Except Raise Unit
  | none => .ok ()
  | some e => .error e

theorem firstRaise_append (a b : List Check) :
    firstRaise (a ++ b) = match firstRaise a with | none => firstRaise b | some e => some e := by
  induction a with
  | nil => rfl
  | cons c a ih => obtain ⟨f, e⟩ := c; cases f <;> simp [firstRaise, ih]

theorem firstRaise_append_none {a b : List Check} :
    firstRaise (a ++ b) = none ↔ firstRaise a = none ∧ firstRaise b = none := by
  rw [firstRaise_append]; cases firstRaise a <;> simp

@[simp] theorem firstRaise_nil : firstRaise [] = none := rfl

theorem firstRaise_cons (f : Bool) (e : Raise) (rest : List Check) :
    firstRaise ((f, e) :: rest) = if f then some e else firstRaise rest := rfl

theorem firstRaise_cons_none {f : Bool} {e : Raise} {rest : List Check} :
    firstRaise ((f, e) :: rest) = none ↔ f = false ∧ firstRaise rest = none := by
  cases f <;> simp [firstRaise]

theorem firstRaise_mem {l : List Check} {e : Raise} (h : firstRaise l = some e) : ∃ c ∈ l, c.2 = e := by
  induction l with
  | nil => simp at h
  | cons c l ih =>
    obtain ⟨f, e'⟩ := c
    cases f
    · obtain ⟨c, hc, he⟩ := ih h; exact ⟨c, by simp [hc], he⟩
    · exact ⟨(true, e'), by simp, by simpa [firstRaise] using h⟩

theorem firstRaise_flatMap_none {α : Type} {l : List α} {g : α → List Check} :
    firstRaise (l.flatMap g) = none ↔ ∀ a ∈ l, firstRaise (g a) = none := by
  induction l with
  | nil => simp
  | cons a l ih => simp [List.flatMap_cons, firstRaise_append_none, ih]

/-- "h is live and holds at least n bytes" is the negation of "h is not live or too short". -/
theorem holds_eq (m : Memory) (h : Word) (n : Nat) : m.holds h n = !m.tooShort h n := by
  unfold Memory.holds Memory.inBounds Memory.tooShort Memory.len?
  cases m.find h with
  | none => rfl
  | some b =>
    by_cases hb : n ≤ b.len
    · simp [hb, Nat.not_lt.2 hb]
    · simp [hb, Nat.not_le.1 hb]

theorem checkHeader_eq (s : State) : checkHeader s = raising (firstRaise (headerChecks s)) := by
  unfold checkHeader headerChecks
  simp only [firstRaise_cons, firstRaise_nil, holds_eq]
  by_cases h1 : s.levels = 0 ∨ 16 < s.levels
  · simp [h1, raising]
  · by_cases h2 : s.imgDesc.comp = 6 ∨ s.imgDesc.comp = 7
    · simp only [h1, if_false, decide_false, Bool.false_eq_true, h2, decide_true, if_true, raising]
      rw [if_pos]; simpa [Desc.reservedComp] using h2
    · have h2' : s.imgDesc.reservedComp = false := by simpa [Desc.reservedComp] using h2
      simp only [h1, if_false, decide_false, Bool.false_eq_true, h2, h2']
      by_cases h3 : s.imgDesc.wf <;> simp only [h3, Bool.not_true, Bool.not_false, Bool.false_eq_true, if_false, if_true, raising]
      by_cases h4 : s.imgDesc.palMode = palNone
      · simp [h4, raising]
      · by_cases h5 : maxEntries s.imgDesc.palMode < s.palEntries
        · simp [h4, h5, raising]
        · cases h6 : s.mem.tooShort s.palBuf (s.palEntries * (entryDepth s.imgDesc.rasterF / 8)) <;>
            simp [h4, h5, h6, raising, Desc.entryBytes]

theorem checkRawMip_eq (s : State) (i : Nat) : checkRawMip s i = raising (firstRaise (rawMipChecks s i)) := by
  unfold checkRawMip rawMipChecks
  simp only [firstRaise_cons, firstRaise_nil, holds_eq]
  by_cases h1 : s.lw i = 0 ∨ s.lh i = 0
  · simp [h1, raising]
  · by_cases h2 : s.sw i ≠ s.lw i ∨ s.sh i ≠ s.lh i
    · simp [h1, h2, raising]
    · by_cases h3 : (s.mip i).size.toNat ≠ pitch (s.lw i) s.imgDesc.depth.toNat s.imgDesc.rowAlign.toNat * s.lh i
      · simp [h1, h2, h3, raising, Desc.rawSize, rawSize]
      · cases h4 : s.mem.tooShort (s.mip i).buf (s.mip i).size.toNat <;>
          simp [h1, h2, h3, raising, Desc.rawSize, rawSize]

theorem checkBlockMip_eq (s : State) (t : BlockType) (i st : Nat) :
    checkBlockMip s t i st = raising (firstRaise (blockMipChecks s t i st)) := by
  unfold checkBlockMip blockMipChecks
  simp only [firstRaise_cons, firstRaise_nil, holds_eq]
  by_cases h1 : s.lw i = 0 ∨ s.lh i = 0 ∨ s.sw i % 4 ≠ 0 ∨ s.sh i % 4 ≠ 0 ∨ s.sw i < s.lw i ∨ s.sh i < s.lh i
  · simp only [h1, if_true, decide_true, raising]
  · by_cases h2 : (s.mip i).size.toNat ≠ s.sw i / 4 * (s.sh i / 4) * blockBytes t
    · simp only [h1, if_false, decide_false, Bool.false_eq_true, h2, if_true, decide_true, raising]; simp [h2]
    · cases h3 : s.mem.tooShort (s.mip i).buf (s.mip i).size.toNat
      · simp only [h1, if_false, decide_false, Bool.false_eq_true, h2, Bool.not_false, if_true, raising]
      · simp only [h1, if_false, decide_false, Bool.false_eq_true, h2, Bool.not_true, if_true, raising]

theorem checkEach_eq {f : Nat → Except Raise Unit} {g : Nat → List Check} (hf : ∀ i, f i = raising (firstRaise (g i)))
    (l : List Nat) : checkEach f l = raising (firstRaise (l.flatMap g)) := by
  induction l with
  | nil => rfl
  | cons i l ih =>
    simp only [checkEach, hf, List.flatMap_cons, firstRaise_append]
    cases firstRaise (g i) with
    | none => simpa [raising] using ih
    | some e => rfl

theorem checkDistinct_eq (s : State) : checkDistinct s = raising (firstRaise [distinctCheck s]) := by
  unfold checkDistinct distinctCheck
  by_cases h : s.imageHandles.Nodup <;> simp [h, firstRaise, raising]

/-! ### What a list with no error says -/

theorem tooShort_false {m : Memory} {h : Word} {n : Nat} : m.tooShort h n = false ↔ m.inBounds h 0 n = true := by
  have := holds_eq m h n
  unfold Memory.holds at this
  rw [this]; simp

theorem header_ok {s : State} (h : firstRaise (headerChecks s) = none) :
    1 ≤ s.levels ∧ s.levels ≤ 16 ∧ s.imgDesc.wf = true
      ∧ (s.imgDesc.palMode ≠ palNone → s.palEntries ≤ maxEntries s.imgDesc.palMode
          ∧ s.mem.inBounds s.palBuf 0 (s.palEntries * s.imgDesc.entryBytes) = true) := by
  simp only [headerChecks, firstRaise_cons_none, decide_eq_false_iff_not, Bool.not_eq_false', Bool.and_eq_false_imp,
    decide_eq_true_eq, tooShort_false] at h
  obtain ⟨h1, -, h3, h4, h5, -⟩ := h
  refine ⟨by omega, by omega, h3, fun hp => ⟨Nat.not_lt.1 (h4 hp), h5 hp⟩⟩

theorem rawMip_ok {s : State} {i : Nat} (h : firstRaise (rawMipChecks s i) = none) :
    0 < s.lw i ∧ 0 < s.lh i ∧ s.sw i = s.lw i ∧ s.sh i = s.lh i
      ∧ (s.mip i).size.toNat = s.imgDesc.rawSize (s.lw i) (s.lh i)
      ∧ s.mem.inBounds (s.mip i).buf 0 (s.imgDesc.rawSize (s.lw i) (s.lh i)) = true := by
  simp only [rawMipChecks, firstRaise_cons_none, decide_eq_false_iff_not, tooShort_false, not_or, ne_eq, not_not] at h
  obtain ⟨⟨h1, h2⟩, ⟨h3, h4⟩, h5, h6, -⟩ := h
  refine ⟨by omega, by omega, h3, h4, h5, ?_⟩
  rw [h5] at h6; exact h6

theorem blockMip_ok {s : State} {t : BlockType} {i st : Nat} (h : firstRaise (blockMipChecks s t i st) = none) :
    0 < s.lw i ∧ 0 < s.lh i ∧ s.sw i % 4 = 0 ∧ s.sh i % 4 = 0 ∧ s.lw i ≤ s.sw i ∧ s.lh i ≤ s.sh i
      ∧ (s.mip i).size.toNat = s.sw i / 4 * (s.sh i / 4) * blockBytes t
      ∧ s.mem.inBounds (s.mip i).buf 0 (s.sw i / 4 * (s.sh i / 4) * blockBytes t) = true := by
  simp only [blockMipChecks, firstRaise_cons_none, decide_eq_false_iff_not, tooShort_false, not_or, ne_eq, not_not] at h
  obtain ⟨⟨h1, h2, h3, h4, h5, h6⟩, h7, h8, -⟩ := h
  refine ⟨by omega, by omega, h3, h4, by omega, by omega, h7, ?_⟩
  rw [h7] at h8; exact h8

end Sys2Proof.Machine
end

