-- ==== Sys2Proof/Laws/Memory.lean ====
section
/-! SUPPORT. The laws of the buffer store: a read after a write, what a write leaves alone, what Alloc and Free do to it
(spec/20_memory.md R91 to R94), and that every memory operation keeps the canonical form. -/

namespace Sys2Proof.Machine

/-! ### Cells -/

theorem readCell_insertCell (cells : List Host.Cell) (k : Nat) (v : Byte) (j : Nat) :
    readCell (insertCell cells k v) j = if k = j then v else readCell cells j := by
  induction cells with
  | nil => simp [insertCell, readCell]
  | cons c t ih =>
    obtain ⟨a, b⟩ := c
    simp only [insertCell]
    split
    · simp [readCell]
    · split
      · subst_vars; simp only [readCell]; split <;> rfl
      · simp only [readCell, ih]; split <;> split <;> simp_all

theorem readCell_filter (cells : List Host.Cell) (k j : Nat) :
    readCell (cells.filter (fun c => decide (c.1 ≠ k))) j = if k = j then 0 else readCell cells j := by
  induction cells with
  | nil => simp [readCell]
  | cons c t ih =>
    obtain ⟨a, b⟩ := c
    by_cases h : a = k
    · subst h
      by_cases hj : a = j <;> simp [readCell, hj] at ih ⊢ <;> exact ih
    · by_cases hj : a = j
      · subst hj; simp [readCell, h, Ne.symm h]
      · by_cases hk : k = j <;> simp [readCell, h, hj, hk] at ih ⊢ <;> exact ih

/-- A byte read after one byte is written. -/
theorem readCell_writeCell (cells : List Host.Cell) (k : Nat) (v : Byte) (j : Nat) :
    readCell (writeCell cells k v) j = if k = j then v else readCell cells j := by
  unfold writeCell
  split
  · next h => subst h; rw [readCell_filter]
  · exact readCell_insertCell ..

/-- A byte read after a run of bytes is written: inside the run the byte written, outside it what stood there. -/
theorem readCell_writeCells (bs : List Byte) : ∀ (cells : List Host.Cell) (k j : Nat),
    readCell (writeCells cells k bs) j
      = if k ≤ j ∧ j < k + bs.length then bs.getD (j - k) 0 else readCell cells j := by
  induction bs with
  | nil => intro cells k j; rw [if_neg (by simp only [List.length_nil]; omega)]; rfl
  | cons b bs ih =>
    intro cells k j
    simp only [writeCells, ih, readCell_writeCell, List.length_cons]
    by_cases h : k = j
    · subst h; simp
    · by_cases h2 : k + 1 ≤ j ∧ j < k + 1 + bs.length
      · rw [if_pos h2, if_pos (by omega)]
        rw [show j - k = (j - (k + 1)) + 1 by omega, List.getD_cons_succ]
      · rw [if_neg h2, if_neg h, if_neg (by omega)]

theorem cellsWf_weaken {n lo lo' : Nat} {cells : List Host.Cell} (h : cellsWf n lo cells = true) (hl : lo' ≤ lo) :
    cellsWf n lo' cells = true := by
  cases cells with
  | nil => rfl
  | cons c t =>
    obtain ⟨a, b⟩ := c
    simp only [cellsWf, Bool.and_eq_true, decide_eq_true_eq] at h ⊢
    exact ⟨⟨⟨by omega, h.1.1.2⟩, h.1.2⟩, h.2⟩

theorem cellsWf_filter {n : Nat} (p : Host.Cell → Bool) : ∀ {lo : Nat} {cells : List Host.Cell},
    cellsWf n lo cells = true → cellsWf n lo (cells.filter p) = true := by
  intro lo cells
  induction cells generalizing lo with
  | nil => intro _; rfl
  | cons c t ih =>
    obtain ⟨a, b⟩ := c
    intro h
    simp only [cellsWf, Bool.and_eq_true, decide_eq_true_eq] at h
    simp only [List.filter_cons]
    split
    · simp only [cellsWf, Bool.and_eq_true, decide_eq_true_eq]
      exact ⟨h.1, ih h.2⟩
    · exact ih (cellsWf_weaken h.2 (by omega))

theorem cellsWf_insertCell {n k : Nat} {v : Byte} (hk : k < n) (hv : v ≠ 0) : ∀ {lo : Nat} {cells : List Host.Cell},
    lo ≤ k → cellsWf n lo cells = true → cellsWf n lo (insertCell cells k v) = true := by
  intro lo cells
  induction cells generalizing lo with
  | nil => intro hl _; simpa [insertCell, cellsWf, hl, hk] using hv
  | cons c t ih =>
    obtain ⟨a, b⟩ := c
    intro hl h
    simp only [cellsWf, Bool.and_eq_true, decide_eq_true_eq] at h
    simp only [insertCell]
    split
    · simp only [cellsWf, Bool.and_eq_true, decide_eq_true_eq]
      exact ⟨⟨⟨hl, hk⟩, hv⟩, ⟨⟨by omega, h.1.1.2⟩, h.1.2⟩, h.2⟩
    · split
      · subst_vars
        simp only [cellsWf, Bool.and_eq_true, decide_eq_true_eq]
        exact ⟨⟨⟨hl, hk⟩, hv⟩, h.2⟩
      · simp only [cellsWf, Bool.and_eq_true, decide_eq_true_eq]
        exact ⟨h.1, ih (by omega) h.2⟩

theorem cellsWf_writeCell {n k : Nat} {v : Byte} {cells : List Host.Cell} (hk : k < n)
    (h : cellsWf n 0 cells = true) : cellsWf n 0 (writeCell cells k v) = true := by
  unfold writeCell
  split
  · exact cellsWf_filter _ h
  · next hv => exact cellsWf_insertCell hk hv (Nat.zero_le _) h

theorem cellsWf_writeCells {n : Nat} (bs : List Byte) : ∀ {k : Nat} {cells : List Host.Cell},
    k + bs.length ≤ n → cellsWf n 0 cells = true → cellsWf n 0 (writeCells cells k bs) = true := by
  induction bs with
  | nil => intro k cells _ h; exact h
  | cons b bs ih =>
    intro k cells hk h
    simp only [List.length_cons] at hk
    exact ih (by omega) (cellsWf_writeCell (by omega) h)

/-! ### Little-endian values -/

@[simp] theorem leBytes_length (n v : Nat) : (leBytes n v).length = n := by
  induction n generalizing v with
  | zero => rfl
  | succ n ih => simp [leBytes, ih]

/-- The value of the bytes written is the value, cut to the width. -/
theorem leValue_leBytes (n v : Nat) : leValue (leBytes n v) = v % 2 ^ (8 * n) := by
  induction n generalizing v with
  | zero => simp [leBytes, leValue, Nat.mod_one]
  | succ n ih =>
    simp only [leBytes, leValue, ih, BitVec.toNat_ofNat]
    rw [show 8 * (n + 1) = 8 + 8 * n by ring, pow_add, Nat.mod_mul]

theorem leValue_lt (bs : List Byte) : leValue bs < 2 ^ (8 * bs.length) := by
  induction bs with
  | nil => simp [leValue]
  | cons b bs ih =>
    simp only [leValue, List.length_cons]
    rw [show 8 * (bs.length + 1) = 8 * bs.length + 8 by ring, pow_add]
    have := b.isLt
    omega

/-! ### Looking a buffer up -/

theorem find_handle {m : Memory} {h : Word} {b : Buffer} (hf : m.find h = some b) : b.handle = h := by
  have := List.find?_some hf
  simpa using this

theorem find_put (m : Memory) (h : Word) (off : Nat) (bs : List Byte) (g : Word) :
    (m.put h off bs).find g = (m.find g).map (fun b => if g = h then b.write off bs else b) := by
  obtain ⟨bufs⟩ := m
  simp only [Memory.put, Memory.find]
  induction bufs with
  | nil => rfl
  | cons c t ih =>
    simp only [List.map_cons, List.find?_cons]
    by_cases hc : c.handle = h
    · by_cases hg : c.handle = g
      · have : g = h := hg ▸ hc
        simp [hc, this, Buffer.write]
      · have : (if c.handle = h then c.write off bs else c).handle = c.handle := by split <;> rfl
        simp [this, hg, ih]
    · by_cases hg : c.handle = g
      · have : g ≠ h := fun e => hc (hg.trans e)
        simp [hc, hg, this]
      · simp [hc, hg, ih]

theorem find_insert {m : Memory} {h : Word} {n : Nat} (hl : m.live h = false) (g : Word) :
    (m.insert h n).find g = if g = h then some ⟨h, n, []⟩ else m.find g := by
  obtain ⟨bufs⟩ := m
  simp only [Memory.live, Memory.find, Memory.insert, Option.isSome_eq_false_iff, Option.isNone_iff_eq_none] at hl ⊢
  induction bufs with
  | nil => simp [insertBuffer, eq_comm]
  | cons c t ih =>
    simp only [List.find?_cons] at hl
    have hc : c.handle ≠ h := by intro e; simp [e] at hl
    have ht : t.find? (fun b => decide (b.handle = h)) = none := by simpa [hc] using hl
    simp only [insertBuffer]
    split
    · by_cases hg : g = h
      · subst hg; simp
      · simp [List.find?_cons, Ne.symm hg, hg]
    · simp only [List.find?_cons]
      by_cases hg : c.handle = g
      · have : g ≠ h := fun e => hc (hg.trans e)
        simp [hg, this]
      · simp [hg, ih ht]

theorem find_free (m : Memory) (h g : Word) : (m.free h).find g = if g = h then none else m.find g := by
  obtain ⟨bufs⟩ := m
  simp only [Memory.free, Memory.find]
  induction bufs with
  | nil => simp
  | cons c t ih =>
    by_cases hc : c.handle = h
    · by_cases hg : g = h
      · subst hg; simp_all [List.filter_cons]
      · have : c.handle ≠ g := fun e => hg (e.symm.trans hc)
        simp_all [List.filter_cons, List.find?_cons]
    · by_cases hg : c.handle = g
      · have : g ≠ h := fun e => hc (hg.trans e)
        simp_all [List.filter_cons, List.find?_cons]
      · simp_all [List.filter_cons, List.find?_cons]

/-- Free of a list of handles: exactly the listed handles are no longer live. -/
theorem find_freeAll (hs : List Word) : ∀ (m : Memory) (g : Word),
    (m.freeAll hs).find g = if g ∈ hs then none else m.find g := by
  induction hs with
  | nil => intro m g; simp [Memory.freeAll]
  | cons h hs ih =>
    intro m g
    simp only [Memory.freeAll, ih, find_free, List.mem_cons]
    by_cases h1 : g ∈ hs <;> by_cases h2 : g = h <;> simp [h1, h2]

/-! ### Bytes -/

/-- What a write with no check leaves at each address. -/
theorem byte?_put (m : Memory) (h : Word) (off : Nat) (bs : List Byte) (g : Word) (j : Nat) :
    (m.put h off bs).byte? g j
      = if g = h ∧ off ≤ j ∧ j < off + bs.length then (m.byte? g j).map (fun _ => bs.getD (j - off) 0)
        else m.byte? g j := by
  simp only [Memory.byte?, find_put]
  cases hf : m.find g with
  | none => simp
  | some b =>
    by_cases hg : g = h
    · subst hg
      simp only [Option.map_some, if_true, Buffer.write, readCell_writeCells, true_and]
      by_cases hj : off ≤ j ∧ j < off + bs.length
      · rw [if_pos hj, if_pos hj]; split <;> rfl
      · rw [if_neg hj, if_neg hj]
    · simp [hg]

theorem readBytes_isSome (m : Memory) (h : Word) (off n : Nat) :
    (m.readBytes h off n).isSome = m.inBounds h off n := by
  simp only [Memory.readBytes, Memory.inBounds]
  cases m.find h with
  | none => rfl
  | some b => by_cases hb : off + n ≤ b.len <;> simp [hb]

theorem readBytes_length {m : Memory} {h : Word} {off n : Nat} {bs : List Byte} (hr : m.readBytes h off n = some bs) :
    bs.length = n := by
  simp only [Memory.readBytes] at hr
  split at hr
  · split at hr
    · simp only [Option.some.injEq] at hr; subst hr; simp [readCells]
    · simp at hr
  · simp at hr

/-- A read inside a buffer succeeds, and gives the bytes at its addresses. -/
theorem readBytes_eq {m : Memory} {h : Word} {b : Buffer} {off n : Nat} (hf : m.find h = some b) (hb : off + n ≤ b.len) :
    m.readBytes h off n = some ((List.range n).map (fun i => readCell b.cells (off + i))) := by
  simp [Memory.readBytes, hf, hb, readCells]

/-- A write that the check admits, and what it is. -/
theorem writeBytes_eq_some {m m' : Memory} {h : Word} {off : Nat} {bs : List Byte} :
    m.writeBytes h off bs = some m' ↔ m.inBounds h off bs.length = true ∧ m' = m.put h off bs := by
  simp only [Memory.writeBytes]
  split
  · next h1 => simp only [h1, true_and, Option.some.injEq]; exact eq_comm
  · next h1 => simp [h1]

theorem inBounds_iff {m : Memory} {h : Word} {off n : Nat} :
    m.inBounds h off n = true ↔ ∃ b, m.find h = some b ∧ off + n ≤ b.len := by
  simp only [Memory.inBounds]
  cases m.find h with
  | none => simp
  | some b => simp

theorem inBounds_put (m : Memory) (h : Word) (off : Nat) (bs : List Byte) (g : Word) (o n : Nat) :
    (m.put h off bs).inBounds g o n = m.inBounds g o n := by
  simp only [Memory.inBounds, find_put]
  cases m.find g with
  | none => rfl
  | some b => by_cases hg : g = h <;> simp [hg, Buffer.write]

theorem live_put (m : Memory) (h : Word) (off : Nat) (bs : List Byte) (g : Word) :
    (m.put h off bs).live g = m.live g := by
  simp [Memory.live, find_put]

/-- A read after a write of the same bytes gives them back. -/
theorem readBytes_put_same {m : Memory} {h : Word} {off : Nat} {bs : List Byte}
    (hb : m.inBounds h off bs.length = true) : (m.put h off bs).readBytes h off bs.length = some bs := by
  obtain ⟨b, hf, hl⟩ := inBounds_iff.1 hb
  have hf' : (m.put h off bs).find h = some (b.write off bs) := by simp [find_put, hf]
  rw [readBytes_eq hf' hl]
  congr 1
  apply List.ext_getElem
  · simp
  · intro i h1 h2
    simp [Buffer.write, readCell_writeCells, h2]

/-- A read that a write does not overlap gives what it gave before. -/
theorem readBytes_put_other {m : Memory} {h g : Word} {off o n : Nat} {bs : List Byte}
    (hd : g ≠ h ∨ o + n ≤ off ∨ off + bs.length ≤ o) : (m.put h off bs).readBytes g o n = m.readBytes g o n := by
  simp only [Memory.readBytes, find_put]
  cases m.find g with
  | none => rfl
  | some b =>
    by_cases hg : g = h
    · subst hg
      have hd' : o + n ≤ off ∨ off + bs.length ≤ o := by simpa using hd
      simp only [Option.map_some, if_true, Buffer.write, readCells]
      split
      · congr 1
        apply List.map_congr_left
        intro i hi
        rw [readCell_writeCells, if_neg]
        have := List.mem_range.1 hi
        omega
      · rfl
    · simp [hg]

theorem readBytes_congr {m m' : Memory} {g : Word} (hf : m.find g = m'.find g) (o n : Nat) :
    m.readBytes g o n = m'.readBytes g o n := by
  simp [Memory.readBytes, hf]

/-! ### The canonical form -/

theorem bufsWf_weaken {lo lo' : Nat} {bufs : List Buffer} (h : bufsWf lo bufs = true) (hl : lo' ≤ lo) :
    bufsWf lo' bufs = true := by
  cases bufs with
  | nil => rfl
  | cons b t =>
    simp only [bufsWf, Bool.and_eq_true, decide_eq_true_eq] at h ⊢
    exact ⟨⟨by omega, h.1.2⟩, h.2⟩

theorem bufsWf_filter (p : Buffer → Bool) : ∀ {lo : Nat} {bufs : List Buffer},
    bufsWf lo bufs = true → bufsWf lo (bufs.filter p) = true := by
  intro lo bufs
  induction bufs generalizing lo with
  | nil => intro _; rfl
  | cons b t ih =>
    intro h
    simp only [bufsWf, Bool.and_eq_true, decide_eq_true_eq] at h
    simp only [List.filter_cons]
    split
    · simp only [bufsWf, Bool.and_eq_true, decide_eq_true_eq]
      exact ⟨h.1, ih h.2⟩
    · exact ih (bufsWf_weaken h.2 (by omega))

theorem bufsWf_insertBuffer {b : Buffer} (hb : b.wf = true) : ∀ {lo : Nat} {bufs : List Buffer},
    lo ≤ b.handle.toNat → (∀ c ∈ bufs, c.handle ≠ b.handle) → bufsWf lo bufs = true →
    bufsWf lo (insertBuffer bufs b) = true := by
  intro lo bufs
  induction bufs generalizing lo with
  | nil => intro hl _ _; simp [insertBuffer, bufsWf, hl, hb]
  | cons c t ih =>
    intro hl hn h
    simp only [bufsWf, Bool.and_eq_true, decide_eq_true_eq] at h
    have hne : c.handle.toNat ≠ b.handle.toNat := fun e => hn c (by simp) (BitVec.eq_of_toNat_eq e)
    simp only [insertBuffer]
    split
    · simp only [bufsWf, Bool.and_eq_true, decide_eq_true_eq]
      exact ⟨⟨hl, hb⟩, ⟨by omega, h.1.2⟩, h.2⟩
    · simp only [bufsWf, Bool.and_eq_true, decide_eq_true_eq]
      exact ⟨h.1, ih (by omega) (fun d hd => hn d (by simp [hd])) h.2⟩

theorem bufsWf_map {f : Buffer → Buffer} (hh : ∀ b, (f b).handle = b.handle) : ∀ {lo : Nat} {bufs : List Buffer},
    (∀ b ∈ bufs, b.wf = true → (f b).wf = true) → bufsWf lo bufs = true → bufsWf lo (bufs.map f) = true := by
  intro lo bufs
  induction bufs generalizing lo with
  | nil => intro _ _; rfl
  | cons b t ih =>
    intro hf h
    simp only [bufsWf, Bool.and_eq_true, decide_eq_true_eq] at h
    simp only [List.map_cons, bufsWf, Bool.and_eq_true, decide_eq_true_eq, hh]
    exact ⟨⟨h.1.1, hf b (by simp) h.1.2⟩, ih (fun c hc => hf c (by simp [hc])) h.2⟩

/-- Where handles are distinct, the buffer found is the one that stands in the list. -/
theorem find_mem {m : Memory} (hw : m.wf = true) {b : Buffer} (hb : b ∈ m.bufs) : m.find b.handle = some b := by
  obtain ⟨bufs⟩ := m
  simp only [Memory.wf, Memory.find] at *
  revert hw hb
  generalize 1 = lo
  induction bufs generalizing lo with
  | nil => intro _ hb; simp at hb
  | cons c t ih =>
    intro hw hb
    simp only [bufsWf, Bool.and_eq_true, decide_eq_true_eq] at hw
    rcases List.mem_cons.1 hb with rfl | hb
    · simp
    · have low : ∀ {lo : Nat} {l : List Buffer}, bufsWf lo l = true → ∀ d ∈ l, lo ≤ d.handle.toNat := by
        intro lo l
        induction l generalizing lo with
        | nil => intro _ d hd; simp at hd
        | cons e l ihl =>
          intro h d hd
          simp only [bufsWf, Bool.and_eq_true, decide_eq_true_eq] at h
          rcases List.mem_cons.1 hd with rfl | hd
          · exact h.1.1
          · have := ihl h.2 d hd; omega
      have := low hw.2 b hb
      have hne : c.handle ≠ b.handle := fun e => by rw [e] at this; omega
      simp only [List.find?_cons, hne, decide_false]
      exact ih _ hw.2 hb

/-- Alloc's new buffer keeps the canonical form. -/
theorem wf_insert {m : Memory} {h : Word} {n : Nat} (ha : m.admits h n = true) (hw : m.wf = true) :
    (m.insert h n).wf = true := by
  simp only [Memory.admits, Bool.and_eq_true, decide_eq_true_eq, Bool.not_eq_true'] at ha
  obtain ⟨⟨h0, hl⟩, hn⟩ := ha
  refine bufsWf_insertBuffer (b := ⟨h, n, []⟩) (by simp [Buffer.wf, cellsWf, hn]) ?_ ?_ hw
  · rcases Nat.eq_zero_or_pos h.toNat with e | e
    · exact absurd (BitVec.eq_of_toNat_eq (by simpa using e)) h0
    · exact e
  · intro c hc e
    have := find_mem hw hc
    simp only [Memory.live] at hl
    rw [e] at this
    simp [this] at hl

/-- Free keeps the canonical form. -/
theorem wf_free {m : Memory} (h : Word) (hw : m.wf = true) : (m.free h).wf = true := bufsWf_filter _ hw

theorem wf_freeAll (hs : List Word) : ∀ {m : Memory}, m.wf = true → (m.freeAll hs).wf = true := by
  induction hs with
  | nil => intro m h; exact h
  | cons h hs ih => intro m hw; exact ih (wf_free h hw)

/-- A write the check admits keeps the canonical form. -/
theorem wf_put {m : Memory} {h : Word} {off : Nat} {bs : List Byte} (hb : m.inBounds h off bs.length = true)
    (hw : m.wf = true) : (m.put h off bs).wf = true := by
  obtain ⟨b, hf, hl⟩ := inBounds_iff.1 hb
  refine bufsWf_map (by intro b; split <;> rfl) ?_ hw
  intro c hc hcw
  split
  · next e =>
    have : m.find h = some c := e ▸ find_mem hw hc
    rw [hf] at this
    obtain rfl : b = c := by simpa using this
    simp only [Buffer.wf, Bool.and_eq_true] at hcw
    simp only [Buffer.wf, Buffer.write, Bool.and_eq_true]
    exact ⟨hcw.1, cellsWf_writeCells bs hl hcw.2⟩
  · exact hcw

theorem wf_writeBytes {m m' : Memory} {h : Word} {off : Nat} {bs : List Byte} (he : m.writeBytes h off bs = some m')
    (hw : m.wf = true) : m'.wf = true := by
  obtain ⟨hb, rfl⟩ := writeBytes_eq_some.1 he
  exact wf_put hb hw

theorem wf_write {m m' : Memory} {h : Word} {off n v : Nat} (he : m.write h off n v = some m') (hw : m.wf = true) :
    m'.wf = true := wf_writeBytes he hw

/-- The buffer store after reset is in canonical form. -/
theorem wf_reset : State.reset.mem.wf = true := by decide

/-- Free of a fresh buffer, whatever was written to it, gives the store back. -/
theorem free_insert {m : Memory} {h : Word} (n : Nat) (hl : m.live h = false) : (m.insert h n).free h = m := by
  obtain ⟨bufs⟩ := m
  simp only [Memory.live, Memory.find, Option.isSome_eq_false_iff, Option.isNone_iff_eq_none, List.find?_eq_none,
    decide_eq_true_eq] at hl
  simp only [Memory.free, Memory.insert, Memory.mk.injEq]
  induction bufs with
  | nil => simp [insertBuffer]
  | cons c t ih =>
    have hc := hl c (by simp)
    have ht : List.filter (fun b => decide (b.handle ≠ h)) t = t := by
      rw [List.filter_eq_self]; intro d hd; simpa using hl d (by simp [hd])
    simp only [insertBuffer]
    split
    · rw [List.filter_cons, if_neg (by simp), List.filter_cons, if_pos (by simpa using hc), ht]
    · simp only [List.filter_cons, hc, ne_eq, not_false_eq_true, decide_true, if_true, List.cons.injEq, true_and]
      exact ih (fun d hd => hl d (by simp [hd]))

theorem free_put (m : Memory) (h : Word) (off : Nat) (bs : List Byte) : (m.put h off bs).free h = m.free h := by
  obtain ⟨bufs⟩ := m
  simp only [Memory.free, Memory.put, Memory.mk.injEq]
  induction bufs with
  | nil => rfl
  | cons c t ih =>
    by_cases hc : c.handle = h
    · simpa [List.filter_cons, hc, Buffer.write] using ih
    · simpa [List.filter_cons, hc] using ih

theorem free_comm (m : Memory) (h g : Word) : (m.free h).free g = (m.free g).free h := by
  simp [Memory.free, List.filter_filter, Bool.and_comm]

end Sys2Proof.Machine
end

