-- ==== Sys2Proof/Laws/Operands.lean ====
section
/-! SUPPORT. The laws of the operand forms: the layout of raw levels keeps every item inside its level and apart from the
others (spec/20_memory.md R95, R96), reads and writes of items and texels succeed there (spec/20_memory.md R93), and what a loop
of accesses does. -/

namespace Sys2Proof.Machine

/-! ### Descriptors -/

/-- What WF says of a raw descriptor (10_state R53). -/
theorem raw_wf {D : Desc} (hw : D.wf = true) (hc : D.comp = 0) :
    1 ≤ D.rowAlign.toNat ∧ D.pixelsOk = true
      ∧ (D.palMode = palNone → D.depth.toNat ∈ depthSet D.rasterF)
      ∧ (D.palMode ≠ palNone → (D.palMode = pal4 ∧ (D.depth = 4 ∨ D.depth = 8)) ∨ (D.palMode = pal8 ∧ D.depth = 8)) := by
  have hp : D.pixelsOk = true := by
    unfold Desc.wf at hw
    rw [if_pos hc] at hw
    split at hw
    · simp only [Bool.and_eq_true] at hw; exact hw.1
    · split at hw
      · simp only [Bool.and_eq_true] at hw; exact hw.1
      · split at hw
        · simp only [Bool.and_eq_true] at hw; exact hw.1
        · simp at hw
  have ha : 1 ≤ D.rowAlign.toNat := by
    have h := hp
    simp only [Desc.pixelsOk, Bool.and_eq_true, decide_eq_true_eq] at h
    rcases Nat.eq_zero_or_pos D.rowAlign.toNat with e | e
    · exact absurd (BitVec.eq_of_toNat_eq (by simpa using e)) h.1.2
    · exact e
  refine ⟨ha, hp, ?_, ?_⟩
  · intro h0
    unfold Desc.wf at hw
    rw [if_pos hc, if_pos h0] at hw
    simp only [Bool.and_eq_true, List.contains_iff_mem] at hw
    exact hw.2
  · intro h0
    unfold Desc.wf at hw
    rw [if_pos hc, if_neg h0] at hw
    split at hw
    · next h4 => simp only [Bool.and_eq_true, Bool.or_eq_true, decide_eq_true_eq] at hw; exact .inl ⟨h4, hw.2⟩
    · split at hw
      · next h8 => simp only [Bool.and_eq_true, decide_eq_true_eq] at hw; exact .inr ⟨h8, hw.2⟩
      · simp at hw

theorem pixelsOk_order {D : Desc} (h : D.pixelsOk = true) : ¬ (D.orderF = .abgr ∧ refusesAbgr D.rasterF = true) := by
  rintro ⟨h1, h2⟩
  have ho : D.order = 2 := by
    unfold Desc.orderF at h1
    have := D.order.isLt
    apply BitVec.eq_of_toNat_eq
    rcases hn : D.order.toNat with _ | _ | _ | _ | n
    all_goals simp [hn] at h1 ⊢
  unfold Desc.pixelsOk at h
  simp only [Bool.and_eq_true] at h
  have h3 := h.1.1
  unfold Desc.rasterF at h2
  cases hr : rasterOf D.raster with
  | none => simp [hr] at h3
  | some f => cases f <;> simp_all [refusesAbgr]

/-- A depth of a direct texel is a whole number of bytes, 1 to 4 (10_state R42). -/
theorem depthSet_bytes {f : Raster} {d : Nat} (h : d ∈ depthSet f) : d = 8 ∨ d = 16 ∨ d = 24 ∨ d = 32 := by
  cases f <;> simp [depthSet] at h <;> omega

theorem raw_depth {D : Desc} (hw : D.wf = true) (hc : D.comp = 0) :
    D.depth.toNat = 4 ∨ D.depth.toNat = 8 ∨ D.depth.toNat = 16 ∨ D.depth.toNat = 24 ∨ D.depth.toNat = 32 := by
  obtain ⟨-, -, h1, h2⟩ := raw_wf hw hc
  by_cases hp : D.palMode = palNone
  · exact .inr (depthSet_bytes (h1 hp))
  · rcases h2 hp with ⟨-, h | h⟩ | ⟨-, h⟩ <;> simp [h]

theorem depth_eq_four {D : Desc} : D.depth = 4 ↔ D.depth.toNat = 4 :=
  ⟨fun h => h ▸ rfl, fun h => BitVec.eq_of_toNat_eq h⟩

theorem direct_depth {D : Desc} (hw : D.wf = true) (hc : D.comp = 0) (hp : D.palMode = palNone) :
    D.depth ≠ 4 ∧ (D.depth.toNat = 8 ∨ D.depth.toNat = 16 ∨ D.depth.toNat = 24 ∨ D.depth.toNat = 32) := by
  have h := depthSet_bytes ((raw_wf hw hc).2.2.1 hp)
  refine ⟨fun e => ?_, h⟩
  rw [depth_eq_four] at e; omega

/-! ### Layout -/

theorem le_roundup (v a : Nat) (ha : 1 ≤ a) : v ≤ roundup v a := by
  unfold roundup
  have h1 := Nat.div_add_mod (v + a - 1) a
  have h2 := Nat.mod_lt (v + a - 1) ha
  have h3 : a * ((v + a - 1) / a) = (v + a - 1) / a * a := Nat.mul_comm _ _
  omega

theorem rowBytes_le_pitch (w d a : Nat) (ha : 1 ≤ a) : rowBytes w d ≤ pitch w d a := le_roundup _ _ ha

/-- The bytes of item x end inside the row. -/
theorem item_in_row {D : Desc} (hd : D.depth.toNat = 4 ∨ D.depth.toNat = 8 ∨ D.depth.toNat = 16 ∨ D.depth.toNat = 24
    ∨ D.depth.toNat = 32) {w x : Nat} (hx : x < w) :
    (if D.depth = 4 then x / 2 else x * (D.depth.toNat / 8)) + itemBytes D ≤ rowBytes w D.depth.toNat := by
  simp only [itemBytes, depth_eq_four, rowBytes]
  rcases hd with h | h | h | h | h <;> simp [h] <;> omega

/-- The bytes of an item stay inside its level (20_memory R95, R96). -/
theorem item_in_level {D : Desc} (hw : D.wf = true) (hc : D.comp = 0) {w h x y : Nat} (hx : x < w) (hy : y < h) :
    itemOffset D w x y + itemBytes D ≤ D.rawSize w h := by
  have h1 := item_in_row (raw_depth hw hc) hx
  have h2 := rowBytes_le_pitch w D.depth.toNat D.rowAlign.toNat (raw_wf hw hc).1
  have h3 : (y + 1) * D.pitch w ≤ h * D.pitch w := Nat.mul_le_mul_right _ hy
  have h4 : D.rawSize w h = h * D.pitch w := Nat.mul_comm _ _
  have h5 : (y + 1) * D.pitch w = y * D.pitch w + D.pitch w := by ring
  have h6 : itemOffset D w x y = y * D.pitch w + (if D.depth = 4 then x / 2 else x * (D.depth.toNat / 8)) := by
    unfold itemOffset; split <;> rfl
  have h7 : D.pitch w = pitch w D.depth.toNat D.rowAlign.toNat := rfl
  omega

theorem inBounds_mono {m : Memory} {h : Word} {off n off' n' : Nat} (hb : m.inBounds h off n = true)
    (hl : off' + n' ≤ off + n) : m.inBounds h off' n' = true := by
  obtain ⟨b, hf, hbl⟩ := inBounds_iff.1 hb
  exact inBounds_iff.2 ⟨b, hf, by omega⟩

theorem inBounds_congr {m m' : Memory} {h : Word} (hf : m.find h = m'.find h) (off n : Nat) :
    m.inBounds h off n = m'.inBounds h off n := by
  simp [Memory.inBounds, hf]

theorem byte?_congr {m m' : Memory} {h : Word} (hf : m.find h = m'.find h) (off : Nat) : m.byte? h off = m'.byte? h off := by
  simp [Memory.byte?, hf]

theorem len?_congr {m m' : Memory} {h : Word} (hf : m.find h = m'.find h) : m.len? h = m'.len? h := by
  simp [Memory.len?, hf]

theorem live_congr {m m' : Memory} {h : Word} (hf : m.find h = m'.find h) : m.live h = m'.live h := by
  simp [Memory.live, hf]

theorem read_congr {m m' : Memory} {h : Word} (hf : m.find h = m'.find h) (off n : Nat) : m.read h off n = m'.read h off n := by
  simp [Memory.read, Memory.readBytes, hf]

theorem inBounds_live {m : Memory} {h : Word} {off n : Nat} (hb : m.inBounds h off n = true) : m.live h = true := by
  obtain ⟨b, hf, -⟩ := inBounds_iff.1 hb
  simp [Memory.live, hf]

/-- A read inside a buffer gives a value of its width. -/
theorem read_of_inBounds {m : Memory} {h : Word} {off n : Nat} (hb : m.inBounds h off n = true) :
    ∃ v, m.read h off n = some v ∧ v < 2 ^ (8 * n) := by
  obtain ⟨b, hf, hl⟩ := inBounds_iff.1 hb
  refine ⟨_, by rw [Memory.read, readBytes_eq hf hl]; rfl, ?_⟩
  have := leValue_lt ((List.range n).map (fun i => readCell b.cells (off + i)))
  simpa using this

theorem write_of_inBounds {m : Memory} {h : Word} {off n : Nat} (v : Nat) (hb : m.inBounds h off n = true) :
    m.write h off n v = some (m.put h off (leBytes n v)) := by
  rw [Memory.write, writeBytes_eq_some]; exact ⟨by simpa using hb, rfl⟩

theorem write_eq_some {m m' : Memory} {h : Word} {off n v : Nat} :
    m.write h off n v = some m' ↔ m.inBounds h off n = true ∧ m' = m.put h off (leBytes n v) := by
  rw [Memory.write, writeBytes_eq_some]; simp

/-- A value read back where it was written, cut to its width. -/
theorem read_put_same {m : Memory} {h : Word} {off n : Nat} (v : Nat) (hb : m.inBounds h off n = true) :
    (m.put h off (leBytes n v)).read h off n = some (v % 2 ^ (8 * n)) := by
  have := readBytes_put_same (m := m) (h := h) (off := off) (bs := leBytes n v) (by simpa using hb)
  simp only [leBytes_length] at this
  simp [Memory.read, this, leValue_leBytes]

theorem read_put_other {m : Memory} {h g : Word} {off o n k : Nat} {v : Nat}
    (hd : g ≠ h ∨ o + n ≤ off ∨ off + k ≤ o) : (m.put h off (leBytes k v)).read g o n = m.read g o n := by
  rw [Memory.read, readBytes_put_other (by simpa using hd)]; rfl

/-! ### Items -/

theorem readItem_congr {m m' : Memory} {h : Word} (hf : m.find h = m'.find h) (w : Nat) (D : Desc) (x y : Nat) :
    readItem m h w D x y = readItem m' h w D x y := by
  simp [readItem, read_congr hf]

/-- An item of a level that its buffer holds reads, and fits its depth. -/
theorem readItem_of_level {m : Memory} {h : Word} {D : Desc} (hw : D.wf = true) (hc : D.comp = 0) {w hh x y : Nat}
    (hb : m.inBounds h 0 (D.rawSize w hh) = true) (hx : x < w) (hy : y < hh) :
    ∃ item, readItem m h w D x y = some item ∧ item < 2 ^ D.depth.toNat := by
  have hl := item_in_level hw hc hx hy
  have hi : m.inBounds h (itemOffset D w x y) (itemBytes D) = true := inBounds_mono hb (by omega)
  obtain ⟨v, hv, hlt⟩ := read_of_inBounds hi
  unfold readItem
  by_cases h4 : D.depth = 4
  · have h4' := depth_eq_four.1 h4
    rw [if_pos h4]
    simp only [itemBytes, h4, if_true] at hv
    refine ⟨_, by rw [hv]; rfl, ?_⟩
    rw [h4']
    exact lt_of_le_of_lt (Nat.and_le_right) (by norm_num)
  · rw [if_neg h4]
    simp only [itemBytes, h4, if_false] at hv hlt
    refine ⟨v, hv, ?_⟩
    rcases raw_depth hw hc with e | e | e | e | e
    · exact absurd (depth_eq_four.2 e) h4
    all_goals simpa [e] using hlt

theorem indexOfItem_lt {D : Desc} (hw : D.wf = true) (hc : D.comp = 0) (hp : D.palMode ≠ palNone) {item : Nat}
    (hi : item < 2 ^ D.depth.toNat) : indexOfItem D item < 256 := by
  have h8 : D.depth.toNat = 4 ∨ D.depth.toNat = 8 := by
    rcases (raw_wf hw hc).2.2.2 hp with ⟨-, h | h⟩ | ⟨-, h⟩ <;> simp [h]
  unfold indexOfItem
  split
  · exact lt_of_le_of_lt Nat.and_le_right (by norm_num)
  · rcases h8 with e | e <;> rw [e] at hi <;> omega

/-! ### Texels -/

theorem entryBytes_cases (D : Desc) : D.entryBytes = 0 ∨ D.entryBytes = 1 ∨ D.entryBytes = 2 ∨ D.entryBytes = 4 := by
  unfold Desc.entryBytes; cases D.rasterF <;> simp [entryDepth]

theorem paletteColour_of_lt {m : Memory} {D : Desc} {pal : Word} {n idx : Nat} (hb : m.inBounds pal 0 (n * D.entryBytes) = true)
    (hi : idx < n) : ∃ c, paletteColour m D pal idx = some c := by
  have h : (idx + 1) * D.entryBytes ≤ n * D.entryBytes := Nat.mul_le_mul_right _ hi
  have h5 : (idx + 1) * D.entryBytes = idx * D.entryBytes + D.entryBytes := by ring
  obtain ⟨v, hv, -⟩ := read_of_inBounds (inBounds_mono hb (off' := idx * D.entryBytes) (n' := D.entryBytes) (by omega))
  exact ⟨_, by rw [paletteColour, hv]; rfl⟩

theorem paletteColour_congr {m m' : Memory} {pal : Word} (hf : m.find pal = m'.find pal) (D : Desc) (idx : Nat) :
    paletteColour m D pal idx = paletteColour m' D pal idx := by
  simp [paletteColour, read_congr hf]

/-- A texel of a checked raw level is fetched. -/
theorem fetchTexel_of_level {m : Memory} {D : Desc} {pal h : Word} {n w hh x y : Nat} (hw : D.wf = true) (hc : D.comp = 0)
    (hb : m.inBounds h 0 (D.rawSize w hh) = true)
    (hp : D.palMode ≠ palNone → m.inBounds pal 0 (n * D.entryBytes) = true) (hx : x < w) (hy : y < hh) :
    ∃ c found, fetchTexel m D pal n h w x y = some (c, found) := by
  obtain ⟨item, hi, -⟩ := readItem_of_level hw hc hb hx hy
  unfold fetchTexel
  rw [hi]
  by_cases h0 : D.palMode = palNone
  · exact ⟨_, _, by simp only [h0, if_true]; rfl⟩
  · by_cases hn : n ≤ indexOfItem D item
    · exact ⟨_, _, by simp only [h0, hn, if_true, if_false]; rfl⟩
    · obtain ⟨c, hc'⟩ := paletteColour_of_lt (hp h0) (Nat.not_le.1 hn)
      exact ⟨_, _, by simp only [h0, hn, if_false, hc', Option.map_some]; rfl⟩

theorem fetchTexel_congr {m m' : Memory} {D : Desc} {pal h : Word} (hf : m.find h = m'.find h)
    (hp : D.palMode ≠ palNone → m.find pal = m'.find pal) (n w x y : Nat) :
    fetchTexel m D pal n h w x y = fetchTexel m' D pal n h w x y := by
  unfold fetchTexel
  rw [readItem_congr hf]
  by_cases h0 : D.palMode = palNone
  · simp [h0]
  · rw [show paletteColour m D pal = paletteColour m' D pal from funext (paletteColour_congr (hp h0) D)]

/-- The texel of a checked level of the image registers is fetched. -/
theorem fetchLevel_of_checks {s : State} {i x y : Nat} (hh : firstRaise (headerChecks s) = none) (hc : s.imgDesc.comp = 0)
    (hr : firstRaise (rawMipChecks s i) = none) (hx : x < s.lw i) (hy : y < s.lh i) :
    ∃ c found, s.fetchLevel i x y = some (c, found) :=
  fetchTexel_of_level (header_ok hh).2.2.1 hc (rawMip_ok hr).2.2.2.2.2 (fun hp => ((header_ok hh).2.2.2 hp).2) hx hy

/-! ### Loops of accesses -/

/-- A loop whose every access succeeds from a state with P, keeps P, gives its element's Q and keeps the Q of the others. -/
theorem forMem_spec {α : Type} {f : Memory → α → Option Memory} {P : Memory → Prop} {Q : α → Memory → Prop} (l : List α)
    (hstep : ∀ a ∈ l, ∀ m, P m → ∃ m', f m a = some m' ∧ P m' ∧ Q a m' ∧ ∀ b ∈ l, b ≠ a → Q b m → Q b m') :
    ∀ m, P m → ∃ m', forMem f l m = some m' ∧ P m' ∧ ∀ a ∈ l, Q a m' := by
  suffices h : ∀ (todo done : List α), (∀ a ∈ todo, a ∈ l) → (∀ a ∈ done, a ∈ l) → ∀ m, P m → (∀ a ∈ done, Q a m) →
      ∃ m', forMem f todo m = some m' ∧ P m' ∧ (∀ a ∈ done, Q a m') ∧ ∀ a ∈ todo, Q a m' by
    intro m hm
    obtain ⟨m', h1, h2, -, h4⟩ := h l [] (fun _ h => h) (by simp) m hm (by simp)
    exact ⟨m', h1, h2, h4⟩
  intro todo
  induction todo with
  | nil => intro done _ _ m hm hd; exact ⟨m, rfl, hm, hd, by simp⟩
  | cons a todo ih =>
    intro done ht hdl m hm hd
    obtain ⟨m1, hf, hp, hq, hk⟩ := hstep a (ht a (by simp)) m hm
    have hd1 : ∀ b ∈ a :: done, Q b m1 := by
      intro b hb
      by_cases e : b = a
      · exact e ▸ hq
      · rcases List.mem_cons.1 hb with rfl | hb
        · exact hq
        · exact hk b (hdl b hb) e (hd b hb)
    obtain ⟨m', h1, h2, h3, h4⟩ := ih (a :: done) (fun b hb => ht b (by simp [hb]))
      (by intro b hb; rcases List.mem_cons.1 hb with rfl | hb; exacts [ht b (by simp), hdl b hb]) m1 hp hd1
    refine ⟨m', by simp only [forMem, hf]; exact h1, h2, fun b hb => h3 b (by simp [hb]), ?_⟩
    intro b hb
    rcases List.mem_cons.1 hb with rfl | hb
    · exact h3 _ (by simp)
    · exact h4 b hb

/-- A loop that succeeds keeps what each of its accesses keeps. -/
theorem forMem_keeps {α : Type} {f : Memory → α → Option Memory} {P : Memory → Prop} (l : List α)
    (hstep : ∀ a ∈ l, ∀ m m', P m → f m a = some m' → P m') : ∀ m m', P m → forMem f l m = some m' → P m' := by
  induction l with
  | nil => intro m m' hm h; simp only [forMem, Option.some.injEq] at h; exact h ▸ hm
  | cons a l ih =>
    intro m m' hm h
    simp only [forMem] at h
    split at h
    · simp at h
    · next m1 h1 => exact ih (fun b hb => hstep b (by simp [hb])) m1 m' (hstep a (by simp) m m1 hm h1) h

theorem mem_coords {w h x y : Nat} : (x, y) ∈ coords w h ↔ x < w ∧ y < h := by
  simp only [coords, List.mem_flatMap, List.mem_range, List.mem_map, Prod.mk.injEq]
  constructor
  · rintro ⟨a, ha, b, hb, rfl, rfl⟩; exact ⟨hb, ha⟩
  · rintro ⟨hx, hy⟩; exact ⟨y, hy, x, hx, rfl, rfl⟩

end Sys2Proof.Machine
end

