-- ==== Sys2Proof/Laws/Ops.lean ====
section
/-! SUPPORT. What Alloc, and a run of writes to one buffer, can do to a state (spec/20_memory.md R91, R92), and the entries of
the vectors the commits write. -/

namespace Sys2Proof.Machine

/-! ### Alloc -/

theorem answer_mem (hp : Heap) (n : Nat) : (hp.answer n).2.mem = hp.mem := by
  unfold Heap.answer; split <;> rfl

/-- Everything an Alloc that answers a handle does. -/
theorem alloc_some {s t : State} {n : Nat} {h : Word} (ha : s.alloc n = (t, some h)) :
    s.mem.admits h n = true ∧ t = { s with heap := { (s.heap.answer n).2 with mem := s.mem.insert h n } } := by
  unfold State.alloc at ha
  split at ha
  · next g hp hg =>
    split at ha
    · next hadm =>
      simp only [Prod.mk.injEq, Option.some.injEq] at ha
      obtain ⟨rfl, rfl⟩ := ha
      exact ⟨hadm, by rw [hg]⟩
    · simp at ha
  · simp at ha

/-- Everything an Alloc that answers FAIL does. -/
theorem alloc_none {s t : State} {n : Nat} (ha : s.alloc n = (t, none)) :
    t = { s with heap := (s.heap.answer n).2 } ∧ t.mem = s.mem := by
  unfold State.alloc at ha
  split at ha
  · next g hp hg =>
    split at ha
    · simp at ha
    · simp only [Prod.mk.injEq, and_true] at ha
      subst ha
      refine ⟨by rw [hg], ?_⟩
      have := answer_mem s.heap n; rw [hg] at this; exact this
  · next hp hg =>
    simp only [Prod.mk.injEq, and_true] at ha
    subst ha
    refine ⟨by rw [hg], ?_⟩
    have := answer_mem s.heap n; rw [hg] at this; exact this

theorem admits_iff {m : Memory} {h : Word} {n : Nat} :
    m.admits h n = true ↔ h ≠ 0 ∧ m.live h = false ∧ n ≤ Config.maxBufLen := by
  simp [Memory.admits, and_assoc]

/-- An Alloc whose next answer is admissible gives it. -/
theorem alloc_ready {s : State} {n : Nat} {h : Word} {rest : List (Option Word)} (ha : s.heap.answers = some h :: rest)
    (hadm : s.mem.admits h n = true) :
    s.alloc n = ({ s with heap := ⟨s.mem.insert h n, rest, s.heap.draws⟩ }, some h) := by
  unfold State.alloc Heap.answer
  rw [ha]
  simp [hadm]

theorem len?_insert {m : Memory} {h : Word} (n : Nat) (hl : m.live h = false) : (m.insert h n).len? h = some n := by
  simp [Memory.len?, find_insert hl]

theorem inBounds_insert {m : Memory} {h : Word} (n : Nat) (hl : m.live h = false) : (m.insert h n).inBounds h 0 n = true := by
  simp [Memory.inBounds, find_insert hl]

/-! ### Writes to one buffer -/

/-- m' comes from m by checked writes to the buffer of h alone. -/
structure Memory.Wrote (h : Word) (m m' : Memory) : Prop where
  free : m'.free h = m.free h
  len : ∀ g, m'.len? g = m.len? g
  other : ∀ g, g ≠ h → m'.find g = m.find g
  wf : m.wf = true → m'.wf = true

theorem Memory.Wrote.refl (h : Word) (m : Memory) : Memory.Wrote h m m := ⟨rfl, fun _ => rfl, fun _ _ => rfl, fun hw => hw⟩

theorem Memory.Wrote.trans {h : Word} {m m' m'' : Memory} (a : Memory.Wrote h m m') (b : Memory.Wrote h m' m'') :
    Memory.Wrote h m m'' :=
  ⟨b.free.trans a.free, fun g => (b.len g).trans (a.len g), fun g hg => (b.other g hg).trans (a.other g hg),
    fun hw => b.wf (a.wf hw)⟩

theorem len?_put (m : Memory) (h : Word) (off : Nat) (bs : List Byte) (g : Word) : (m.put h off bs).len? g = m.len? g := by
  simp only [Memory.len?, find_put, Option.map_map]
  cases m.find g with
  | none => rfl
  | some b => by_cases hg : g = h <;> simp [hg, Buffer.write]

theorem Memory.wrote_put {m : Memory} {h : Word} {off : Nat} {bs : List Byte} (hb : m.inBounds h off bs.length = true) :
    Memory.Wrote h m (m.put h off bs) :=
  ⟨free_put .., len?_put m h off bs, fun g hg => by rw [find_put]; simp [hg], wf_put hb⟩

theorem Memory.wrote_writeBytes {m m' : Memory} {h : Word} {off : Nat} {bs : List Byte}
    (he : m.writeBytes h off bs = some m') : Memory.Wrote h m m' := by
  obtain ⟨hb, rfl⟩ := writeBytes_eq_some.1 he
  exact Memory.wrote_put hb

theorem Memory.wrote_write {m m' : Memory} {h : Word} {off n v : Nat} (he : m.write h off n v = some m') :
    Memory.Wrote h m m' := Memory.wrote_writeBytes he

theorem storeTexel_wrote {m m' : Memory} {D : Desc} {h : Word} {w x y : Nat} {c : Colour}
    (he : storeTexel m D h w x y c = some m') : Memory.Wrote h m m' := Memory.wrote_write he

theorem writeIndex_wrote {m m' : Memory} {h : Word} {w : Nat} {D : Desc} {x y idx : Nat}
    (he : writeIndex m h w D x y idx = some m') : Memory.Wrote h m m' := by
  unfold writeIndex at he
  split at he
  · split at he
    · simp at he
    · exact Memory.wrote_write he
  · split at he <;> exact Memory.wrote_write he

theorem forMem_wrote {α : Type} {f : Memory → α → Option Memory} {h : Word}
    (hf : ∀ a m m', f m a = some m' → Memory.Wrote h m m') (l : List α) {m m' : Memory} (he : forMem f l m = some m') :
    Memory.Wrote h m m' :=
  forMem_keeps (P := fun k => Memory.Wrote h m k) l (fun a _ k k' hk h1 => hk.trans (hf a k k' h1)) m m' (.refl h m) he

/-! ### Vectors -/

theorem mipsOf_get (f : Nat → MipRegs) {i : Nat} (hi : i < 16) : (mipsOf f)[i]?.getD MipRegs.zero = f i := by
  unfold mipsOf
  interval_cases i <;> rfl

theorem tbOf_get (f : Nat → Word) {i : Nat} (hi : i < 16) : (tbOf f)[i]?.getD 0 = f i := by
  unfold tbOf
  interval_cases i <;> rfl

end Sys2Proof.Machine
end

