-- ==== Sys2Proof/Laws/Stages.lean ====
section
/-! SUPPORT. What the stages of CONVERT can do (spec/42_conversion_engine.md R252, R261, R265 to R267, R272): a fill writes only
the buffer it fills; a run over levels allocates, fills and goes on, or frees what it allocated and stops; each buffer it gives holds what its fill
left; a failed stage leaves the buffer store as it was. -/

namespace Sys2Proof.Machine

/-! ### Fills write only the new buffer -/

theorem decodeLevel_wrote {s : State} {ty : BlockType} {i : Nat} {D : Desc} {h : Word} {m : Memory}
    (he : decodeLevel s ty i D h = some m) : Memory.Wrote h s.mem m := by
  refine forMem_wrote (fun b k k' hk => ?_) _ he
  split at hk
  · simp at hk
  · refine forMem_wrote (fun t l l' hl => ?_) _ hk
    split at hl
    · exact storeTexel_wrote hl
    · simp only [Option.some.injEq] at hl; exact hl ▸ .refl ..

theorem recodeLevel_wrote {D : Desc} {s : State} {i : Nat} {h : Word} {m : Memory} (he : recodeLevel D s i h = some m) :
    Memory.Wrote h s.mem m := by
  refine forMem_wrote (fun b k k' hk => ?_) _ he
  split at hk
  · simp at hk
  · exact storeTexel_wrote hk

theorem repackLevel_wrote {D : Desc} {s : State} {i : Nat} {h : Word} {m : Memory} (he : repackLevel D s i h = some m) :
    Memory.Wrote h s.mem m := by
  refine forMem_wrote (fun b k k' hk => ?_) _ he
  split at hk
  · simp at hk
  · exact writeIndex_wrote hk

theorem indexLevel_wrote {D : Desc} {P : List Colour} {s : State} {i : Nat} {h : Word} {m : Memory}
    (he : indexLevel D P s i h = some m) : Memory.Wrote h s.mem m := by
  refine forMem_wrote (fun b k k' hk => ?_) _ he
  split at hk
  · simp at hk
  · exact writeIndex_wrote hk

theorem encodeLevel_wrote {ty : BlockType} {s : State} {i : Nat} {h : Word} {m : Memory} (he : encodeLevel ty s i h = some m) :
    Memory.Wrote h s.mem m := by
  refine forMem_wrote (fun b k k' hk => ?_) _ he
  split at hk
  · simp at hk
  · exact Memory.wrote_writeBytes hk

theorem writePalette_wrote {D : Desc} {h : Word} (P : List Colour) : ∀ {j : Nat} {m m' : Memory},
    writePalette D h P j m = some m' → Memory.Wrote h m m' := by
  induction P with
  | nil => intro j m m' he; simp only [writePalette, Option.some.injEq] at he; exact he ▸ .refl ..
  | cons c P ih =>
    intro j m m' he
    simp only [writePalette] at he
    split at he
    · simp at he
    · next m1 h1 => exact (Memory.wrote_write h1).trans (ih he)

/-! ### A run over levels -/

/-- A run of allocLevels over the levels a, a + 1, ..: it ends with one new handle per level and what each round keeps, or it
stops at a level whose Alloc failed or whose fill failed, having freed what it allocated. -/
theorem allocLevels_cases {stage base : Nat} {size : Nat → Nat} {fill : State → Nat → Word → Option Memory}
    {P : List Word → State → Prop} (top : Nat)
    (hP : ∀ i new u u1 h m, i < top → new.length = base + i → P new u → u.alloc (size i) = (u1, some h) →
      fill u1 i h = some m → P (new ++ [h]) (u1.setMem m)) (n : Nat) :
    ∀ (a : Nat) (new : List Word) (u : State), a + n = top → new.length = base + a → P new u →
      (∃ new' t, allocLevels stage size fill (List.range' a n) new u = (t, .ok new') ∧ P new' t ∧ new'.length = base + top)
      ∨ (∃ i new' v u1, i < top ∧ new'.length = base + i ∧ P new' v ∧ v.alloc (size i) = (u1, none)
          ∧ allocLevels stage size fill (List.range' a n) new u
              = (u1.freeAll new', .error ⟨.allocationError, stage, some i⟩))
      ∨ (∃ i new' v u1 h, i < top ∧ new'.length = base + i ∧ P new' v ∧ v.alloc (size i) = (u1, some h)
          ∧ fill u1 i h = none
          ∧ allocLevels stage size fill (List.range' a n) new u
              = (u1.freeAll (new' ++ [h]), .error ⟨.boundsError, stage, some i⟩)) := by
  induction n with
  | zero => intro a new u ht hn hu; exact .inl ⟨new, u, rfl, hu, by omega⟩
  | succ n ih =>
    intro a new u ht hn hu
    have hr : List.range' a (n + 1) = a :: List.range' (a + 1) n := rfl
    rw [hr]
    rcases ha : u.alloc (size a) with ⟨u1, _ | h⟩
    · exact .inr (.inl ⟨a, new, u, u1, by omega, hn, hu, ha, by simp [allocLevels, ha]⟩)
    · cases hf : fill u1 a h with
      | none => exact .inr (.inr ⟨a, new, u, u1, h, by omega, hn, hu, ha, hf, by simp [allocLevels, ha, hf]⟩)
      | some m =>
        have hs : allocLevels stage size fill (a :: List.range' (a + 1) n) new u
            = allocLevels stage size fill (List.range' (a + 1) n) (new ++ [h]) (u1.setMem m) := by
          simp [allocLevels, ha, hf]
        rw [hs]
        exact ih (a + 1) (new ++ [h]) (u1.setMem m) (by omega) (by simp; omega)
          (hP a new u u1 h m (by omega) hn hu ha hf)

/-- A run of stage 1 over levels: it ends with the levels it kept, at least level 0, and what each round keeps; or level 0
failed its check, or an Alloc or a fill failed, and it freed what it allocated. -/
theorem decodeLevels_cases {ty : BlockType} {R1 : Desc} {P : List Word → State → Prop} (top : Nat)
    (hP : ∀ i new u u1 h m, i < top → new.length = i → P new u → checkBlockMip u ty i 1 = .ok () →
      u.alloc (R1.rawSize (u.lw i) (u.lh i)) = (u1, some h) → decodeLevel u1 ty i R1 h = some m →
      P (new ++ [h]) (u1.setMem m)) (n : Nat) :
    ∀ (a : Nat) (new : List Word) (u : State), a + n = top → new.length = a → P new u →
      (∃ new' t, decodeLevels ty R1 (List.range' a n) new u = (t, .ok new') ∧ P new' t ∧ new'.length ≤ top
          ∧ (0 < top → 1 ≤ new'.length))
      ∨ (∃ v e, a = 0 ∧ P new v ∧ checkBlockMip v ty 0 1 = .error e
          ∧ decodeLevels ty R1 (List.range' a n) new u = (v.freeAll new, .error e))
      ∨ (∃ i new' v u1, i < top ∧ new'.length = i ∧ P new' v ∧ v.alloc (R1.rawSize (v.lw i) (v.lh i)) = (u1, none)
          ∧ decodeLevels ty R1 (List.range' a n) new u
              = (u1.freeAll new', .error ⟨.allocationError, 1, some i⟩))
      ∨ (∃ i new' v u1 h, i < top ∧ new'.length = i ∧ P new' v ∧ checkBlockMip v ty i 1 = .ok ()
          ∧ v.alloc (R1.rawSize (v.lw i) (v.lh i)) = (u1, some h) ∧ decodeLevel u1 ty i R1 h = none
          ∧ decodeLevels ty R1 (List.range' a n) new u
              = (u1.freeAll (new' ++ [h]), .error ⟨.boundsError, 1, some i⟩)) := by
  induction n with
  | zero => intro a new u ht hn hu; exact .inl ⟨new, u, rfl, hu, by omega, by omega⟩
  | succ n ih =>
    intro a new u ht hn hu
    have hr : List.range' a (n + 1) = a :: List.range' (a + 1) n := rfl
    rw [hr]
    cases hc : checkBlockMip u ty a 1 with
    | error e =>
      by_cases h0 : a = 0
      · subst h0
        exact .inr (.inl ⟨u, e, rfl, hu, hc, by simp [decodeLevels, hc]⟩)
      · exact .inl ⟨new, u, by simp [decodeLevels, hc, h0], hu, by omega, by omega⟩
    | ok x =>
      rcases ha : u.alloc (R1.rawSize (u.lw a) (u.lh a)) with ⟨u1, _ | h⟩
      · exact .inr (.inr (.inl ⟨a, new, u, u1, by omega, hn, hu, ha, by simp [decodeLevels, hc, ha]⟩))
      · cases hf : decodeLevel u1 ty a R1 h with
        | none =>
          exact .inr (.inr (.inr ⟨a, new, u, u1, h, by omega, hn, hu, hc, ha, hf, by simp [decodeLevels, hc, ha, hf]⟩))
        | some m =>
          have hs : decodeLevels ty R1 (a :: List.range' (a + 1) n) new u
              = decodeLevels ty R1 (List.range' (a + 1) n) (new ++ [h]) (u1.setMem m) := by
            simp [decodeLevels, hc, ha, hf]
          rw [hs]
          rcases ih (a + 1) (new ++ [h]) (u1.setMem m) (by omega) (by simp; omega)
              (hP a new u u1 h m (by omega) hn hu hc ha hf) with h1 | ⟨v, e, h1, -⟩ | h1 | h1
          · exact .inl h1
          · omega
          · exact .inr (.inr (.inl h1))
          · exact .inr (.inr (.inr h1))

/-! ### What a run keeps -/

theorem freeAll_append (m : Memory) (a b : List Word) : m.freeAll (a ++ b) = (m.freeAll a).freeAll b := by
  induction a generalizing m with
  | nil => rfl
  | cons h a ih => simp only [List.cons_append, Memory.freeAll, ih]

theorem freeAll_free_comm (m : Memory) (a : List Word) (h : Word) : (m.freeAll a).free h = (m.free h).freeAll a := by
  induction a generalizing m with
  | nil => rfl
  | cons g a ih => simp only [Memory.freeAll, ih, free_comm]

/-- Freeing what an Alloc gave, after writes to its buffer alone, undoes it. -/
theorem freeAll_round {M m : Memory} {new : List Word} {n : Nat} {h : Word} (hl : M.live h = false)
    (hw : Memory.Wrote h (M.insert h n) m) : m.freeAll (new ++ [h]) = M.freeAll new := by
  rw [freeAll_append]
  show (m.freeAll new).free h = _
  rw [freeAll_free_comm, hw.free, free_insert n hl]

/-- The state u of a run that started at s and has allocated `new`, buffer k of it with sz k bytes: only the heap differs from
the start; freeing `new` gives the buffer store of the start back; the buffers of the start are as they were; the new handles are
different, live, not 0, and were not live at the start; nothing else is live. -/
structure Run (s : State) (sz : Nat → Nat) (new : List Word) (u : State) : Prop where
  regs : ∃ hp, u = { s with heap := hp }
  undo : u.mem.freeAll new = s.mem
  keep : ∀ g, s.mem.live g = true → u.mem.find g = s.mem.find g ∧ g ∉ new
  live : ∀ g ∈ new, u.mem.live g = true ∧ g ≠ 0 ∧ s.mem.live g = false
  nodup : new.Nodup
  len : ∀ k, k < new.length → u.mem.len? (new.getD k 0) = some (sz k)
  back : ∀ g, u.mem.live g = true → s.mem.live g = true ∨ g ∈ new
  wf : s.mem.wf = true → u.mem.wf = true

theorem Run.start (s : State) (sz : Nat → Nat) : Run s sz [] s :=
  ⟨⟨s.heap, rfl⟩, rfl, fun _ _ => ⟨rfl, by simp⟩, by simp, by simp, by simp, fun _ h => .inl h, fun h => h⟩

/-- A run that has given everything back. -/
theorem Run.undone {s u : State} (sz : Nat → Nat) (hr : ∃ hp, u = { s with heap := hp }) (hm : u.mem = s.mem) :
    Run s sz [] u :=
  ⟨hr, hm, fun _ _ => ⟨by rw [hm], by simp⟩, by simp, by simp, by simp, fun _ h => .inl (by rw [← hm]; exact h),
    fun h => by rw [hm]; exact h⟩

/-- One round of a run: an Alloc and writes to its buffer alone. -/
theorem Run.round {s u u1 : State} {sz : Nat → Nat} {new : List Word} {h : Word} {m : Memory} (hu : Run s sz new u)
    (ha : u.alloc (sz new.length) = (u1, some h)) (hw : Memory.Wrote h u1.mem m) : Run s sz (new ++ [h]) (u1.setMem m) := by
  obtain ⟨hp, rfl⟩ := hu.regs
  obtain ⟨hadm, rfl⟩ := alloc_some ha
  have hl := (admits_iff.1 hadm).2.1
  have hfind : ∀ g, g ≠ h → m.find g = (State.mem { s with heap := hp }).find g := by
    intro g hg
    rw [hw.other g hg]
    exact (find_insert hl g).trans (by rw [if_neg hg])
  have hself : m.len? h = some (sz new.length) := (hw.len h).trans (len?_insert _ hl)
  have hsl : s.mem.live h = false := by
    cases hs : s.mem.live h
    · rfl
    · have := live_congr (hu.keep h hs).1
      rw [hs] at this
      rw [this] at hl; simp at hl
  have hnew : h ∉ new := by
    intro hh
    have := (hu.live h hh).1
    rw [this] at hl; simp at hl
  refine ⟨⟨_, rfl⟩, (freeAll_round hl hw).trans hu.undo, ?_, ?_, ?_, ?_, ?_, ?_⟩
  · intro g hg
    have hgh : g ≠ h := by rintro rfl; rw [hsl] at hg; simp at hg
    refine ⟨(hfind g hgh).trans (hu.keep g hg).1, ?_⟩
    simp [(hu.keep g hg).2, hgh]
  · intro g hg
    by_cases hgh : g = h
    · subst hgh
      refine ⟨?_, (admits_iff.1 hadm).1, hsl⟩
      show m.live g = true
      unfold Memory.len? at hself
      unfold Memory.live
      cases hf : m.find g <;> simp [hf] at hself ⊢
    · have hg' : g ∈ new := by simpa [hgh] using hg
      refine ⟨?_, (hu.live g hg').2⟩
      show m.live g = true
      rw [live_congr (hfind g hgh)]; exact (hu.live g hg').1
  · rw [List.nodup_append]
    exact ⟨hu.nodup, by simp, by intro a ha b hb; simp only [List.mem_singleton] at hb; rintro rfl; exact hnew (hb ▸ ha)⟩
  · intro k hk
    show m.len? _ = _
    by_cases hkn : k < new.length
    · have hmem : new.getD k 0 ∈ new := by
        rw [List.getD_eq_getElem _ _ hkn]; exact List.getElem_mem hkn
      have e : (new ++ [h]).getD k 0 = new.getD k 0 := by
        simp [List.getD_eq_getElem?_getD, List.getElem?_append_left hkn]
      rw [e, len?_congr (hfind _ (fun e' => hnew (e' ▸ hmem)))]
      exact hu.len k hkn
    · have hk' : k = new.length := by simp at hk; omega
      subst hk'
      have e : (new ++ [h]).getD new.length 0 = h := by simp [List.getD_eq_getElem?_getD]
      rw [e]; exact hself
  · intro g hg
    by_cases hgh : g = h
    · exact .inr (by simp [hgh])
    · have : m.live g = true := hg
      rw [live_congr (hfind g hgh)] at this
      rcases hu.back g this with hb | hb
      · exact .inl hb
      · exact .inr (by simp [hb])
  · intro hwf
    exact hw.wf (wf_insert hadm (hu.wf hwf))

/-! ### What the buffers of a run hold -/

/-- A state v of a run that started at s, whose buffer h has just been allocated with n bytes: only the heap differs from the
start, the buffers of the start are as they were and none of them is h, and h holds zeros (20_memory R91). -/
structure Fresh (s : State) (n : Nat) (h : Word) (v : State) : Prop where
  regs : ∃ hp, v = { s with heap := hp }
  keep : ∀ g, s.mem.live g = true → v.mem.find g = s.mem.find g ∧ g ≠ h
  zero : v.mem.find h = some ⟨h, n, []⟩

/-- Every buffer of a run was filled: `fill k` ran on buffer k when it was fresh, and the buffer still holds what it left. -/
def Filled (s : State) (sz : Nat → Nat) (fill : Nat → State → Word → Option Memory) (new : List Word) (u : State) : Prop :=
  ∀ k, k < new.length → ∃ v m, Fresh s (sz k) (new.getD k 0) v ∧ fill k v (new.getD k 0) = some m
    ∧ u.mem.find (new.getD k 0) = m.find (new.getD k 0)

theorem Run.fresh {s u u1 : State} {sz : Nat → Nat} {new : List Word} {n : Nat} {h : Word} (hu : Run s sz new u)
    (ha : u.alloc n = (u1, some h)) : Fresh s n h u1 := by
  obtain ⟨hp, rfl⟩ := hu.regs
  obtain ⟨hadm, rfl⟩ := alloc_some ha
  have hl := (admits_iff.1 hadm).2.1
  refine ⟨⟨_, rfl⟩, fun g hg => ?_, (find_insert hl h).trans (if_pos rfl)⟩
  have hgh : g ≠ h := by
    rintro rfl
    rw [live_congr (hu.keep g hg).1, hg] at hl
    simp at hl
  exact ⟨(find_insert hl g).trans ((if_neg hgh).trans (hu.keep g hg).1), hgh⟩

theorem Filled.nil (s : State) (sz : Nat → Nat) (fill : Nat → State → Word → Option Memory) (u : State) :
    Filled s sz fill [] u := fun _ hk => absurd hk (by simp)

/-- One round of a run, with its fill. -/
theorem Filled.round {s u u1 : State} {sz : Nat → Nat} {fill : Nat → State → Word → Option Memory} {new : List Word} {h : Word}
    {m : Memory} (hf : Filled s sz fill new u) (hu : Run s sz new u) (ha : u.alloc (sz new.length) = (u1, some h))
    (hm : fill new.length u1 h = some m) (hw : Memory.Wrote h u1.mem m) : Filled s sz fill (new ++ [h]) (u1.setMem m) := by
  intro k hk
  by_cases hkn : k < new.length
  · have e : (new ++ [h]).getD k 0 = new.getD k 0 := by
      simp [List.getD_eq_getElem?_getD, List.getElem?_append_left hkn]
    have hmem : new.getD k 0 ∈ new := by rw [List.getD_eq_getElem _ _ hkn]; exact List.getElem_mem hkn
    obtain ⟨v, mk, h1, h2, h3⟩ := hf k hkn
    obtain ⟨hadm, hu1⟩ := alloc_some ha
    have hl := (admits_iff.1 hadm).2.1
    have hne : new.getD k 0 ≠ h := fun e' => by rw [← e', (hu.live _ hmem).1] at hl; simp at hl
    rw [e]
    refine ⟨v, mk, h1, h2, (hw.other _ hne).trans (Eq.trans ?_ h3)⟩
    rw [hu1]
    exact (find_insert hl _).trans (if_neg hne)
  · have hk' : k = new.length := by simp at hk; omega
    subst hk'
    have e : (new ++ [h]).getD new.length 0 = h := by simp [List.getD_eq_getElem?_getD]
    rw [e]
    exact ⟨u1, m, hu.fresh ha, hm, rfl⟩

theorem Run.stop_alloc {s u u1 : State} {sz : Nat → Nat} {new : List Word} {n : Nat} (hu : Run s sz new u)
    (ha : u.alloc n = (u1, none)) : Run s sz [] (u1.freeAll new) := by
  obtain ⟨hp, rfl⟩ := hu.regs
  obtain ⟨rfl, hm⟩ := alloc_none ha
  exact .undone sz ⟨_, rfl⟩ (by show (State.mem _).freeAll new = _; rw [hm]; exact hu.undo)

theorem Run.stop_fill {s u u1 : State} {sz : Nat → Nat} {new : List Word} {n : Nat} {h : Word} (hu : Run s sz new u)
    (ha : u.alloc n = (u1, some h)) : Run s sz [] (u1.freeAll (new ++ [h])) := by
  obtain ⟨hp, rfl⟩ := hu.regs
  obtain ⟨hadm, rfl⟩ := alloc_some ha
  exact .undone sz ⟨_, rfl⟩ ((freeAll_round (admits_iff.1 hadm).2.1 (.refl ..)).trans hu.undo)

theorem Run.stop {s u : State} {sz : Nat → Nat} {new : List Word} (hu : Run s sz new u) : Run s sz [] (u.freeAll new) := by
  obtain ⟨hp, rfl⟩ := hu.regs
  exact .undone sz ⟨_, rfl⟩ hu.undo

/-- Everything a run of allocLevels over all levels can do, when its fills write only their own buffer. `base` handles may have
been allocated before it. -/
theorem allocLevels_run {stage count : Nat} {size : Nat → Nat} {fill : State → Nat → Word → Option Memory} {s u : State}
    {sz : Nat → Nat} {fills : Nat → State → Word → Option Memory} {base : List Word}
    (hfill : ∀ u i h m, fill u i h = some m → Memory.Wrote h u.mem m) (hsz : ∀ i, sz (base.length + i) = size i)
    (hfs : ∀ i u h, fills (base.length + i) u h = fill u i h) (hu : Run s sz base u) (hb : Filled s sz fills base u) :
    (∃ new t, allocLevels stage size fill (List.range count) base u = (t, .ok new) ∧ Run s sz new t
        ∧ new.length = base.length + count ∧ Filled s sz fills new t)
    ∨ (∃ i t v u1 new, i < count ∧ Run s sz new v ∧ v.alloc (size i) = (u1, none)
        ∧ allocLevels stage size fill (List.range count) base u = (t, .error ⟨.allocationError, stage, some i⟩)
        ∧ Run s sz [] t)
    ∨ (∃ i t v u1 h new, i < count ∧ Run s sz new v ∧ v.alloc (size i) = (u1, some h) ∧ fill u1 i h = none
        ∧ allocLevels stage size fill (List.range count) base u = (t, .error ⟨.boundsError, stage, some i⟩)
        ∧ Run s sz [] t) := by
  rw [List.range_eq_range']
  rcases allocLevels_cases (stage := stage) (base := base.length) (size := size) (fill := fill)
    (P := fun new v => Run s sz new v ∧ Filled s sz fills new v) count
    (fun i new u u1 h m _ hl hr ha hf =>
      have ha' : u.alloc (sz new.length) = (u1, some h) := by rw [hl, hsz]; exact ha
      ⟨hr.1.round ha' (hfill _ _ _ _ hf), hr.2.round hr.1 ha' (by rw [hl, hfs]; exact hf) (hfill _ _ _ _ hf)⟩) count 0 base u
    (by omega) (by omega) ⟨hu, hb⟩ with
    ⟨n', t, h1, h2, h3⟩ | ⟨i, n', v, v1, h1, -, ⟨h2, -⟩, h3, h4⟩ | ⟨i, n', v, v1, h, h1, -, ⟨h2, -⟩, h3, h4, h5⟩
  · exact .inl ⟨n', t, h1, h2.1, h3, h2.2⟩
  · exact .inr (.inl ⟨i, _, v, v1, n', h1, h2, h3, h4, h2.stop_alloc h3⟩)
  · exact .inr (.inr ⟨i, _, v, v1, h, n', h1, h2, h3, h4, h5, h2.stop_fill h3⟩)

/-- Every level a run of stage 1 kept passed its check when its turn came (42_conversion_engine R261). -/
def Checked (s : State) (ty : BlockType) (sz : Nat → Nat) (new : List Word) : Prop :=
  ∀ k, k < new.length → ∃ v, Run s sz (new.take k) v ∧ checkBlockMip v ty k 1 = .ok ()

theorem Checked.round {s u : State} {ty : BlockType} {sz : Nat → Nat} {new : List Word} {h : Word} (hc : Checked s ty sz new)
    (hu : Run s sz new u) (hk : checkBlockMip u ty new.length 1 = .ok ()) : Checked s ty sz (new ++ [h]) := by
  intro k hkl
  by_cases hkn : k < new.length
  · rw [List.take_append_of_le_length (by omega)]; exact hc k hkn
  · have hk' : k = new.length := by simp at hkl; omega
    subst hk'
    exact ⟨u, by simpa using hu, hk⟩

/-- Everything the run of stage 1 over all levels can do (42_conversion_engine R261). -/
theorem decodeLevels_run {ty : BlockType} {R1 : Desc} {count : Nat} {s : State} :
    (∃ new t, decodeLevels ty R1 (List.range count) [] s = (t, .ok new)
        ∧ Run s (fun i => R1.rawSize (s.lw i) (s.lh i)) new t ∧ new.length ≤ count ∧ (0 < count → 1 ≤ new.length)
        ∧ Filled s (fun i => R1.rawSize (s.lw i) (s.lh i)) (fun i v h => decodeLevel v ty i R1 h) new t
        ∧ Checked s ty (fun i => R1.rawSize (s.lw i) (s.lh i)) new)
    ∨ (∃ e t, checkBlockMip s ty 0 1 = .error e ∧ decodeLevels ty R1 (List.range count) [] s = (t, .error e)
        ∧ Run s (fun i => R1.rawSize (s.lw i) (s.lh i)) [] t)
    ∨ (∃ i t v u1 new, i < count ∧ Run s (fun i => R1.rawSize (s.lw i) (s.lh i)) new v
        ∧ v.alloc (R1.rawSize (s.lw i) (s.lh i)) = (u1, none)
        ∧ decodeLevels ty R1 (List.range count) [] s = (t, .error ⟨.allocationError, 1, some i⟩)
        ∧ Run s (fun i => R1.rawSize (s.lw i) (s.lh i)) [] t)
    ∨ (∃ i t v u1 h new, i < count ∧ Run s (fun i => R1.rawSize (s.lw i) (s.lh i)) new v
        ∧ checkBlockMip v ty i 1 = .ok () ∧ v.alloc (R1.rawSize (s.lw i) (s.lh i)) = (u1, some h)
        ∧ decodeLevel u1 ty i R1 h = none
        ∧ decodeLevels ty R1 (List.range count) [] s = (t, .error ⟨.boundsError, 1, some i⟩)
        ∧ Run s (fun i => R1.rawSize (s.lw i) (s.lh i)) [] t) := by
  rw [List.range_eq_range']
  have regs : ∀ {new : List Word} {v : State}, Run s (fun i => R1.rawSize (s.lw i) (s.lh i)) new v → ∀ i,
      R1.rawSize (v.lw i) (v.lh i) = R1.rawSize (s.lw i) (s.lh i) := by
    intro new v hv i; obtain ⟨hp, rfl⟩ := hv.regs; rfl
  rcases decodeLevels_cases (ty := ty) (R1 := R1)
    (P := fun new v => Run s (fun i => R1.rawSize (s.lw i) (s.lh i)) new v
      ∧ Filled s (fun i => R1.rawSize (s.lw i) (s.lh i)) (fun i v h => decodeLevel v ty i R1 h) new v
      ∧ Checked s ty (fun i => R1.rawSize (s.lw i) (s.lh i)) new) count
    (by
      rintro i new u u1 h m _ rfl ⟨hr, hfd, hck⟩ hk ha hf
      rw [regs hr] at ha
      exact ⟨hr.round ha (decodeLevel_wrote hf), hfd.round hr ha hf (decodeLevel_wrote hf), hck.round hr hk⟩) count 0 [] s
    (by omega) rfl ⟨.start .., Filled.nil _ _ _ _, fun _ hk => absurd hk (by simp)⟩ with
    ⟨n', t, h1, ⟨h2, h2f, h2c⟩, h3, h4⟩ | ⟨v, e, -, ⟨h1, -⟩, h2, h3⟩ | ⟨i, n', v, v1, h1, -, ⟨h2, -⟩, h3, h4⟩
      | ⟨i, n', v, v1, h, h1, -, ⟨h2, -⟩, h3, h4, h5, h6⟩
  · exact .inl ⟨n', t, h1, h2, h3, h4, h2f, h2c⟩
  · refine .inr (.inl ⟨e, _, ?_, h3, h1.stop⟩)
    obtain ⟨hp, rfl⟩ := h1.regs
    have hm : State.mem { s with heap := hp } = s.mem := h1.undo
    have : checkBlockMip { s with heap := hp } ty 0 1 = checkBlockMip s ty 0 1 := by
      show (if _ then _ else if _ then _ else if (State.mem { s with heap := hp }).holds _ _ then _ else _) = _
      rw [hm]; rfl
    rw [← this]; exact h2
  · rw [regs h2] at h3; exact .inr (.inr (.inl ⟨i, _, v, v1, n', h1, h2, h3, h4, h2.stop_alloc h3⟩))
  · rw [regs h2] at h4; exact .inr (.inr (.inr ⟨i, _, v, v1, h, n', h1, h2, h3, h4, h5, h6, h2.stop_fill h4⟩))

/-! ### The stages -/

/-- The state t differs from s only in the allocator's answers. -/
structure Untouched (s t : State) : Prop where
  regs : ∃ hp, t = { s with heap := hp }
  mem : t.mem = s.mem

theorem Run.untouched {s t : State} {sz : Nat → Nat} (h : Run s sz [] t) : Untouched s t := ⟨h.regs, h.undo⟩

/-- Everything stage 1 can do: commit, or leave the image untouched with an error of level 0's check or of an Alloc; or a fill
found a block out of bounds (20_memory R93 says when that cannot happen). -/
theorem stage1_cases (s : State) (ty : BlockType) (T : Desc) :
    (∃ new u, stage1 s ty T = ⟨commitStage1 (stage1Format T) new u, none⟩
        ∧ Run s (fun i => (stage1Format T).rawSize (s.lw i) (s.lh i)) new u ∧ new.length ≤ s.levels
        ∧ (0 < s.levels → 1 ≤ new.length)
        ∧ Filled s (fun i => (stage1Format T).rawSize (s.lw i) (s.lh i)) (fun i v h => decodeLevel v ty i (stage1Format T) h) new u
        ∧ Checked s ty (fun i => (stage1Format T).rawSize (s.lw i) (s.lh i)) new)
    ∨ (∃ t e, stage1 s ty T = ⟨t, some e⟩ ∧ Untouched s t ∧ checkBlockMip s ty 0 1 = .error e)
    ∨ (∃ t i, stage1 s ty T = ⟨t, some ⟨.allocationError, 1, some i⟩⟩ ∧ i < s.levels ∧ Untouched s t)
    ∨ (∃ t i new v u1 h, stage1 s ty T = ⟨t, some ⟨.boundsError, 1, some i⟩⟩ ∧ i < s.levels ∧ Untouched s t
        ∧ Run s (fun i => (stage1Format T).rawSize (s.lw i) (s.lh i)) new v ∧ checkBlockMip v ty i 1 = .ok ()
        ∧ v.alloc ((stage1Format T).rawSize (s.lw i) (s.lh i)) = (u1, some h)
        ∧ decodeLevel u1 ty i (stage1Format T) h = none) := by
  unfold stage1
  rcases decodeLevels_run (ty := ty) (R1 := stage1Format T) (count := s.levels) (s := s) with
    ⟨n', t, h1, h2, h3, h4⟩ | ⟨e, t, h1, h2, h3⟩ | ⟨i, t, v, v1, n', h1, h2, h3, h4, h5⟩
      | ⟨i, t, v, v1, h, n', h1, h2, h3, h4, h5, h6, h7⟩
  · rw [h1]; exact .inl ⟨n', t, rfl, h2, h3, h4⟩
  · rw [h2]; exact .inr (.inl ⟨t, e, rfl, h3.untouched, h1⟩)
  · rw [h4]; exact .inr (.inr (.inl ⟨t, i, rfl, h1, h5.untouched⟩))
  · rw [h6]; exact .inr (.inr (.inr ⟨t, i, n', v, v1, h, rfl, h1, h7.untouched, h2, h3, h4, h5⟩))

/-- What a stage over all levels with one fill can do. -/
theorem levelStage_cases {stage : Nat} {size : Nat → Nat} {fill : State → Nat → Word → Option Memory}
    {commit : List Word → State → State} (s : State) (hfill : ∀ u i h m, fill u i h = some m → Memory.Wrote h u.mem m) :
    let out : StageOut := match allocLevels stage size fill (List.range s.levels) [] s with
      | (s1, .error e) => ⟨s1, some e⟩
      | (s1, .ok new) => ⟨commit new s1, none⟩
    (∃ new u, out = ⟨commit new u, none⟩ ∧ Run s size new u ∧ new.length = s.levels
        ∧ Filled s size (fun i v h => fill v i h) new u)
    ∨ (∃ t i, out = ⟨t, some ⟨.allocationError, stage, some i⟩⟩ ∧ i < s.levels ∧ Untouched s t)
    ∨ (∃ t i new v u1 h, out = ⟨t, some ⟨.boundsError, stage, some i⟩⟩ ∧ i < s.levels ∧ Untouched s t
        ∧ Run s size new v ∧ v.alloc (size i) = (u1, some h) ∧ fill u1 i h = none) := by
  intro out
  rcases allocLevels_run (stage := stage) (count := s.levels) (size := size) (fill := fill) (s := s) (u := s) (sz := size)
    (fills := fun i v h => fill v i h) (base := []) hfill (by simp) (by simp) (.start ..) (Filled.nil _ _ _ _) with
    ⟨n', t, h1, h2, h3, h3f⟩ | ⟨i, t, v, v1, n', h1, h2, h3, h4, h5⟩ | ⟨i, t, v, v1, h, n', h1, h2, h3, h4, h5, h6⟩
  · exact .inl ⟨n', t, by simp only [out, h1], h2, by simpa using h3, h3f⟩
  · exact .inr (.inl ⟨t, i, by simp only [out, h4], h1, h5.untouched⟩)
  · exact .inr (.inr ⟨t, i, n', v, v1, h, by simp only [out, h5], h1, h6.untouched, h2, h3, h4⟩)

/-- Everything case (a) of stage 2 can do (42_conversion_engine R265). -/
theorem recode_cases (s : State) (T' : Desc) :
    (∃ new u, recode s T' = ⟨commitRecode T' new u, none⟩ ∧ Run s (levelSize T' s) new u ∧ new.length = s.levels
        ∧ Filled s (levelSize T' s) (fun i v h => recodeLevel T' v i h) new u)
    ∨ (∃ t i, recode s T' = ⟨t, some ⟨.allocationError, 2, some i⟩⟩ ∧ i < s.levels ∧ Untouched s t)
    ∨ (∃ t i new v u1 h, recode s T' = ⟨t, some ⟨.boundsError, 2, some i⟩⟩ ∧ i < s.levels ∧ Untouched s t
        ∧ Run s (levelSize T' s) new v ∧ v.alloc (levelSize T' s i) = (u1, some h) ∧ recodeLevel T' u1 i h = none) :=
  levelStage_cases (commit := commitRecode T') s (fun _ _ _ _ => recodeLevel_wrote)

/-- Everything case (b) of stage 2 can do (42_conversion_engine R266). -/
theorem repack_cases (s : State) (T' : Desc) :
    (∃ new u, repack s T' = ⟨commitRepack T' new u, none⟩ ∧ Run s (levelSize T' s) new u ∧ new.length = s.levels
        ∧ Filled s (levelSize T' s) (fun i v h => repackLevel T' v i h) new u)
    ∨ (∃ t i, repack s T' = ⟨t, some ⟨.allocationError, 2, some i⟩⟩ ∧ i < s.levels ∧ Untouched s t)
    ∨ (∃ t i new v u1 h, repack s T' = ⟨t, some ⟨.boundsError, 2, some i⟩⟩ ∧ i < s.levels ∧ Untouched s t
        ∧ Run s (levelSize T' s) new v ∧ v.alloc (levelSize T' s i) = (u1, some h) ∧ repackLevel T' u1 i h = none) :=
  levelStage_cases (commit := commitRepack T') s (fun _ _ _ _ => repackLevel_wrote)

/-- Buffer sizes of case (c): the palette buffer, then the levels (43_palettizer R305, R306). -/
def paletteSizes (T' : Desc) (s : State) (P : List Colour) : Nat → Nat
  | 0 => P.length * T'.entryBytes
  | k + 1 => levelSize T' s k

/-- The fills of case (c): the palette buffer's, then the levels' (43_palettizer R305, R306). -/
def paletteFills (T' : Desc) (P : List Colour) : Nat → State → Word → Option Memory
  | 0, v, h => writePalette T' h P 0 v.mem
  | k + 1, v, h => indexLevel T' P v k h

theorem allocLevels_extends {stage : Nat} {size : Nat → Nat} {fill : State → Nat → Word → Option Memory} (l : List Nat) :
    ∀ {new new' : List Word} {u t : State}, allocLevels stage size fill l new u = (t, .ok new') → ∃ r, new' = new ++ r := by
  induction l with
  | nil => intro new new' u t h; simp only [allocLevels, Prod.mk.injEq, Except.ok.injEq] at h; exact ⟨[], by simp [h.2]⟩
  | cons i l ih =>
    intro new new' u t h
    simp only [allocLevels] at h
    split at h
    · simp at h
    · split at h
      · simp at h
      · obtain ⟨r, hr⟩ := ih h; exact ⟨_ :: r, by rw [hr]; simp; rfl⟩

/-- Everything Build and case (c) of stage 2 can do with a palette (43_palettizer R305, R306, 42_conversion_engine R267). -/
theorem palettizeWith_cases (s : State) (T' : Desc) (P : List Colour) :
    (∃ hp new u, palettizeWith s T' P = ⟨commitPalettize T' hp P.length new u, none⟩
        ∧ Run s (paletteSizes T' s P) (hp :: new) u ∧ new.length = s.levels
        ∧ Filled s (paletteSizes T' s P) (paletteFills T' P) (hp :: new) u)
    ∨ (∃ t k, palettizeWith s T' P = ⟨t, some ⟨.allocationError, 2, k⟩⟩ ∧ (∀ i, k = some i → i < s.levels) ∧ Untouched s t)
    ∨ (∃ t u1 hp, palettizeWith s T' P = ⟨t, some ⟨.boundsError, 2, none⟩⟩ ∧ Untouched s t
        ∧ s.alloc (P.length * T'.entryBytes) = (u1, some hp) ∧ writePalette T' hp P 0 u1.mem = none)
    ∨ (∃ t i new v u1 h, palettizeWith s T' P = ⟨t, some ⟨.boundsError, 2, some i⟩⟩ ∧ i < s.levels ∧ Untouched s t
        ∧ Run s (paletteSizes T' s P) new v ∧ v.alloc (levelSize T' s i) = (u1, some h) ∧ indexLevel T' P u1 i h = none) := by
  unfold palettizeWith
  rcases ha : s.alloc (P.length * T'.entryBytes) with ⟨s1, _ | hp⟩
  · exact .inr (.inl ⟨s1, none, rfl, by simp, (Run.start s (paletteSizes T' s P)).stop_alloc ha |>.untouched⟩)
  · cases hw : writePalette T' hp P 0 s1.mem with
    | none =>
      refine .inr (.inr (.inl ⟨_, s1, hp, ?_, ((Run.start s (paletteSizes T' s P)).stop_fill ha).untouched, rfl, hw⟩))
      simp only [hw]; rfl
    | some m =>
      have hr : Run s (paletteSizes T' s P) [hp] (s1.setMem m) :=
        (Run.start s (paletteSizes T' s P)).round (new := []) ha (writePalette_wrote P hw)
      have hfd : Filled s (paletteSizes T' s P) (paletteFills T' P) [hp] (s1.setMem m) :=
        (Filled.nil s (paletteSizes T' s P) (paletteFills T' P) s).round (.start ..) ha hw (writePalette_wrote P hw)
      simp only [hw]
      rcases allocLevels_run (stage := 2) (count := s.levels) (size := levelSize T' s) (fill := indexLevel T' P) (s := s)
        (u := s1.setMem m) (sz := paletteSizes T' s P) (fills := paletteFills T' P) (base := [hp])
        (fun _ _ _ _ => indexLevel_wrote) (fun i => by simp only [List.length_singleton, Nat.add_comm 1 i]; rfl)
        (fun i v h => by simp only [List.length_singleton, Nat.add_comm 1 i]; rfl) hr hfd with
        ⟨n', t, h1, h2, h3, h3f⟩ | ⟨i, t, v, v1, n', h1, h2, h3, h4, h5⟩ | ⟨i, t, v, v1, h, n', h1, h2, h3, h4, h5, h6⟩
      · have hn : ∃ new, n' = hp :: new := by
          obtain ⟨r, hr⟩ := allocLevels_extends _ h1
          exact ⟨r, hr⟩
        obtain ⟨new, rfl⟩ := hn
        exact .inl ⟨hp, new, t, by simp only [h1]; rfl, h2, by simp at h3; omega, h3f⟩
      · exact .inr (.inl ⟨t, some i, by simp only [h4], by simpa using h1, h5.untouched⟩)
      · exact .inr (.inr (.inr ⟨t, i, n', v, v1, h, by simp only [h5], h1, h6.untouched, h2, h3, h4⟩))

/-- Everything stage 3 can do (42_conversion_engine R272). -/
theorem stage3_cases (s : State) (ty : BlockType) (T : Desc) :
    (∃ e, alphaScan 3 s = .error e ∧ stage3 s ty T = ⟨s, some e⟩)
    ∨ (∃ alpha new u, alphaScan 3 s = .ok alpha ∧ stage3 s ty T = ⟨commitStage3 ty (virtualRaster ty alpha) T new u, none⟩
        ∧ Run s (encodedSize ty s) new u ∧ new.length = s.levels
        ∧ Filled s (encodedSize ty s) (fun i v h => encodeLevel ty v i h) new u)
    ∨ (∃ t i, stage3 s ty T = ⟨t, some ⟨.allocationError, 3, some i⟩⟩ ∧ i < s.levels ∧ Untouched s t)
    ∨ (∃ t i new v u1 h, stage3 s ty T = ⟨t, some ⟨.boundsError, 3, some i⟩⟩ ∧ i < s.levels ∧ Untouched s t
        ∧ Run s (encodedSize ty s) new v ∧ v.alloc (encodedSize ty s i) = (u1, some h) ∧ encodeLevel ty u1 i h = none) := by
  unfold stage3
  cases ha : alphaScan 3 s with
  | error e => exact .inl ⟨e, rfl, rfl⟩
  | ok alpha =>
    rcases levelStage_cases (stage := 3) (size := encodedSize ty s) (fill := encodeLevel ty)
      (commit := commitStage3 ty (virtualRaster ty alpha) T) s (fun _ _ _ _ => encodeLevel_wrote) with
      ⟨n', u, h1, h2⟩ | ⟨t, i, h1, h2⟩ | ⟨t, i, n', v, u1, h, h1, h2⟩
    · exact .inr (.inl ⟨alpha, n', u, rfl, h1, h2⟩)
    · exact .inr (.inr (.inl ⟨t, i, h1, h2⟩))
    · exact .inr (.inr (.inr ⟨t, i, n', v, u1, h, h1, h2⟩))

end Sys2Proof.Machine
end

