-- ==== Sys2Proof/Laws/Fills.lean ====
section
/-! SUPPORT. What a store of a texel, of an index and of a block does to a level, and what it leaves (spec/40_color_model.md R157,
R160, R162, spec/20_memory.md R95, R96, R98, spec/41_block_codec.md R210 to R212): the lemmas the fills of CONVERT rest on. -/

namespace Sys2Proof.Machine

/-! ### Encoded items fit their depth -/

theorem narrow_lt (c : Byte) (w : Nat) : narrow c.toNat w < 2 ^ w := by
  unfold narrow
  have h1 : 0 < 2 ^ w := by positivity
  have h2 := c.isLt
  have : c.toNat * (2 ^ w - 1) / 255 ≤ 2 ^ w - 1 := by
    apply Nat.div_le_of_le_mul
    exact Nat.mul_le_mul_right _ (by omega)
  omega

theorem shl_lt {v a n : Nat} (k : Nat) (h : v < 2 ^ a) (hk : k + a ≤ n) : v <<< k < 2 ^ n := by
  rw [Nat.shiftLeft_eq]
  calc v * 2 ^ k < 2 ^ a * 2 ^ k := Nat.mul_lt_mul_of_pos_right h (by positivity)
    _ = 2 ^ (k + a) := by rw [Nat.pow_add, Nat.mul_comm]
    _ ≤ 2 ^ n := Nat.pow_le_pow_right (by norm_num) hk

theorem lum_lt (c : Colour) : luminance c < 256 := by
  unfold luminance; have := c.r.isLt; have := c.g.isLt; have := c.b.isLt; omega

theorem encodeSlots_lt (c : Colour) (l : List (Role × Nat)) : ∀ (p word n : Nat), word < 2 ^ n → p + (l.map Prod.snd).sum ≤ n →
    encodeSlots c l p word < 2 ^ n := by
  induction l with
  | nil => intro p word n h _; exact h
  | cons a l ih =>
    obtain ⟨role, w⟩ := a
    intro p word n h hp
    simp only [List.map_cons, List.sum_cons] at hp
    exact ih (p + w) _ n (Nat.or_lt_two_pow h (shl_lt p (narrow_lt _ w) (by omega))) (by omega)

theorem slots_sum (f : Raster) (o : Order) (d : Nat) (hd : d ∈ depthSet f) : ((slots f o).map Prod.snd).sum ≤ d := by
  cases f <;> simp only [depthSet, List.not_mem_nil, List.mem_cons, or_false] at hd
  case r888 => rcases hd with rfl | rfl <;> cases o <;> decide
  all_goals (subst hd; cases o <;> decide)

/-- An encoded item fits its depth (40_color_model R157). -/
theorem encodeDirect_lt {f : Raster} {o : Order} {d : Nat} {c : Colour} (hd : d ∈ depthSet f) : encodeDirect f o d c < 2 ^ d := by
  have hl := lum_lt c
  have ha := c.a.isLt
  have hs := encodeSlots_lt c (slots f o) 0 0 d (by positivity) (by simpa using slots_sum f o d hd)
  cases f <;> simp only [depthSet, List.not_mem_nil, List.mem_cons, or_false] at hd
  case lum => subst hd; exact hl
  case lumAlpha => subst hd; exact Nat.or_lt_two_pow (lt_of_lt_of_le hl (by norm_num)) (shl_lt 8 (a := 8) ha (by norm_num))
  case r888 =>
    simp only [encodeDirect]
    split
    · next h => rw [h.2] at hs ⊢; exact Nat.or_lt_two_pow hs (by decide)
    · exact hs
  all_goals (simp only [encodeDirect, reduceCtorEq, false_and, if_false]; exact hs)

/-! ### Texels -/

theorem itemBytes_direct {D : Desc} (h : D.depth ≠ 4) : itemBytes D = D.depth.toNat / 8 := by unfold itemBytes; rw [if_neg h]

theorem itemOffset_direct {D : Desc} (h : D.depth ≠ 4) (w x y) : itemOffset D w x y = y * D.pitch w + x * (D.depth.toNat / 8) := by unfold itemOffset; rw [if_neg h]

/-- Two different items of whole bytes in one level do not overlap (20_memory R96). -/
theorem items_apart {D : Desc} (hw : D.wf = true) (hc : D.comp = 0) (h4 : D.depth ≠ 4) {w x y x' y' : Nat} (hx : x < w) (hx' : x' < w)
    (hne : (x', y') ≠ (x, y)) :
    itemOffset D w x' y' + itemBytes D ≤ itemOffset D w x y ∨ itemOffset D w x y + itemBytes D ≤ itemOffset D w x' y' := by
  have h1 := item_in_row (raw_depth hw hc) hx
  have h1' := item_in_row (raw_depth hw hc) hx'
  have h2 := rowBytes_le_pitch w D.depth.toNat D.rowAlign.toNat (raw_wf hw hc).1
  have h7 : D.pitch w = pitch w D.depth.toNat D.rowAlign.toNat := rfl
  rw [itemBytes_direct h4, itemOffset_direct h4, itemOffset_direct h4]
  rw [itemBytes_direct h4] at h1 h1'
  simp only [h4, if_false] at h1 h1'
  rw [← h7] at h2
  generalize D.pitch w = P at *
  generalize D.depth.toNat / 8 = k at *
  rcases lt_trichotomy y' y with h | h | h
  · have h3 : (y' + 1) * P ≤ y * P := Nat.mul_le_mul_right _ h
    have h5 : (y' + 1) * P = y' * P + P := by ring
    left; omega
  · subst h
    rcases lt_trichotomy x' x with h | h | h
    · have h3 : (x' + 1) * k ≤ x * k := Nat.mul_le_mul_right _ h
      have h5 : (x' + 1) * k = x' * k + k := by ring
      left; omega
    · subst h; exact absurd rfl hne
    · have h3 : (x + 1) * k ≤ x' * k := Nat.mul_le_mul_right _ h
      have h5 : (x + 1) * k = x * k + k := by ring
      right; omega
  · have h3 : (y + 1) * P ≤ y' * P := Nat.mul_le_mul_right _ h
    have h5 : (y + 1) * P = y * P + P := by ring
    right; omega

/-- StoreTexel inside a level: the item reads back, every other item and all padding stay (40_color_model R162). -/
theorem storeTexel_spec {D : Desc} (hw : D.wf = true) (hc : D.comp = 0) (hp : D.palMode = palNone) {m : Memory} {h : Word} {w hh x y : Nat} (c : Colour)
    (hb : m.inBounds h 0 (D.rawSize w hh) = true) (hx : x < w) (hy : y < hh) :
    ∃ m', storeTexel m D h w x y c = some m'
      ∧ readItem m' h w D x y = some (encodeDirect D.rasterF D.orderF D.depth.toNat c)
      ∧ (∀ x' y', x' < w → (x', y') ≠ (x, y) → readItem m' h w D x' y' = readItem m h w D x' y')
      ∧ (∀ y' j, rowBytes w D.depth.toNat ≤ j → j < D.pitch w → m'.byte? h (y' * D.pitch w + j) = m.byte? h (y' * D.pitch w + j)) := by
  obtain ⟨h4, h8⟩ := direct_depth hw hc hp
  have hl := item_in_level hw hc hx hy
  have hi : m.inBounds h (itemOffset D w x y) (itemBytes D) = true := inBounds_mono hb (by omega)
  have h1 := item_in_row (raw_depth hw hc) hx
  rw [itemBytes_direct h4] at h1 hi; simp only [h4, if_false] at h1
  rw [itemOffset_direct h4] at hi
  refine ⟨_, write_of_inBounds _ hi, ?_, ?_, ?_⟩
  · unfold readItem; rw [if_neg h4, itemOffset_direct h4, read_put_same _ hi]
    congr 1
    apply Nat.mod_eq_of_lt
    have := encodeDirect_lt (o := D.orderF) (c := c) ((raw_wf hw hc).2.2.1 hp)
    have e : 8 * (D.depth.toNat / 8) = D.depth.toNat := by omega
    rw [e]; exact this
  · intro x' y' hx' hne
    have ha := items_apart hw hc h4 hx hx' hne
    unfold readItem; rw [if_neg h4, if_neg h4, itemOffset_direct h4]
    rw [itemBytes_direct h4, itemOffset_direct h4, itemOffset_direct h4] at ha
    exact read_put_other (.inr ha)
  · intro y' j hj hj'
    rw [byte?_put, if_neg]
    rintro ⟨-, ha, hb'⟩
    simp only [leBytes_length] at hb'
    have hpw : rowBytes w D.depth.toNat ≤ D.pitch w := rowBytes_le_pitch w D.depth.toNat D.rowAlign.toNat (raw_wf hw hc).1
    generalize D.pitch w = P at *
    generalize D.depth.toNat / 8 = k at *
    rcases lt_trichotomy y' y with h | h | h
    · have h3 : (y' + 1) * P ≤ y * P := Nat.mul_le_mul_right _ h
      have h5 : (y' + 1) * P = y' * P + P := by ring
      omega
    · subst h; omega
    · have h3 : (y + 1) * P ≤ y' * P := Nat.mul_le_mul_right _ h
      have h5 : (y + 1) * P = y * P + P := by ring
      omega

theorem inBounds_len {m m' : Memory} (h : ∀ g, m'.len? g = m.len? g) (g : Word) (o n : Nat) : m'.inBounds g o n = m.inBounds g o n := by
  have := h g
  unfold Memory.len? at this
  unfold Memory.inBounds
  cases h1 : m.find g <;> cases h2 : m'.find g <;> simp [h1, h2] at this ⊢
  rw [this]

/-! ### Indices -/

theorem and15 (n : Nat) : n &&& 15 = n % 16 := Nat.and_two_pow_sub_one_eq_mod n 4

theorem and255 (n : Nat) : n &&& 255 = n % 256 := Nat.and_two_pow_sub_one_eq_mod n 8

theorem nib_or : ∀ h < 16, ∀ l < 16, (16 * h) ||| l = 16 * h + l ∧ l ||| (16 * h) = 16 * h + l := by decide +kernel

theorem nib_and : ∀ b < 256, b &&& 240 = 16 * (b / 16) := by decide +kernel

/-- A nibble written into a byte reads back and leaves the other nibble (20_memory R100). -/
theorem nib_same : ∀ k < 2, ∀ i < 16, ∀ b < 256, (((b &&& (0xFF - (0xF <<< (4 * k)))) ||| (i <<< (4 * k))) >>> (4 * k)) &&& 0xF = i
    ∧ (((b &&& (0xFF - (0xF <<< (4 * k)))) ||| (i <<< (4 * k))) >>> (4 * (1 - k))) &&& 0xF = (b >>> (4 * (1 - k))) &&& 0xF
    ∧ ((b &&& (0xFF - (0xF <<< (4 * k)))) ||| (i <<< (4 * k))) < 256 := by
  intro k hk i hi b hb
  interval_cases k
  · have h := (nib_or (b / 16) (by omega) i hi).1
    simp only [Nat.mul_zero, Nat.shiftLeft_zero, Nat.reduceSub, nib_and b hb, h, and15, Nat.mul_one,
      Nat.shiftRight_eq_div_pow]
    omega
  · have h := (nib_or i hi (b % 16) (by omega)).2
    have e : (b &&& (0xFF - (0xF <<< (4 * 1)))) ||| (i <<< (4 * 1)) = 16 * i + b % 16 := by
      rw [← h, ← and15, show i <<< (4 * 1) = 16 * i from by rw [Nat.shiftLeft_eq]; omega]
      rfl
    rw [e, and15, and15, and15]
    simp only [Nat.mul_one, Nat.reduceSub, Nat.mul_zero, Nat.shiftRight_eq_div_pow]
    omega

/-- WriteIndex inside a level: the index reads back cut to its width, every other item stays (40_color_model R160). -/
theorem writeIndex_spec {D : Desc} (hw : D.wf = true) (hc : D.comp = 0) (hp : D.palMode ≠ palNone) {m : Memory} {h : Word} {w hh x y : Nat} (idx : Nat)
    (hb : m.inBounds h 0 (D.rawSize w hh) = true) (hx : x < w) (hy : y < hh) :
    ∃ m', writeIndex m h w D x y idx = some m'
      ∧ readItem m' h w D x y = some (if D.palMode = pal4 then idx % 16 else idx % 256)
      ∧ (∀ x' y', x' < w → y' < hh → (x', y') ≠ (x, y) → readItem m' h w D x' y' = readItem m h w D x' y') := by
  have hl := item_in_level hw hc hx hy
  have hi : m.inBounds h (itemOffset D w x y) (itemBytes D) = true := inBounds_mono hb (by omega)
  have hk := (raw_wf hw hc).2.2.2 hp
  by_cases h4 : D.depth = 4
  · have hp4 : D.palMode = pal4 := by
      rcases hk with ⟨a, -⟩ | ⟨-, b⟩
      · exact a
      · rw [h4] at b; exact absurd b (by decide)
    simp only [itemBytes, h4, if_true] at hi
    obtain ⟨b, hr, hlt⟩ := read_of_inBounds hi
    have hlt' : b < 256 := by simpa using hlt
    have hn := nib_same (x % 2) (Nat.mod_lt _ (by norm_num)) (idx &&& 0xF) (by rw [and15]; exact Nat.mod_lt _ (by norm_num)) b hlt'
    refine ⟨_, by simp only [writeIndex, h4, if_true, hr]; exact write_of_inBounds _ hi, ?_, ?_⟩
    · simp only [readItem, h4, if_true]
      rw [read_put_same _ hi, Option.map_some, Nat.mod_eq_of_lt (by simpa using hn.2.2), hn.1, hp4, and15]; simp
    · intro x' y' hx' hy' hne
      simp only [readItem, h4, if_true]
      have hi' : m.inBounds h (itemOffset D w x' y') 1 = true := by
        have := item_in_level hw hc hx' hy'
        simp only [itemBytes, h4, if_true] at this
        exact inBounds_mono hb (by omega)
      by_cases he : itemOffset D w x' y' = itemOffset D w x y
      · rw [he, read_put_same _ hi, hr, Option.map_some, Option.map_some, Nat.mod_eq_of_lt (by simpa using hn.2.2)]
        have hx2 : x' % 2 = 1 - x % 2 := by
          have h1 := item_in_row (raw_depth hw hc) hx
          have h1' := item_in_row (raw_depth hw hc) hx'
          have h2 := rowBytes_le_pitch w D.depth.toNat D.rowAlign.toNat (raw_wf hw hc).1
          have h7 : D.pitch w = pitch w D.depth.toNat D.rowAlign.toNat := rfl
          rw [← h7] at h2
          simp only [itemOffset, itemBytes, h4, if_true] at h1 h1' he
          simp only [h4] at h2
          generalize D.pitch w = Pt at *
          rcases lt_trichotomy y' y with h | h | h
          · have h3 : (y' + 1) * Pt ≤ y * Pt := Nat.mul_le_mul_right _ h
            have h5 : (y' + 1) * Pt = y' * Pt + Pt := by ring
            omega
          · subst h
            have : x' ≠ x := fun e => hne (by rw [e])
            omega
          · have h3 : (y + 1) * Pt ≤ y' * Pt := Nat.mul_le_mul_right _ h
            have h5 : (y + 1) * Pt = y * Pt + Pt := by ring
            omega
        rw [hx2, hn.2.1]
      · rw [read_put_other (.inr (by omega))]
  · have h8 : D.depth.toNat = 8 := by
      rcases hk with ⟨-, a | a⟩ | ⟨-, a⟩
      · exact absurd a h4
      · rw [a]; rfl
      · rw [a]; rfl
    rw [itemBytes_direct h4, itemOffset_direct h4, h8] at hi
    simp only [Nat.reduceDiv, Nat.mul_one] at hi
    have e : ∀ v, writeIndex m h w D x y idx = m.write h (y * D.pitch w + x) 1 v → v = (if D.palMode = pal4 then idx % 16 else idx % 256) →
        ∃ m', writeIndex m h w D x y idx = some m'
      ∧ readItem m' h w D x y = some (if D.palMode = pal4 then idx % 16 else idx % 256)
      ∧ (∀ x' y', x' < w → y' < hh → (x', y') ≠ (x, y) → readItem m' h w D x' y' = readItem m h w D x' y') := by
      intro v hv hve
      refine ⟨_, by rw [hv]; exact write_of_inBounds _ hi, ?_, ?_⟩
      · unfold readItem; rw [if_neg h4, itemOffset_direct h4, h8]
        simp only [Nat.reduceDiv, Nat.mul_one]
        rw [read_put_same _ hi, ← hve, Nat.mod_eq_of_lt]
        rw [hve]; split <;> omega
      · intro x' y' hx' hy' hne
        have ha := items_apart hw hc h4 hx hx' hne
        unfold readItem; rw [if_neg h4, if_neg h4, itemOffset_direct h4, h8]
        rw [itemBytes_direct h4, itemOffset_direct h4, itemOffset_direct h4, h8] at ha
        simp only [Nat.reduceDiv, Nat.mul_one] at ha ⊢
        exact read_put_other (.inr ha)
    by_cases hp4 : D.palMode = pal4
    · exact e (idx &&& 0x0F) (by simp only [writeIndex]; rw [if_neg h4, if_pos hp4]) (by rw [if_pos hp4]; exact and15 _)
    · exact e (idx &&& 0xFF) (by simp only [writeIndex]; rw [if_neg h4, if_neg hp4]) (by rw [if_neg hp4]; exact and255 _)

/-- A byte and the value of the one-byte read at it. -/
theorem byte?_of_read {m : Memory} {h : Word} {off v : Nat} (hr : m.read h off 1 = some v) :
    ∃ b : Byte, m.byte? h off = some b ∧ b.toNat = v := by
  unfold Memory.read Memory.readBytes at hr
  unfold Memory.byte?
  cases hf : m.find h with
  | none => rw [hf] at hr; simp at hr
  | some b =>
    rw [hf] at hr
    simp only at hr ⊢
    split at hr
    · next hl => rw [if_pos (by omega)]; exact ⟨_, rfl, by simpa [readCells, leValue] using hr⟩
    · simp at hr

theorem nib_high : ∀ b < 256, ∀ i < 16, ((b &&& 240) ||| i) / 16 = b / 16 ∧ ((b &&& 240) ||| i) < 256 := by decide +kernel

/-- WriteIndex inside a level leaves the padding of every row, and the unused nibble of an odd row, as they were
(20_memory R95, R100). -/
theorem writeIndex_padding {D : Desc} (hw : D.wf = true) (hc : D.comp = 0) (hp : D.palMode ≠ palNone) {m m' : Memory} {h : Word} {w x y idx : Nat}
    (hx : x < w) (he : writeIndex m h w D x y idx = some m') :
    (∀ y' j, rowBytes w D.depth.toNat ≤ j → j < D.pitch w → m'.byte? h (y' * D.pitch w + j) = m.byte? h (y' * D.pitch w + j))
    ∧ (D.depth = 4 → w % 2 = 1 → ∀ y', (m'.byte? h (y' * D.pitch w + w / 2)).map (fun b => b.toNat / 16)
        = (m.byte? h (y' * D.pitch w + w / 2)).map (fun b => b.toNat / 16)) := by
  have h1 := item_in_row (raw_depth hw hc) hx
  have h2 : rowBytes w D.depth.toNat ≤ D.pitch w := rowBytes_le_pitch w D.depth.toNat D.rowAlign.toNat (raw_wf hw hc).1
  have h8 : D.depth ≠ 4 → D.depth.toNat / 8 = 1 := by
    intro h4
    rcases (raw_wf hw hc).2.2.2 hp with ⟨-, a | a⟩ | ⟨-, a⟩
    · exact absurd a h4
    · rw [a]; rfl
    · rw [a]; rfl
  obtain ⟨v, hput, hnib⟩ : ∃ v, m' = m.put h (itemOffset D w x y) (leBytes 1 v)
      ∧ (D.depth = 4 → x % 2 = 0 → ∃ b : Byte, m.byte? h (itemOffset D w x y) = some b ∧ v % 256 / 16 = b.toNat / 16) := by
    unfold writeIndex at he
    split at he
    · next h4 =>
      split at he
      · simp at he
      · next b hr =>
        obtain ⟨hb, rfl⟩ := write_eq_some.1 he
        refine ⟨_, rfl, fun _ hx0 => ?_⟩
        obtain ⟨b', hb', rfl⟩ := byte?_of_read hr
        refine ⟨b', hb', ?_⟩
        obtain ⟨n1, n2⟩ := nib_high b'.toNat b'.isLt (idx &&& 15) (by rw [and15]; exact Nat.mod_lt _ (by norm_num))
        simp only [hx0, Nat.mul_zero, Nat.shiftLeft_zero, Nat.reduceSub]
        rw [Nat.mod_eq_of_lt n2, n1]
    · next h4 =>
      rw [itemOffset_direct h4, h8 h4, Nat.mul_one]
      split at he
      · exact ⟨_, (write_eq_some.1 he).2, fun h => absurd h h4⟩
      · exact ⟨_, (write_eq_some.1 he).2, fun h => absurd h h4⟩
  have hoff : itemOffset D w x y = y * D.pitch w + (if D.depth = 4 then x / 2 else x * (D.depth.toNat / 8)) := by
    unfold itemOffset; split <;> rfl
  have hib : 1 ≤ itemBytes D := by
    unfold itemBytes
    split
    · exact le_refl _
    · next h4 => rw [h8 h4]
  subst hput
  have key : ∀ y' j, j < D.pitch w → j ≠ (if D.depth = 4 then x / 2 else x * (D.depth.toNat / 8)) →
      (m.put h (itemOffset D w x y) (leBytes 1 v)).byte? h (y' * D.pitch w + j) = m.byte? h (y' * D.pitch w + j) := by
    intro y' j hj hne
    rw [byte?_put, if_neg]
    rintro ⟨-, ha, hb⟩
    simp only [leBytes_length] at hb
    rw [hoff] at ha hb
    generalize (if D.depth = 4 then x / 2 else x * (D.depth.toNat / 8)) = o at *
    generalize D.pitch w = P at *
    rcases lt_trichotomy y' y with h | h | h
    · have h3 : (y' + 1) * P ≤ y * P := Nat.mul_le_mul_right _ h
      have h5 : (y' + 1) * P = y' * P + P := by ring
      omega
    · subst h; omega
    · have h3 : (y + 1) * P ≤ y' * P := Nat.mul_le_mul_right _ h
      have h5 : (y + 1) * P = y * P + P := by ring
      omega
  refine ⟨fun y' j hj hj' => key y' j hj' (by omega), fun h4 hodd y' => ?_⟩
  have hrow : w / 2 < rowBytes w D.depth.toNat := by rw [depth_eq_four.1 h4]; unfold rowBytes; omega
  by_cases hxo : x / 2 = w / 2
  · by_cases hy : y' = y
    · subst hy
      obtain ⟨b, hb, hv⟩ := hnib h4 (by omega)
      have e : itemOffset D w x y' = y' * D.pitch w + w / 2 := by rw [hoff, if_pos h4, hxo]
      rw [e] at hb ⊢
      rw [byte?_put, if_pos ⟨rfl, le_refl _, by simp⟩, hb]
      simp [leBytes, hv]
    · rw [byte?_put, if_neg]
      rintro ⟨-, ha, hb⟩
      simp only [leBytes_length] at hb
      rw [hoff, if_pos h4, hxo] at ha hb
      have : y' * D.pitch w = y * D.pitch w := by omega
      have hP : 0 < D.pitch w := by omega
      exact hy (Nat.eq_of_mul_eq_mul_right hP this)
  · rw [key y' _ (by omega) (by rw [if_pos h4]; omega)]

/-! ### Lists of texels and blocks -/

/-- The colours of a list of texels that can all be fetched. -/
theorem levelColours_spec {m : Memory} {D pal n h w} (l : List (Nat × Nat)) (hl : ∀ p ∈ l, ∃ c f, fetchTexel m D pal n h w p.1 p.2 = some (c, f)) :
    ∃ G, levelColours m D pal n h w l = some G ∧ G.length = l.length
      ∧ ∀ t, t < l.length → ∃ f, fetchTexel m D pal n h w (l.getD t (0, 0)).1 (l.getD t (0, 0)).2 = some (G.getD t Colour.none, f) := by
  induction l with
  | nil => exact ⟨[], rfl, rfl, by simp⟩
  | cons p l ih =>
    obtain ⟨x, y⟩ := p
    obtain ⟨G, h1, h2, h3⟩ := ih (fun p hp => hl p (by simp [hp]))
    obtain ⟨c, f, hf⟩ := hl (x, y) (by simp)
    simp only at hf
    refine ⟨c :: G, by simp [levelColours, hf, h1], by simp [h2], ?_⟩
    intro t ht
    cases t with
    | zero => exact ⟨f, by simpa using hf⟩
    | succ t => simpa using h3 t (by simpa using ht)

theorem levelColours_congr {m m' : Memory} {D : Desc} {pal h : Word} (hf : m.find h = m'.find h)
    (hp : D.palMode ≠ palNone → m.find pal = m'.find pal) (n w) (l : List (Nat × Nat)) : levelColours m D pal n h w l = levelColours m' D pal n h w l := by
  induction l with
  | nil => rfl
  | cons p l ih => obtain ⟨x, y⟩ := p; simp only [levelColours, fetchTexel_congr hf hp, ih]

theorem writeBytes_of_inBounds {m : Memory} {h : Word} {off : Nat} {bs : List Byte} (hb : m.inBounds h off bs.length = true) :
    m.writeBytes h off bs = some (m.put h off bs) := writeBytes_eq_some.2 ⟨hb, rfl⟩

theorem roundup4 (v : Nat) : roundup v 4 % 4 = 0 ∧ v ≤ roundup v 4 ∧ roundup v 4 < v + 4 := by unfold roundup; omega

/-- A block of a level ends inside it (20_memory R98). -/
theorem block_lt {a b x y k : Nat} (hx : x < a) (hy : y < b) : (y * a + x) * k + k ≤ a * b * k := by
  have e1 : (y * a + x + 1) ≤ a * b := by
    have : (y + 1) * a ≤ b * a := Nat.mul_le_mul_right _ hy
    have e : (y + 1) * a = y * a + a := by ring
    rw [Nat.mul_comm a b]; omega
  have := Nat.mul_le_mul_right k e1
  have e : (y * a + x + 1) * k = (y * a + x) * k + k := by ring
  omega

/-- Two different blocks of a level do not overlap (20_memory R98). -/
theorem blocks_apart {a x y x' y' k : Nat} (hx : x < a) (hx' : x' < a) (hne : (x', y') ≠ (x, y)) :
    (y' * a + x') * k + k ≤ (y * a + x) * k ∨ (y * a + x) * k + k ≤ (y' * a + x') * k := by
  have key : ∀ n n' : Nat, n' < n → n' * k + k ≤ n * k := by
    intro n n' h
    have := Nat.mul_le_mul_right k (show n' + 1 ≤ n from h)
    have e : (n' + 1) * k = n' * k + k := by ring
    omega
  rcases lt_trichotomy (y' * a + x') (y * a + x) with h | h | h
  · exact .inl (key _ _ h)
  · exfalso; apply hne
    rcases lt_trichotomy y' y with h' | h' | h'
    · have h3 : (y' + 1) * a ≤ y * a := Nat.mul_le_mul_right _ h'
      have h5 : (y' + 1) * a = y' * a + a := by ring
      omega
    · subst h'; have : x' = x := by omega
      rw [this]
    · have h3 : (y + 1) * a ≤ y' * a := Nat.mul_le_mul_right _ h'
      have h5 : (y + 1) * a = y * a + a := by ring
      omega
  · exact .inr (key _ _ h)

end Sys2Proof.Machine
end

