-- ==== Sys2Proof/Laws/Colour.lean ====
section
/-! SUPPORT. Where a channel stands in an encoded item (spec/40_color_model.md R155, R157), the row-major order of texels
(spec/00_scope.md R19), and what writing a palette leaves in its buffer (spec/43_palettizer.md R305). -/

namespace Sys2Proof.Machine

/-! ### Slots of an item -/

theorem or_shl {word n p : Nat} (h : word < 2 ^ p) : word ||| n <<< p = word + n * 2 ^ p := by
  rw [Nat.or_comm, ← Nat.shiftLeft_add_eq_or_of_lt h, Nat.shiftLeft_eq, Nat.add_comm]

theorem word_lt {word n p w : Nat} (h : word < 2 ^ p) (hn : n < 2 ^ w) : word + n * 2 ^ p < 2 ^ (p + w) := by
  rw [Nat.pow_add]
  have : (n + 1) * 2 ^ p ≤ 2 ^ w * 2 ^ p := Nat.mul_le_mul_right _ hn
  rw [Nat.add_mul] at this; nlinarith

/-- The bits of an item below its first slot (40_color_model R157). -/
theorem encodeSlots_low (c : Colour) (l : List (Role × Nat)) : ∀ (p word : Nat), word < 2 ^ p → encodeSlots c l p word % 2 ^ p = word := by
  induction l with
  | nil => intro p word h; exact Nat.mod_eq_of_lt h
  | cons a l ih =>
    obtain ⟨role, w⟩ := a
    intro p word h
    have hn := narrow_lt (channel c role) w
    simp only [encodeSlots, or_shl h]
    have := ih (p + w) _ (word_lt h hn)
    have h2 : encodeSlots c l (p + w) (word + narrow (channel c role).toNat w * 2 ^ p) % 2 ^ (p + w) % 2 ^ p = word := by
      rw [this]; simp [Nat.add_mul_mod_self_right, Nat.mod_eq_of_lt h]
    rwa [Nat.mod_mod_of_dvd _ (pow_dvd_pow 2 (by omega))] at h2

/-- Slot k of an encoded item is its channel narrowed, at the sum of the widths below it (40_color_model R155, R157). -/
theorem encodeSlots_slot (c : Colour) (l : List (Role × Nat)) : ∀ (p word : Nat), word < 2 ^ p → ∀ k role w, l[k]? = some (role, w) →
    encodeSlots c l p word / 2 ^ (p + ((l.take k).map Prod.snd).sum) % 2 ^ w = narrow (channel c role).toNat w := by
  induction l with
  | nil => intro p word h k role w hk; simp at hk
  | cons a l ih =>
    obtain ⟨role', w'⟩ := a
    intro p word h k role w hk
    have hn := narrow_lt (channel c role') w'
    simp only [encodeSlots, or_shl h]
    cases k with
    | zero =>
      simp at hk; obtain ⟨rfl, rfl⟩ := hk
      have h1 := encodeSlots_low c l (p + w') _ (word_lt h hn)
      simp only [List.take_zero, List.map_nil, List.sum_nil, Nat.add_zero]
      rw [show (2:Nat) ^ (p + w') = 2 ^ p * 2 ^ w' from Nat.pow_add ..] at h1
      rw [← Nat.mod_mul_right_div_self, h1, Nat.add_mul_div_right _ _ (by positivity), Nat.div_eq_of_lt h, Nat.zero_add]
    | succ k =>
      have := ih (p + w') _ (word_lt h hn) k role w (by simpa using hk)
      simpa [Nat.add_assoc] using this

/-! ### Texels in order -/

/-- Row-major order (00_scope R19). -/
theorem coords_get {w h x y : Nat} (hx : x < w) (hy : y < h) : (coords w h)[y * w + x]? = some (x, y) := by
  induction h generalizing y with
  | zero => omega
  | succ h ih =>
    have e : coords w (h + 1) = coords w h ++ (List.range w).map (fun x => (x, h)) := by
      simp [coords, List.range_succ, List.flatMap_append]
    have hl : (coords w h).length = h * w := by simp [coords, List.length_flatMap, Nat.mul_comm]
    rw [e]
    by_cases hy' : y < h
    · rw [List.getElem?_append_left]
      · exact ih hy'
      · rw [hl]; calc y * w + x < y * w + w := by omega
          _ = (y + 1) * w := by ring
          _ ≤ h * w := Nat.mul_le_mul_right _ hy'
    · have : y = h := by omega
      subst this
      rw [List.getElem?_append_right (by rw [hl]; omega), hl]
      simp [hx]

theorem coords_length (w h : Nat) : (coords w h).length = w * h := by simp [coords, List.length_flatMap, Nat.mul_comm]

/-! ### The palette buffer -/

/-- The palette buffer after its entries are written from j up; what lies below entry j is kept (43_palettizer R305). -/
theorem writePalette_spec {D : Desc} {hp : Word} (P : List Colour) : ∀ (j : Nat) (m m' : Memory), writePalette D hp P j m = some m' →
    (∀ k c, P[k]? = some c → m'.read hp ((j + k) * D.entryBytes) D.entryBytes = some (encodeDirect D.rasterF D.orderF (entryDepth D.rasterF) c % 2 ^ (8 * D.entryBytes)))
    ∧ (∀ o n, o + n ≤ j * D.entryBytes → m'.read hp o n = m.read hp o n) := by
  induction P with
  | nil => intro j m m' h; simp only [writePalette, Option.some.injEq] at h; subst h; exact ⟨by simp, fun _ _ _ => rfl⟩
  | cons c P ih =>
    intro j m m' h
    simp only [writePalette] at h
    split at h
    · simp at h
    · next m1 h1 =>
      obtain ⟨q1, q2⟩ := ih (j + 1) m1 m' h
      obtain ⟨hb, rfl⟩ := write_eq_some.1 h1
      refine ⟨fun k d hk => ?_, fun o n ho => ?_⟩
      · cases k with
        | zero =>
          simp at hk; subst hk
          rw [Nat.add_zero, q2 _ _ (by rw [Nat.add_mul]; omega)]
          exact read_put_same _ hb
        | succ k =>
          have := q1 k d (by simpa using hk)
          rw [show j + (k + 1) = j + 1 + k from by omega]; exact this
      · rw [q2 o n (by rw [Nat.add_mul]; omega)]
        rw [read_put_other]
        simp; omega

end Sys2Proof.Machine
end

