-- ==== Sys2Proof/Laws/Texel.lean ====
section
/-! SUPPORT. The operand checks of the texel commands are the first error of their list (spec/40_color_model.md R163 to R165,
spec/60_exceptions.md R354). -/

namespace Sys2Proof.Machine

theorem texelOperand_eq (kindOk : Desc → Bool) (s : State) :
    texelOperand kindOk s = match firstRaise (texelChecks (!kindOk s.imgDesc) s) with
      | some e => .error e
      | none => .ok ⟨s.args[0].toNat, (s.mip s.args[0].toNat).buf, s.lw s.args[0].toNat, s.args[1].toNat, s.args[2].toNat⟩ := by
  unfold texelOperand texelChecks
  rw [checkHeader_eq, checkRawMip_eq, firstRaise_append, firstRaise_append, firstRaise_append]
  cases firstRaise (headerChecks s) with
  | some e => rfl
  | none =>
    simp only [raising, firstRaise_cons, firstRaise_nil]
    cases hk : kindOk s.imgDesc
    · simp
    · by_cases h2 : s.levels ≤ s.args[0].toNat
      · simp [h2]
      · simp only [Bool.not_true, Bool.false_eq_true, if_false, h2, decide_false]
        cases firstRaise (rawMipChecks s s.args[0].toNat) with
        | some e => rfl
        | none =>
          by_cases h3 : s.lw s.args[0].toNat ≤ s.args[1].toNat ∨ s.lh s.args[0].toNat ≤ s.args[2].toNat
          · simp [h3]
          · simp only [h3, if_false, decide_false]; rfl

theorem texelChecks_none {b : Bool} {s : State} (h : firstRaise (texelChecks b s) = none) :
    firstRaise (headerChecks s) = none ∧ b = false ∧ s.args[0].toNat < s.levels
      ∧ firstRaise (rawMipChecks s s.args[0].toNat) = none
      ∧ s.args[1].toNat < s.lw s.args[0].toNat ∧ s.args[2].toNat < s.lh s.args[0].toNat := by
  unfold texelChecks at h
  rw [firstRaise_append_none, firstRaise_append_none, firstRaise_append_none] at h
  simp only [firstRaise_cons_none, decide_eq_false_iff_not, not_or, Nat.not_le] at h
  tauto

/-- RESOLVE_INDEX's kind of image, as its check says it (40_color_model R163). -/
theorem kindIndexed_not (D : Desc) : (!kindIndexed D) = decide (D.comp ≠ 0 ∨ D.palMode = palNone) := by
  unfold kindIndexed Desc.isRaw
  by_cases h1 : D.comp = 0 <;> by_cases h2 : D.palMode = palNone <;> simp [h1, h2]

/-- FETCH_COLOR's kind of image, as its check says it (40_color_model R164). -/
theorem kindRaw_not (D : Desc) : (!kindRaw D) = decide (D.comp ≠ 0) := by
  unfold kindRaw Desc.isRaw
  by_cases h1 : D.comp = 0 <;> simp [h1]

/-- STORE_COLOR's kind of image, as its check says it (40_color_model R165). -/
theorem kindDirect_not (D : Desc) : (!kindDirect D) = decide (D.comp ≠ 0 ∨ D.palMode ≠ palNone) := by
  unfold kindDirect Desc.isRaw
  by_cases h1 : D.comp = 0 <;> by_cases h2 : D.palMode = palNone <;> simp [h1, h2]

end Sys2Proof.Machine
end

