-- ==== Sys2Proof/Laws/Commands.lean ====
section
/-! SUPPORT. What each command's meaning can do, once per command: the error it raises, or the one form of the state it leaves
before STATUS is written (spec/40_color_model.md R163 to R165, spec/41_block_codec.md R220 and R221,
spec/42_conversion_engine.md R284 and R285, spec/44_negotiator.md R332). -/

namespace Sys2Proof.Machine

theorem resolveIndex_ok {s u : State} (h : resolveIndex s = .ok u) :
    firstRaise (resolveIndexChecks s) = none ∧ ∃ item,
      readItem s.mem (s.mip s.args[0].toNat).buf (s.lw s.args[0].toNat) s.imgDesc s.args[1].toNat s.args[2].toNat = some item
        ∧ u = s.setRes0 (BitVec.ofNat 32 (indexOfItem s.imgDesc item)) := by
  unfold resolveIndex at h
  rw [texelOperand_eq, kindIndexed_not] at h
  unfold resolveIndexChecks
  cases hc : firstRaise (texelChecks (decide (s.imgDesc.comp ≠ 0 ∨ s.imgDesc.palMode = palNone)) s) with
  | some e => rw [hc] at h; simp at h
  | none =>
    rw [hc] at h
    refine ⟨rfl, ?_⟩
    simp only at h
    generalize readItem _ _ _ _ _ _ = r at *
    cases r with
    | none => simp [access] at h
    | some item => simp only [access, Except.ok.injEq] at h; exact ⟨item, rfl, h.symm⟩

theorem fetchColor_ok {s u : State} (h : fetchColor s = .ok u) :
    firstRaise (fetchColorChecks s) = none ∧ ∃ c found,
      s.fetchLevel s.args[0].toNat s.args[1].toNat s.args[2].toNat = some (c, found)
        ∧ u = (s.setRes0 (packColour c)).setRes1 (if found then 1 else 0) := by
  unfold fetchColor at h
  rw [texelOperand_eq, kindRaw_not] at h
  unfold fetchColorChecks State.fetchLevel
  cases hc : firstRaise (texelChecks (decide (s.imgDesc.comp ≠ 0)) s) with
  | some e => rw [hc] at h; simp at h
  | none =>
    rw [hc] at h
    refine ⟨rfl, ?_⟩
    simp only at h
    generalize fetchTexel _ _ _ _ _ _ _ _ = r at *
    cases r with
    | none => simp [access] at h
    | some cf => obtain ⟨c, found⟩ := cf; simp only [access, Except.ok.injEq] at h; exact ⟨c, found, rfl, h.symm⟩

theorem storeColor_ok {s u : State} (h : storeColor s = .ok u) :
    firstRaise (storeColorChecks s) = none ∧ ∃ m,
      storeTexel s.mem s.imgDesc (s.mip s.args[0].toNat).buf (s.lw s.args[0].toNat) s.args[1].toNat s.args[2].toNat
          (unpackColour s.args[3]) = some m
        ∧ u = s.setMem m := by
  unfold storeColor at h
  rw [texelOperand_eq, kindDirect_not] at h
  unfold storeColorChecks
  cases hc : firstRaise (texelChecks (decide (s.imgDesc.comp ≠ 0 ∨ s.imgDesc.palMode ≠ palNone)) s) with
  | some e => rw [hc] at h; simp at h
  | none =>
    rw [hc] at h
    refine ⟨rfl, ?_⟩
    simp only at h
    generalize storeTexel _ _ _ _ _ _ _ = r at *
    cases r with
    | none => simp [access] at h
    | some m => simp only [access, Except.ok.injEq] at h; exact ⟨m, rfl, h.symm⟩

theorem decodeBlockAt_ok {ty : BlockType} {s u : State} (h : decodeBlockAt ty s = .ok u) :
    ∃ B, s.mem.readBytes s.args[0] s.args[1].toNat (blockBytes ty) = some B
      ∧ u = s.setTb (tbOf (fun t => packColour (decodeTexel s.alphaRampRule ty B t))) := by
  unfold decodeBlockAt at h
  split at h
  · simp at h
  · next B hB => simp only [Except.ok.injEq] at h; exact ⟨B, hB, h.symm⟩

theorem fitLength_length (n : Nat) (bs : List Byte) : (fitLength n bs).length = n := by
  simp [fitLength]

/-- Every answer of the compressor has the length of a block (P1 of 00_scope R12; so of DXT2 and DXT4, which no command
encodes). -/
theorem compress_length (rule : AlphaRampRule) (ty : BlockType) (grid : List Colour) :
    (compress rule ty grid).length = blockBytes ty := by
  unfold compress
  split
  · exact fitLength_length ..
  · split
    · exact fitLength_length ..
    · cases ty <;> simp [solidBlock, solidAlpha, blockBytes]

theorem encodeBlockAt_ok {ty : BlockType} {s u : State} (h : encodeBlockAt ty s = .ok u) :
    ∃ m, s.mem.writeBytes s.args[0] s.args[1].toNat (compress s.alphaRampRule ty s.tbGrid) = some m ∧ u = s.setMem m := by
  unfold encodeBlockAt at h
  split at h
  · next hb =>
    simp only [Except.ok.injEq] at h
    exact ⟨_, writeBytes_eq_some.2 ⟨by rw [compress_length]; exact hb, rfl⟩, h.symm⟩
  · simp at h

theorem checkImage_eq (s : State) : checkImage s = raising (firstRaise (alphaScanChecks s)) := by
  have hl : ∀ i, checkLevel s i = raising (firstRaise ((fun i => match compType s.imgDesc.comp with
      | none => rawMipChecks s i
      | some t => blockMipChecks s t i 0) i)) := by
    intro i
    unfold checkLevel
    cases compType s.imgDesc.comp with
    | none => exact checkRawMip_eq s i
    | some t => exact checkBlockMip_eq s t i 0
  unfold checkImage alphaScanChecks
  rw [checkHeader_eq, firstRaise_append, checkEach_eq hl]
  cases firstRaise (headerChecks s) <;> rfl

theorem alphaScanCommand_ok {s u : State} (h : alphaScanCommand s = .ok u) :
    firstRaise (alphaScanChecks s) = none ∧ ∃ a, alphaScan 0 s = .ok a
      ∧ u = (s.setRes0 (if a then 1 else 0)).setHasAlpha a := by
  unfold alphaScanCommand at h
  rw [checkImage_eq] at h
  cases hc : firstRaise (alphaScanChecks s) with
  | some e => rw [hc] at h; simp [raising] at h
  | none =>
    rw [hc] at h
    refine ⟨rfl, ?_⟩
    simp only [raising] at h
    cases ha : alphaScan 0 s with
    | error e => rw [ha] at h; simp at h
    | ok a => rw [ha] at h; simp only [Except.ok.injEq] at h; exact ⟨a, rfl, h.symm⟩

theorem negotiateTarget_ok {s u : State} (h : negotiateTarget s = .ok u) :
    ∃ T, negotiateDesc s.imgDesc s.hasAlpha s.caps = .ok T ∧ u = s.setTgtFmt T.toWord := by
  unfold negotiateTarget at h
  split at h
  · simp at h
  · next T hT => simp only [Except.ok.injEq] at h; exact ⟨T, hT, h.symm⟩

theorem releaseImage_eq (s : State) : releaseImage s = match firstRaise (releaseChecks s) with
    | some e => .error e
    | none => .ok (if s.isStandalone && !s.acquired then clearImage (s.freeAll s.imageHandles) else clearImage s) := by
  unfold releaseImage releaseChecks
  simp only [firstRaise_cons, firstRaise_nil, checkDistinct_eq]
  by_cases h1 : 16 < s.levels
  · simp [h1]
  · simp only [h1, if_false, decide_false, Bool.false_eq_true]
    cases hd : (distinctCheck s).1
    · have e1 : firstRaise [distinctCheck s] = none := by
        rw [show distinctCheck s = ((distinctCheck s).1, (distinctCheck s).2) from rfl, hd]; rfl
      rw [e1]
      rw [show distinctCheck s = (false, (distinctCheck s).2) from by rw [← hd]]
      simp only [raising, firstRaise_cons, firstRaise_nil, Bool.false_eq_true, if_false]
      cases hs : s.isStandalone <;> cases ha : s.acquired <;> simp
      by_cases hl : ∀ x ∈ s.imageHandles, s.mem.live x = true
      · rw [if_pos hl, if_neg]
        · rintro ⟨x, hx, hx'⟩; rw [hl x hx] at hx'; simp at hx'
      · rw [if_neg hl, if_pos]
        · push Not at hl; obtain ⟨x, hx, hx'⟩ := hl; exact ⟨x, hx, by simpa using hx'⟩
    · have e1 : firstRaise [distinctCheck s] = some (distinctCheck s).2 := by
        rw [show distinctCheck s = ((distinctCheck s).1, (distinctCheck s).2) from rfl, hd]; rfl
      rw [e1]
      rw [show distinctCheck s = (true, (distinctCheck s).2) from by rw [← hd]]
      simp [raising, firstRaise_cons]

theorem entryChecks_eq (s : State) : entryChecks s = raising (firstRaise (convertChecks s)) := by
  unfold entryChecks convertChecks
  rw [checkHeader_eq, checkDistinct_eq, firstRaise_append, firstRaise_append, firstRaise_append]
  cases firstRaise (headerChecks s) with
  | some e => rfl
  | none =>
    cases firstRaise [distinctCheck s] with
    | some e => rfl
    | none =>
      simp only [raising]
      by_cases hr : s.imgDesc.comp = 0
      · simp only [Desc.isRaw, hr, decide_true, if_true]
        rw [checkEach_eq (checkRawMip_eq s)]
        cases firstRaise ((List.range s.levels).flatMap (rawMipChecks s)) with
        | some e => rfl
        | none => cases ht : targetOk s.imgDesc s.tgtDesc s.hasAlpha <;> simp [raising, firstRaise]
      · simp only [Desc.isRaw, hr, decide_false, if_false, Bool.false_eq_true, firstRaise_nil]
        cases ht : targetOk s.imgDesc s.tgtDesc s.hasAlpha <;> simp [firstRaise]

end Sys2Proof.Machine
end

