-- ==== Sys2Proof/Laws/Convert.lean ====
section
/-! SUPPORT. What CONVERT can do as a whole (spec/42_conversion_engine.md R250 to R253, R280, R281): the registers no stage
touches, the errors of its stages, and the shapes of its end. -/

namespace Sys2Proof.Machine

/-- The state t differs from s at most in the buffer store, the allocator's answers and the image registers other than
IMG_FLAGS. -/
structure ImageOnly (s t : State) : Prop where
  status : t.status = s.status
  caps : t.caps = s.caps
  pzCfg : t.pzCfg = s.pzCfg
  args : t.args = s.args
  res : t.res = s.res
  tb : t.tb = s.tb
  imgFlags : t.imgFlags = s.imgFlags
  tgtFmt : t.tgtFmt = s.tgtFmt
  host : t.host = s.host
  alphaRampRule : t.alphaRampRule = s.alphaRampRule

theorem ImageOnly.refl (s : State) : ImageOnly s s := ⟨rfl, rfl, rfl, rfl, rfl, rfl, rfl, rfl, rfl, rfl⟩

theorem ImageOnly.trans {s t u : State} (a : ImageOnly s t) (b : ImageOnly t u) : ImageOnly s u :=
  ⟨b.status.trans a.status, b.caps.trans a.caps, b.pzCfg.trans a.pzCfg, b.args.trans a.args, b.res.trans a.res,
    b.tb.trans a.tb, b.imgFlags.trans a.imgFlags, b.tgtFmt.trans a.tgtFmt, b.host.trans a.host,
    b.alphaRampRule.trans a.alphaRampRule⟩

theorem ImageOnly.heap (s : State) (hp : Heap) : ImageOnly s { s with heap := hp } :=
  ⟨rfl, rfl, rfl, rfl, rfl, rfl, rfl, rfl, rfl, rfl⟩

theorem Untouched.imageOnly {s t : State} (h : Untouched s t) : ImageOnly s t := by
  obtain ⟨hp, rfl⟩ := h.regs; exact .heap s hp

theorem Run.imageOnly {s t : State} {sz : Nat → Nat} {new : List Word} (h : Run s sz new t) : ImageOnly s t := by
  obtain ⟨hp, rfl⟩ := h.regs; exact .heap s hp

theorem dropPalette_imageOnly (s : State) : ImageOnly s s.dropPalette := by
  unfold State.dropPalette; split <;> exact ⟨rfl, rfl, rfl, rfl, rfl, rfl, rfl, rfl, rfl, rfl⟩

theorem freeAll_imageOnly (s : State) (hs : List Word) : ImageOnly s (s.freeAll hs) :=
  ⟨rfl, rfl, rfl, rfl, rfl, rfl, rfl, rfl, rfl, rfl⟩

theorem setPalette_imageOnly (s : State) (h n : Word) : ImageOnly s (s.setPalette h n) :=
  ⟨rfl, rfl, rfl, rfl, rfl, rfl, rfl, rfl, rfl, rfl⟩

theorem setMips_imageOnly (s : State) (v : Vector MipRegs 16) : ImageOnly s (s.setMips v) :=
  ⟨rfl, rfl, rfl, rfl, rfl, rfl, rfl, rfl, rfl, rfl⟩

theorem setMipCount_imageOnly (s : State) (v : Word) : ImageOnly s (s.setMipCount v) :=
  ⟨rfl, rfl, rfl, rfl, rfl, rfl, rfl, rfl, rfl, rfl⟩

theorem setImgFmt_imageOnly (s : State) (v : Word) : ImageOnly s (s.setImgFmt v) :=
  ⟨rfl, rfl, rfl, rfl, rfl, rfl, rfl, rfl, rfl, rfl⟩

theorem commitStage1_imageOnly (R1 : Desc) (new : List Word) (s : State) : ImageOnly s (commitStage1 R1 new s) :=
  (((freeAll_imageOnly s _).trans (setMips_imageOnly ..)).trans (setMipCount_imageOnly ..)).trans (setImgFmt_imageOnly ..)

theorem setReshaped_imageOnly (T' : Desc) (new : List Word) (s : State) : ImageOnly s (setReshaped T' new s) :=
  (setMips_imageOnly s _).trans (setImgFmt_imageOnly ..)

theorem commitRecode_imageOnly (T' : Desc) (new : List Word) (s : State) : ImageOnly s (commitRecode T' new s) :=
  ((freeAll_imageOnly s _).trans (dropPalette_imageOnly _)).trans (setReshaped_imageOnly ..)

theorem commitRepack_imageOnly (T' : Desc) (new : List Word) (s : State) : ImageOnly s (commitRepack T' new s) :=
  (freeAll_imageOnly s _).trans (setReshaped_imageOnly ..)

theorem commitPalettize_imageOnly (T' : Desc) (hp : Word) (k : Nat) (new : List Word) (s : State) :
    ImageOnly s (commitPalettize T' hp k new s) :=
  (((freeAll_imageOnly s _).trans (dropPalette_imageOnly _)).trans (setPalette_imageOnly ..)).trans (setReshaped_imageOnly ..)

theorem commitStage3_imageOnly (ty : BlockType) (V : Raster) (T : Desc) (new : List Word) (s : State) :
    ImageOnly s (commitStage3 ty V T new s) :=
  (((freeAll_imageOnly s _).trans (dropPalette_imageOnly _)).trans (setMips_imageOnly ..)).trans (setImgFmt_imageOnly ..)

/-- What a stage's outcome says: an error leaves the state untouched and names the stage; success touches only the image. -/
structure StageOk (s : State) (stage : Nat) (out : StageOut) : Prop where
  frame : ImageOnly s out.state
  failed : ∀ e, out.error = some e → Untouched s out.state ∧ e.stage = stage ∧ ∀ k, e.mip = some k → k < s.levels ∨ k = 0

theorem checkBlockMip_error {s : State} {ty : BlockType} {i st : Nat} {e : Raise} (h : checkBlockMip s ty i st = .error e) :
    e = ⟨.corruptDataError, st, some i⟩ := by
  unfold checkBlockMip at h
  split at h
  · simpa using h.symm
  · split at h
    · simpa using h.symm
    · split at h
      · simp at h
      · simpa using h.symm

theorem Untouched.refl (s : State) : Untouched s s := ⟨⟨s.heap, rfl⟩, rfl⟩

theorem stage1_ok (s : State) (ty : BlockType) (T : Desc) : StageOk s 1 (stage1 s ty T) := by
  rcases stage1_cases s ty T with ⟨new, u, h, hr, -⟩ | ⟨t, e, h, ht, he⟩ | ⟨t, i, h, hi, ht⟩ | ⟨t, i, _, _, _, _, h, hi, ht, -⟩ <;> rw [h]
  · exact ⟨hr.imageOnly.trans (commitStage1_imageOnly ..), by simp⟩
  · refine ⟨ht.imageOnly, ?_⟩
    intro e' he'; simp only [Option.some.injEq] at he'; subst he'
    rw [checkBlockMip_error he]; exact ⟨ht, rfl, by intro k hk; simp at hk; exact .inr hk.symm⟩
  · refine ⟨ht.imageOnly, ?_⟩
    intro e' he'; simp only [Option.some.injEq] at he'; subst he'
    exact ⟨ht, rfl, by intro k hk; simp at hk; exact .inl (hk ▸ hi)⟩
  · refine ⟨ht.imageOnly, ?_⟩
    intro e' he'; simp only [Option.some.injEq] at he'; subst he'
    exact ⟨ht, rfl, by intro k hk; simp at hk; exact .inl (hk ▸ hi)⟩

theorem recode_ok (s : State) (T' : Desc) : StageOk s 2 (recode s T') := by
  rcases recode_cases s T' with ⟨new, u, h, hr, -⟩ | ⟨t, i, h, hi, ht⟩ | ⟨t, i, _, _, _, _, h, hi, ht, -⟩ <;> rw [h]
  · exact ⟨hr.imageOnly.trans (commitRecode_imageOnly ..), by simp⟩
  all_goals
    refine ⟨ht.imageOnly, ?_⟩
    intro e' he'; simp only [Option.some.injEq] at he'; subst he'
    exact ⟨ht, rfl, by intro k hk; simp at hk; exact .inl (hk ▸ hi)⟩

theorem repack_ok (s : State) (T' : Desc) : StageOk s 2 (repack s T') := by
  rcases repack_cases s T' with ⟨new, u, h, hr, -⟩ | ⟨t, i, h, hi, ht⟩ | ⟨t, i, _, _, _, _, h, hi, ht, -⟩ <;> rw [h]
  · exact ⟨hr.imageOnly.trans (commitRepack_imageOnly ..), by simp⟩
  all_goals
    refine ⟨ht.imageOnly, ?_⟩
    intro e' he'; simp only [Option.some.injEq] at he'; subst he'
    exact ⟨ht, rfl, by intro k hk; simp at hk; exact .inl (hk ▸ hi)⟩

theorem palettize_ok (s : State) (T' : Desc) : StageOk s 2 (palettize s T') := by
  unfold palettize
  split
  · refine ⟨.refl s, ?_⟩
    intro e' he'; simp only [Option.some.injEq] at he'; subst he'
    exact ⟨.refl s, rfl, by intro k hk; simp at hk; exact .inr hk.symm⟩
  · next seed _ =>
    rcases palettizeWith_cases s T' (buildPalette s.strategy seed (maxEntries T'.palMode)) with
      ⟨hp, new, u, h, hr, -⟩ | ⟨t, k, h, hk, ht⟩ | ⟨t, _, _, h, ht, -⟩ | ⟨t, i, _, _, _, _, h, hi, ht, -⟩ <;> rw [h]
    · exact ⟨hr.imageOnly.trans (commitPalettize_imageOnly ..), by simp⟩
    · refine ⟨ht.imageOnly, ?_⟩
      intro e' he'; simp only [Option.some.injEq] at he'; subst he'
      exact ⟨ht, rfl, fun k' hk' => .inl (hk k' hk')⟩
    · refine ⟨ht.imageOnly, ?_⟩
      intro e' he'; simp only [Option.some.injEq] at he'; subst he'
      exact ⟨ht, rfl, by simp⟩
    · refine ⟨ht.imageOnly, ?_⟩
      intro e' he'; simp only [Option.some.injEq] at he'; subst he'
      exact ⟨ht, rfl, by intro k hk; simp at hk; exact .inl (hk ▸ hi)⟩

theorem stage2_ok (s : State) (T' : Desc) : StageOk s 2 (stage2 s T') := by
  unfold stage2
  split
  · exact recode_ok s T'
  · split
    · exact repack_ok s T'
    · exact palettize_ok s T'

theorem scanLevels_error {stage : Nat} {f : Nat → Option Bool} {l : List Nat} {e : Raise} (h : scanLevels stage f l = .error e) :
    ∃ i ∈ l, f i = none ∧ e = ⟨.boundsError, stage, some i⟩ := by
  induction l with
  | nil => simp [scanLevels] at h
  | cons i l ih =>
    simp only [scanLevels] at h
    split at h
    · next hf => simp only [Except.error.injEq] at h; exact ⟨i, by simp, hf, h.symm⟩
    · simp at h
    · obtain ⟨j, hj, hj'⟩ := ih h; exact ⟨j, by simp [hj], hj'⟩

theorem usedIndices_error {stage : Nat} {s : State} {l : List Nat} {e : Raise} (h : usedIndices stage s l = .error e) :
    ∃ i ∈ l, levelUses s i (coords (s.lw i) (s.lh i)) = none ∧ e = ⟨.boundsError, stage, some i⟩ := by
  induction l with
  | nil => simp [usedIndices] at h
  | cons i l ih =>
    simp only [usedIndices] at h
    split at h
    · next hf => simp only [Except.error.injEq] at h; exact ⟨i, by simp, hf, h.symm⟩
    · cases hu : usedIndices stage s l with
      | ok us => rw [hu] at h; simp [Except.map] at h
      | error e' =>
        rw [hu] at h
        simp only [Except.map, Except.error.injEq] at h
        subst h
        obtain ⟨j, hj, hj'⟩ := ih hu; exact ⟨j, by simp [hj], hj'⟩

/-- A scan that fails names the stage it runs in, and a level of the image. -/
theorem alphaScan_error {stage : Nat} {s : State} {e : Raise} (h : alphaScan stage s = .error e) :
    e.code = .boundsError ∧ e.stage = stage ∧ ∀ k, e.mip = some k → k < s.levels := by
  unfold alphaScan at h
  split at h
  · obtain ⟨i, hi, -, rfl⟩ := scanLevels_error h
    exact ⟨rfl, rfl, by intro k hk; simp at hk; simpa [← hk] using hi⟩
  · split at h
    · obtain ⟨i, hi, -, rfl⟩ := scanLevels_error h
      exact ⟨rfl, rfl, by intro k hk; simp at hk; simpa [← hk] using hi⟩
    · split at h
      · next hu =>
        simp only [Except.error.injEq] at h; subst h
        obtain ⟨i, hi, -, rfl⟩ := usedIndices_error hu
        exact ⟨rfl, rfl, by intro k hk; simp at hk; simpa [← hk] using hi⟩
      · generalize paletteHasAlpha s _ = r at h
        cases r with
        | some b => simp [access] at h
        | none => simp only [access, Except.error.injEq] at h; subst h; exact ⟨rfl, rfl, by simp⟩

theorem stage3_ok (s : State) (ty : BlockType) (T : Desc) : StageOk s 3 (stage3 s ty T) := by
  rcases stage3_cases s ty T with ⟨e, h0, h⟩ | ⟨a, new, u, -, h, hr, -⟩ | ⟨t, i, h, hi, ht⟩ | ⟨t, i, _, _, _, _, h, hi, ht, -⟩ <;> rw [h]
  · refine ⟨.refl s, ?_⟩
    intro e' he'; simp only [Option.some.injEq] at he'; subst he'
    obtain ⟨-, h2, h3⟩ := alphaScan_error h0
    exact ⟨.refl s, h2, fun k hk => .inl (h3 k hk)⟩
  · exact ⟨hr.imageOnly.trans (commitStage3_imageOnly ..), by simp⟩
  all_goals
    refine ⟨ht.imageOnly, ?_⟩
    intro e' he'; simp only [Option.some.injEq] at he'; subst he'
    exact ⟨ht, rfl, by intro k hk; simp at hk; exact .inl (hk ▸ hi)⟩

theorem runStage1_ok (s : State) (T : Desc) : StageOk s 1 (runStage1 s T) := by
  unfold runStage1; split
  · exact stage1_ok ..
  · exact ⟨.refl s, by simp⟩

theorem runStage2_ok (s : State) (T T' : Desc) : StageOk s 2 (runStage2 s T T') := by
  unfold runStage2; split
  · exact stage2_ok ..
  · exact ⟨.refl s, by simp⟩

theorem runStage3_ok (s : State) (T : Desc) : StageOk s 3 (runStage3 s T) := by
  unfold runStage3; split
  · exact stage3_ok ..
  · exact ⟨.refl s, by simp⟩

end Sys2Proof.Machine
end

