-- ==== Sys2Proof/Laws/Image.lean ====
section
/-! SUPPORT. The image before and after a stage of CONVERT (spec/42_conversion_engine.md R252, R262, R265 to R267, R272,
R280): which buffers a commit frees and keeps, the shape of the registers it writes, and what a ready allocator does in a run over levels. -/

namespace Sys2Proof.Machine

/-! ### The shape of CONVERT -/

/-- The shape of CONVERT. -/
theorem convertImage_cases (s : State) :
    (s.isStandalone = false ∧ convertImage s = ⟨s, false, false, some ⟨.ownershipError, 0, none⟩⟩)
    ∨ (s.isStandalone = true ∧ s.imgDesc = s.tgtDesc ∧ convertImage s = ⟨s, false, false, none⟩)
    ∨ (s.isStandalone = true ∧ s.imgDesc ≠ s.tgtDesc ∧ ∃ e, firstRaise (convertChecks s) = some e ∧ convertImage s = ⟨s, false, false, some e⟩)
    ∨ (s.isStandalone = true ∧ s.imgDesc ≠ s.tgtDesc ∧ firstRaise (convertChecks s) = none ∧ convertImage s = pipeline s s.tgtDesc s.rawTgt) := by
  unfold convertImage
  rw [entryChecks_eq]
  cases h : s.isStandalone
  · simp
  · by_cases h2 : s.imgDesc = s.tgtDesc
    · simp [h2]
    · simp only [Bool.true_eq_false, if_false, h2]
      cases h3 : firstRaise (convertChecks s) with
      | some e => simp [raising, h2]
      | none => simp [raising, State.rawTgt, h2]

/-- The shape of the pipeline. -/
theorem pipeline_cases (s : State) (T T' : Desc) :
    (∃ s1 e, runStage1 s T = ⟨s1, some e⟩ ∧ pipeline s T T' = ⟨s1, false, false, some e⟩)
    ∨ (∃ s1 s2 e, runStage1 s T = ⟨s1, none⟩ ∧ runStage2 s1 T T' = ⟨s2, some e⟩
        ∧ pipeline s T T' = ⟨s2, false, decide (s1.levels < s.levels), some e⟩)
    ∨ (∃ s1 s2 s3 e, runStage1 s T = ⟨s1, none⟩ ∧ runStage2 s1 T T' = ⟨s2, none⟩ ∧ runStage3 s2 T = ⟨s3, some e⟩
        ∧ pipeline s T T' = ⟨s3, false, decide (s1.levels < s.levels), some e⟩)
    ∨ (∃ s1 s2 s3, runStage1 s T = ⟨s1, none⟩ ∧ runStage2 s1 T T' = ⟨s2, none⟩ ∧ runStage3 s2 T = ⟨s3, none⟩
        ∧ pipeline s T T' = finishPipeline s3 (!s.imgDesc.isRaw || reshapes s1 T T' || !T.isRaw) (decide (s1.levels < s.levels))) := by
  unfold pipeline
  rcases h1 : runStage1 s T with ⟨a1, _ | e1⟩
  · rcases h2 : runStage2 a1 T T' with ⟨a2, _ | e2⟩
    · rcases h3 : runStage3 a2 T with ⟨a3, _ | e3⟩
      · exact .inr (.inr (.inr ⟨a1, a2, a3, rfl, h2, h3, by simp only [h2, h3]⟩))
      · exact .inr (.inr (.inl ⟨a1, a2, a3, e3, rfl, h2, h3, by simp only [h2, h3]⟩))
    · exact .inr (.inl ⟨a1, a2, e2, rfl, h2, by simp only [h2]⟩)
  · exact .inl ⟨a1, e1, rfl, rfl⟩

/-- The shape of the end of the pipeline. -/
theorem finishPipeline_cases (s : State) (ran tr : Bool) :
    (ran = false ∧ finishPipeline s ran tr = ⟨s, false, tr, none⟩)
    ∨ (ran = true ∧ ∃ e, alphaScan 4 s = .error e ∧ finishPipeline s ran tr = ⟨s, false, tr, some e⟩)
    ∨ (ran = true ∧ ∃ a, alphaScan 4 s = .ok a ∧ finishPipeline s ran tr = ⟨(s.setHasAlpha a).settlePalette, true, tr, none⟩) := by
  unfold finishPipeline
  cases ran
  · simp
  · cases h : alphaScan 4 s <;> simp

/-! ### The canonical form -/

/-- Handle 0 is not live (20_memory R102). -/
theorem zero_dead {m : Memory} (h : m.wf = true) : m.live 0 = false := by
  cases hl : m.live 0 with
  | false => rfl
  | true =>
    exfalso
    unfold Memory.live at hl
    obtain ⟨b, hb⟩ := Option.isSome_iff_exists.1 hl
    have hh := find_handle hb
    have hm : b ∈ m.bufs := List.mem_of_find?_eq_some hb
    have : ∀ (l : List Buffer) lo, bufsWf lo l = true → 1 ≤ lo → ∀ b ∈ l, 1 ≤ b.handle.toNat := by
      intro l; induction l with
      | nil => simp
      | cons a l ih =>
        intro lo h1 hlo b hb
        simp only [bufsWf, Bool.and_eq_true, decide_eq_true_eq] at h1
        rcases List.mem_cons.1 hb with rfl | hb
        · omega
        · exact ih _ h1.2 (by omega) b hb
    have := this m.bufs 1 h (le_refl _) b hm
    rw [hh] at this; simp at this

/-- No buffer is longer than MAX_BUF_LEN (20_memory R90). -/
theorem len_le {m : Memory} (h : m.wf = true) {g n} (hl : m.len? g = some n) : n ≤ Config.maxBufLen := by
  unfold Memory.len? at hl
  cases hf : m.find g with
  | none => rw [hf] at hl; simp at hl
  | some b =>
    rw [hf] at hl; simp at hl; subst hl
    have hm : b ∈ m.bufs := List.mem_of_find?_eq_some hf
    have : ∀ (l : List Buffer) lo, bufsWf lo l = true → ∀ b ∈ l, b.wf = true := by
      intro l; induction l with
      | nil => simp
      | cons a l ih =>
        intro lo h1 b hb
        simp only [bufsWf, Bool.and_eq_true, decide_eq_true_eq] at h1
        rcases List.mem_cons.1 hb with rfl | hb
        · exact h1.1.2
        · exact ih _ h1.2 b hb
    have := this m.bufs 1 h b hm
    simp only [Buffer.wf, Bool.and_eq_true, decide_eq_true_eq] at this
    exact this.1

/-! ### The handles an image names -/

theorem map_getD (new : List Word) : (List.range new.length).map (fun i => new.getD i 0) = new := by
  apply List.ext_getElem
  · simp
  · intro i h1 h2; simp at h1; simp [List.getD_eq_getElem?_getD, h1]

/-- The handles the image registers name (10_state R57). -/
theorem mem_imageHandles {s : State} {g : Word} : g ∈ s.imageHandles ↔ g ≠ 0 ∧ ((s.imgDesc.isIndexed = true ∧ g = s.palBuf) ∨ g ∈ s.mipHandles) := by
  unfold State.imageHandles
  rw [List.mem_filter]
  simp only [List.mem_append, decide_eq_true_eq]
  constructor
  · rintro ⟨h | h, h0⟩
    · split at h
      · next hi => exact ⟨h0, .inl ⟨hi, by simpa using h⟩⟩
      · simp at h
    · exact ⟨h0, .inr h⟩
  · rintro ⟨h0, ⟨hi, rfl⟩ | h⟩
    · exact ⟨.inl (by simp [hi]), h0⟩
    · exact ⟨.inr h, h0⟩

theorem mipHandles_sub {s : State} : ∀ g ∈ s.mipHandles, g = 0 ∨ g ∈ s.imageHandles := by
  intro g hg
  by_cases h0 : g = 0
  · exact .inl h0
  · exact .inr (mem_imageHandles.2 ⟨h0, .inr hg⟩)

theorem pal_sub {s : State} (h : s.imgDesc.isIndexed = true) : s.palBuf = 0 ∨ s.palBuf ∈ s.imageHandles := by
  by_cases h0 : s.palBuf = 0
  · exact .inl h0
  · exact .inr (mem_imageHandles.2 ⟨h0, .inl ⟨h, rfl⟩⟩)

theorem mip_mem {s : State} {i} (hi : i < s.levels) : (s.mip i).buf ∈ s.mipHandles := by
  unfold State.mipHandles; simp only [List.mem_map, List.mem_range]; exact ⟨i, hi, rfl⟩

theorem isIndexed_iff {D : Desc} (hw : D.wf = true) (hc : D.comp = 0) : D.isIndexed = true ↔ D.palMode ≠ palNone := by
  constructor
  · intro h hp; unfold Desc.isIndexed at h; rw [hp] at h; revert h; decide
  · intro h; unfold Desc.isIndexed; rcases (raw_wf hw hc).2.2.2 h with ⟨a, -⟩ | ⟨a, -⟩ <;> rw [a] <;> decide

/-- A compressed image has no palette. -/
theorem compressed_notIndexed {D : Desc} (hw : D.wf = true) (hc : D.comp ≠ 0) : D.isIndexed = false := by
  unfold Desc.wf at hw; rw [if_neg hc] at hw
  simp only [Bool.and_eq_true, decide_eq_true_eq] at hw
  unfold Desc.isIndexed; rw [hw.1.2]; decide

/-! ### Checks under another buffer store -/

theorem tooShort_congr {m m' : Memory} {g} (h : m.len? g = m'.len? g) (n) : m.tooShort g n = m'.tooShort g n := by
  unfold Memory.tooShort; rw [h]

theorem blockMip_heap {s : State} {hp : Heap} {ty i st} (h : hp.mem.len? (s.mip i).buf = s.mem.len? (s.mip i).buf) :
    blockMipChecks { s with heap := hp } ty i st = blockMipChecks s ty i st := by
  have := tooShort_congr h (s.mip i).size.toNat
  show [_, _, (Memory.tooShort hp.mem (s.mip i).buf (s.mip i).size.toNat, _)] = [_, _, (s.mem.tooShort _ _, _)]
  rw [this]; rfl

theorem rawMip_heap {s : State} {hp : Heap} {i} (h : hp.mem.len? (s.mip i).buf = s.mem.len? (s.mip i).buf) :
    rawMipChecks { s with heap := hp } i = rawMipChecks s i := by
  have := tooShort_congr h (s.mip i).size.toNat
  show [_, _, _, (Memory.tooShort hp.mem (s.mip i).buf (s.mip i).size.toNat, _)] = [_, _, _, (s.mem.tooShort _ _, _)]
  rw [this]; rfl

theorem header_heap {s : State} {hp : Heap} (h : s.imgDesc.palMode ≠ palNone → hp.mem.len? s.palBuf = s.mem.len? s.palBuf) :
    headerChecks { s with heap := hp } = headerChecks s := by
  by_cases hp' : s.imgDesc.palMode = palNone
  · have a : ∀ m : Memory, (decide (s.imgDesc.palMode ≠ palNone) && m.tooShort s.palBuf (s.palEntries * (entryDepth s.imgDesc.rasterF / 8))) = false := by
      intro m; simp [hp']
    show [_, _, _, _, (decide (s.imgDesc.palMode ≠ palNone) && Memory.tooShort hp.mem s.palBuf (s.palEntries * (entryDepth s.imgDesc.rasterF / 8)), _)] = [_, _, _, _, (decide (s.imgDesc.palMode ≠ palNone) && s.mem.tooShort s.palBuf (s.palEntries * (entryDepth s.imgDesc.rasterF / 8)), _)]
    rw [a, a]; rfl
  · have := tooShort_congr (h hp') (s.palEntries * (entryDepth s.imgDesc.rasterF / 8))
    show [_, _, _, _, (decide (s.imgDesc.palMode ≠ palNone) && Memory.tooShort hp.mem s.palBuf (s.palEntries * (entryDepth s.imgDesc.rasterF / 8)), _)] = [_, _, _, _, (decide (s.imgDesc.palMode ≠ palNone) && _, _)]
    rw [this]; rfl

/-! ### What a stage keeps -/

/-- Every live buffer that s does not name is in c as it was, and c does not name it. -/
def Keep (s c : State) : Prop := ∀ h, h ≠ 0 → s.mem.live h = true → h ∉ s.imageHandles → c.mem.find h = s.mem.find h ∧ h ∉ c.imageHandles

/-- Live after: what was live and is not named before, and what is named after (42_conversion_engine R280). -/
def LiveIs (s c : State) : Prop := ∀ h, c.mem.live h = true ↔ (s.mem.live h = true ∧ h ∉ s.imageHandles) ∨ h ∈ c.imageHandles

theorem Keep.refl (s) : Keep s s := fun _ _ _ h => ⟨rfl, h⟩

theorem Keep.trans {s c d} (a : Keep s c) (b : Keep c d) : Keep s d := by
  intro h h0 hl hn
  obtain ⟨a1, a2⟩ := a h h0 hl hn
  obtain ⟨b1, b2⟩ := b h h0 (by rw [live_congr a1]; exact hl) a2
  exact ⟨b1.trans a1, b2⟩

/-- Two stages, one after the other. -/
theorem LiveIs.trans {s c d} (hw : s.mem.wf = true) (k : Keep s c) (a : LiveIs s c) (b : LiveIs c d) : LiveIs s d := by
  intro h
  rw [b h, a h]
  constructor
  · rintro (⟨h1 | h1, h2⟩ | h1)
    · exact .inl h1
    · exact absurd h1 h2
    · exact .inr h1
  · rintro (⟨h1, h2⟩ | h1)
    · have h0 : h ≠ 0 := by rintro rfl; rw [zero_dead hw] at h1; simp at h1
      exact .inl ⟨.inl ⟨h1, h2⟩, (k h h0 h1 h2).2⟩
    · exact .inr h1

/-- A commit of a run that frees only handles the image named. -/
theorem keep_commit {s u c : State} {sz new} (hr : Run s sz new u) (F : List Word) (hF : ∀ g ∈ F, g = 0 ∨ g ∈ s.imageHandles)
    (hc : c.mem = u.mem.freeAll F) (hI : ∀ g ∈ c.imageHandles, g ∈ new ∨ g ∈ s.imageHandles) : Keep s c := by
  intro h h0 hl hn
  have hnF : h ∉ F := fun hh => (hF h hh).elim h0 hn
  refine ⟨?_, fun hh => ?_⟩
  · rw [hc, find_freeAll, if_neg hnF]; exact (hr.keep h hl).1
  · rcases hI h hh with h1 | h1
    · exact (hr.keep h hl).2 h1
    · exact hn h1

/-- A commit of a run that frees every superseded handle and none that it names. -/
theorem live_commit {s u c : State} {sz new} (hw : s.mem.wf = true) (hr : Run s sz new u) (F : List Word) (hF : ∀ g ∈ F, g = 0 ∨ g ∈ s.imageHandles)
    (hc : c.mem = u.mem.freeAll F) (hI : ∀ g ∈ c.imageHandles, g ∈ new ∨ (g ∈ s.imageHandles ∧ g ∉ F ∧ s.mem.live g = true))
    (hS : ∀ g ∈ s.imageHandles, g ∈ F ∨ g ∈ c.imageHandles) (hN : ∀ g ∈ new, g ∈ c.imageHandles ∧ g ∉ F) : LiveIs s c := by
  intro h
  have e : c.mem.live h = if h ∈ F then false else u.mem.live h := by
    unfold Memory.live; rw [hc, find_freeAll]; split <;> rfl
  rw [e]
  constructor
  · intro hh
    split at hh
    · simp at hh
    · next hnF =>
      rcases hr.back h hh with h1 | h1
      · by_cases hi : h ∈ s.imageHandles
        · exact .inr ((hS h hi).resolve_left hnF)
        · exact .inl ⟨h1, hi⟩
      · exact .inr (hN h h1).1
  · rintro (⟨h1, h2⟩ | h1)
    · have h0 : h ≠ 0 := by rintro rfl; rw [zero_dead hw] at h1; simp at h1
      rw [if_neg (fun hh => (hF h hh).elim h0 h2), live_congr (hr.keep h h1).1]; exact h1
    · rcases hI h h1 with h2 | ⟨h2, h3, h4⟩
      · rw [if_neg (hN h h2).2]; exact (hr.live h h2).1
      · rw [if_neg h3, live_congr (hr.keep h h4).1]; exact h4

/-- a weaker keep that needs no checks: commit of any run frees only image handles -/
theorem keep_untouched {s t : State} (h : Untouched s t) : Keep s t := by
  intro g _ _ hn
  refine ⟨by rw [h.mem], ?_⟩
  obtain ⟨hp, rfl⟩ := h.regs; exact hn

theorem setHas_keep (s : State) (a) : Keep s (s.setHasAlpha a) := fun _ _ _ hn => ⟨rfl, hn⟩

theorem settle_handles (s : State) : s.settlePalette.imageHandles = s.imageHandles ∧ s.settlePalette.mem = s.mem := by
  unfold State.settlePalette
  split
  · exact ⟨rfl, rfl⟩
  · next h =>
    refine ⟨?_, rfl⟩
    unfold State.imageHandles
    have : (s.setPalette 0 0).imgDesc.isIndexed = s.imgDesc.isIndexed := rfl
    rw [this]
    simp only [h, Bool.false_eq_true, if_false]; rfl

theorem settle_keep (s : State) : Keep s s.settlePalette := by
  intro g _ _ hn
  obtain ⟨a, b⟩ := settle_handles s
  exact ⟨by rw [b], by rw [a]; exact hn⟩

/-! ### The shape of a commit -/

theorem mip_setLevels (s : State) (n f i) (hi : i < 16) : (s.setLevels n f).mip i = if i < n then f i else s.mip i := by
  show (mipsOf _)[i]?.getD MipRegs.zero = _
  rw [mipsOf_get _ hi]

theorem commit1_mip (R1 new) (u : State) (i) (hi : i < 16) : (commitStage1 R1 new u).mip i = if i < new.length then
        ⟨new.getD i 0, (u.mip i).ldim, (u.mip i).ldim, BitVec.ofNat 32 (R1.rawSize (u.lw i) (u.lh i))⟩
      else MipRegs.zero := by
  show (mipsOf _)[i]?.getD MipRegs.zero = _
  rw [mipsOf_get _ hi]

theorem dim_eq {a b : State} {i} (h : (a.mip i).ldim = (b.mip i).ldim) : a.lw i = b.lw i ∧ a.lh i = b.lh i := by
  unfold State.lw State.lh; rw [h]; exact ⟨rfl, rfl⟩

theorem dropPalette_eq (s : State) : s.dropPalette.mem = s.mem.freeAll (if s.imgDesc.isIndexed then [s.palBuf] else []) ∧ s.dropPalette.mips = s.mips ∧ s.dropPalette.mipCount = s.mipCount
    ∧ s.dropPalette.imgFmt = s.imgFmt := by
  unfold State.dropPalette; split <;> exact ⟨rfl, rfl, rfl, rfl⟩

theorem len_after {s u c : State} {sz new F} (hr : Run s sz new u) (hm : c.mem = u.mem.freeAll F) (hF : ∀ g ∈ new, g ∉ F) {i} (hi : i < new.length) :
    c.mem.len? (new.getD i 0) = some (sz i) := by
  have hmem' : new.getD i 0 ∈ new := by rw [List.getD_eq_getElem _ _ hi]; exact List.getElem_mem hi
  rw [hm, len?_congr (m' := u.mem) (by rw [find_freeAll, if_neg (hF _ hmem')])]
  exact hr.len i hi

theorem dimWord_parts (w h : Nat) (hw : w < 65536) (hh : h < 65536) : dimW (dimWord w h) = w ∧ dimH (dimWord w h) = h := by
  unfold dimW Sys2Proof.Machine.dimH dimWord dimField bits
  rw [if_pos (by simpa using hh), if_pos (by simpa using hw)]
  constructor
  · rw [show (BitVec.ofNat 16 h ++ BitVec.ofNat 16 w : BitVec 32).extractLsb' 0 16 = BitVec.ofNat 16 w from by
      apply BitVec.eq_of_getLsbD_eq; intro i hi; rw [BitVec.getLsbD_extractLsb']; erw [BitVec.getLsbD_append]; simp [hi]]
    simp; omega
  · rw [show (BitVec.ofNat 16 h ++ BitVec.ofNat 16 w : BitVec 32).extractLsb' 16 16 = BitVec.ofNat 16 h from by
      apply BitVec.eq_of_getLsbD_eq; intro i hi; rw [BitVec.getLsbD_extractLsb']; erw [BitVec.getLsbD_append]; simp [hi]]
    simp; omega

/-! ### An allocator that is ready -/

/-- The next answers of the allocator are hs, different, not 0 and not live. -/
structure Ready (s : State) (hs : List Word) : Prop where
  ans : ∃ rest, s.heap.answers = hs.map some ++ rest
  nodup : hs.Nodup
  fresh : ∀ h ∈ hs, h ≠ 0 ∧ s.mem.live h = false

theorem Ready.alloc {s : State} {h hs} (r : Ready s (h :: hs)) {n} (hn : n ≤ Config.maxBufLen) :
    ∃ u, s.alloc n = (u, some h) ∧ (∃ rest, u.heap.answers = hs.map some ++ rest) := by
  obtain ⟨rest, hr⟩ := r.ans
  obtain ⟨f1, f2⟩ := r.fresh h (by simp)
  exact ⟨_, alloc_ready (rest := hs.map some ++ rest) (by simpa using hr) (admits_iff.2 ⟨f1, f2, hn⟩), ⟨rest, rfl⟩⟩

/-- A run that has used the first of the answers hs. -/
structure RunR (s : State) (sz : Nat → Nat) (hs : List Word) (new : List Word) (u : State) : Prop where
  run : Run s sz new u
  ans : ∃ rest, u.heap.answers = (hs.drop new.length).map some ++ rest
  new : new = hs.take new.length

theorem RunR.next {s u sz hs new} (h : RunR s sz hs new u) (hr : Ready s hs) (hl : new.length < hs.length) {n} (hn : n ≤ Config.maxBufLen) :
    ∃ u1 g, u.alloc n = (u1, some g) ∧ (∃ rest, u1.heap.answers = (hs.drop (new.length + 1)).map some ++ rest) ∧ new ++ [g] = hs.take (new.length + 1) := by
  have hd : hs.drop new.length = hs[new.length] :: hs.drop (new.length + 1) := List.drop_eq_getElem_cons hl
  have hmem : hs[new.length] ∈ hs := List.getElem_mem hl
  have r : Ready u (hs[new.length] :: hs.drop (new.length + 1)) := by
    refine ⟨by rw [← hd]; exact h.ans, by rw [← hd]; exact hr.nodup.sublist (List.drop_sublist ..), ?_⟩
    rw [← hd]
    intro g hg
    have hg' : g ∈ hs := List.mem_of_mem_drop hg
    refine ⟨(hr.fresh g hg').1, ?_⟩
    cases hl : u.mem.live g with
    | false => rfl
    | true =>
      rcases h.run.back g hl with h1 | h1
      · rw [(hr.fresh g hg').2] at h1; simp at h1
      · rw [h.new] at h1
        have hnd := hr.nodup
        rw [← List.take_append_drop new.length hs, List.nodup_append] at hnd
        exact absurd rfl (hnd.2.2 g h1 g hg)
  obtain ⟨u1, e, rest, ha⟩ := r.alloc hn
  refine ⟨u1, _, e, ⟨rest, ha⟩, ?_⟩
  rw [List.take_add_one, ← h.new]; simp [hl]

theorem allocLevels_ready {stage count : Nat} {size : Nat → Nat} {fill : State → Nat → Word → Option Memory} {s u : State}
    {sz : Nat → Nat} {hs base : List Word} (hr : Ready s hs) (hfill : ∀ u i h m, fill u i h = some m → Memory.Wrote h u.mem m)
    (hsz : ∀ i, sz (base.length + i) = size i) (hmax : ∀ i, i < count → size i ≤ Config.maxBufLen) (hcnt : base.length + count ≤ hs.length) (hu : RunR s sz hs base u)
    {t r} (h : allocLevels stage size fill (List.range count) base u = (t, r)) :
    (∀ e, r = .error e → e.code ≠ .allocationError) ∧ ∀ new, r = .ok new → RunR s sz hs new t := by
  rw [List.range_eq_range'] at h
  rcases allocLevels_cases (stage := stage) (base := base.length) (size := size) (fill := fill) (P := RunR s sz hs) count
    (by
      intro i new u u1 h m hi hl hrr ha hf
      obtain ⟨u1', g, e1, e2, e3⟩ := hrr.next hr (by omega) (hmax i hi)
      rw [ha] at e1; simp only [Prod.mk.injEq, Option.some.injEq] at e1
      obtain ⟨rfl, rfl⟩ := e1
      refine ⟨hrr.run.round (by rw [hl, hsz]; exact ha) (hfill _ _ _ _ hf), ?_, ?_⟩
      · show ∃ rest, u1.heap.answers = _
        simpa using e2
      · simpa using e3) count 0 base u
    (by omega) (by omega) hu with ⟨n', t', h1, h2, h3⟩ | ⟨i, n', v, v1, h1, hl, h2, h3, h4⟩ | ⟨i, n', v, v1, g', h1, hl, h2, h3, h4, h5⟩
  · rw [h1] at h; simp only [Prod.mk.injEq] at h; obtain ⟨rfl, rfl⟩ := h
    exact ⟨by simp, by intro new hnew; simp at hnew; subst hnew; exact h2⟩
  · obtain ⟨u1', g, e1, -⟩ := h2.next hr (by omega) (hmax i h1)
    rw [h3] at e1; simp at e1
  · rw [h5] at h; simp only [Prod.mk.injEq] at h; obtain ⟨rfl, rfl⟩ := h
    exact ⟨by intro e he; simp at he; subst he; simp, by simp⟩

theorem RunR.start (s sz) {hs} (hr : Ready s hs) : RunR s sz hs [] s := ⟨.start .., by simpa using hr.ans, by simp⟩

/-- The answers that remain after a run and a commit, which only frees. -/
theorem RunR.rest {s u c sz hs new} (hr : Ready s hs) (h : RunR s sz hs new u) (ha : c.heap.answers = u.heap.answers) (hl : ∀ g, c.mem.live g = true → u.mem.live g = true) :
    Ready c (hs.drop new.length) := by
  refine ⟨by rw [ha]; exact h.ans, hr.nodup.sublist (List.drop_sublist ..), ?_⟩
  intro g hg
  have hg' : g ∈ hs := List.mem_of_mem_drop hg
  refine ⟨(hr.fresh g hg').1, ?_⟩
  cases hc : c.mem.live g with
  | false => rfl
  | true =>
    rcases h.run.back g (hl g hc) with h1 | h1
    · rw [(hr.fresh g hg').2] at h1; simp at h1
    · rw [h.new] at h1
      have hnd := hr.nodup
      rw [← List.take_append_drop new.length hs, List.nodup_append] at hnd
      exact absurd rfl (hnd.2.2 g h1 g hg)

theorem free_live {m : Memory} {F g} (h : (m.freeAll F).live g = true) : m.live g = true := by
  unfold Memory.live at h ⊢; rw [find_freeAll] at h; split at h
  · simp at h
  · exact h

theorem decodeLevels_ready {ty : BlockType} {R1 : Desc} {s : State} {hs} (hr : Ready s hs) (hmax : ∀ i, i < s.levels → R1.rawSize (s.lw i) (s.lh i) ≤ Config.maxBufLen)
    (hcnt : s.levels ≤ hs.length) {t r} (h : decodeLevels ty R1 (List.range s.levels) [] s = (t, r)) :
    (∀ e, r = .error e → e.code ≠ .allocationError) ∧ ∀ new, r = .ok new → RunR s (fun i => R1.rawSize (s.lw i) (s.lh i)) hs new t ∧ new.length ≤ s.levels := by
  rw [List.range_eq_range'] at h
  have regs : ∀ {new : List Word} {v : State}, Run s (fun i => R1.rawSize (s.lw i) (s.lh i)) new v → ∀ i,
      R1.rawSize (v.lw i) (v.lh i) = R1.rawSize (s.lw i) (s.lh i) := by
    intro new v hv i; obtain ⟨hp, rfl⟩ := hv.regs; rfl
  rcases decodeLevels_cases (ty := ty) (R1 := R1) (P := RunR s (fun i => R1.rawSize (s.lw i) (s.lh i)) hs) s.levels
    (by
      intro i new u u1 h m hi hl hrr _ ha hf
      rw [regs hrr.run] at ha
      obtain ⟨u1', g, e1, e2, e3⟩ := hrr.next hr (by omega) (hmax i hi)
      rw [ha] at e1; simp only [Prod.mk.injEq, Option.some.injEq] at e1
      obtain ⟨rfl, rfl⟩ := e1
      refine ⟨hrr.run.round (by rw [hl]; exact ha) (decodeLevel_wrote hf), ?_, ?_⟩
      · show ∃ rest, u1.heap.answers = _
        simpa using e2
      · simpa using e3) s.levels 0 [] s
    (by omega) rfl (.start _ _ hr) with
    ⟨n', t', h1, h2, h3, h4⟩ | ⟨v, e, -, h1, h2, h3⟩ | ⟨i, n', v, v1, h1, hl, h2, h3, h4⟩ | ⟨i, n', v, v1, g', h1, hl, h2, h3, h4, h5, h6⟩
  · rw [h1] at h; simp only [Prod.mk.injEq] at h; obtain ⟨rfl, rfl⟩ := h
    exact ⟨by simp, by intro new hnew; simp at hnew; subst hnew; exact ⟨h2, h3⟩⟩
  · rw [h3] at h; simp only [Prod.mk.injEq] at h; obtain ⟨rfl, rfl⟩ := h
    have := checkBlockMip_error h2
    exact ⟨by intro e' he; simp at he; subst he; subst this; simp, by simp⟩
  · rw [regs h2.run] at h3
    obtain ⟨u1', g, e1, -⟩ := h2.next hr (by omega) (hmax i h1)
    rw [h3] at e1; simp at e1
  · rw [h6] at h; simp only [Prod.mk.injEq] at h; obtain ⟨rfl, rfl⟩ := h
    exact ⟨by intro e he; simp at he; subst he; simp, by simp⟩

theorem levelStage_ready {stage : Nat} {size : Nat → Nat} {fill : State → Nat → Word → Option Memory} {commit : List Word → State → State} {s : State} {hs}
    (hr : Ready s hs) (hfill : ∀ u i h m, fill u i h = some m → Memory.Wrote h u.mem m) (hmax : ∀ i, i < s.levels → size i ≤ Config.maxBufLen)
    (hcnt : s.levels ≤ hs.length) :
    let out : StageOut := match allocLevels stage size fill (List.range s.levels) [] s with
      | (s1, .error e) => ⟨s1, some e⟩
      | (s1, .ok new) => ⟨commit new s1, none⟩
    ∀ e, out.error = some e → e.code ≠ .allocationError := by
  intro out e he
  rcases hd : allocLevels stage size fill (List.range s.levels) [] s with ⟨t, _ | new⟩
  · obtain ⟨k1, -⟩ := allocLevels_ready (sz := size) (base := []) hr hfill (by simp) hmax (by simpa using hcnt) (.start _ _ hr) hd
    simp only [out, hd] at he; simp at he; subst he; exact k1 _ rfl
  · simp only [out, hd] at he; simp at he

end Sys2Proof.Machine
end

