-- ==== Sys2Proof/Laws/Contents.lean ====
section
/-! SUPPORT. What the buffers of a stage hold once it has committed (spec/20_memory.md R91, spec/42_conversion_engine.md R265 to
R267, R272): what a fill finds in the state it runs in, that a commit leaves what each fill left and zeros beside it, and the colours
and the palette a conversion reads off its source. -/

namespace Sys2Proof.Machine

/-! ### What a fill finds -/

/-- A new buffer holds zeros (20_memory R91). -/
theorem Fresh.byte {s v : State} {n j : Nat} {h : Word} (hv : Fresh s n h v) (hj : j < n) : v.mem.byte? h j = some 0 := by
  unfold Memory.byte?
  rw [hv.zero]
  simp [hj, readCell]

theorem Fresh.bounds {s v : State} {n : Nat} {h : Word} (hv : Fresh s n h v) : v.mem.inBounds h 0 n = true := by
  unfold Memory.inBounds
  rw [hv.zero]
  simp

/-- The buffers an image that passes its checks names are live, so a fill finds them as they were. -/
theorem Fresh.pal {s v : State} {n : Nat} {h : Word} (hv : Fresh s n h v) (hh : firstRaise (headerChecks s) = none)
    (hp : s.imgDesc.palMode ≠ palNone) : v.mem.find s.palBuf = s.mem.find s.palBuf ∧ h ≠ s.palBuf := by
  obtain ⟨a, b⟩ := hv.keep _ (inBounds_live ((header_ok hh).2.2.2 hp).2)
  exact ⟨a, b.symm⟩

theorem Fresh.rawBuf {s v : State} {n i : Nat} {h : Word} (hv : Fresh s n h v) (hr : firstRaise (rawMipChecks s i) = none) :
    v.mem.find (s.mip i).buf = s.mem.find (s.mip i).buf ∧ h ≠ (s.mip i).buf := by
  obtain ⟨a, b⟩ := hv.keep _ (inBounds_live (rawMip_ok hr).2.2.2.2.2)
  exact ⟨a, b.symm⟩

theorem Fresh.blockBuf {s v : State} {n i st : Nat} {h : Word} {ty : BlockType} (hv : Fresh s n h v)
    (hr : firstRaise (blockMipChecks s ty i st) = none) :
    v.mem.find (s.mip i).buf = s.mem.find (s.mip i).buf ∧ h ≠ (s.mip i).buf := by
  obtain ⟨a, b⟩ := hv.keep _ (inBounds_live (blockMip_ok hr).2.2.2.2.2.2.2)
  exact ⟨a, b.symm⟩

/-- The checks that passed at the start of a stage pass in the state a fill runs in. -/
theorem Fresh.header {s v : State} {n : Nat} {h : Word} (hv : Fresh s n h v) (hh : firstRaise (headerChecks s) = none) :
    firstRaise (headerChecks v) = none := by
  have hp := fun hp => (hv.pal hh hp).1
  obtain ⟨⟨hp', rfl⟩, -, -⟩ := hv
  exact (congrArg firstRaise (header_heap (fun h0 => len?_congr (hp h0)))).trans hh

theorem Fresh.rawMip {s v : State} {n i : Nat} {h : Word} (hv : Fresh s n h v) (hr : firstRaise (rawMipChecks s i) = none) :
    firstRaise (rawMipChecks v i) = none := by
  have hb := (hv.rawBuf hr).1
  obtain ⟨⟨hp', rfl⟩, -, -⟩ := hv
  exact (congrArg firstRaise (rawMip_heap (len?_congr hb))).trans hr

theorem Fresh.blockMip {s v : State} {n i st : Nat} {h : Word} {ty : BlockType} (hv : Fresh s n h v)
    (hr : firstRaise (blockMipChecks s ty i st) = none) : firstRaise (blockMipChecks v ty i st) = none := by
  have hb := (hv.blockBuf hr).1
  obtain ⟨⟨hp', rfl⟩, -, -⟩ := hv
  exact (congrArg firstRaise (blockMip_heap (len?_congr hb))).trans hr

/-- A fill fetches what the image held at the start of the stage. -/
theorem Fresh.fetch {s v : State} {n i x y : Nat} {h : Word} (hv : Fresh s n h v) (hh : firstRaise (headerChecks s) = none)
    (hr : firstRaise (rawMipChecks s i) = none) : v.fetchLevel i x y = s.fetchLevel i x y := by
  have hp := fun hp => (hv.pal hh hp).1
  have hb := (hv.rawBuf hr).1
  obtain ⟨⟨hp', rfl⟩, -, -⟩ := hv
  exact fetchTexel_congr hb hp ..

/-! ### What a commit leaves -/

/-- A commit that frees none of the new buffers leaves in each what its fill left. -/
theorem Filled.after {s u c : State} {sz : Nat → Nat} {fill : Nat → State → Word → Option Memory} {new F : List Word}
    (hf : Filled s sz fill new u) (hm : c.mem = u.mem.freeAll F) (hF : ∀ g ∈ new, g ∉ F) {k : Nat} (hk : k < new.length) :
    ∃ v m, Fresh s (sz k) (new.getD k 0) v ∧ fill k v (new.getD k 0) = some m
      ∧ c.mem.find (new.getD k 0) = m.find (new.getD k 0) := by
  obtain ⟨v, m, h1, h2, h3⟩ := hf k hk
  have hmem : new.getD k 0 ∈ new := by rw [List.getD_eq_getElem _ _ hk]; exact List.getElem_mem hk
  exact ⟨v, m, h1, h2, by rw [hm, find_freeAll, if_neg (hF _ hmem)]; exact h3⟩

/-- Nothing but zeros beside the texels of a level (20_memory R91, R95). -/
def PadAt (m : Memory) (h : Word) (D : Desc) (w hh : Nat) : Prop :=
  ∀ y, y < hh →
    (∀ j, rowBytes w D.depth.toNat ≤ j → j < D.pitch w → m.byte? h (y * D.pitch w + j) = some 0)
    ∧ (D.depth = 4 → w % 2 = 1 → ∃ b : Byte, m.byte? h (y * D.pitch w + w / 2) = some b ∧ b.toNat / 16 = 0)

/-- A fill of a fresh level that leaves padding and unused nibbles as they were leaves zeros there. -/
theorem Fresh.padAt {s v : State} {D : Desc} {h : Word} {w hh : Nat} {m mc : Memory} (hw : D.wf = true) (hc : D.comp = 0)
    (hv : Fresh s (D.rawSize w hh) h v) (hf : mc.find h = m.find h)
    (h1 : ∀ y j, y < hh → rowBytes w D.depth.toNat ≤ j → j < D.pitch w →
      m.byte? h (y * D.pitch w + j) = v.mem.byte? h (y * D.pitch w + j))
    (h2 : D.depth = 4 → w % 2 = 1 → ∀ y, y < hh → ∃ b b' : Byte, v.mem.byte? h (y * D.pitch w + w / 2) = some b
      ∧ m.byte? h (y * D.pitch w + w / 2) = some b' ∧ b'.toNat / 16 = b.toNat / 16) : PadAt mc h D w hh := by
  intro y hy
  have h3 : (y + 1) * D.pitch w ≤ hh * D.pitch w := Nat.mul_le_mul_right _ hy
  have h4 : D.rawSize w hh = hh * D.pitch w := Nat.mul_comm _ _
  have h5 : (y + 1) * D.pitch w = y * D.pitch w + D.pitch w := by ring
  refine ⟨fun j hj hj' => ?_, fun hd ho => ?_⟩
  · rw [byte?_congr hf, h1 y j hy hj hj']; exact hv.byte (by omega)
  · obtain ⟨b, b', e1, e2, e3⟩ := h2 hd ho y hy
    have hr : w / 2 < rowBytes w D.depth.toNat := by rw [depth_eq_four.1 hd]; unfold rowBytes; omega
    have hp : rowBytes w D.depth.toNat ≤ D.pitch w := rowBytes_le_pitch w D.depth.toNat D.rowAlign.toNat (raw_wf hw hc).1
    rw [hv.byte (by omega)] at e1
    simp only [Option.some.injEq] at e1; subst e1
    exact ⟨b', by rw [byte?_congr hf]; exact e2, e3⟩

/-! ### Colours and palettes -/

/-- The colour of a texel of a raw image is what the fetch gives. -/
theorem texelColour_raw {s : State} (hc : s.imgDesc.comp = 0) {i x y : Nat} {c : Colour} {f : Bool}
    (h : s.fetchLevel i x y = some (c, f)) : s.texelColour i x y = some c := by
  unfold State.texelColour
  rw [hc, show compType (0 : BitVec 3) = none from rfl]
  simp only [h, Option.map_some]

/-- The new palette depends on the strategy and the colours of level 0 alone. -/
theorem newPalette_congr {s c : State} (hs : c.pzCfg = s.pzCfg) (hd : (c.mip 0).ldim = (s.mip 0).ldim)
    (hc : ∀ x y, x < s.lw 0 → y < s.lh 0 → c.texelColour 0 x y = s.texelColour 0 x y) (mode : BitVec 2) :
    c.newPalette mode = s.newPalette mode := by
  unfold State.newPalette State.strategy
  rw [hs, (dim_eq hd).1, (dim_eq hd).2]
  congr 1
  apply List.map_congr_left
  rintro ⟨x, y⟩ hxy
  obtain ⟨hx, hy⟩ := mem_coords.1 hxy
  simp only [hc x y hx hy]

/-- An encoded palette entry fits the entry's bytes (20_memory R97). -/
theorem entry_fits {D : Desc} (hw : D.wf = true) (hc : D.comp = 0) (c : Colour) :
    encodeDirect D.rasterF D.orderF (entryDepth D.rasterF) c < 2 ^ (8 * D.entryBytes) := by
  obtain ⟨-, w2, -, -⟩ := raw_wf hw hc
  have hd : entryDepth D.rasterF ∈ depthSet D.rasterF := by
    have hn : D.rasterF ≠ .default := by
      intro hd
      unfold Desc.pixelsOk at w2
      unfold Desc.rasterF at hd
      cases hr : rasterOf D.raster with
      | none => rw [hr] at w2; simp at w2
      | some f => rw [hr] at hd w2; simp at hd; subst hd; simp at w2
    revert hn; cases D.rasterF <;> simp [entryDepth, depthSet]
  refine (encodeDirect_lt (f := D.rasterF) (o := D.orderF) (c := c) hd).trans_le (Nat.pow_le_pow_right (by norm_num) ?_)
  unfold Desc.entryBytes; cases D.rasterF <;> decide

/-! ### The intermediate of a compressed source -/

theorem narrow_eight (n : Nat) : narrow n 8 = n := by unfold narrow; omega
theorem expand_eight (n : Nat) : expand n 8 = n := by unfold expand; omega

/-- An 8888 item is the colour, bit for bit: nothing is lost in the intermediate of a compressed source
(42_conversion_engine R260, 40_color_model R152). -/
theorem decode_encode_8888 (c : Colour) : decodeDirect .r8888 .bgra (encodeDirect .r8888 .bgra 32 c) = c := by
  obtain ⟨r, g, b, a⟩ := c
  have key : ∀ k < 4, ∀ w : Byte, w = (if k = 0 then b else if k = 1 then g else if k = 2 then r else a) →
      BitVec.ofNat 8 ((0 ||| b.toNat <<< 0 ||| g.toNat <<< (0 + 8) ||| r.toNat <<< (0 + 8 + 8)
        ||| a.toNat <<< (0 + 8 + 8 + 8)) >>> (8 * k) % 2 ^ 8) = w := by
    rintro k hk w rfl
    apply BitVec.eq_of_getLsbD_eq
    intro i hi
    rw [BitVec.getLsbD_ofNat]
    simp only [Nat.testBit_mod_two_pow, Nat.testBit_shiftRight, Nat.testBit_or, Nat.testBit_shiftLeft, Nat.zero_testBit, hi,
      decide_true, Bool.true_and, BitVec.testBit_toNat, Nat.zero_add]
    interval_cases k <;> interval_cases i <;> simp [BitVec.getLsbD_of_ge]
  simp only [decodeDirect, encodeDirect, slots, orderSeq, roleWidth, List.filterMap, Option.map, encodeSlots, decodeSlots,
    narrow_eight, expand_eight, channel, withChannel, reduceCtorEq, false_and, if_false]
  rw [key 0 (by omega) b rfl, key 1 (by omega) g rfl, key 2 (by omega) r rfl, key 3 (by omega) a rfl]

end Sys2Proof.Machine
end

