-- ==== Sys2Proof/Laws/Flags.lean ====
section
/-! SUPPORT. The laws of bit fields and of the STATUS word (spec/10_state.md R33, spec/60_exceptions.md R352). -/

namespace Sys2Proof.Machine

/-! ### Bit fields -/

theorem bit_withBit (v : Word) (i j : Nat) (b : Bool) (hi : i < 32) :
    bit (withBit v i b) j = if j = i then b else bit v j := by
  unfold bit withBit
  cases b
  · by_cases h : j = i
    · subst h; simp [hi]
    · by_cases hj : j < 32
      · simp [h, hj, Ne.symm h]
      · simp [h, BitVec.getLsbD_of_ge _ _ (Nat.not_lt.1 hj)]
  · by_cases h : j = i
    · subst h; simp [hi]
    · simp [h, Ne.symm h]

theorem bits_lt (v : Word) (lo n : Nat) : bits v lo n < 2 ^ n := (v.extractLsb' lo n).isLt

/-! ### The fields of a STATUS word -/

/-- The parts of a STATUS word, each at the place 10_state R33 gives it. -/
theorem status_parts (m : BitVec 5) (g : BitVec 4) (o : Byte) (t c : Bool) (e : BitVec 4) :
    let w : Word := (0 : BitVec 7) ++ m ++ g ++ o ++ (0 : BitVec 2) ++ BitVec.ofBool t ++ BitVec.ofBool c ++ e
    w.extractLsb' 0 4 = e ∧ w.extractLsb' 8 8 = o ∧ w.extractLsb' 16 4 = g ∧ w.extractLsb' 20 5 = m
      ∧ w.getLsbD 4 = c ∧ w.getLsbD 5 = t ∧ w &&& 0xFE0000C0 = 0 := by
  intro w
  have key : ∀ i, w.getLsbD i = if i < 4 then e.getLsbD i else if i < 5 then (BitVec.ofBool c).getLsbD (i - 4)
      else if i < 6 then (BitVec.ofBool t).getLsbD (i - 5) else if i < 8 then false else if i < 16 then o.getLsbD (i - 8)
      else if i < 20 then g.getLsbD (i - 16) else if i < 25 then m.getLsbD (i - 20) else false := by
    intro i
    refine (show w.getLsbD i = ((0 : BitVec 7) ++ m ++ g ++ o ++ (0 : BitVec 2) ++ BitVec.ofBool t ++ BitVec.ofBool c
      ++ e).getLsbD i from rfl).trans ?_
    iterate 7 rw [BitVec.getLsbD_append]
    simp only [Nat.sub_sub]
    split_ifs <;> first | rfl | omega | simp
  refine ⟨?_, ?_, ?_, ?_, ?_, ?_, ?_⟩
  · apply BitVec.eq_of_getLsbD_eq; intro i hi; interval_cases i <;> simp [-BitVec.getLsbD_eq_getElem, key]
  · apply BitVec.eq_of_getLsbD_eq; intro i hi; interval_cases i <;> simp [-BitVec.getLsbD_eq_getElem, key]
  · apply BitVec.eq_of_getLsbD_eq; intro i hi; interval_cases i <;> simp [-BitVec.getLsbD_eq_getElem, key]
  · apply BitVec.eq_of_getLsbD_eq; intro i hi; interval_cases i <;> simp [-BitVec.getLsbD_eq_getElem, key]
  · rw [key]; simp
  · rw [key]; simp
  · apply BitVec.eq_of_getLsbD_eq; intro i hi; interval_cases i <;> simp [-BitVec.getLsbD_eq_getElem, key]

end Sys2Proof.Machine
end

