-- ==== Sys2Proof/Laws/PerInstr.lean ====
section
/-! SUPPORT. The family F: what holds of every command as syntax. Its word has the fields spec/30_encoding.md R121 and R123
give it, and zero in every reserved bit; the command is well formed. One lemma per constructor. -/

namespace Sys2Proof.Laws.F

/-- The fields of a command's word are the command's own, and its reserved bits are 0 (30_encoding R121, R123). -/
def Statement (i : Instr) : Prop :=
  i.wf = true ∧ opcField (encode i) = i.opc ∧ typeField (encode i) = i.typeCode ∧ reservedField (encode i) = 0

theorem resolveIndex : Statement .resolveIndex := by unfold Statement; decide
theorem fetchColor : Statement .fetchColor := by unfold Statement; decide
theorem storeColor : Statement .storeColor := by unfold Statement; decide
theorem decodeBlockDxt1 : Statement .decodeBlockDxt1 := by unfold Statement; decide
theorem decodeBlockDxt2 : Statement .decodeBlockDxt2 := by unfold Statement; decide
theorem decodeBlockDxt3 : Statement .decodeBlockDxt3 := by unfold Statement; decide
theorem decodeBlockDxt4 : Statement .decodeBlockDxt4 := by unfold Statement; decide
theorem decodeBlockDxt5 : Statement .decodeBlockDxt5 := by unfold Statement; decide
theorem encodeBlockDxt1 : Statement .encodeBlockDxt1 := by unfold Statement; decide
theorem encodeBlockDxt2 : Statement .encodeBlockDxt2 := by unfold Statement; decide
theorem encodeBlockDxt3 : Statement .encodeBlockDxt3 := by unfold Statement; decide
theorem encodeBlockDxt4 : Statement .encodeBlockDxt4 := by unfold Statement; decide
theorem encodeBlockDxt5 : Statement .encodeBlockDxt5 := by unfold Statement; decide
theorem alphaScan : Statement .alphaScan := by unfold Statement; decide
theorem convert : Statement .convert := by unfold Statement; decide
theorem negotiate : Statement .negotiate := by unfold Statement; decide
theorem negotiateAndConvert : Statement .negotiateAndConvert := by unfold Statement; decide
theorem release : Statement .release := by unfold Statement; decide

end Sys2Proof.Laws.F
end

