-- ==== Sys2Proof/Laws/Scan.lean ====
section
/-! SUPPORT. What the searches of the alpha scan answer (spec/42_conversion_engine.md R275), and the registers it does not read. -/

namespace Sys2Proof.Machine

/-! ### Searches -/

theorem anyMem_true {α} {f : α → Option Bool} (l : List α) (h : anyMem f l = some true) : ∃ a ∈ l, f a = some true := by
  induction l with
  | nil => simp [anyMem] at h
  | cons a l ih =>
    simp only [anyMem] at h
    split at h
    · simp at h
    · next ha => exact ⟨a, by simp, ha⟩
    · obtain ⟨b, hb, hb'⟩ := ih h; exact ⟨b, by simp [hb], hb'⟩

theorem anyMem_false {α} {f : α → Option Bool} (l : List α) (h : anyMem f l = some false) : ∀ a ∈ l, f a = some false := by
  induction l with
  | nil => simp
  | cons a l ih =>
    simp only [anyMem] at h
    split at h
    · simp at h
    · simp at h
    · next ha => intro b hb; rcases List.mem_cons.1 hb with rfl | hb
                 · exact ha
                 · exact ih h b hb

theorem anyMem_some {α} {f : α → Option Bool} (l : List α) (h : ∀ a ∈ l, ∃ b, f a = some b) : ∃ b, anyMem f l = some b := by
  induction l with
  | nil => exact ⟨_, rfl⟩
  | cons a l ih =>
    obtain ⟨b, hb⟩ := h a (by simp)
    cases b
    · obtain ⟨c, hc⟩ := ih (fun a ha => h a (by simp [ha])); exact ⟨c, by simp [anyMem, hb, hc]⟩
    · exact ⟨true, by simp [anyMem, hb]⟩

theorem scan_true {st} {f : Nat → Option Bool} (l : List Nat) (h : scanLevels st f l = .ok true) : ∃ i ∈ l, f i = some true := by
  induction l with
  | nil => simp [scanLevels] at h
  | cons a l ih =>
    simp only [scanLevels] at h
    split at h
    · simp at h
    · next ha => exact ⟨a, by simp, ha⟩
    · obtain ⟨b, hb, hb'⟩ := ih h; exact ⟨b, by simp [hb], hb'⟩

theorem scan_false {st} {f : Nat → Option Bool} (l : List Nat) (h : scanLevels st f l = .ok false) : ∀ i ∈ l, f i = some false := by
  induction l with
  | nil => simp
  | cons a l ih =>
    simp only [scanLevels] at h
    split at h
    · simp at h
    · simp at h
    · next ha => intro b hb; rcases List.mem_cons.1 hb with rfl | hb
                 · exact ha
                 · exact ih h b hb

theorem scan_some {st} {f : Nat → Option Bool} (l : List Nat) (h : ∀ a ∈ l, ∃ b, f a = some b) : ∃ b, scanLevels st f l = .ok b := by
  induction l with
  | nil => exact ⟨_, rfl⟩
  | cons a l ih =>
    obtain ⟨b, hb⟩ := h a (by simp)
    cases b
    · obtain ⟨c, hc⟩ := ih (fun a ha => h a (by simp [ha])); exact ⟨c, by simp [scanLevels, hb, hc]⟩
    · exact ⟨true, by simp [scanLevels, hb]⟩

/-! ### The usage set -/

/-- The usage set of a level: the indices its texels use, those that name no entry left out. -/
theorem levelUses_mem {s : State} {i} (l : List (Nat × Nat)) : ∀ {u}, levelUses s i l = some u → ∀ k, (k ∈ u ↔ ∃ p ∈ l, ∃ item,
    readItem s.mem (s.mip i).buf (s.lw i) s.imgDesc p.1 p.2 = some item ∧ indexOfItem s.imgDesc item < s.palEntries ∧ indexOfItem s.imgDesc item = k) := by
  induction l with
  | nil => intro u h k; simp only [levelUses, Option.some.injEq] at h; subst h; simp
  | cons p l ih =>
    obtain ⟨x, y⟩ := p
    intro u h k
    simp only [levelUses] at h
    split at h
    · simp at h
    · next item hi =>
      cases hu : levelUses s i l with
      | none => rw [hu] at h; simp at h
      | some v =>
        rw [hu] at h; simp only [Option.map_some, Option.some.injEq] at h
        have := ih hu k
        subst h
        simp only [List.mem_cons, exists_eq_or_imp, hi, Option.some.injEq, exists_eq_left']
        rw [← this]
        split
        · next hlt => simp only [List.mem_cons, hlt, true_and]; constructor <;> rintro (h | h) <;> simp [h]
        · next hlt => simp [hlt]

/-- The usage set of a list of levels. -/
theorem usedIndices_mem {st} {s : State} (l : List Nat) : ∀ {u}, usedIndices st s l = .ok u → ∀ k, (k ∈ u ↔ ∃ i ∈ l, ∃ p ∈ coords (s.lw i) (s.lh i), ∃ item,
    readItem s.mem (s.mip i).buf (s.lw i) s.imgDesc p.1 p.2 = some item ∧ indexOfItem s.imgDesc item < s.palEntries ∧ indexOfItem s.imgDesc item = k) := by
  induction l with
  | nil => intro u h k; simp only [usedIndices, Except.ok.injEq] at h; subst h; simp
  | cons i l ih =>
    intro u h k
    simp only [usedIndices] at h
    split at h
    · simp at h
    · next v hv =>
      cases hu : usedIndices st s l with
      | error e => rw [hu] at h; simp [Except.map] at h
      | ok w =>
        rw [hu] at h; simp only [Except.map, Except.ok.injEq] at h; subst h
        have a := levelUses_mem _ hv k
        have b := ih hu k
        rw [List.mem_append, a, b]; simp only [List.mem_cons, exists_eq_or_imp]

theorem levelUses_some {s : State} {i} (l : List (Nat × Nat)) (h : ∀ p ∈ l, ∃ item, readItem s.mem (s.mip i).buf (s.lw i) s.imgDesc p.1 p.2 = some item) :
    ∃ u, levelUses s i l = some u := by
  induction l with
  | nil => exact ⟨_, rfl⟩
  | cons p l ih =>
    obtain ⟨x, y⟩ := p
    obtain ⟨item, hi⟩ := h (x, y) (by simp)
    obtain ⟨u, hu⟩ := ih (fun p hp => h p (by simp [hp]))
    simp only at hi; simp only [levelUses, hi, hu, Option.map_some]; exact ⟨_, rfl⟩

theorem used_some {st} {s : State} (l : List Nat) (h : ∀ i ∈ l, ∃ u, levelUses s i (coords (s.lw i) (s.lh i)) = some u) : ∃ u, usedIndices st s l = .ok u := by
  induction l with
  | nil => exact ⟨_, rfl⟩
  | cons i l ih =>
    obtain ⟨u, hu⟩ := h i (by simp)
    obtain ⟨v, hv⟩ := ih (fun p hp => h p (by simp [hp]))
    simp only [usedIndices, hu, hv, Except.map]; exact ⟨_, rfl⟩

/-! ### What the scan does not read -/

/-- The scan does not read STATUS or the host. -/
theorem scan_status (x : State) (w) (st) : alphaScan st (x.setStatus w).advance = alphaScan st x := by
  have e3 : ∀ i l, levelUses (x.setStatus w).advance i l = levelUses x i l := by
    intro i l; induction l with
    | nil => rfl
    | cons p l ih => obtain ⟨a, b⟩ := p; simp only [levelUses, ih]; rfl
  have e4 : ∀ l, usedIndices st (x.setStatus w).advance l = usedIndices st x l := by
    intro l; induction l with
    | nil => rfl
    | cons p l ih => simp only [usedIndices, ih, e3]; rfl
  unfold alphaScan
  rw [e4]
  rfl

/-- The scan does not read IMG_FLAGS. -/
theorem scan_has (x : State) (w) (st) : alphaScan st (x.setHasAlpha w) = alphaScan st x := by
  have e3 : ∀ i l, levelUses (x.setHasAlpha w) i l = levelUses x i l := by
    intro i l; induction l with
    | nil => rfl
    | cons p l ih => obtain ⟨a, b⟩ := p; simp only [levelUses, ih]; rfl
  have e4 : ∀ l, usedIndices st (x.setHasAlpha w) l = usedIndices st x l := by
    intro l; induction l with
    | nil => rfl
    | cons p l ih => simp only [usedIndices, ih, e3]; rfl
  unfold alphaScan
  rw [e4]
  rfl

theorem fetch_noPal {m D pal pal' n n' h w x y} (hp : D.palMode = palNone) : fetchTexel m D pal n h w x y = fetchTexel m D pal' n' h w x y := by
  unfold fetchTexel; simp [hp]

end Sys2Proof.Machine
end

