-- ==== Sys2Proof/Laws/State.lean ====
section
/-! SUPPORT. What each named update of State leaves in each field: one lemma per field per update, true by rfl, so that no
later proof unfolds a record update. -/

namespace Sys2Proof.Machine
variable (s : State)


@[simp] theorem State.setRes0_status (v : Word) : (s.setRes0 v).status = s.status := rfl
@[simp] theorem State.setRes0_caps (v : Word) : (s.setRes0 v).caps = s.caps := rfl
@[simp] theorem State.setRes0_pzCfg (v : Word) : (s.setRes0 v).pzCfg = s.pzCfg := rfl
@[simp] theorem State.setRes0_args (v : Word) : (s.setRes0 v).args = s.args := rfl
@[simp] theorem State.setRes0_res (v : Word) : (s.setRes0 v).res = s.res.set 0 v := rfl
@[simp] theorem State.setRes0_tb (v : Word) : (s.setRes0 v).tb = s.tb := rfl
@[simp] theorem State.setRes0_imgFmt (v : Word) : (s.setRes0 v).imgFmt = s.imgFmt := rfl
@[simp] theorem State.setRes0_imgFlags (v : Word) : (s.setRes0 v).imgFlags = s.imgFlags := rfl
@[simp] theorem State.setRes0_palBuf (v : Word) : (s.setRes0 v).palBuf = s.palBuf := rfl
@[simp] theorem State.setRes0_palCount (v : Word) : (s.setRes0 v).palCount = s.palCount := rfl
@[simp] theorem State.setRes0_mipCount (v : Word) : (s.setRes0 v).mipCount = s.mipCount := rfl
@[simp] theorem State.setRes0_tgtFmt (v : Word) : (s.setRes0 v).tgtFmt = s.tgtFmt := rfl
@[simp] theorem State.setRes0_mips (v : Word) : (s.setRes0 v).mips = s.mips := rfl
@[simp] theorem State.setRes0_heap (v : Word) : (s.setRes0 v).heap = s.heap := rfl
@[simp] theorem State.setRes0_host (v : Word) : (s.setRes0 v).host = s.host := rfl
@[simp] theorem State.setRes0_alphaRampRule (v : Word) : (s.setRes0 v).alphaRampRule = s.alphaRampRule := rfl

@[simp] theorem State.setRes1_status (v : Word) : (s.setRes1 v).status = s.status := rfl
@[simp] theorem State.setRes1_caps (v : Word) : (s.setRes1 v).caps = s.caps := rfl
@[simp] theorem State.setRes1_pzCfg (v : Word) : (s.setRes1 v).pzCfg = s.pzCfg := rfl
@[simp] theorem State.setRes1_args (v : Word) : (s.setRes1 v).args = s.args := rfl
@[simp] theorem State.setRes1_res (v : Word) : (s.setRes1 v).res = s.res.set 1 v := rfl
@[simp] theorem State.setRes1_tb (v : Word) : (s.setRes1 v).tb = s.tb := rfl
@[simp] theorem State.setRes1_imgFmt (v : Word) : (s.setRes1 v).imgFmt = s.imgFmt := rfl
@[simp] theorem State.setRes1_imgFlags (v : Word) : (s.setRes1 v).imgFlags = s.imgFlags := rfl
@[simp] theorem State.setRes1_palBuf (v : Word) : (s.setRes1 v).palBuf = s.palBuf := rfl
@[simp] theorem State.setRes1_palCount (v : Word) : (s.setRes1 v).palCount = s.palCount := rfl
@[simp] theorem State.setRes1_mipCount (v : Word) : (s.setRes1 v).mipCount = s.mipCount := rfl
@[simp] theorem State.setRes1_tgtFmt (v : Word) : (s.setRes1 v).tgtFmt = s.tgtFmt := rfl
@[simp] theorem State.setRes1_mips (v : Word) : (s.setRes1 v).mips = s.mips := rfl
@[simp] theorem State.setRes1_heap (v : Word) : (s.setRes1 v).heap = s.heap := rfl
@[simp] theorem State.setRes1_host (v : Word) : (s.setRes1 v).host = s.host := rfl
@[simp] theorem State.setRes1_alphaRampRule (v : Word) : (s.setRes1 v).alphaRampRule = s.alphaRampRule := rfl

@[simp] theorem State.setTb_status (v : Vector Word 16) : (s.setTb v).status = s.status := rfl
@[simp] theorem State.setTb_caps (v : Vector Word 16) : (s.setTb v).caps = s.caps := rfl
@[simp] theorem State.setTb_pzCfg (v : Vector Word 16) : (s.setTb v).pzCfg = s.pzCfg := rfl
@[simp] theorem State.setTb_args (v : Vector Word 16) : (s.setTb v).args = s.args := rfl
@[simp] theorem State.setTb_res (v : Vector Word 16) : (s.setTb v).res = s.res := rfl
@[simp] theorem State.setTb_tb (v : Vector Word 16) : (s.setTb v).tb = v := rfl
@[simp] theorem State.setTb_imgFmt (v : Vector Word 16) : (s.setTb v).imgFmt = s.imgFmt := rfl
@[simp] theorem State.setTb_imgFlags (v : Vector Word 16) : (s.setTb v).imgFlags = s.imgFlags := rfl
@[simp] theorem State.setTb_palBuf (v : Vector Word 16) : (s.setTb v).palBuf = s.palBuf := rfl
@[simp] theorem State.setTb_palCount (v : Vector Word 16) : (s.setTb v).palCount = s.palCount := rfl
@[simp] theorem State.setTb_mipCount (v : Vector Word 16) : (s.setTb v).mipCount = s.mipCount := rfl
@[simp] theorem State.setTb_tgtFmt (v : Vector Word 16) : (s.setTb v).tgtFmt = s.tgtFmt := rfl
@[simp] theorem State.setTb_mips (v : Vector Word 16) : (s.setTb v).mips = s.mips := rfl
@[simp] theorem State.setTb_heap (v : Vector Word 16) : (s.setTb v).heap = s.heap := rfl
@[simp] theorem State.setTb_host (v : Vector Word 16) : (s.setTb v).host = s.host := rfl
@[simp] theorem State.setTb_alphaRampRule (v : Vector Word 16) : (s.setTb v).alphaRampRule = s.alphaRampRule := rfl

@[simp] theorem State.setImgFmt_status (v : Word) : (s.setImgFmt v).status = s.status := rfl
@[simp] theorem State.setImgFmt_caps (v : Word) : (s.setImgFmt v).caps = s.caps := rfl
@[simp] theorem State.setImgFmt_pzCfg (v : Word) : (s.setImgFmt v).pzCfg = s.pzCfg := rfl
@[simp] theorem State.setImgFmt_args (v : Word) : (s.setImgFmt v).args = s.args := rfl
@[simp] theorem State.setImgFmt_res (v : Word) : (s.setImgFmt v).res = s.res := rfl
@[simp] theorem State.setImgFmt_tb (v : Word) : (s.setImgFmt v).tb = s.tb := rfl
@[simp] theorem State.setImgFmt_imgFmt (v : Word) : (s.setImgFmt v).imgFmt = v := rfl
@[simp] theorem State.setImgFmt_imgFlags (v : Word) : (s.setImgFmt v).imgFlags = s.imgFlags := rfl
@[simp] theorem State.setImgFmt_palBuf (v : Word) : (s.setImgFmt v).palBuf = s.palBuf := rfl
@[simp] theorem State.setImgFmt_palCount (v : Word) : (s.setImgFmt v).palCount = s.palCount := rfl
@[simp] theorem State.setImgFmt_mipCount (v : Word) : (s.setImgFmt v).mipCount = s.mipCount := rfl
@[simp] theorem State.setImgFmt_tgtFmt (v : Word) : (s.setImgFmt v).tgtFmt = s.tgtFmt := rfl
@[simp] theorem State.setImgFmt_mips (v : Word) : (s.setImgFmt v).mips = s.mips := rfl
@[simp] theorem State.setImgFmt_heap (v : Word) : (s.setImgFmt v).heap = s.heap := rfl
@[simp] theorem State.setImgFmt_host (v : Word) : (s.setImgFmt v).host = s.host := rfl
@[simp] theorem State.setImgFmt_alphaRampRule (v : Word) : (s.setImgFmt v).alphaRampRule = s.alphaRampRule := rfl

@[simp] theorem State.setTgtFmt_status (v : Word) : (s.setTgtFmt v).status = s.status := rfl
@[simp] theorem State.setTgtFmt_caps (v : Word) : (s.setTgtFmt v).caps = s.caps := rfl
@[simp] theorem State.setTgtFmt_pzCfg (v : Word) : (s.setTgtFmt v).pzCfg = s.pzCfg := rfl
@[simp] theorem State.setTgtFmt_args (v : Word) : (s.setTgtFmt v).args = s.args := rfl
@[simp] theorem State.setTgtFmt_res (v : Word) : (s.setTgtFmt v).res = s.res := rfl
@[simp] theorem State.setTgtFmt_tb (v : Word) : (s.setTgtFmt v).tb = s.tb := rfl
@[simp] theorem State.setTgtFmt_imgFmt (v : Word) : (s.setTgtFmt v).imgFmt = s.imgFmt := rfl
@[simp] theorem State.setTgtFmt_imgFlags (v : Word) : (s.setTgtFmt v).imgFlags = s.imgFlags := rfl
@[simp] theorem State.setTgtFmt_palBuf (v : Word) : (s.setTgtFmt v).palBuf = s.palBuf := rfl
@[simp] theorem State.setTgtFmt_palCount (v : Word) : (s.setTgtFmt v).palCount = s.palCount := rfl
@[simp] theorem State.setTgtFmt_mipCount (v : Word) : (s.setTgtFmt v).mipCount = s.mipCount := rfl
@[simp] theorem State.setTgtFmt_tgtFmt (v : Word) : (s.setTgtFmt v).tgtFmt = v := rfl
@[simp] theorem State.setTgtFmt_mips (v : Word) : (s.setTgtFmt v).mips = s.mips := rfl
@[simp] theorem State.setTgtFmt_heap (v : Word) : (s.setTgtFmt v).heap = s.heap := rfl
@[simp] theorem State.setTgtFmt_host (v : Word) : (s.setTgtFmt v).host = s.host := rfl
@[simp] theorem State.setTgtFmt_alphaRampRule (v : Word) : (s.setTgtFmt v).alphaRampRule = s.alphaRampRule := rfl

@[simp] theorem State.setPalette_status (h n : Word) : (s.setPalette h n).status = s.status := rfl
@[simp] theorem State.setPalette_caps (h n : Word) : (s.setPalette h n).caps = s.caps := rfl
@[simp] theorem State.setPalette_pzCfg (h n : Word) : (s.setPalette h n).pzCfg = s.pzCfg := rfl
@[simp] theorem State.setPalette_args (h n : Word) : (s.setPalette h n).args = s.args := rfl
@[simp] theorem State.setPalette_res (h n : Word) : (s.setPalette h n).res = s.res := rfl
@[simp] theorem State.setPalette_tb (h n : Word) : (s.setPalette h n).tb = s.tb := rfl
@[simp] theorem State.setPalette_imgFmt (h n : Word) : (s.setPalette h n).imgFmt = s.imgFmt := rfl
@[simp] theorem State.setPalette_imgFlags (h n : Word) : (s.setPalette h n).imgFlags = s.imgFlags := rfl
@[simp] theorem State.setPalette_palBuf (h n : Word) : (s.setPalette h n).palBuf = h := rfl
@[simp] theorem State.setPalette_palCount (h n : Word) : (s.setPalette h n).palCount = n := rfl
@[simp] theorem State.setPalette_mipCount (h n : Word) : (s.setPalette h n).mipCount = s.mipCount := rfl
@[simp] theorem State.setPalette_tgtFmt (h n : Word) : (s.setPalette h n).tgtFmt = s.tgtFmt := rfl
@[simp] theorem State.setPalette_mips (h n : Word) : (s.setPalette h n).mips = s.mips := rfl
@[simp] theorem State.setPalette_heap (h n : Word) : (s.setPalette h n).heap = s.heap := rfl
@[simp] theorem State.setPalette_host (h n : Word) : (s.setPalette h n).host = s.host := rfl
@[simp] theorem State.setPalette_alphaRampRule (h n : Word) : (s.setPalette h n).alphaRampRule = s.alphaRampRule := rfl

@[simp] theorem State.setMipCount_status (n : Word) : (s.setMipCount n).status = s.status := rfl
@[simp] theorem State.setMipCount_caps (n : Word) : (s.setMipCount n).caps = s.caps := rfl
@[simp] theorem State.setMipCount_pzCfg (n : Word) : (s.setMipCount n).pzCfg = s.pzCfg := rfl
@[simp] theorem State.setMipCount_args (n : Word) : (s.setMipCount n).args = s.args := rfl
@[simp] theorem State.setMipCount_res (n : Word) : (s.setMipCount n).res = s.res := rfl
@[simp] theorem State.setMipCount_tb (n : Word) : (s.setMipCount n).tb = s.tb := rfl
@[simp] theorem State.setMipCount_imgFmt (n : Word) : (s.setMipCount n).imgFmt = s.imgFmt := rfl
@[simp] theorem State.setMipCount_imgFlags (n : Word) : (s.setMipCount n).imgFlags = s.imgFlags := rfl
@[simp] theorem State.setMipCount_palBuf (n : Word) : (s.setMipCount n).palBuf = s.palBuf := rfl
@[simp] theorem State.setMipCount_palCount (n : Word) : (s.setMipCount n).palCount = s.palCount := rfl
@[simp] theorem State.setMipCount_mipCount (n : Word) : (s.setMipCount n).mipCount = n := rfl
@[simp] theorem State.setMipCount_tgtFmt (n : Word) : (s.setMipCount n).tgtFmt = s.tgtFmt := rfl
@[simp] theorem State.setMipCount_mips (n : Word) : (s.setMipCount n).mips = s.mips := rfl
@[simp] theorem State.setMipCount_heap (n : Word) : (s.setMipCount n).heap = s.heap := rfl
@[simp] theorem State.setMipCount_host (n : Word) : (s.setMipCount n).host = s.host := rfl
@[simp] theorem State.setMipCount_alphaRampRule (n : Word) : (s.setMipCount n).alphaRampRule = s.alphaRampRule := rfl

@[simp] theorem State.setMips_status (v : Vector MipRegs 16) : (s.setMips v).status = s.status := rfl
@[simp] theorem State.setMips_caps (v : Vector MipRegs 16) : (s.setMips v).caps = s.caps := rfl
@[simp] theorem State.setMips_pzCfg (v : Vector MipRegs 16) : (s.setMips v).pzCfg = s.pzCfg := rfl
@[simp] theorem State.setMips_args (v : Vector MipRegs 16) : (s.setMips v).args = s.args := rfl
@[simp] theorem State.setMips_res (v : Vector MipRegs 16) : (s.setMips v).res = s.res := rfl
@[simp] theorem State.setMips_tb (v : Vector MipRegs 16) : (s.setMips v).tb = s.tb := rfl
@[simp] theorem State.setMips_imgFmt (v : Vector MipRegs 16) : (s.setMips v).imgFmt = s.imgFmt := rfl
@[simp] theorem State.setMips_imgFlags (v : Vector MipRegs 16) : (s.setMips v).imgFlags = s.imgFlags := rfl
@[simp] theorem State.setMips_palBuf (v : Vector MipRegs 16) : (s.setMips v).palBuf = s.palBuf := rfl
@[simp] theorem State.setMips_palCount (v : Vector MipRegs 16) : (s.setMips v).palCount = s.palCount := rfl
@[simp] theorem State.setMips_mipCount (v : Vector MipRegs 16) : (s.setMips v).mipCount = s.mipCount := rfl
@[simp] theorem State.setMips_tgtFmt (v : Vector MipRegs 16) : (s.setMips v).tgtFmt = s.tgtFmt := rfl
@[simp] theorem State.setMips_mips (v : Vector MipRegs 16) : (s.setMips v).mips = v := rfl
@[simp] theorem State.setMips_heap (v : Vector MipRegs 16) : (s.setMips v).heap = s.heap := rfl
@[simp] theorem State.setMips_host (v : Vector MipRegs 16) : (s.setMips v).host = s.host := rfl
@[simp] theorem State.setMips_alphaRampRule (v : Vector MipRegs 16) : (s.setMips v).alphaRampRule = s.alphaRampRule := rfl

@[simp] theorem State.setStatus_status (v : Word) : (s.setStatus v).status = v := rfl
@[simp] theorem State.setStatus_caps (v : Word) : (s.setStatus v).caps = s.caps := rfl
@[simp] theorem State.setStatus_pzCfg (v : Word) : (s.setStatus v).pzCfg = s.pzCfg := rfl
@[simp] theorem State.setStatus_args (v : Word) : (s.setStatus v).args = s.args := rfl
@[simp] theorem State.setStatus_res (v : Word) : (s.setStatus v).res = s.res := rfl
@[simp] theorem State.setStatus_tb (v : Word) : (s.setStatus v).tb = s.tb := rfl
@[simp] theorem State.setStatus_imgFmt (v : Word) : (s.setStatus v).imgFmt = s.imgFmt := rfl
@[simp] theorem State.setStatus_imgFlags (v : Word) : (s.setStatus v).imgFlags = s.imgFlags := rfl
@[simp] theorem State.setStatus_palBuf (v : Word) : (s.setStatus v).palBuf = s.palBuf := rfl
@[simp] theorem State.setStatus_palCount (v : Word) : (s.setStatus v).palCount = s.palCount := rfl
@[simp] theorem State.setStatus_mipCount (v : Word) : (s.setStatus v).mipCount = s.mipCount := rfl
@[simp] theorem State.setStatus_tgtFmt (v : Word) : (s.setStatus v).tgtFmt = s.tgtFmt := rfl
@[simp] theorem State.setStatus_mips (v : Word) : (s.setStatus v).mips = s.mips := rfl
@[simp] theorem State.setStatus_heap (v : Word) : (s.setStatus v).heap = s.heap := rfl
@[simp] theorem State.setStatus_host (v : Word) : (s.setStatus v).host = s.host := rfl
@[simp] theorem State.setStatus_alphaRampRule (v : Word) : (s.setStatus v).alphaRampRule = s.alphaRampRule := rfl

@[simp] theorem State.advance_status : (s.advance).status = s.status := rfl
@[simp] theorem State.advance_caps : (s.advance).caps = s.caps := rfl
@[simp] theorem State.advance_pzCfg : (s.advance).pzCfg = s.pzCfg := rfl
@[simp] theorem State.advance_args : (s.advance).args = s.args := rfl
@[simp] theorem State.advance_res : (s.advance).res = s.res := rfl
@[simp] theorem State.advance_tb : (s.advance).tb = s.tb := rfl
@[simp] theorem State.advance_imgFmt : (s.advance).imgFmt = s.imgFmt := rfl
@[simp] theorem State.advance_imgFlags : (s.advance).imgFlags = s.imgFlags := rfl
@[simp] theorem State.advance_palBuf : (s.advance).palBuf = s.palBuf := rfl
@[simp] theorem State.advance_palCount : (s.advance).palCount = s.palCount := rfl
@[simp] theorem State.advance_mipCount : (s.advance).mipCount = s.mipCount := rfl
@[simp] theorem State.advance_tgtFmt : (s.advance).tgtFmt = s.tgtFmt := rfl
@[simp] theorem State.advance_mips : (s.advance).mips = s.mips := rfl
@[simp] theorem State.advance_heap : (s.advance).heap = s.heap := rfl
@[simp] theorem State.advance_host : (s.advance).host = { s.host with hpc := s.host.hpc + 1 } := rfl
@[simp] theorem State.advance_alphaRampRule : (s.advance).alphaRampRule = s.alphaRampRule := rfl

@[simp] theorem State.setMem_status (m : Memory) : (s.setMem m).status = s.status := rfl
@[simp] theorem State.setMem_caps (m : Memory) : (s.setMem m).caps = s.caps := rfl
@[simp] theorem State.setMem_pzCfg (m : Memory) : (s.setMem m).pzCfg = s.pzCfg := rfl
@[simp] theorem State.setMem_args (m : Memory) : (s.setMem m).args = s.args := rfl
@[simp] theorem State.setMem_res (m : Memory) : (s.setMem m).res = s.res := rfl
@[simp] theorem State.setMem_tb (m : Memory) : (s.setMem m).tb = s.tb := rfl
@[simp] theorem State.setMem_imgFmt (m : Memory) : (s.setMem m).imgFmt = s.imgFmt := rfl
@[simp] theorem State.setMem_imgFlags (m : Memory) : (s.setMem m).imgFlags = s.imgFlags := rfl
@[simp] theorem State.setMem_palBuf (m : Memory) : (s.setMem m).palBuf = s.palBuf := rfl
@[simp] theorem State.setMem_palCount (m : Memory) : (s.setMem m).palCount = s.palCount := rfl
@[simp] theorem State.setMem_mipCount (m : Memory) : (s.setMem m).mipCount = s.mipCount := rfl
@[simp] theorem State.setMem_tgtFmt (m : Memory) : (s.setMem m).tgtFmt = s.tgtFmt := rfl
@[simp] theorem State.setMem_mips (m : Memory) : (s.setMem m).mips = s.mips := rfl
@[simp] theorem State.setMem_heap (m : Memory) : (s.setMem m).heap = { s.heap with mem := m } := rfl
@[simp] theorem State.setMem_host (m : Memory) : (s.setMem m).host = s.host := rfl
@[simp] theorem State.setMem_alphaRampRule (m : Memory) : (s.setMem m).alphaRampRule = s.alphaRampRule := rfl

@[simp] theorem State.freeAll_status (hs : List Word) : (s.freeAll hs).status = s.status := rfl
@[simp] theorem State.freeAll_caps (hs : List Word) : (s.freeAll hs).caps = s.caps := rfl
@[simp] theorem State.freeAll_pzCfg (hs : List Word) : (s.freeAll hs).pzCfg = s.pzCfg := rfl
@[simp] theorem State.freeAll_args (hs : List Word) : (s.freeAll hs).args = s.args := rfl
@[simp] theorem State.freeAll_res (hs : List Word) : (s.freeAll hs).res = s.res := rfl
@[simp] theorem State.freeAll_tb (hs : List Word) : (s.freeAll hs).tb = s.tb := rfl
@[simp] theorem State.freeAll_imgFmt (hs : List Word) : (s.freeAll hs).imgFmt = s.imgFmt := rfl
@[simp] theorem State.freeAll_imgFlags (hs : List Word) : (s.freeAll hs).imgFlags = s.imgFlags := rfl
@[simp] theorem State.freeAll_palBuf (hs : List Word) : (s.freeAll hs).palBuf = s.palBuf := rfl
@[simp] theorem State.freeAll_palCount (hs : List Word) : (s.freeAll hs).palCount = s.palCount := rfl
@[simp] theorem State.freeAll_mipCount (hs : List Word) : (s.freeAll hs).mipCount = s.mipCount := rfl
@[simp] theorem State.freeAll_tgtFmt (hs : List Word) : (s.freeAll hs).tgtFmt = s.tgtFmt := rfl
@[simp] theorem State.freeAll_mips (hs : List Word) : (s.freeAll hs).mips = s.mips := rfl
@[simp] theorem State.freeAll_heap (hs : List Word) : (s.freeAll hs).heap = { s.heap with mem := s.heap.mem.freeAll hs } := rfl
@[simp] theorem State.freeAll_host (hs : List Word) : (s.freeAll hs).host = s.host := rfl
@[simp] theorem State.freeAll_alphaRampRule (hs : List Word) : (s.freeAll hs).alphaRampRule = s.alphaRampRule := rfl

@[simp] theorem State.setHasAlpha_status (b : Bool) : (s.setHasAlpha b).status = s.status := rfl
@[simp] theorem State.setHasAlpha_caps (b : Bool) : (s.setHasAlpha b).caps = s.caps := rfl
@[simp] theorem State.setHasAlpha_pzCfg (b : Bool) : (s.setHasAlpha b).pzCfg = s.pzCfg := rfl
@[simp] theorem State.setHasAlpha_args (b : Bool) : (s.setHasAlpha b).args = s.args := rfl
@[simp] theorem State.setHasAlpha_res (b : Bool) : (s.setHasAlpha b).res = s.res := rfl
@[simp] theorem State.setHasAlpha_tb (b : Bool) : (s.setHasAlpha b).tb = s.tb := rfl
@[simp] theorem State.setHasAlpha_imgFmt (b : Bool) : (s.setHasAlpha b).imgFmt = s.imgFmt := rfl
@[simp] theorem State.setHasAlpha_imgFlags (b : Bool) : (s.setHasAlpha b).imgFlags = withBit s.imgFlags 0 b := rfl
@[simp] theorem State.setHasAlpha_palBuf (b : Bool) : (s.setHasAlpha b).palBuf = s.palBuf := rfl
@[simp] theorem State.setHasAlpha_palCount (b : Bool) : (s.setHasAlpha b).palCount = s.palCount := rfl
@[simp] theorem State.setHasAlpha_mipCount (b : Bool) : (s.setHasAlpha b).mipCount = s.mipCount := rfl
@[simp] theorem State.setHasAlpha_tgtFmt (b : Bool) : (s.setHasAlpha b).tgtFmt = s.tgtFmt := rfl
@[simp] theorem State.setHasAlpha_mips (b : Bool) : (s.setHasAlpha b).mips = s.mips := rfl
@[simp] theorem State.setHasAlpha_heap (b : Bool) : (s.setHasAlpha b).heap = s.heap := rfl
@[simp] theorem State.setHasAlpha_host (b : Bool) : (s.setHasAlpha b).host = s.host := rfl
@[simp] theorem State.setHasAlpha_alphaRampRule (b : Bool) : (s.setHasAlpha b).alphaRampRule = s.alphaRampRule := rfl

@[simp] theorem State.clearAcquired_status : (s.clearAcquired).status = s.status := rfl
@[simp] theorem State.clearAcquired_caps : (s.clearAcquired).caps = s.caps := rfl
@[simp] theorem State.clearAcquired_pzCfg : (s.clearAcquired).pzCfg = s.pzCfg := rfl
@[simp] theorem State.clearAcquired_args : (s.clearAcquired).args = s.args := rfl
@[simp] theorem State.clearAcquired_res : (s.clearAcquired).res = s.res := rfl
@[simp] theorem State.clearAcquired_tb : (s.clearAcquired).tb = s.tb := rfl
@[simp] theorem State.clearAcquired_imgFmt : (s.clearAcquired).imgFmt = s.imgFmt := rfl
@[simp] theorem State.clearAcquired_imgFlags : (s.clearAcquired).imgFlags = withBit s.imgFlags 2 false := rfl
@[simp] theorem State.clearAcquired_palBuf : (s.clearAcquired).palBuf = s.palBuf := rfl
@[simp] theorem State.clearAcquired_palCount : (s.clearAcquired).palCount = s.palCount := rfl
@[simp] theorem State.clearAcquired_mipCount : (s.clearAcquired).mipCount = s.mipCount := rfl
@[simp] theorem State.clearAcquired_tgtFmt : (s.clearAcquired).tgtFmt = s.tgtFmt := rfl
@[simp] theorem State.clearAcquired_mips : (s.clearAcquired).mips = s.mips := rfl
@[simp] theorem State.clearAcquired_heap : (s.clearAcquired).heap = s.heap := rfl
@[simp] theorem State.clearAcquired_host : (s.clearAcquired).host = s.host := rfl
@[simp] theorem State.clearAcquired_alphaRampRule : (s.clearAcquired).alphaRampRule = s.alphaRampRule := rfl

@[simp] theorem State.complete_status (opc : Byte) (c t : Bool) : (s.complete opc c t).status = statusWord opc none c t := rfl
@[simp] theorem State.complete_caps (opc : Byte) (c t : Bool) : (s.complete opc c t).caps = s.caps := rfl
@[simp] theorem State.complete_pzCfg (opc : Byte) (c t : Bool) : (s.complete opc c t).pzCfg = s.pzCfg := rfl
@[simp] theorem State.complete_args (opc : Byte) (c t : Bool) : (s.complete opc c t).args = s.args := rfl
@[simp] theorem State.complete_res (opc : Byte) (c t : Bool) : (s.complete opc c t).res = s.res := rfl
@[simp] theorem State.complete_tb (opc : Byte) (c t : Bool) : (s.complete opc c t).tb = s.tb := rfl
@[simp] theorem State.complete_imgFmt (opc : Byte) (c t : Bool) : (s.complete opc c t).imgFmt = s.imgFmt := rfl
@[simp] theorem State.complete_imgFlags (opc : Byte) (c t : Bool) : (s.complete opc c t).imgFlags = s.imgFlags := rfl
@[simp] theorem State.complete_palBuf (opc : Byte) (c t : Bool) : (s.complete opc c t).palBuf = s.palBuf := rfl
@[simp] theorem State.complete_palCount (opc : Byte) (c t : Bool) : (s.complete opc c t).palCount = s.palCount := rfl
@[simp] theorem State.complete_mipCount (opc : Byte) (c t : Bool) : (s.complete opc c t).mipCount = s.mipCount := rfl
@[simp] theorem State.complete_tgtFmt (opc : Byte) (c t : Bool) : (s.complete opc c t).tgtFmt = s.tgtFmt := rfl
@[simp] theorem State.complete_mips (opc : Byte) (c t : Bool) : (s.complete opc c t).mips = s.mips := rfl
@[simp] theorem State.complete_heap (opc : Byte) (c t : Bool) : (s.complete opc c t).heap = s.heap := rfl
@[simp] theorem State.complete_host (opc : Byte) (c t : Bool) : (s.complete opc c t).host = { s.host with hpc := s.host.hpc + 1 } := rfl
@[simp] theorem State.complete_alphaRampRule (opc : Byte) (c t : Bool) : (s.complete opc c t).alphaRampRule = s.alphaRampRule := rfl

@[simp] theorem State.raiseError_status (opc : Byte) (e : Raise) (t : Bool) : (s.raiseError opc e t).status = statusWord opc (some e) false t := rfl
@[simp] theorem State.raiseError_caps (opc : Byte) (e : Raise) (t : Bool) : (s.raiseError opc e t).caps = s.caps := rfl
@[simp] theorem State.raiseError_pzCfg (opc : Byte) (e : Raise) (t : Bool) : (s.raiseError opc e t).pzCfg = s.pzCfg := rfl
@[simp] theorem State.raiseError_args (opc : Byte) (e : Raise) (t : Bool) : (s.raiseError opc e t).args = s.args := rfl
@[simp] theorem State.raiseError_res (opc : Byte) (e : Raise) (t : Bool) : (s.raiseError opc e t).res = s.res := rfl
@[simp] theorem State.raiseError_tb (opc : Byte) (e : Raise) (t : Bool) : (s.raiseError opc e t).tb = s.tb := rfl
@[simp] theorem State.raiseError_imgFmt (opc : Byte) (e : Raise) (t : Bool) : (s.raiseError opc e t).imgFmt = s.imgFmt := rfl
@[simp] theorem State.raiseError_imgFlags (opc : Byte) (e : Raise) (t : Bool) : (s.raiseError opc e t).imgFlags = s.imgFlags := rfl
@[simp] theorem State.raiseError_palBuf (opc : Byte) (e : Raise) (t : Bool) : (s.raiseError opc e t).palBuf = s.palBuf := rfl
@[simp] theorem State.raiseError_palCount (opc : Byte) (e : Raise) (t : Bool) : (s.raiseError opc e t).palCount = s.palCount := rfl
@[simp] theorem State.raiseError_mipCount (opc : Byte) (e : Raise) (t : Bool) : (s.raiseError opc e t).mipCount = s.mipCount := rfl
@[simp] theorem State.raiseError_tgtFmt (opc : Byte) (e : Raise) (t : Bool) : (s.raiseError opc e t).tgtFmt = s.tgtFmt := rfl
@[simp] theorem State.raiseError_mips (opc : Byte) (e : Raise) (t : Bool) : (s.raiseError opc e t).mips = s.mips := rfl
@[simp] theorem State.raiseError_heap (opc : Byte) (e : Raise) (t : Bool) : (s.raiseError opc e t).heap = s.heap := rfl
@[simp] theorem State.raiseError_host (opc : Byte) (e : Raise) (t : Bool) : (s.raiseError opc e t).host = { s.host with hpc := s.host.hpc + 1 } := rfl
@[simp] theorem State.raiseError_alphaRampRule (opc : Byte) (e : Raise) (t : Bool) : (s.raiseError opc e t).alphaRampRule = s.alphaRampRule := rfl

@[simp] theorem State.setLevels_status (n : Nat) (f : Nat → MipRegs) : (s.setLevels n f).status = s.status := rfl
@[simp] theorem State.setLevels_caps (n : Nat) (f : Nat → MipRegs) : (s.setLevels n f).caps = s.caps := rfl
@[simp] theorem State.setLevels_pzCfg (n : Nat) (f : Nat → MipRegs) : (s.setLevels n f).pzCfg = s.pzCfg := rfl
@[simp] theorem State.setLevels_args (n : Nat) (f : Nat → MipRegs) : (s.setLevels n f).args = s.args := rfl
@[simp] theorem State.setLevels_res (n : Nat) (f : Nat → MipRegs) : (s.setLevels n f).res = s.res := rfl
@[simp] theorem State.setLevels_tb (n : Nat) (f : Nat → MipRegs) : (s.setLevels n f).tb = s.tb := rfl
@[simp] theorem State.setLevels_imgFmt (n : Nat) (f : Nat → MipRegs) : (s.setLevels n f).imgFmt = s.imgFmt := rfl
@[simp] theorem State.setLevels_imgFlags (n : Nat) (f : Nat → MipRegs) : (s.setLevels n f).imgFlags = s.imgFlags := rfl
@[simp] theorem State.setLevels_palBuf (n : Nat) (f : Nat → MipRegs) : (s.setLevels n f).palBuf = s.palBuf := rfl
@[simp] theorem State.setLevels_palCount (n : Nat) (f : Nat → MipRegs) : (s.setLevels n f).palCount = s.palCount := rfl
@[simp] theorem State.setLevels_mipCount (n : Nat) (f : Nat → MipRegs) : (s.setLevels n f).mipCount = s.mipCount := rfl
@[simp] theorem State.setLevels_tgtFmt (n : Nat) (f : Nat → MipRegs) : (s.setLevels n f).tgtFmt = s.tgtFmt := rfl
@[simp] theorem State.setLevels_mips (n : Nat) (f : Nat → MipRegs) : (s.setLevels n f).mips = mipsOf (fun i => if i < n then f i else s.mip i) := rfl
@[simp] theorem State.setLevels_heap (n : Nat) (f : Nat → MipRegs) : (s.setLevels n f).heap = s.heap := rfl
@[simp] theorem State.setLevels_host (n : Nat) (f : Nat → MipRegs) : (s.setLevels n f).host = s.host := rfl
@[simp] theorem State.setLevels_alphaRampRule (n : Nat) (f : Nat → MipRegs) : (s.setLevels n f).alphaRampRule = s.alphaRampRule := rfl

@[simp] theorem State.observe_status (o : Observation) : (s.observe o).status = s.status := rfl
@[simp] theorem State.observe_caps (o : Observation) : (s.observe o).caps = s.caps := rfl
@[simp] theorem State.observe_pzCfg (o : Observation) : (s.observe o).pzCfg = s.pzCfg := rfl
@[simp] theorem State.observe_args (o : Observation) : (s.observe o).args = s.args := rfl
@[simp] theorem State.observe_res (o : Observation) : (s.observe o).res = s.res := rfl
@[simp] theorem State.observe_tb (o : Observation) : (s.observe o).tb = s.tb := rfl
@[simp] theorem State.observe_imgFmt (o : Observation) : (s.observe o).imgFmt = s.imgFmt := rfl
@[simp] theorem State.observe_imgFlags (o : Observation) : (s.observe o).imgFlags = s.imgFlags := rfl
@[simp] theorem State.observe_palBuf (o : Observation) : (s.observe o).palBuf = s.palBuf := rfl
@[simp] theorem State.observe_palCount (o : Observation) : (s.observe o).palCount = s.palCount := rfl
@[simp] theorem State.observe_mipCount (o : Observation) : (s.observe o).mipCount = s.mipCount := rfl
@[simp] theorem State.observe_tgtFmt (o : Observation) : (s.observe o).tgtFmt = s.tgtFmt := rfl
@[simp] theorem State.observe_mips (o : Observation) : (s.observe o).mips = s.mips := rfl
@[simp] theorem State.observe_heap (o : Observation) : (s.observe o).heap = s.heap := rfl
@[simp] theorem State.observe_host (o : Observation) : (s.observe o).host = { s.host with observed := o :: s.host.observed } := rfl
@[simp] theorem State.observe_alphaRampRule (o : Observation) : (s.observe o).alphaRampRule = s.alphaRampRule := rfl

@[simp] theorem State.bind_status (k : Nat) (w : Word) : (s.bind k w).status = s.status := rfl
@[simp] theorem State.bind_caps (k : Nat) (w : Word) : (s.bind k w).caps = s.caps := rfl
@[simp] theorem State.bind_pzCfg (k : Nat) (w : Word) : (s.bind k w).pzCfg = s.pzCfg := rfl
@[simp] theorem State.bind_args (k : Nat) (w : Word) : (s.bind k w).args = s.args := rfl
@[simp] theorem State.bind_res (k : Nat) (w : Word) : (s.bind k w).res = s.res := rfl
@[simp] theorem State.bind_tb (k : Nat) (w : Word) : (s.bind k w).tb = s.tb := rfl
@[simp] theorem State.bind_imgFmt (k : Nat) (w : Word) : (s.bind k w).imgFmt = s.imgFmt := rfl
@[simp] theorem State.bind_imgFlags (k : Nat) (w : Word) : (s.bind k w).imgFlags = s.imgFlags := rfl
@[simp] theorem State.bind_palBuf (k : Nat) (w : Word) : (s.bind k w).palBuf = s.palBuf := rfl
@[simp] theorem State.bind_palCount (k : Nat) (w : Word) : (s.bind k w).palCount = s.palCount := rfl
@[simp] theorem State.bind_mipCount (k : Nat) (w : Word) : (s.bind k w).mipCount = s.mipCount := rfl
@[simp] theorem State.bind_tgtFmt (k : Nat) (w : Word) : (s.bind k w).tgtFmt = s.tgtFmt := rfl
@[simp] theorem State.bind_mips (k : Nat) (w : Word) : (s.bind k w).mips = s.mips := rfl
@[simp] theorem State.bind_heap (k : Nat) (w : Word) : (s.bind k w).heap = s.heap := rfl
@[simp] theorem State.bind_host (k : Nat) (w : Word) : (s.bind k w).host = { s.host with names := bindName s.host.names k w } := rfl
@[simp] theorem State.bind_alphaRampRule (k : Nat) (w : Word) : (s.bind k w).alphaRampRule = s.alphaRampRule := rfl

@[simp] theorem State.unbind_status (k : Nat) : (s.unbind k).status = s.status := rfl
@[simp] theorem State.unbind_caps (k : Nat) : (s.unbind k).caps = s.caps := rfl
@[simp] theorem State.unbind_pzCfg (k : Nat) : (s.unbind k).pzCfg = s.pzCfg := rfl
@[simp] theorem State.unbind_args (k : Nat) : (s.unbind k).args = s.args := rfl
@[simp] theorem State.unbind_res (k : Nat) : (s.unbind k).res = s.res := rfl
@[simp] theorem State.unbind_tb (k : Nat) : (s.unbind k).tb = s.tb := rfl
@[simp] theorem State.unbind_imgFmt (k : Nat) : (s.unbind k).imgFmt = s.imgFmt := rfl
@[simp] theorem State.unbind_imgFlags (k : Nat) : (s.unbind k).imgFlags = s.imgFlags := rfl
@[simp] theorem State.unbind_palBuf (k : Nat) : (s.unbind k).palBuf = s.palBuf := rfl
@[simp] theorem State.unbind_palCount (k : Nat) : (s.unbind k).palCount = s.palCount := rfl
@[simp] theorem State.unbind_mipCount (k : Nat) : (s.unbind k).mipCount = s.mipCount := rfl
@[simp] theorem State.unbind_tgtFmt (k : Nat) : (s.unbind k).tgtFmt = s.tgtFmt := rfl
@[simp] theorem State.unbind_mips (k : Nat) : (s.unbind k).mips = s.mips := rfl
@[simp] theorem State.unbind_heap (k : Nat) : (s.unbind k).heap = s.heap := rfl
@[simp] theorem State.unbind_host (k : Nat) : (s.unbind k).host = { s.host with names := unbindName s.host.names k } := rfl
@[simp] theorem State.unbind_alphaRampRule (k : Nat) : (s.unbind k).alphaRampRule = s.alphaRampRule := rfl

@[simp] theorem State.setMem_mem (m : Memory) : (s.setMem m).mem = m := rfl
@[simp] theorem State.freeAll_mem (hs : List Word) : (s.freeAll hs).mem = s.mem.freeAll hs := rfl

end Sys2Proof.Machine
end

