-- ==== Sys2Proof/Tests/Slice0.lean ====
section
/-! SUPPORT. The model's own tests: the well-formedness smoke, words decoded, single steps with the results of
spec/95_test_vectors.md (named V-… and P… there), and for each statement with hypotheses a state that meets them. -/

namespace Sys2Proof.Tests

-- one test after another, so that the kernel's evaluations do not wait for each other in threads of their own
set_option Elab.async false

open Sys2Proof Sys2Proof.Machine

/-! ### Helpers -/

/-- The outcome is a next state that passes a test. -/
def after (o : Host.Outcome State Fault Refusal) (test : State → Bool) : Bool :=
  match o with
  | .next t => test t
  | .fault _ => false
  | .refused _ => false

/-- The outcome is this refusal. -/
def refuses (o : Host.Outcome State Fault Refusal) (r : Refusal) : Bool :=
  match o with
  | .next _ => false
  | .fault _ => false
  | .refused q => decide (q = r)

/-- Bytes from numbers. -/
def bytesOf (l : List Nat) : List Byte := l.map (BitVec.ofNat 8)

/-- The handles 1, 2, 3, … of the vectors' reference Alloc, from number a up. -/
def handlesFrom (a n : Nat) : List Word := (List.range n).map (fun i => BitVec.ofNat 32 (a + i))

/-- The reset state with IMG_FLAGS = 2 and an Alloc that answers a, a + 1, … -/
def blank (a : Nat) : State :=
  { State.reset with imgFlags := 2, heap := ⟨⟨[]⟩, (handlesFrom a 40).map some, 0⟩ }

/-- A live buffer h holding these bytes. -/
def hold (h : Word) (bs : List Nat) (s : State) : State :=
  s.setMem ((s.mem.insert h bs.length).put h 0 (bytesOf bs))

/-- Mip level i in buffer h, with storage and logical dimensions and a size. -/
def level (i : Fin 16) (h : Word) (sw sh lw lh : Nat) (size : Word) (s : State) : State :=
  { s with mips := s.mips.set i ⟨h, dimWord sw sh, dimWord lw lh, size⟩ }

/-- The formats IMG_FMT and TGT_FMT and the number of levels. -/
def formats (img tgt : Word) (count : Word) (s : State) : State :=
  { s with imgFmt := img, tgtFmt := tgt, mipCount := count }

/-- ARG0 to ARG3. -/
def withArgs (a0 a1 a2 a3 : Word) (s : State) : State := { s with args := #v[a0, a1, a2, a3, 0, 0, 0, 0] }

/-- A raw image of one level in handle 1. -/
def image (img tgt : Word) (w h : Nat) (bs : List Nat) : State :=
  level 0 1 w h w h (BitVec.ofNat 32 bs.length) (formats img tgt 1 (hold 1 bs (blank 2)))

/-- An indexed image of one level: palette in handle 1, indices in handle 2. -/
def indexed (img tgt : Word) (entries : List Nat) (count : Word) (w h : Nat) (bs : List Nat) : State :=
  { level 0 2 w h w h (BitVec.ofNat 32 bs.length) (formats img tgt 1 (hold 2 bs (hold 1 entries (blank 3)))) with
    palBuf := 1, palCount := count }

/-- A DXT1 image of one level in handle 1. -/
def dxt1Image (tgt : Word) (sw sh lw lh : Nat) (bs : List Nat) : State :=
  level 0 1 sw sh lw lh (BitVec.ofNat 32 bs.length) (formats 0x01004102 tgt 1 (hold 1 bs (blank 2)))

/-- The block of V-DXT1-1. -/
def redBlue : List Nat := [0x00, 0xF8, 0x1F, 0x00, 0xE4, 0xE4, 0xE4, 0xE4]

/-- A buffer 1 with these bytes, and ARG0 = 1, ARG1 = off. -/
def blockAt (off : Word) (bs : List Nat) : State := withArgs 1 off 0 0 (hold 1 bs (blank 2))

/-- The bytes of buffer h, all of them. -/
def contents (t : State) (h : Word) : Option (List Byte) := (t.mem.len? h).bind (fun n => t.mem.readBytes h 0 n)

/-- The live handles. -/
def liveHandles (t : State) : List Word := t.mem.bufs.map Buffer.handle

/-- A state whose next host operation is op. -/
def next (op : HostOp) (s : State) : State := { s with host := { s.host with program := [op], hpc := 0 } }

/-! ### The well-formedness smoke -/

theorem test_wf_commands : (Instr.convert.wf && Instr.decodeBlockDxt5.wf) = true := by decide
theorem test_wf_register : (HostOp.wr 0x094 (.lit 5)).wf = true ∧ (HostOp.rd 0xFFC none).wf = true := by decide
theorem test_illformed_misaligned_write : (HostOp.wr 0x002 (.lit 5)).wf = false := by decide
theorem test_illformed_misaligned_read : (HostOp.rd 0x001 none).wf = false := by decide
theorem test_illformed_write_outside_window : (HostOp.wr 0x1000 (.lit 5)).wf = false := by decide
theorem test_illformed_read_outside_window : (HostOp.rd 0x1000 none).wf = false := by decide
theorem test_wf_program : programWf [] [.halloc 1 8, .wr 0x010 (.name 1), .rd 0x100 (some 2), .hread (.name 2) 0 4] = true := by
  decide
theorem test_illformed_unbound_write : programWf [] [.wr 0x010 (.name 1), .halloc 1 8] = false := by decide
theorem test_illformed_unbound_hwrite : programWf [] [.halloc 1 8, .hwrite (.name 2) 0 [1]] = false := by decide
theorem test_illformed_unbound_hread : programWf [] [.hread (.name 1) 0 4] = false := by decide
theorem test_illformed_unbound_hfree : programWf [] [.rd 0x100 none, .hfree (.name 1)] = false := by decide

/-! ### Decoding: words written out bit by bit from 30_encoding R121 (reserved 21 bits, T 3 bits, OPC 8 bits) -/

theorem test_decode_resolveIndex : decode 0b000000000000000000000_000_00000001 = .ok .resolveIndex := by decide
theorem test_decode_fetchColor : decode 0b000000000000000000000_000_00000010 = .ok .fetchColor := by decide
theorem test_decode_storeColor : decode 0b000000000000000000000_000_00000011 = .ok .storeColor := by decide
theorem test_decode_decodeBlockDxt1 : decode 0b000000000000000000000_001_00000100 = .ok .decodeBlockDxt1 := by decide
theorem test_decode_decodeBlockDxt2 : decode 0b000000000000000000000_010_00000100 = .ok .decodeBlockDxt2 := by decide
theorem test_decode_decodeBlockDxt3 : decode 0b000000000000000000000_011_00000100 = .ok .decodeBlockDxt3 := by decide
theorem test_decode_decodeBlockDxt4 : decode 0b000000000000000000000_100_00000100 = .ok .decodeBlockDxt4 := by decide
theorem test_decode_decodeBlockDxt5 : decode 0b000000000000000000000_101_00000100 = .ok .decodeBlockDxt5 := by decide
theorem test_decode_encodeBlockDxt1 : decode 0b000000000000000000000_001_00000101 = .ok .encodeBlockDxt1 := by decide
theorem test_decode_encodeBlockDxt2 : decode 0b000000000000000000000_010_00000101 = .ok .encodeBlockDxt2 := by decide
theorem test_decode_encodeBlockDxt3 : decode 0b000000000000000000000_011_00000101 = .ok .encodeBlockDxt3 := by decide
theorem test_decode_encodeBlockDxt4 : decode 0b000000000000000000000_100_00000101 = .ok .encodeBlockDxt4 := by decide
theorem test_decode_encodeBlockDxt5 : decode 0b000000000000000000000_101_00000101 = .ok .encodeBlockDxt5 := by decide
theorem test_decode_alphaScan : decode 0b000000000000000000000_000_00000110 = .ok .alphaScan := by decide
theorem test_decode_convert : decode 0b000000000000000000000_000_00000111 = .ok .convert := by decide
theorem test_decode_negotiate : decode 0b000000000000000000000_000_00001000 = .ok .negotiate := by decide
theorem test_decode_negotiateAndConvert : decode 0b000000000000000000000_000_00001001 = .ok .negotiateAndConvert := by decide
theorem test_decode_release : decode 0b000000000000000000000_000_00001010 = .ok .release := by decide

/-- Section 4 of 95_test_vectors: each word on a reset machine, and STATUS after it. -/
theorem test_illegal_words :
    [(0x00000000, 0x01F00004), (0x0000000B, 0x01F00B04), (0x000000FF, 0x01F0FF04), (0x00000904, 0x01F00404),
      (0x00000004, 0x01F00404), (0x00000604, 0x01F00404), (0x00000107, 0x01F00704), (0x80000007, 0x01F00704)].all
      (fun p : Word × Word => after (issue p.1 State.reset) (fun t => decide (t.status = p.2))) = true := by decide +kernel

/-! ### One step per test -/

/-- V-TEX-3: an 8-bit item under PAL4 is masked to its low nibble. -/
theorem test_resolveIndex_masks : after (exec .resolveIndex
      (indexed 0x00401085 0 [255, 0, 0, 255, 0, 255, 0, 255] 2 2 1 [0x5A, 0x31]))
    (fun t => decide (t.res[0] = 10 ∧ t.status = 0x00000100)) = true := by decide +kernel

/-- V-TEX-4: the index of odd x is the high nibble. -/
theorem test_resolveIndex_high_nibble : after (exec .resolveIndex
      (withArgs 0 1 0 0 (indexed 0x00401045 0 [255, 0, 0, 255, 0, 255, 0, 255] 2 2 1 [0x5A])))
    (fun t => decide (t.res[0] = 5 ∧ t.status = 0x00000100)) = true := by decide +kernel

/-- V-TEX-3: index 10 names no entry of a two-entry palette. -/
theorem test_fetchColor_missing : after (exec .fetchColor
      (indexed 0x00401085 0 [255, 0, 0, 255, 0, 255, 0, 255] 2 2 1 [0x5A, 0x31]))
    (fun t => decide (t.res[0] = 0 ∧ t.res[1] = 0 ∧ t.status = 0x00000200)) = true := by decide +kernel

/-- P2, hpc 28 to 31: a 565 texel widened. -/
theorem test_fetchColor_565 : after (exec .fetchColor
      (withArgs 0 1 0 0 (image 0x00104102 0 3 2 [0xFF, 0xFF, 0xEF, 0x7B, 0, 0, 0, 0, 0, 0, 0, 0, 0x00, 0xF8, 0, 0])))
    (fun t => decide (t.res[0] = 0xFF7B7D7B ∧ t.res[1] = 1 ∧ t.status = 0x00000200)) = true := by decide +kernel

/-- P2, hpc 13 to 22: texel (2, 1) lies at byte 12, and the store narrows. -/
theorem test_storeColor_pitch : after (exec .storeColor
      (withArgs 0 2 1 0xFF0000FF (image 0x00104102 0 3 2 [0, 0, 0, 0, 0, 0, 0, 0, 0, 0, 0, 0, 0, 0, 0, 0])))
    (fun t => decide (contents t 1 = some (bytesOf [0, 0, 0, 0, 0, 0, 0, 0, 0, 0, 0, 0, 0x00, 0xF8, 0, 0])
      ∧ t.status = 0x00000300)) = true := by decide +kernel

/-- P2, hpc 18 to 22. -/
theorem test_storeColor_narrows : after (exec .storeColor
      (withArgs 0 1 0 0x80808080 (image 0x00104102 0 3 2 [0, 0, 0, 0, 0, 0, 0, 0, 0, 0, 0, 0, 0, 0, 0, 0])))
    (fun t => decide (t.mem.read 1 2 2 = some 0x7BEF ∧ t.status = 0x00000300)) = true := by decide +kernel

/-- P1 and V-DXT1-1. -/
theorem test_decodeBlockDxt1 : after (exec .decodeBlockDxt1 (blockAt 0 redBlue))
    (fun t => decide (t.tb = #v[0xFF0000FF, 0xFFFF0000, 0xFF5500AA, 0xFFAA0055, 0xFF0000FF, 0xFFFF0000, 0xFF5500AA,
        0xFFAA0055, 0xFF0000FF, 0xFFFF0000, 0xFF5500AA, 0xFFAA0055, 0xFF0000FF, 0xFFFF0000, 0xFF5500AA, 0xFFAA0055]
      ∧ t.status = 0x00000400)) = true := by decide +kernel

/-- V-BLK-2. -/
theorem test_decodeBlockDxt1_bounds : after (exec .decodeBlockDxt1 (blockAt 1 redBlue))
    (fun t => decide (t.tb = State.reset.tb ∧ t.status = 0x01F00406)) = true := by decide +kernel

/-- The block of V-DXT3-1. -/
def explicitAlpha : List Nat :=
  [0x10, 0x32, 0x54, 0x76, 0x98, 0xBA, 0xDC, 0xFE, 0x1F, 0x00, 0x00, 0xF8, 0xE4, 0xE4, 0xE4, 0xE4]

/-- The TB line of V-DXT3-1 and V-DXT2-1. -/
def explicitAlphaTexels : Vector Word 16 :=
  #v[0x00FF0000, 0x110000FF, 0x22AA0055, 0x335500AA, 0x44FF0000, 0x550000FF, 0x66AA0055, 0x775500AA,
    0x88FF0000, 0x990000FF, 0xAAAA0055, 0xBB5500AA, 0xCCFF0000, 0xDD0000FF, 0xEEAA0055, 0xFF5500AA]

/-- V-DXT2-1. -/
theorem test_decodeBlockDxt2 : after (exec .decodeBlockDxt2 (blockAt 0 explicitAlpha))
    (fun t => decide (t.tb = explicitAlphaTexels ∧ t.status = 0x00000400)) = true := by decide +kernel

/-- V-DXT3-1. -/
theorem test_decodeBlockDxt3 : after (exec .decodeBlockDxt3 (blockAt 0 explicitAlpha))
    (fun t => decide (t.tb = explicitAlphaTexels ∧ t.status = 0x00000400)) = true := by decide +kernel

/-- V-DXT4-1, its first eight texels. -/
theorem test_decodeBlockDxt4 : after (exec .decodeBlockDxt4
      (blockAt 0 [0x00, 0xFF, 0x88, 0xC6, 0xFA, 0x88, 0xC6, 0xFA, 0x00, 0xF8, 0x1F, 0x00, 0x00, 0x00, 0x00, 0x00]))
    (fun t => decide (t.tb.toList.take 8 = [0x000000FF, 0xFF0000FF, 0x330000FF, 0x660000FF, 0x990000FF, 0xCC0000FF, 0x000000FF,
      0xFF0000FF])) = true := by decide +kernel

/-- V-DXT5-1 under CANONICAL, its first eight texels. -/
theorem test_decodeBlockDxt5 : after (exec .decodeBlockDxt5
      (blockAt 0 [0xFF, 0x00, 0x88, 0xC6, 0xFA, 0x88, 0xC6, 0xFA, 0x00, 0xF8, 0x1F, 0x00, 0x00, 0x00, 0x00, 0x00]))
    (fun t => decide (t.tb.toList.take 8 = [0xFF0000FF, 0x000000FF, 0xDA0000FF, 0xB60000FF, 0x910000FF, 0x6D0000FF, 0x480000FF,
      0x240000FF])) = true := by decide +kernel

/-- V-DXT5-1 under ORDER_SWAPPED, its first eight alphas. -/
theorem test_decodeBlockDxt5_swapped : after (exec .decodeBlockDxt5 { blockAt 0 [0xFF, 0x00, 0x88, 0xC6, 0xFA, 0x88, 0xC6,
      0xFA, 0x00, 0xF8, 0x1F, 0x00, 0x00, 0x00, 0x00, 0x00] with alphaRampRule := .orderSwapped })
    (fun t => decide ((t.tb.toList.take 8).map (fun c => (unpackColour c).a.toNat) = [255, 0, 204, 153, 102, 51, 0, 255])) = true := by
  decide +kernel

/-- Section 4: ARG0 = 0 names no live buffer. -/
theorem test_encodeBlockDxt1_no_buffer : after (exec .encodeBlockDxt1 State.reset)
    (fun t => decide (t.status = 0x01F00506)) = true := by decide +kernel

/-- V-BLK-3. -/
theorem test_encodeBlockDxt2 : after (exec .encodeBlockDxt2 (blockAt 7 redBlue))
    (fun t => decide (t.status = 0x01F00501 ∧ contents t 1 = some (bytesOf redBlue))) = true := by decide +kernel

/-- V-BLK-5. -/
theorem test_encodeBlockDxt3_bounds : after (exec .encodeBlockDxt3 (blockAt 4 redBlue))
    (fun t => decide (t.status = 0x01F00506 ∧ contents t 1 = some (bytesOf redBlue))) = true := by decide +kernel

/-- V-BLK-3. -/
theorem test_encodeBlockDxt4 : after (exec .encodeBlockDxt4 (blockAt 7 redBlue))
    (fun t => decide (t.status = 0x01F00501 ∧ contents t 1 = some (bytesOf redBlue))) = true := by decide +kernel

/-- 41_block_codec R221: the sixteen bytes of a DXT5 block do not fit eight. -/
theorem test_encodeBlockDxt5_bounds : after (exec .encodeBlockDxt5 (blockAt 0 redBlue))
    (fun t => decide (t.status = 0x01F00506)) = true := by decide +kernel

/-- V-SRC-5, before the change. -/
theorem test_alphaScan_opaque : after (exec .alphaScan
      (image 0x00004205 0 2 2 [1, 2, 3, 255, 1, 2, 3, 255, 1, 2, 3, 255, 1, 2, 3, 255]))
    (fun t => decide (t.res[0] = 0 ∧ t.imgFlags = 2 ∧ t.status = 0x00000600)) = true := by decide +kernel

/-- V-SRC-8, the variant: an entry no texel uses does not count. -/
theorem test_alphaScan_unused_entry : after (exec .alphaScan
      (indexed 0x00801085 0 [255, 0, 0, 255, 0, 0, 0, 0] 2 2 1 [0, 0]))
    (fun t => decide (t.res[0] = 0 ∧ t.status = 0x00000600)) = true := by decide +kernel

/-- V-CONV-7: mip 1 is corrupt, so the chain is cut. -/
def corruptMip1 : State :=
  level 1 2 4 4 2 2 16 (level 0 1 4 4 4 4 8 (formats 0x01004102 0x00004205 2
    (hold 2 [255, 255, 255, 255, 0, 0, 0, 0] (hold 1 [255, 255, 255, 255, 0, 0, 0, 0] (blank 3)))))

theorem test_convert_truncates : after (exec .convert corruptMip1)
    (fun t => decide (t.status = 0x00000730 ∧ t.mipCount = 1 ∧ t.imgFmt = 0x00004205 ∧ liveHandles t = [3]
      ∧ contents t 3 = some (bytesOf (List.replicate 64 255)))) = true := by decide +kernel

/-- V-PAL-1. -/
theorem test_convert_palettizes : after (exec .convert
      (image 0x00004205 0x00401045 2 2 [255, 0, 0, 255, 255, 0, 0, 255, 0, 0, 255, 255, 0, 255, 0, 255]))
    (fun t => decide (t.status = 0x00000710 ∧ t.imgFmt = 0x00401045 ∧ t.palCount = 3
      ∧ contents t t.palBuf = some (bytesOf [255, 0, 0, 255, 0, 0, 255, 255, 0, 255, 0, 255])
      ∧ contents t t.mips[0].buf = some (bytesOf [0x00, 0x21]) ∧ t.mips[0].size = 2 ∧ t.imgFlags = 2)) = true := by
  decide +kernel

/-- The state of a row of V-NEG. -/
def negRow (fmt flags caps : Word) : State := { formats fmt 0 0 (blank 1) with imgFlags := flags, caps := caps }

/-- V-NEG, rows 1 to 9 and 11: TGT_FMT. -/
theorem test_negotiate_rows :
    [(0x01004102, 0, 0x00, 0x00004102), (0x01004102, 1, 0x00, 0x00004101), (0x01004102, 0, 0x01, 0x01004102),
      (0x03204103, 1, 0x00, 0x00204103), (0x05104205, 0, 0x1F, 0x05104205), (0x01204102, 0, 0x00, 0x00104102),
      (0x00804085, 1, 0x1F, 0x00004205), (0x00804085, 1, 0x3F, 0x00804085), (0x00501042, 0, 0x00, 0x00101102),
      (0x00004205, 0, 0x00, 0x00004205)].all
      (fun r : Word × Word × Word × Word => after (exec .negotiate (negRow r.1 r.2.1 r.2.2.1))
        (fun t => decide (t.tgtFmt = r.2.2.2 ∧ t.status = 0x00000800))) = true := by decide +kernel

/-- V-NEG, row 10. -/
theorem test_negotiate_reserved : after (exec .negotiate (negRow 0x06004102 0 0))
    (fun t => decide (t.tgtFmt = 0 ∧ t.status = 0x01F00801)) = true := by decide +kernel

/-- P3, hpc 12, with the white block of the stand-in compressor. -/
theorem test_negotiateAndConvert : after (exec .negotiateAndConvert (dxt1Image 0 4 4 4 4 [255, 255, 255, 255, 0, 0, 0, 0]))
    (fun t => decide (t.status = 0x00000910 ∧ t.tgtFmt = 0x00004102 ∧ t.imgFmt = 0x00004102
      ∧ contents t t.mips[0].buf = some (bytesOf (List.replicate 32 255)) ∧ t.mips[0].size = 32)) = true := by decide +kernel

/-- P3, hpc 17: a supported raw format is the identity. -/
theorem test_negotiateAndConvert_identity : after (exec .negotiateAndConvert (image 0x00004102 0 1 1 [255, 255, 0, 0]))
    (fun t => decide (t.status = 0x00000900 ∧ t.tgtFmt = 0x00004102)) = true := by decide +kernel

/-- V-REL, first row. -/
theorem test_release_owned : after (exec .release (image 0x00004205 0 2 1 [1, 2, 3, 4, 5, 6, 7, 8]))
    (fun t => decide (t.status = 0x00000A00 ∧ liveHandles t = [] ∧ t.mipCount = 0 ∧ t.imgFlags = 2)) = true := by decide +kernel

/-- V-REL, second row: ACQUIRED = 1, so the host keeps the buffer. -/
theorem test_release_acquired : after (exec .release { image 0x00004205 0 2 1 [1, 2, 3, 4, 5, 6, 7, 8] with imgFlags := 6 })
    (fun t => decide (t.status = 0x00000A00 ∧ liveHandles t = [1] ∧ t.mipCount = 0 ∧ t.imgFlags = 2)) = true := by decide +kernel

/-- The host's interface: a table row's word is decoded, and runs as the first step after reset. -/
theorem test_first_step : after (step (State.reset.withFetchWord 32 0x00000A)) (fun t => decide (t.status = 0x00000A00)) = true
    ∧ decodeTableWord 32 0x504 = some .decodeBlockDxt5 := by decide +kernel

/-! ### Witnesses: for each statement with hypotheses, states and operands that meet them, clause by clause -/

/-- DecodeRule: the legal words at the ends of OPC and T, and a word past each end. -/
theorem witness_decodeRule : legalWord 0x00000001 ∧ legalWord 0x0000000A ∧ legalWord 0x00000104 ∧ legalWord 0x00000505
    ∧ ¬ legalWord 0x00000000 ∧ ¬ legalWord 0x0000000B ∧ ¬ legalWord 0x00000004 ∧ ¬ legalWord 0x00000605
    ∧ ¬ legalWord 0x00000107 ∧ ¬ legalWord 0x00000807 := by unfold legalWord; decide +kernel

/-- StepRunsDecodedCommand and CommandRegister: a literal word, a name bound to a word, and an illegal word at CMD. -/
theorem witness_commandIssue : fetchOp (next (.wr 0 (.lit 0x0000000A)) State.reset) = some (.wr 0 (.lit 0x0000000A))
    ∧ (next (.wr 0 (.name 3)) (State.reset.bind 3 0x00000007)).hostVal (.name 3) = some 0x00000007
    ∧ decode 0x00000007 = .ok .convert ∧ fetchOp (next (.wr 0 (.lit 0)) State.reset) = some (.wr 0 (.lit 0))
    ∧ (next (.wr 0 (.lit 0)) State.reset).hostVal (.lit 0) = some 0 ∧ ¬ legalWord 0 := by unfold legalWord; decide +kernel

/-- Sequencing, RampRuleFixed, EveryStepKeepsInv: a state with the invariant that steps, and one at the program's end. -/
theorem witness_steps : after (step (next .reset State.reset)) (fun _ => true) = true
    ∧ State.reset.host.hpc = State.reset.host.program.length ∧ (next .reset State.reset).mem.wf = true
    ∧ reservedClear (next .reset State.reset) ∧ statusOk (next .reset State.reset) := by
  unfold reservedClear statusOk; decide +kernel

/-- RegisterAccess: the ends of the window, a reserved, a read-only and a read-write register, and both kinds of bad offset. -/
theorem witness_registerAccess :
    ([0x004, 0x008, 0x030, 0x098, 0xFFC].all (fun off =>
      decide (fetchOp (next (.wr off (.lit 0xFFFFFFFF)) State.reset) = some (.wr off (.lit 0xFFFFFFFF)) ∧ off % 4 = 0 ∧ off < 4096
        ∧ off ≠ 0 ∧ fetchOp (next (.rd off none) State.reset) = some (.rd off none)))) = true
    ∧ regAt 0x094 = some .tgtFmt ∧ regAt 0x098 = none
    ∧ (next (.wr 0x094 (.name 3)) (State.reset.bind 3 5)).hostVal (.name 3) = some 5
    ∧ fetchOp (next (.rd 0xFFC (some 3)) State.reset) = some (.rd 0xFFC (some 3))
    ∧ refuses (step (next (.wr 0x094 (.name 3)) State.reset)) .unboundHandleName = true
    ∧ refuses (step (next (.wr 0x002 (.lit 0)) State.reset)) .registerAccessOutsideInterface = true
    ∧ refuses (step (next (.rd 0x1000 none) State.reset)) .registerAccessOutsideInterface = true := by decide +kernel

/-- ResetEvent. -/
theorem witness_resetEvent : fetchOp (next .reset (blank 1)) = some .reset := by decide +kernel

/-- AllocAndFree: an Alloc that answers a handle, at length 0 and at MAX_BUF_LEN, one past it, and one that answers FAIL. -/
theorem witness_allocAndFree : ((blank 5).alloc 0).2 = some 5 ∧ ((blank 5).alloc (2 ^ 32 - 1)).2 = some 5
    ∧ ((blank 5).alloc (2 ^ 32)).2 = none ∧ (blank 5).mem.live 5 = false ∧ (blank 5).heap.answers.head? = some (some 5) := by
  decide +kernel

/-- MemoryAccess: in bounds up to the last byte, and one past it. -/
theorem witness_memoryAccess : (blockAt 0 redBlue).mem.inBounds 1 0 8 = true ∧ (blockAt 0 redBlue).mem.inBounds 1 1 8 = false
    ∧ (blockAt 0 redBlue).mem.read 1 6 2 = some 0xE4E4 ∧ ((blockAt 0 redBlue).mem.write 1 6 2 5).isSome = true := by decide +kernel

/-- HostBufferMoves: each move inside the bounds at their end, and outside. -/
theorem witness_hostBufferMoves :
    fetchOp (next (.halloc 1 8) (blank 1)) = some (.halloc 1 8)
    ∧ fetchOp (next (.hwrite (.lit 1) 6 [1, 2]) (blockAt 0 redBlue)) = some (.hwrite (.lit 1) 6 [1, 2])
    ∧ (next (.hwrite (.lit 1) 6 [1, 2]) (blockAt 0 redBlue)).mem.inBounds 1 6 2 = true
    ∧ fetchOp (next (.hread (.lit 1) 7 2) (blockAt 0 redBlue)) = some (.hread (.lit 1) 7 2)
    ∧ (blockAt 0 redBlue).mem.inBounds 1 7 2 = false ∧ (blockAt 0 redBlue).hostVal (.lit 1) = some 1
    ∧ (blockAt 0 redBlue).mem.live 1 = true ∧ (blockAt 0 redBlue).mem.live 2 = false
    ∧ fetchOp (next (.hfree (.name 7)) (blank 1)) = some (.hfree (.name 7)) ∧ (blank 1).hostVal (.name 7) = none := by
  decide +kernel

/-- DirectItemRoundTrip: a format at each of its depths, LUM and LUM_ALPHA, and an order that is refused. -/
theorem witness_directItemRoundTrip : 24 ∈ depthSet .r888 ∧ 32 ∈ depthSet .r888 ∧ refusesAbgr .r888 = true
    ∧ 32 ∈ depthSet .r8888 ∧ refusesAbgr .r8888 = false ∧ 8 ∈ depthSet .lum ∧ 16 ∈ depthSet .lumAlpha
    ∧ (slots .r565 .bgra)[2]? = some (.r, 5) ∧ (((slots .r565 .bgra).take 2).map Prod.snd).sum = 11
    ∧ (slots .r8888 .abgr)[0]? = some (.a, 8) ∧ roleWidth .r555 .a = none := by decide

/-- A two-level indexed state for the texel commands, its palette of two entries. -/
def texelState (a0 a1 a2 : Word) : State :=
  withArgs a0 a1 a2 0 (indexed 0x00401085 0 [255, 0, 0, 255, 0, 255, 0, 255] 2 2 1 [0x5A, 0x31])

/-- ResolveIndexCommand: its checks passed at both ends of x, and failed at x = lw and at m = MIP_COUNT. -/
theorem witness_resolveIndex : firstRaise (resolveIndexChecks (texelState 0 0 0)) = none
    ∧ firstRaise (resolveIndexChecks (texelState 0 1 0)) = none
    ∧ firstRaise (resolveIndexChecks (texelState 0 2 0)) = some ⟨.boundsError, 0, some 0⟩
    ∧ firstRaise (resolveIndexChecks (texelState 1 0 0)) = some ⟨.boundsError, 0, none⟩ := by decide +kernel

/-- FetchColorCommand: a direct image, an index below PAL_COUNT, one that is not, and an error (V-TEX-2). -/
theorem witness_fetchColor : firstRaise (fetchColorChecks (image 0x00004205 0 1 1 [1, 2, 3, 4])) = none
    ∧ firstRaise (fetchColorChecks (texelState 0 1 0)) = none ∧ (texelState 0 1 0).palEntries = 2
    ∧ readItem (texelState 0 1 0).mem 2 2 (texelState 0 1 0).imgDesc 1 0 = some 0x31
    ∧ readItem (texelState 0 0 0).mem 2 2 (texelState 0 0 0).imgDesc 0 0 = some 0x5A
    ∧ firstRaise (fetchColorChecks (level 0 1 1 1 1 1 3 (image 0x00004205 0 1 1 [1, 2, 3, 4])))
        = some ⟨.corruptDataError, 0, some 0⟩ := by decide +kernel

/-- StoreColorCommand and StoreThenFetch: an 8888 image, and an indexed one, which is refused. -/
theorem witness_storeColor : firstRaise (storeColorChecks (image 0x00004205 0 1 1 [1, 2, 3, 4])) = none
    ∧ (image 0x00004205 0 1 1 [1, 2, 3, 4]).imgDesc.rasterF = .r8888
    ∧ firstRaise (storeColorChecks (texelState 0 0 0)) = some ⟨.formatError, 0, none⟩ := by decide +kernel

/-- DecodeBlockCommand and EncodeBlockCommand: a block that ends at the buffer's end, and one that passes it. -/
theorem witness_blockCommands : (blockAt 0 redBlue).mem.tooShort 1 (0 + blockBytes .dxt1) = false
    ∧ (blockAt 1 redBlue).mem.tooShort 1 (1 + blockBytes .dxt1) = true
    ∧ (blockAt 0 explicitAlpha).mem.tooShort 1 (0 + blockBytes .dxt3) = false
    ∧ (blockAt 0 redBlue).mem.tooShort 1 (0 + blockBytes .dxt5) = true := by decide +kernel

/-- ColourPalette: endpoints in both orders and equal, at the ends of 16 bits. -/
theorem witness_colourPalette : ((0x001F : Nat) < 0xF800 ∨ BlockType.dxt1 ≠ .dxt1) ∧ (0xFFFF : Nat) ≤ 0xFFFF
    ∧ (0xFFFF : Nat) < 2 ^ 16 ∧ BlockType.dxt3 ≠ .dxt1 := by decide

/-- AlphaRamps: both orders, and equal. -/
theorem witness_alphaRamps : (0 : Nat) < 255 ∧ (255 : Nat) ≤ 255 ∧ (50 : Nat) ≤ 50 := by decide

/-- CompressorProperties and EncodeThenDecode: a uniform opaque white grid, in TB0..TB15 too, and room for the block. -/
theorem witness_uniform : List.replicate 16 (opaqueColour (expand565 0xFFFF)) = List.replicate 16 ⟨255, 255, 255, 255⟩
    ∧ (∀ t : Fin 16, ({ blockAt 0 redBlue with tb := Vector.replicate 16 0xFFFFFFFF }).tb[t]
        = packColour (opaqueColour (expand565 0xFFFF)))
    ∧ ({ blockAt 0 redBlue with tb := Vector.replicate 16 0xFFFFFFFF }).mem.tooShort 1 (0 + blockBytes .dxt1) = false := by
  decide +kernel

/-- The scan answers this. -/
def scans (s : State) (stage : Nat) (b : Bool) : Bool :=
  match alphaScan stage s with
  | .ok a => decide (a = b)
  | .error _ => false

/-- AlphaScanMeaning: answers for a compressed, a direct and an indexed image, true and false. -/
theorem witness_alphaScanMeaning : scans (dxt1Image 0 4 4 4 4 redBlue) 0 false = true
    ∧ scans (dxt1Image 0 4 4 4 4 [0x1F, 0x00, 0x00, 0xF8, 0xE4, 0xE4, 0xE4, 0xE4]) 0 true = true
    ∧ scans (image 0x00004205 0 1 1 [1, 2, 3, 254]) 4 true = true
    ∧ scans (indexed 0x00801085 0 [255, 0, 0, 255, 0, 0, 0, 0] 2 2 1 [0, 1]) 0 true = true := by decide +kernel

/-- AlphaScanCommand: its checks passed on the three kinds of image, and failed. -/
theorem witness_alphaScanCommand : firstRaise (alphaScanChecks (dxt1Image 0 4 4 4 4 redBlue)) = none
    ∧ firstRaise (alphaScanChecks (image 0x00004205 0 1 1 [1, 2, 3, 254])) = none
    ∧ firstRaise (alphaScanChecks (texelState 0 0 0)) = none
    ∧ firstRaise (alphaScanChecks (dxt1Image 0 3 4 4 4 redBlue)) = some ⟨.corruptDataError, 0, some 0⟩
    ∧ firstRaise (alphaScanChecks State.reset) = some ⟨.formatError, 0, none⟩ := by decide +kernel

/-- The 2 by 1 image of V-CONV-1, to a given target. -/
def conv1 (tgt : Word) : State := image 0x00004205 tgt 2 1 [255, 0, 0, 255, 0, 0, 255, 0x80]

/-- ConvertEntry: a borrowed image, an identity, an error of the entry checks (V-CONV-5), and none. -/
theorem witness_convertEntry : ({ conv1 0x00104102 with imgFlags := 0 }).isStandalone = false
    ∧ (conv1 0x00004205).isStandalone = true ∧ (conv1 0x00004205).imgDesc = (conv1 0x00004205).tgtDesc
    ∧ (conv1 0x00104102).imgDesc ≠ (conv1 0x00104102).tgtDesc
    ∧ firstRaise (convertChecks (conv1 0x02004103)) = some ⟨.formatError, 0, none⟩
    ∧ firstRaise (convertChecks (conv1 0x00104102)) = none := by decide +kernel

/-- A state is ready to convert, with the invariant: the allocator's 33 next answers are given. -/
def readyToConvert (s : State) : Prop := MachineInv s ∧ convertReady s

/-- The allocator's 33 next answers, tested one by one. -/
theorem freshHandles_of {s : State} {hs : List Word} (hn : hs.Nodup)
    (ha : hs.all (fun h => decide (h ≠ 0) && !s.mem.live h && !s.imageHandles.contains h) = true) : freshHandles s hs := by
  refine ⟨hn, fun h hh => ?_⟩
  have := List.all_eq_true.1 ha h hh
  simpa [and_assoc] using this

theorem readyToConvert_of {s : State} (hs : List Word) (rest : List (Option Word)) (ha : s.heap.answers = hs.map some ++ rest)
    (hn : hs.length = 33) (hf : freshHandles s hs) (hi : MachineInv s) (h1 : s.isStandalone = true) (h2 : s.imgDesc ≠ s.tgtDesc)
    (h3 : firstRaise (convertChecks s) = none)
    (h4 : ∀ t, compType s.imgDesc.comp = some t → firstRaise (blockMipChecks s t 0 1) = none)
    (h5 : s.imgDesc.comp ≠ 0 → levelsFit (stage1Format s.tgtDesc) s) (h6 : s.tgtDesc.comp = 0 → levelsFit s.rawTgt s)
    (h7 : s.tgtDesc.comp ≠ 0 → paddedFit s) : readyToConvert s :=
  ⟨hi, h1, h2, h3, h4, h5, h6, h7, hs, rest, ha, hn, hf⟩

/-- ConvertCompletes: a raw image to another raw format (V-CONV-1), which stage 2 recodes. -/
theorem witness_convertCompletes_raw : readyToConvert (conv1 0x00104102) := by
  refine readyToConvert_of (handlesFrom 2 33) ((handlesFrom 35 7).map some) (by decide +kernel) (by decide +kernel) ?_ ?_ (by decide +kernel)
    (by decide +kernel) (by decide +kernel) ?_ ?_ ?_ ?_
  · exact freshHandles_of (by decide +kernel) (by decide +kernel)
  · unfold MachineInv reservedClear statusOk; decide +kernel
  · intro t ht; revert ht; cases t <;> decide +kernel
  · unfold levelsFit; decide +kernel
  · unfold levelsFit; decide +kernel
  · unfold paddedFit; decide +kernel

/-- ConvertCompletes: a raw image to DXT1, which stage 3 compresses. -/
theorem witness_convertCompletes_compress : readyToConvert (conv1 0x01004102) := by
  refine readyToConvert_of (handlesFrom 2 33) ((handlesFrom 35 7).map some) (by decide +kernel) (by decide +kernel) ?_ ?_ (by decide +kernel)
    (by decide +kernel) (by decide +kernel) ?_ ?_ ?_ ?_
  · exact freshHandles_of (by decide +kernel) (by decide +kernel)
  · unfold MachineInv reservedClear statusOk; decide +kernel
  · intro t ht; revert ht; cases t <;> decide +kernel
  · unfold levelsFit; decide +kernel
  · unfold levelsFit; decide +kernel
  · unfold paddedFit; decide +kernel

/-- ConvertCompletes: the two-level image of V-CONV-7, whose second level is cut, to an indexed target: stages 1 and 2. -/
theorem witness_convertCompletes_decompress : readyToConvert { corruptMip1 with tgtFmt := 0x00804085 } := by
  refine readyToConvert_of (handlesFrom 3 33) ((handlesFrom 36 7).map some) (by decide +kernel) (by decide +kernel) ?_ ?_ (by decide +kernel)
    (by decide +kernel) (by decide +kernel) ?_ ?_ ?_ ?_
  · exact freshHandles_of (by decide +kernel) (by decide +kernel)
  · unfold MachineInv reservedClear statusOk; decide +kernel
  · intro t ht; revert ht; cases t <;> decide +kernel
  · unfold levelsFit; decide +kernel
  · unfold levelsFit; decide +kernel
  · unfold paddedFit; decide +kernel

/-- A level of 65535 by 1 texels, which no padding could hold. -/
def wideImage : State :=
  level 0 1 65535 1 65535 1 65535 (formats 0x00001084 0x00001108 1 { blank 2 with
    heap := ⟨⟨[⟨1, 65535, []⟩]⟩, (handlesFrom 2 40).map some, 0⟩ })

/-- ConvertCompletes: a raw target takes a level whose dimensions do not fit 16 bits when padded. -/
theorem witness_convertCompletes_wide : readyToConvert wideImage := by
  refine readyToConvert_of (handlesFrom 2 33) ((handlesFrom 35 7).map some) (by decide +kernel) (by decide +kernel) ?_ ?_ (by decide +kernel)
    (by decide +kernel) (by decide +kernel) ?_ ?_ ?_ ?_
  · exact freshHandles_of (by decide +kernel) (by decide +kernel)
  · unfold MachineInv reservedClear statusOk; decide +kernel
  · intro t ht; revert ht; cases t <;> decide +kernel
  · unfold levelsFit; decide +kernel
  · unfold levelsFit; decide +kernel
  · exact fun h => absurd (by decide +kernel) h

/-- ConvertCompletes: to 4-bit indices, three in a row, so that a nibble and two bytes of the row are padding. -/
theorem witness_convertCompletes_odd : readyToConvert (image 0x00004205 0x00404045 3 1 [255, 0, 0, 255, 0, 0, 255, 0x80, 1, 2, 3, 4]) := by
  refine readyToConvert_of (handlesFrom 2 33) ((handlesFrom 35 7).map some) (by decide +kernel) (by decide +kernel) ?_ ?_ (by decide +kernel)
    (by decide +kernel) (by decide +kernel) ?_ ?_ ?_ ?_
  · exact freshHandles_of (by decide +kernel) (by decide +kernel)
  · unfold MachineInv reservedClear statusOk; decide +kernel
  · intro t ht; revert ht; cases t <;> decide +kernel
  · unfold levelsFit; decide +kernel
  · unfold levelsFit; decide +kernel
  · unfold paddedFit; decide +kernel

/-- A level of 65532 by 65532 bytes of luminance, to DXT1: in the layout the target's DEPTH would give it fits no buffer. -/
def largeImage : State :=
  level 0 1 65532 65532 65532 65532 4294443024 (formats 0x00001084 0x01004102 1 { blank 2 with
    heap := ⟨⟨[⟨1, 4294443024, []⟩]⟩, (handlesFrom 2 40).map some, 0⟩ })

/-- ConvertCompletes: a raw level that only the blocks of a compressed target need fit. -/
theorem witness_convertCompletes_large : readyToConvert largeImage ∧ ¬ levelsFit largeImage.rawTgt largeImage
    ∧ ¬ levelsFit (stage1Format largeImage.tgtDesc) largeImage := by
  refine ⟨?_, by unfold levelsFit; decide +kernel, by unfold levelsFit; decide +kernel⟩
  refine readyToConvert_of (handlesFrom 2 33) ((handlesFrom 35 7).map some) (by decide +kernel) (by decide +kernel) ?_ ?_ (by decide +kernel)
    (by decide +kernel) (by decide +kernel) ?_ ?_ ?_ ?_
  · exact freshHandles_of (by decide +kernel) (by decide +kernel)
  · unfold MachineInv reservedClear statusOk; decide +kernel
  · intro t ht; revert ht; cases t <;> decide +kernel
  · exact fun h => absurd (by decide +kernel) h
  · exact fun h => absurd h (by decide +kernel)
  · unfold paddedFit; decide +kernel

/-- ConvertCompletes: an indexed image whose palette is kept, and a DXT1 image to DXT3, which stage 1 decodes and stage 3 encodes. -/
theorem witness_convertCompletes_repack :
    readyToConvert (indexed 0x00801085 0x00401085 [255, 0, 0, 255, 0, 0, 0, 0] 2 2 1 [0, 1])
    ∧ keepsPalette (indexed 0x00801085 0x00401085 [255, 0, 0, 255, 0, 0, 0, 0] 2 2 1 [0, 1])
    ∧ readyToConvert (dxt1Image 0x03004102 4 4 4 4 redBlue) := by
  refine ⟨?_, by unfold keepsPalette; decide +kernel, ?_⟩
  · refine readyToConvert_of (handlesFrom 3 33) ((handlesFrom 36 7).map some) (by decide +kernel) (by decide +kernel) ?_ ?_
      (by decide +kernel) (by decide +kernel) (by decide +kernel) ?_ ?_ ?_ ?_
    · exact freshHandles_of (by decide +kernel) (by decide +kernel)
    · unfold MachineInv reservedClear statusOk; decide +kernel
    · intro t ht; revert ht; cases t <;> decide +kernel
    · unfold levelsFit; decide +kernel
    · unfold levelsFit; decide +kernel
    · unfold paddedFit; decide +kernel
  · refine readyToConvert_of (handlesFrom 2 33) ((handlesFrom 35 7).map some) (by decide +kernel) (by decide +kernel) ?_ ?_
      (by decide +kernel) (by decide +kernel) (by decide +kernel) ?_ ?_ ?_ ?_
    · exact freshHandles_of (by decide +kernel) (by decide +kernel)
    · unfold MachineInv reservedClear statusOk; decide +kernel
    · intro t ht; revert ht; cases t <;> decide +kernel
    · unfold levelsFit; decide +kernel
    · unfold levelsFit; decide +kernel
    · unfold paddedFit; decide +kernel

/-- ConvertCompletes: an indexed target with a DEFAULT raster whose T' is the source, so that no stage runs. -/
theorem witness_convertCompletes_noStage :
    let s := { indexed 0x00801085 0x00801080 [255, 0, 0, 255, 0, 0, 0, 0] 2 2 1 [0, 1] with imgFlags := 3 }
    readyToConvert s ∧ someStageRuns s = false := by
  refine ⟨?_, by decide +kernel⟩
  refine readyToConvert_of (handlesFrom 3 33) ((handlesFrom 36 7).map some) (by decide +kernel) (by decide +kernel) ?_ ?_ (by decide +kernel)
    (by decide +kernel) (by decide +kernel) ?_ ?_ ?_ ?_
  · exact freshHandles_of (by decide +kernel) (by decide +kernel)
  · unfold MachineInv reservedClear statusOk; decide +kernel
  · intro t ht; revert ht; cases t <;> decide +kernel
  · unfold levelsFit; decide +kernel
  · unfold levelsFit; decide +kernel
  · unfold paddedFit; decide +kernel

/-- V-CONV-11: the palette's Alloc of stage 2 fails after stage 1. -/
def paletteFails : State :=
  { dxt1Image 0x00804085 4 4 4 4 redBlue with heap := ⟨(dxt1Image 0 4 4 4 4 redBlue).mem, [some 2, none], 0⟩ }

/-- ConvertErrors, StateAfterError: errors before any stage, in stage 1 (V-CONV-8) and in stage 2 (V-CONV-11), the premises met. -/
theorem witness_convertErrors :
    (levelsLive paletteFails ∧ paddedFit paletteFails ∧ paletteFails.mem.wf = true)
    ∧ after (exec .convert paletteFails) (fun t => decide (t.errField = 3 ∧ t.stageField = 2)) = true
    ∧ (levelsLive (dxt1Image 0x00004205 3 4 4 4 redBlue) ∧ paddedFit (dxt1Image 0x00004205 3 4 4 4 redBlue)
        ∧ (dxt1Image 0x00004205 3 4 4 4 redBlue).mem.wf = true)
    ∧ after (exec .convert (dxt1Image 0x00004205 3 4 4 4 redBlue)) (fun t => decide (t.errField = 2 ∧ t.stageField = 1)) = true
    ∧ after (exec .convert { conv1 0 with imgFlags := 0 }) (fun t => decide (t.errField = 5)) = true
    ∧ after (exec .convert (conv1 0x02004103)) (fun t => decide (t.errField = 1)) = true
    ∧ after (exec .negotiateAndConvert (negRow 0x06004102 2 0)) (fun t => decide (t.errField = 1)) = true := by
  unfold levelsLive paddedFit; decide +kernel

/-- ChangedFlag and TruncatedFlag: CHANGED and TRUNCATED at 0 and at 1 (V-CONV-2, V-CONV-1, V-CONV-7). -/
theorem witness_changedFlag :
    after (exec .convert (conv1 0x00004205)) (fun t => !t.changedFlag && !t.truncatedFlag) = true
    ∧ after (exec .convert (conv1 0x00104102)) (fun t => t.changedFlag && !t.truncatedFlag) = true
    ∧ after (exec .convert corruptMip1) (fun t => t.changedFlag && t.truncatedFlag) = true := by decide +kernel

/-- FailedStageLeavesNoTrace: each stage with an error. -/
theorem witness_failedStage :
    (stage1 (dxt1Image 0x00004205 3 4 4 4 redBlue) .dxt1 intermediate).error = some ⟨.corruptDataError, 1, some 0⟩
    ∧ (stage2 { conv1 0x00104102 with heap := ⟨(conv1 0).mem, [none], 0⟩ } (conv1 0x00104102).tgtDesc).error
        = some ⟨.allocationError, 2, some 0⟩
    ∧ (stage3 { conv1 0x01004102 with heap := ⟨(conv1 0).mem, [none], 0⟩ } .dxt1 (conv1 0x01004102).tgtDesc).error
        = some ⟨.allocationError, 3, some 0⟩ := by decide +kernel

/-- DecodeLevelTexels: the block of V-CONV-9 and a destination of 16 bytes in handle 2. -/
theorem witness_decodeLevel :
    let s := hold 2 (List.replicate 16 0) (dxt1Image 0x00001205 4 4 2 2 redBlue)
    firstRaise (blockMipChecks s .dxt1 0 1) = none ∧ s.tgtDesc.wf = true ∧ s.tgtDesc.comp = 0 ∧ s.tgtDesc.palMode = palNone
      ∧ 2 ≠ (s.mip 0).buf ∧ s.mem.inBounds 2 0 (s.tgtDesc.rawSize (s.lw 0) (s.lh 0)) = true := by decide +kernel

/-- RecodeLevelTexels and EncodeLevelBlocks: a direct and an indexed source, and a destination in handle 9. -/
theorem witness_recodeLevel :
    let s := hold 9 (List.replicate 16 0) (conv1 0x00104102)
    let p := hold 9 (List.replicate 16 0) (indexed 0x00801085 0x00004205 [255, 0, 0, 255, 0, 0, 0, 0] 2 2 1 [0, 1])
    firstRaise (headerChecks s) = none ∧ s.imgDesc.comp = 0 ∧ firstRaise (rawMipChecks s 0) = none ∧ s.tgtDesc.wf = true
      ∧ s.tgtDesc.comp = 0 ∧ s.tgtDesc.palMode = palNone ∧ 9 ≠ (s.mip 0).buf
      ∧ s.mem.inBounds 9 0 (s.tgtDesc.rawSize (s.lw 0) (s.lh 0)) = true
      ∧ s.mem.inBounds 9 0 (roundup (s.lw 0) 4 / 4 * (roundup (s.lh 0) 4 / 4) * blockBytes .dxt5) = true
      ∧ firstRaise (headerChecks p) = none ∧ p.imgDesc.comp = 0 ∧ firstRaise (rawMipChecks p 0) = none
      ∧ p.imgDesc.palMode ≠ palNone ∧ 9 ≠ p.palBuf ∧ 9 ≠ (p.mip 0).buf
      ∧ p.mem.inBounds 9 0 (p.tgtDesc.rawSize (p.lw 0) (p.lh 0)) = true := by decide +kernel

/-- RepackLevelIndices and IndexLevelIndices: to PAL4 at depths 4 and 8 and to PAL8, with a palette of two colours. -/
theorem witness_repackLevel :
    [0x00401045, 0x00401085, 0x00804085].all (fun tgt =>
      let s := hold 9 (List.replicate 16 0) (indexed 0x00801085 tgt [255, 0, 0, 255, 0, 0, 0, 0] 2 2 1 [0, 1])
      decide (firstRaise (headerChecks s) = none ∧ s.imgDesc.comp = 0 ∧ s.imgDesc.palMode ≠ palNone
        ∧ firstRaise (rawMipChecks s 0) = none ∧ s.tgtDesc.wf = true ∧ s.tgtDesc.comp = 0 ∧ s.tgtDesc.palMode ≠ palNone
        ∧ 9 ≠ (s.mip 0).buf ∧ 9 ≠ s.palBuf ∧ s.mem.inBounds 9 0 (s.tgtDesc.rawSize (s.lw 0) (s.lh 0)) = true
        ∧ 1 ≤ [Colour.none, ⟨1, 2, 3, 4⟩].length ∧ [Colour.none, ⟨1, 2, 3, 4⟩].length ≤ maxEntries s.tgtDesc.palMode)) = true := by
  decide +kernel

/-- RepackLevelIndices and IndexLevelIndices: a row of three 4-bit indices, padded to four bytes, whose last nibble is unused. -/
theorem witness_oddRow :
    let s := hold 9 [0xFF, 0xFF, 0xFF, 0xFF] (indexed 0x00801085 0x00404045 [255, 0, 0, 255, 0, 0, 0, 0] 2 3 1 [0, 1, 1])
    firstRaise (headerChecks s) = none ∧ s.imgDesc.comp = 0 ∧ s.imgDesc.palMode ≠ palNone ∧ firstRaise (rawMipChecks s 0) = none
      ∧ s.tgtDesc.wf = true ∧ s.tgtDesc.comp = 0 ∧ s.tgtDesc.palMode ≠ palNone ∧ s.tgtDesc.depth = 4 ∧ s.lw 0 % 2 = 1
      ∧ rowBytes (s.lw 0) 4 = 2 ∧ s.tgtDesc.pitch (s.lw 0) = 4 ∧ 9 ≠ (s.mip 0).buf ∧ 9 ≠ s.palBuf
      ∧ s.mem.inBounds 9 0 (s.tgtDesc.rawSize (s.lw 0) (s.lh 0)) = true := by decide +kernel

/-- RepackLevelIndices: a palette that stage 2 keeps, one it does not, and a target with none. -/
theorem witness_stage2Case :
    (let s := indexed 0x00801085 0x00401085 [255, 0, 0, 255, 0, 0, 0, 0] 2 2 1 [0, 1]
     s.imgDesc.palMode ≠ 0 ∧ s.imgDesc.raster = s.tgtDesc.raster ∧ s.imgDesc.order = s.tgtDesc.order ∧ s.palEntries ≤ 16
       ∧ s.tgtDesc.palMode = 1)
    ∧ (conv1 0x00804085).imgDesc.palMode = 0 ∧ (conv1 0x00804085).tgtDesc.palMode ≠ 0 ∧ (conv1 0x00104102).tgtDesc.palMode = 0 := by
  decide +kernel

/-- The image of V-PAL-1. -/
def pal1 : State := image 0x00004205 0x00401045 2 2 [255, 0, 0, 255, 255, 0, 0, 255, 0, 0, 255, 255, 0, 255, 0, 255]

/-- PaletteBound: the seed and the palette of V-PAL-1, and a case (c) that succeeds. -/
theorem witness_paletteBuilt : firstRaise (headerChecks pal1) = none ∧ pal1.imgDesc.comp = 0
    ∧ (∀ i, i < pal1.levels → firstRaise (rawMipChecks pal1 i) = none) ∧ pal1.tgtDesc.wf = true ∧ pal1.tgtDesc.comp = 0
    ∧ pal1.tgtDesc.palMode ≠ palNone ∧ (palettize pal1 pal1.tgtDesc).error = none
    ∧ paletteSeed pal1 = some [⟨255, 0, 0, 255⟩, ⟨255, 0, 0, 255⟩, ⟨0, 0, 255, 255⟩, ⟨0, 255, 0, 255⟩]
    ∧ (palettize pal1 pal1.tgtDesc).state.palEntries = 3 := by decide +kernel

/-- PaletteBound and LinearElimination: a seed with a repeat, that fits 2 entries and does not fit 1. -/
theorem witness_palette : [Colour.none, ⟨1, 2, 3, 4⟩, Colour.none] ≠ []
    ∧ (distinctColours [Colour.none, ⟨1, 2, 3, 4⟩, Colour.none]).length ≤ 2
    ∧ 1 < (distinctColours [Colour.none, ⟨1, 2, 3, 4⟩, Colour.none]).length
    ∧ Colour.none ∈ [⟨1, 2, 3, 4⟩, Colour.none] ∧ (⟨5, 5, 5, 5⟩ : Colour) ∉ [⟨1, 2, 3, 4⟩, Colour.none] := by decide +kernel

/-- NegotiateCommand: each branch of its case analysis (rows 10, 1, 7, 11 of V-NEG, and a palette of DEFAULT entries). -/
theorem witness_negotiate : (negRow 0x06004102 0 0).imgDesc.comp = 6 ∧ (negRow 0x01004102 0 0).imgDesc.comp.toNat = 1
    ∧ bit (negRow 0x01004102 0 0).caps 0 = false ∧ (negRow 0x00804085 1 0x1F).imgDesc.palMode ≠ 0
    ∧ bit (negRow 0x00804085 1 0x1F).caps 5 = false ∧ (negRow 0x00804085 1 0x1F).imgDesc.raster = 5
    ∧ (negRow 0x00804080 1 0x1F).imgDesc.raster = 0 ∧ (negRow 0x00004205 0 0).imgDesc.palMode = 0
    ∧ (negRow 0x00C04085 0 0).imgDesc.palMode = 3 := by decide +kernel

/-- The negotiation answers this descriptor word. -/
def negotiatesTo (s : State) (w : Word) : Bool :=
  match negotiateDesc s.imgDesc s.hasAlpha s.caps with
  | .ok T => decide (T.toWord = w)
  | .error _ => false

/-- NegotiateIdempotent and NegotiateThenConvert: a negotiation that answers, one that fails, and an owned identity. -/
theorem witness_negotiateThenConvert : negotiatesTo (negRow 0x01204102 0 0) 0x00104102 = true
    ∧ negotiatesTo (negRow 0x06004102 0 0) 0x06004102 = false ∧ negotiatesTo (conv1 0) 0x00004205 = true
    ∧ (conv1 0).isStandalone = true := by decide +kernel

/-- NegotiateAndConvertCompletes: the DXT1 image of P3, negotiated to 565. -/
theorem witness_negotiateAndConvertCompletes :
    negotiatesTo (dxt1Image 0 4 4 4 4 redBlue) 0x00004102 = true ∧ MachineInv (dxt1Image 0 4 4 4 4 redBlue)
      ∧ readyToConvert ((dxt1Image 0 4 4 4 4 redBlue).setTgtFmt 0x00004102) := by
  refine ⟨by decide +kernel, by unfold MachineInv reservedClear statusOk; decide +kernel, ?_⟩
  refine readyToConvert_of (handlesFrom 2 33) ((handlesFrom 35 7).map some) (by decide +kernel) (by decide +kernel) ?_ ?_ (by decide +kernel)
    (by decide +kernel) (by decide +kernel) ?_ ?_ ?_ ?_
  · exact freshHandles_of (by decide +kernel) (by decide +kernel)
  · unfold MachineInv reservedClear statusOk; decide +kernel
  · intro t ht; revert ht; cases t <;> decide +kernel
  · unfold levelsFit; decide +kernel
  · unfold levelsFit; decide +kernel
  · unfold paddedFit; decide +kernel

/-- ReleaseCommand: owned, acquired, and its errors: a MIP_COUNT above 16, two levels with one handle, a dead handle. -/
theorem witness_release : firstRaise (releaseChecks (conv1 0)) = none
    ∧ firstRaise (releaseChecks { conv1 0 with imgFlags := 6 }) = none
    ∧ firstRaise (releaseChecks { conv1 0 with mipCount := 16 }) = none
    ∧ firstRaise (releaseChecks { conv1 0 with mipCount := 17 }) = some ⟨.formatError, 0, none⟩
    ∧ firstRaise (releaseChecks (formats 0x00004205 0 2 (level 1 1 1 1 1 1 4 (conv1 0)))) = some ⟨.formatError, 0, none⟩
    ∧ firstRaise (releaseChecks (level 0 7 1 1 1 1 4 (conv1 0))) = some ⟨.boundsError, 0, none⟩ := by decide +kernel

/-- RegisterFrame, ResultRegisters, ImageFlags, BufferFrame, StateAfterError, CapsUnread: every command answers a next state on
one and the same state. -/
theorem witness_frames :
    [Instr.resolveIndex, .fetchColor, .storeColor, .decodeBlockDxt1, .decodeBlockDxt2, .decodeBlockDxt3, .decodeBlockDxt4,
      .decodeBlockDxt5, .encodeBlockDxt1, .encodeBlockDxt2, .encodeBlockDxt3, .encodeBlockDxt4, .encodeBlockDxt5, .alphaScan,
      .convert, .negotiate, .negotiateAndConvert, .release].all
      (fun i => after (exec i (withArgs 1 0 0 0 (conv1 0x00104102))) (fun _ => true)) = true
    ∧ (conv1 0).mem.live 1 = true ∧ (1 : Word) ∈ (conv1 0).imageHandles
    ∧ (hold 9 [5] (conv1 0)).mem.live 9 = true ∧ (9 : Word) ∉ (hold 9 [5] (conv1 0)).imageHandles
    ∧ after (exec .fetchColor (withArgs 1 0 0 0 (conv1 0))) (fun t => decide (t.errField ≠ 0)) = true := by decide +kernel

/-- StatusFields: an error at the ends of its stage and of its level. -/
theorem witness_statusFields : (⟨.boundsError, 4, some 15⟩ : Raise).stage ≤ 4
    ∧ (∀ k, (⟨.boundsError, 4, some 15⟩ : Raise).mip = some k → k < 16) := by
  refine ⟨by decide, fun k hk => ?_⟩; simp only [Option.some.injEq] at hk; omega

end Sys2Proof.Tests
end

section
/-! The obligations on buffer space (spec/20_memory.md R90 to R94): what Alloc and Free do to the store, and the checked
little-endian accesses. -/

namespace Sys2Proof.Machine

/-! ### Alloc and Free -/

theorem live_insert {m : Memory} {h : Word} (n : Nat) (hl : m.live h = false) : (m.insert h n).live h = true := by
  simp [Memory.live, find_insert hl]

/-- A new buffer holds zeros (20_memory R91). -/
theorem byte?_insert {m : Memory} {h : Word} {n j : Nat} (hl : m.live h = false) (hj : j < n) :
    (m.insert h n).byte? h j = some 0 := by
  simp [Memory.byte?, find_insert hl, hj, readCell]

theorem sameBuffer_of_find {s t : State} {g : Word} (hf : t.mem.find g = s.mem.find g) : sameBuffer s t g :=
  ⟨len?_congr hf, byte?_congr hf⟩

theorem alloc_some_store {s t : State} {n : Nat} {h : Word} (ha : s.alloc n = (t, some h)) :
    s.mem.live h = false ∧ h ≠ 0 ∧ t.mem = s.mem.insert h n := by
  obtain ⟨hadm, rfl⟩ := alloc_some ha
  obtain ⟨h0, hl, -⟩ := admits_iff.1 hadm
  exact ⟨hl, h0, rfl⟩

/-- Settles O13: an Alloc inserts a zero buffer at a fresh handle or leaves the store, and Free takes the listed handles out. -/
theorem allocAndFree : Obligations.AllocAndFree := by
  refine ⟨fun s t n h ha => ?_, fun s t n ha => ?_, fun s n h rest hans h0 hl hn => ?_, fun s hs h => ⟨fun hh => ?_, fun hh => ?_⟩⟩
  · obtain ⟨hl, h0, hm⟩ := alloc_some_store ha
    refine ⟨hl, h0, ?_, ?_, fun j hj => ?_, fun g hg => sameBuffer_of_find ?_⟩ <;> rw [hm]
    · exact live_insert n hl
    · exact len?_insert n hl
    · exact byte?_insert hl hj
    · rw [find_insert hl, if_neg hg]
  · exact fun g => sameBuffer_of_find (by rw [(alloc_none ha).2])
  · exact ⟨_, alloc_ready hans (admits_iff.2 ⟨h0, hl, hn⟩), rfl⟩
  · simp [Memory.live, find_freeAll, hh]
  · exact sameBuffer_of_find (by rw [State.freeAll_mem, find_freeAll, if_neg hh])

/-! ### Checked little-endian accesses -/

theorem inBounds_iff_len? {m : Memory} {h : Word} {off n : Nat} :
    m.inBounds h off n = true ↔ ∃ l, m.len? h = some l ∧ off + n ≤ l := by
  simp [inBounds_iff, Memory.len?]

theorem read_isSome (m : Memory) (h : Word) (off n : Nat) : (m.read h off n).isSome = m.inBounds h off n := by
  rw [Memory.read, Option.isSome_map, readBytes_isSome]

theorem write_isSome (m : Memory) (h : Word) (off n v : Nat) : (m.write h off n v).isSome = m.inBounds h off n := by
  rw [Bool.eq_iff_iff, Option.isSome_iff_exists]
  simp [write_eq_some]

/-- The byte at each address of a read. -/
theorem byte?_of_readBytes {m : Memory} {h : Word} {off n i : Nat} {bs : List Byte} (hr : m.readBytes h off n = some bs)
    (hi : i < n) : m.byte? h (off + i) = some (bs.getD i 0) := by
  have hb : m.inBounds h off n = true := by rw [← readBytes_isSome, hr]; rfl
  obtain ⟨b, hf, hl⟩ := inBounds_iff.1 hb
  rw [readBytes_eq hf hl, Option.some.injEq] at hr
  subst hr
  simp [Memory.byte?, hf, hi, show off + i < b.len by omega]

theorem shiftRight_bytes_succ (v i : Nat) : v >>> (8 * (i + 1)) = (v / 2 ^ 8) >>> (8 * i) := by
  rw [← Nat.shiftRight_eq_div_pow, ← Nat.shiftRight_add, Nat.mul_succ, Nat.add_comm]

/-- Byte i of a little-endian value is its bits from 8·i up (00_scope R15). -/
theorem getD_eq_leValue_shiftRight {bs : List Byte} {i : Nat} (hi : i < bs.length) :
    bs.getD i 0 = BitVec.ofNat 8 (leValue bs >>> (8 * i)) := by
  induction bs generalizing i with
  | nil => simp at hi
  | cons b bs ih =>
    cases i with
    | zero => simp [leValue, BitVec.ofNat_add, BitVec.ofNat_mul]
    | succ i =>
      rw [List.getD_cons_succ, ih (Nat.lt_of_succ_lt_succ hi), shiftRight_bytes_succ, leValue,
        Nat.add_mul_div_left _ _ (by decide), Nat.div_eq_of_lt b.isLt, Nat.zero_add]

/-- Byte i of the bytes of a value is its bits from 8·i up (00_scope R15). -/
theorem leBytes_getD {n i : Nat} (v : Nat) (hi : i < n) : (leBytes n v).getD i 0 = BitVec.ofNat 8 (v >>> (8 * i)) := by
  induction n generalizing v i with
  | zero => omega
  | succ n ih =>
    cases i with
    | zero => rfl
    | succ i => rw [leBytes, List.getD_cons_succ, ih _ (Nat.lt_of_succ_lt_succ hi), shiftRight_bytes_succ]

theorem read_eq_some {m : Memory} {h : Word} {off n a : Nat} :
    m.read h off n = some a ↔ ∃ bs, m.readBytes h off n = some bs ∧ leValue bs = a := by
  simp [Memory.read]

/-- What a read that succeeds gives: the little-endian value of the bytes at its addresses. -/
theorem read_bytes {m : Memory} {h : Word} {off n a : Nat} (hr : m.read h off n = some a) :
    a < 2 ^ (8 * n) ∧ ∀ i, i < n → m.byte? h (off + i) = some (BitVec.ofNat 8 (a >>> (8 * i))) := by
  obtain ⟨bs, hbs, rfl⟩ := read_eq_some.1 hr
  have hlen := readBytes_length hbs
  refine ⟨hlen ▸ leValue_lt bs, fun i hi => ?_⟩
  rw [byte?_of_readBytes hbs hi, getD_eq_leValue_shiftRight (hlen ▸ hi)]

/-- A byte read where a value was written. -/
theorem byte?_put_leBytes {m : Memory} {h : Word} {off n i : Nat} (v : Nat) (hb : m.inBounds h off n = true) (hi : i < n) :
    (m.put h off (leBytes n v)).byte? h (off + i) = some (BitVec.ofNat 8 (v >>> (8 * i))) := by
  have hr := readBytes_put_same (bs := leBytes n v) (by rwa [leBytes_length])
  rw [leBytes_length] at hr
  rw [byte?_of_readBytes hr hi, leBytes_getD v hi]

/-- Settles O14: reads and writes succeed exactly in bounds, and move the bytes of the little-endian value. -/
theorem memoryAccess : Obligations.MemoryAccess := by
  intro m h off n v
  refine ⟨inBounds_iff_len?, read_isSome m h off n, write_isSome m h off n v, fun a hr => read_bytes hr, fun m' hw => ?_⟩
  obtain ⟨hb, rfl⟩ := write_eq_some.1 hw
  refine ⟨read_put_same v hb, fun i hi => byte?_put_leBytes v hb hi, fun g j hj => ?_, len?_put m h off _⟩
  rw [byte?_put, if_neg (by rwa [leBytes_length])]

end Sys2Proof.Machine
end

section
/-! The obligations on the block compressor (spec/00_scope.md R12, spec/41_block_codec.md R209): its length, and that a uniform
opaque colour which 565 can hold survives it, alone and through ENCODE_BLOCK and DECODE_BLOCK (R220, R221). -/

namespace Sys2Proof.Machine

/-! ### 565 colours found again -/

/-- `unexpand` finds some value that expands to the same; that it is the same value is not needed. -/
theorem unexpand_expand {v w : Nat} (hv : v < 2 ^ w) :
    ∃ u, u < 2 ^ w ∧ unexpand (expand v w) w = some u ∧ expand u w = expand v w := by
  have hsome : (unexpand (expand v w) w).isSome := by
    rw [unexpand, List.find?_isSome]
    exact ⟨v, List.mem_range.2 hv, by simp⟩
  obtain ⟨u, hu⟩ := Option.isSome_iff_exists.1 hsome
  exact ⟨u, List.mem_range.1 (List.mem_of_find?_eq_some hu), hu, by simpa using List.find?_some hu⟩

theorem expand_lt {v w : Nat} (hw : 0 < w) (hv : v < 2 ^ w) : expand v w < 256 := by
  have h2 : 2 ^ 1 ≤ 2 ^ w := Nat.pow_le_pow_right (by decide) hw
  have hle : v * 255 ≤ 255 * (2 ^ w - 1) := by rw [Nat.mul_comm]; exact Nat.mul_le_mul_left _ (by omega)
  exact Nat.lt_succ_of_le (Nat.div_le_of_le_mul (by rwa [Nat.mul_comm (2 ^ w - 1)]))

theorem expand565_fields {x y z : Nat} (hx : x < 2 ^ 5) (hy : y < 2 ^ 6) (hz : z < 2 ^ 5) :
    expand565 (x * 2 ^ 11 + y * 2 ^ 5 + z) = (expand x 5, expand y 6, expand z 5) := by
  have ex : (x * 2 ^ 11 + y * 2 ^ 5 + z) / 2 ^ 11 % 2 ^ 5 = x := by omega
  have ey : (x * 2 ^ 11 + y * 2 ^ 5 + z) / 2 ^ 5 % 2 ^ 6 = y := by omega
  have ez : (x * 2 ^ 11 + y * 2 ^ 5 + z) % 2 ^ 5 = z := by omega
  rw [expand565, ex, ey, ez]

/-- A channel of a 565 colour is kept by the 8 bits it is stored in. -/
theorem toNat_ofNat_expand {v w : Nat} (hw : 0 < w) (hv : v < 2 ^ w) : (BitVec.ofNat 8 (expand v w)).toNat = expand v w := by
  rw [BitVec.toNat_ofNat, Nat.mod_eq_of_lt (expand_lt hw hv)]

theorem unexpand565_opaque (c : Nat) :
    ∃ d, d < 2 ^ 16 ∧ expand565 d = expand565 c
      ∧ unexpand565 (opaqueColour (expand565 c)).r.toNat (opaqueColour (expand565 c)).g.toNat
          (opaqueColour (expand565 c)).b.toNat = some d := by
  have hr : c / 2 ^ 11 % 2 ^ 5 < 2 ^ 5 := Nat.mod_lt _ (by decide)
  have hg : c / 2 ^ 5 % 2 ^ 6 < 2 ^ 6 := Nat.mod_lt _ (by decide)
  have hb : c % 2 ^ 5 < 2 ^ 5 := Nat.mod_lt _ (by decide)
  obtain ⟨x, hx, ux, ex⟩ := unexpand_expand hr
  obtain ⟨y, hy, uy, ey⟩ := unexpand_expand hg
  obtain ⟨z, hz, uz, ez⟩ := unexpand_expand hb
  refine ⟨x * 2 ^ 11 + y * 2 ^ 5 + z, by omega, ?_, ?_⟩
  · rw [expand565_fields hx hy hz, ex, ey, ez, expand565]
  · simp only [opaqueColour, expand565, toNat_ofNat_expand (by decide : 0 < 5) hr, toNat_ofNat_expand (by decide : 0 < 6) hg,
      toNat_ofNat_expand (by decide : 0 < 5) hb, unexpand565, ux, uy, uz]

/-- The grid of sixteen texels of one opaque 565 colour. -/
def uniformGrid (c : Nat) : List Colour := List.replicate 16 (opaqueColour (expand565 c))

theorem uniform565_uniformGrid (c : Nat) :
    ∃ d, d < 2 ^ 16 ∧ uniformGrid d = uniformGrid c ∧ uniform565 (uniformGrid c) = some d := by
  obtain ⟨d, hd, he, hu⟩ := unexpand565_opaque c
  refine ⟨d, hd, by rw [uniformGrid, he, uniformGrid], ?_⟩
  rw [← hu, uniformGrid, List.replicate_succ, uniform565, if_pos]
  simp [opaqueColour]

/-! ### The block of one colour -/

theorem blockField_append (pre mid post : List Byte) :
    blockField (pre ++ (mid ++ post)) pre.length mid.length = leValue mid := by
  rw [blockField]
  congr 1
  apply List.ext_getElem
  · simp
  · intro i h1 h2
    simp [List.getElem?_append, h2]

theorem solidBlock_eq (ty : BlockType) (d : Nat) :
    solidBlock ty d = solidAlpha ty ++ (leBytes 2 d ++ (leBytes 2 d ++ [0, 0, 0, 0])) := by
  simp [solidBlock]

theorem colourOffset_eq (ty : BlockType) : colourOffset ty = (solidAlpha ty).length := by cases ty <;> rfl

theorem paletteEntry_same_zero (ty : BlockType) (d : Nat) : paletteEntry ty d d 0 = opaqueColour (expand565 d) := by
  unfold paletteEntry; split <;> rfl

/-- Both endpoints of the block are its colour, and every code is 0 (41_block_codec R201). -/
theorem blockColour_solidBlock (ty : BlockType) {d : Nat} (hd : d < 2 ^ 16) (t : Nat) :
    blockColour ty (solidBlock ty d) (colourOffset ty) t = opaqueColour (expand565 d) := by
  have h0 : blockField (solidBlock ty d) (colourOffset ty) 2 = d := by
    have := blockField_append (solidAlpha ty) (leBytes 2 d) (leBytes 2 d ++ [0, 0, 0, 0])
    rwa [← solidBlock_eq, leValue_leBytes, leBytes_length, Nat.mod_eq_of_lt hd, ← colourOffset_eq] at this
  have h2 : blockField (solidBlock ty d) (colourOffset ty + 2) 2 = d := by
    have := blockField_append (solidAlpha ty ++ leBytes 2 d) (leBytes 2 d) [0, 0, 0, 0]
    rw [leValue_leBytes, List.length_append, leBytes_length, Nat.mod_eq_of_lt hd, ← colourOffset_eq] at this
    simpa [solidBlock] using this
  have h4 : blockField (solidBlock ty d) (colourOffset ty + 4) 4 = 0 := by
    have := blockField_append (solidAlpha ty ++ leBytes 2 d ++ leBytes 2 d) [0, 0, 0, 0] []
    rw [List.length_append, List.length_append, leBytes_length, ← colourOffset_eq] at this
    simpa [solidBlock, leValue] using this
  rw [blockColour, h0, h2, h4, Nat.zero_shiftRight, Nat.zero_mod, paletteEntry_same_zero]

theorem explicitAlpha_solid (post : List Byte) {t : Nat} (ht : t < 16) :
    explicitAlpha ([255, 255, 255, 255, 255, 255, 255, 255] ++ post) t = 255 := by
  have hf : blockField ([255, 255, 255, 255, 255, 255, 255, 255] ++ post) 0 8 = 2 ^ 64 - 1 :=
    blockField_append [] [255, 255, 255, 255, 255, 255, 255, 255] post
  have hn : ∀ t < 16, (2 ^ 64 - 1) >>> (4 * t) % 16 = 15 := by decide
  rw [explicitAlpha, hf, hn t ht]

theorem rampAlpha_solid (rule : AlphaRampRule) (post : List Byte) (t : Nat) :
    rampAlpha rule ([255, 255, 0, 0, 0, 0, 0, 0] ++ post) t = 255 := by
  have hf : blockField ([255, 255, 0, 0, 0, 0, 0, 0] ++ post) 2 6 = 0 :=
    blockField_append [255, 255] [0, 0, 0, 0, 0, 0] post
  rw [rampAlpha, hf, Nat.zero_shiftRight]
  cases rule <;> rfl

/-- Every texel of the block of one colour is that colour, opaque. -/
theorem decodeTexel_solidBlock (rule : AlphaRampRule) (ty : BlockType) {d t : Nat} (hd : d < 2 ^ 16) (ht : t < 16) :
    decodeTexel rule ty (solidBlock ty d) t = opaqueColour (expand565 d) := by
  have hc := blockColour_solidBlock ty hd t
  have hB := solidBlock_eq ty d
  cases ty with
  | dxt1 => exact hc
  | dxt2 | dxt3 =>
    have ha : explicitAlpha (solidBlock _ d) t = 255 := hB ▸ explicitAlpha_solid _ ht
    rw [decodeTexel, ha]
    exact congrArg (fun c : Colour => { c with a := 255 }) hc
  | dxt4 | dxt5 =>
    have ha : rampAlpha rule (solidBlock _ d) t = 255 := hB ▸ rampAlpha_solid rule _ t
    rw [decodeTexel, ha]
    exact congrArg (fun c : Colour => { c with a := 255 }) hc

theorem decodeBlock_solidBlock (rule : AlphaRampRule) (ty : BlockType) {d : Nat} (hd : d < 2 ^ 16) :
    decodeBlock rule ty (solidBlock ty d) = uniformGrid d := by
  rw [decodeBlock, uniformGrid, List.eq_replicate_iff]
  refine ⟨by simp, fun b hb => ?_⟩
  obtain ⟨t, ht, rfl⟩ := List.mem_map.1 hb
  exact decodeTexel_solidBlock rule ty hd (List.mem_range.1 ht)

/-! ### The compressor -/

/-- A uniform opaque 565 grid decodes back exactly: the raw answer does, or the block of that colour stands for it
(P2 of 00_scope R12). -/
theorem decodeBlock_compress_uniformGrid (rule : AlphaRampRule) (ty : BlockType) (c : Nat) :
    decodeBlock rule ty (compress rule ty (uniformGrid c)) = uniformGrid c := by
  obtain ⟨d, hd, hg, hu⟩ := uniform565_uniformGrid c
  simp only [compress, hu]
  split
  · assumption
  · rw [decodeBlock_solidBlock rule ty hd, hg]

/-- Settles O28: P1 is the length of every answer, P2 the uniform grid decoded back. -/
theorem compressorProperties : Obligations.CompressorProperties := by
  intro rule ty grid hty
  refine ⟨?_, fun c _ hgrid => ?_⟩
  · rw [compress_length]
    rcases hty with rfl | rfl | rfl <;> rfl
  · rw [hgrid]
    exact decodeBlock_compress_uniformGrid rule ty c

/-! ### ENCODE_BLOCK, then DECODE_BLOCK -/

theorem extractLsb'_append_above {w : Nat} (hi : BitVec w) (lo : Byte) (k : Nat) :
    (hi ++ lo).extractLsb' (8 + k) 8 = hi.extractLsb' k 8 := by
  rw [BitVec.extractLsb'_append_eq_of_le (Nat.le_add_right 8 k), Nat.add_sub_cancel_left]

/-- Unpack undoes pack: each extraction drops the channels below its own (00_scope R17). -/
theorem unpackColour_packColour (c : Colour) : unpackColour (packColour c) = c := by
  obtain ⟨r, g, b, a⟩ := c
  have below_r := extractLsb'_append_above (a ++ b ++ g) r
  have below_g := extractLsb'_append_above (a ++ b) g
  rw [unpackColour, Colour.mk.injEq]
  refine ⟨?_, ?_, ?_, ?_⟩
  · exact BitVec.extractLsb'_append_eq_right
  · exact (below_r 0).trans BitVec.extractLsb'_append_eq_right
  · exact (below_r 8).trans ((below_g 0).trans BitVec.extractLsb'_append_eq_right)
  · exact (below_r 16).trans ((below_g 8).trans BitVec.extractLsb'_append_eq_left)

/-- ENCODE_BLOCK with room for the block writes the compressor's bytes (41_block_codec R221). -/
theorem exec_encodeBlockInstr_of_inBounds {ty : BlockType} {s : State} (hty : ty = .dxt1 ∨ ty = .dxt3 ∨ ty = .dxt5)
    (hb : s.mem.inBounds s.args[0] s.args[1].toNat (blockBytes ty) = true) :
    exec (encodeBlockInstr ty) s
      = .next ((s.setMem (s.mem.put s.args[0] s.args[1].toNat (compress s.alphaRampRule ty s.tbGrid))).complete 0x05
          false false) := by
  have hexec : exec (encodeBlockInstr ty) s = .next (s.finish 0x05 (encodeBlockAt ty s)) := by
    rcases hty with rfl | rfl | rfl <;> rfl
  rw [hexec, encodeBlockAt, if_pos hb, State.finish]

/-- DECODE_BLOCK of the bytes its read finds (41_block_codec R220). -/
theorem exec_decodeBlockInstr_of_readBytes {ty : BlockType} {s : State} {B : List Byte}
    (hr : s.mem.readBytes s.args[0] s.args[1].toNat (blockBytes ty) = some B) :
    exec (decodeBlockInstr ty) s
      = .next ((s.setTb (tbOf (fun t => packColour (decodeTexel s.alphaRampRule ty B t)))).complete 0x04 false false) := by
  have hexec : exec (decodeBlockInstr ty) s = .next (s.finish 0x04 (decodeBlockAt ty s)) := by cases ty <;> rfl
  have hat : decodeBlockAt ty s = .ok (s.setTb (tbOf (fun t => packColour (decodeTexel s.alphaRampRule ty B t)))) := by
    simp only [decodeBlockAt, hr]
  rw [hexec, hat, State.finish]

theorem complete_errField (s : State) (opc : Byte) (changed truncated : Bool) :
    (s.complete opc changed truncated).errField = 0 := by
  have h := (status_parts (BitVec.ofNat 5 0) (BitVec.ofNat 4 0) opc truncated changed (BitVec.ofNat 4 0)).1
  exact congrArg BitVec.toNat h

theorem tbReg_eq (s : State) (t : Fin 16) : s.tbReg t = s.tb[t] := by
  simp [State.tbReg]

theorem tbOf_eq {v : Vector Word 16} {f : Nat → Word} (h : ∀ t : Fin 16, v[t] = f t) : tbOf f = v := by
  apply Vector.ext
  intro i hi
  have hf := tbOf_get f hi
  rw [Vector.getElem?_eq_getElem hi, Option.getD_some] at hf
  rw [hf]
  exact (h ⟨i, hi⟩).symm

theorem tbGrid_eq_uniformGrid {s : State} {c : Nat} (h : ∀ t : Fin 16, s.tb[t] = packColour (opaqueColour (expand565 c))) :
    s.tbGrid = uniformGrid c := by
  rw [State.tbGrid, uniformGrid, List.eq_replicate_iff]
  refine ⟨by simp, fun b hb => ?_⟩
  obtain ⟨t, ht, rfl⟩ := List.mem_map.1 hb
  have e := (tbReg_eq s ⟨t, List.mem_range.1 ht⟩).trans (h _)
  exact (congrArg unpackColour e).trans (unpackColour_packColour _)

theorem decodeTexel_of_decodeBlock {rule : AlphaRampRule} {ty : BlockType} {B : List Byte} {c t : Nat}
    (h : decodeBlock rule ty B = uniformGrid c) (ht : t < 16) : decodeTexel rule ty B t = opaqueColour (expand565 c) := by
  have hmem : decodeTexel rule ty B t ∈ decodeBlock rule ty B := List.mem_map.2 ⟨t, List.mem_range.2 ht, rfl⟩
  rw [h] at hmem
  exact List.eq_of_mem_replicate hmem

theorem inBounds_of_tooShort {m : Memory} {h : Word} {off n : Nat} (hs : m.tooShort h (off + n) = false) :
    m.inBounds h off n = true := inBounds_mono (tooShort_false.1 hs) (by omega)

/-- The block read where the compressor's answer was written (20_memory R93). -/
theorem readBytes_put_compress {m : Memory} {h : Word} {off : Nat} {ty : BlockType} (rule : AlphaRampRule)
    (grid : List Colour) (hb : m.inBounds h off (blockBytes ty) = true) :
    (m.put h off (compress rule ty grid)).readBytes h off (blockBytes ty) = some (compress rule ty grid) := by
  have hlen := compress_length rule ty grid
  rw [← hlen] at hb ⊢
  exact readBytes_put_same hb

/-- Settles O29: the block written is the block read, and it decodes to the grid it came from. -/
theorem encodeThenDecode : Obligations.EncodeThenDecode := by
  intro ty s c hty _ htb hroom
  have hb := inBounds_of_tooShort hroom
  have hdec : decodeBlock s.alphaRampRule ty (compress s.alphaRampRule ty s.tbGrid) = uniformGrid c := by
    rw [tbGrid_eq_uniformGrid htb, decodeBlock_compress_uniformGrid]
  refine ⟨_, _, exec_encodeBlockInstr_of_inBounds hty hb,
    exec_decodeBlockInstr_of_readBytes (readBytes_put_compress s.alphaRampRule s.tbGrid hb),
    complete_errField .., complete_errField .., ?_⟩
  rw [State.complete_tb, State.setTb_tb]
  exact tbOf_eq fun i => (htb i).trans (congrArg packColour (decodeTexel_of_decodeBlock hdec i.isLt).symm)

end Sys2Proof.Machine
end

section
/-! The obligation on the fields of STATUS (spec/10_state.md R33, spec/60_exceptions.md R350, R352): the two ends a command has,
and that STATUS then reads as the invariant says. -/

namespace Sys2Proof.Machine

/-! ### The fields of the word a command writes -/

/-- The fields of a STATUS word, its reserved bits included. -/
theorem statusWord_fields (opc : Byte) (err : Option Raise) (changed truncated : Bool) :
    let w := statusWord opc err changed truncated
    bits w 0 4 = (errFields err).1 % 2 ^ 4 ∧ bits w 8 8 = opc.toNat ∧ bits w 16 4 = (errFields err).2.1 % 2 ^ 4
      ∧ bits w 20 5 = (errFields err).2.2 % 2 ^ 5 ∧ bit w 4 = changed ∧ bit w 5 = truncated ∧ w &&& 0xFE0000C0 = 0 := by
  obtain ⟨herr, hopc, hstage, hmip, hchanged, htruncated, hreserved⟩ :=
    status_parts (BitVec.ofNat 5 (errFields err).2.2) (BitVec.ofNat 4 (errFields err).2.1) opc truncated changed
      (BitVec.ofNat 4 (errFields err).1)
  exact ⟨(congrArg BitVec.toNat herr).trans (BitVec.toNat_ofNat ..), congrArg BitVec.toNat hopc,
    (congrArg BitVec.toNat hstage).trans (BitVec.toNat_ofNat ..), (congrArg BitVec.toNat hmip).trans (BitVec.toNat_ofNat ..),
    hchanged, htruncated, hreserved⟩

/-- The stage and the level an error names fit their fields of STATUS (10_state R33). -/
def Raise.Fits (e : Raise) : Prop := e.stage ≤ 4 ∧ ∀ k, e.mip = some k → k < 16

theorem Raise.Fits.mip_cases {e : Raise} (h : e.Fits) : e.mip.getD 31 < 16 ∨ e.mip.getD 31 = 31 := by
  cases hm : e.mip with
  | none => exact .inr rfl
  | some k => exact .inl (h.2 k hm)

theorem ErrCode.num_pos (c : ErrCode) : 1 ≤ c.num := by cases c <;> decide

theorem ErrCode.num_le (c : ErrCode) : c.num ≤ 6 := by cases c <;> decide

theorem complete_fields (s : State) (opc : Byte) (changed truncated : Bool) :
    let t := s.complete opc changed truncated
    t.errField = 0 ∧ t.opcReported = opc.toNat ∧ t.stageField = 0 ∧ t.mipField = 0 ∧ t.changedFlag = changed
      ∧ t.truncatedFlag = truncated ∧ t.status &&& 0xFE0000C0 = 0 :=
  statusWord_fields opc none changed truncated

theorem raiseError_fields (s : State) (opc : Byte) {e : Raise} (truncated : Bool) (he : e.Fits) :
    let t := s.raiseError opc e truncated
    t.errField = e.code.num ∧ t.opcReported = opc.toNat ∧ t.stageField = e.stage ∧ t.mipField = e.mip.getD 31
      ∧ t.changedFlag = false ∧ t.truncatedFlag = truncated ∧ t.status &&& 0xFE0000C0 = 0 := by
  obtain ⟨herr, hopc, hstage, hmip, hrest⟩ := statusWord_fields opc (some e) false truncated
  have hcode := e.code.num_le
  have hst := he.1
  have hm := he.mip_cases
  exact ⟨herr.trans (Nat.mod_eq_of_lt (by simp only [errFields]; omega)), hopc,
    hstage.trans (Nat.mod_eq_of_lt (by simp only [errFields]; omega)),
    hmip.trans (Nat.mod_eq_of_lt (by simp only [errFields]; omega)), hrest⟩

/-- Settles O56: the word's parts read back, each field of an error within its width. -/
theorem statusFields : Obligations.StatusFields := by
  intro s opc changed truncated
  refine ⟨complete_fields s opc changed truncated, fun e hstage hmip => ?_⟩
  obtain ⟨herr, hrest⟩ := raiseError_fields s opc truncated ⟨hstage, hmip⟩
  exact ⟨herr.trans (by cases e.code <;> rfl), hrest⟩

/-! ### STATUS as its table says, and OPC after every end -/

theorem raiseError_opcReported (s : State) (opc : Byte) (e : Raise) (truncated : Bool) :
    (s.raiseError opc e truncated).opcReported = opc.toNat := (statusWord_fields opc (some e) false truncated).2.1

theorem statusOk_complete (s : State) {opc : Byte} {changed truncated : Bool}
    (hopc : changed = true ∨ truncated = true → opc = 7 ∨ opc = 9) : statusOk (s.complete opc changed truncated) := by
  obtain ⟨herr, ho, hstage, hmip, hchanged, htruncated, hreserved⟩ := complete_fields s opc changed truncated
  refine ⟨hreserved, by omega, fun _ => ⟨hstage, hmip⟩, fun h => absurd herr h, fun h => ?_⟩
  rw [hchanged, htruncated] at h
  rw [ho]
  exact (hopc h).imp (congrArg BitVec.toNat) (congrArg BitVec.toNat)

theorem statusOk_raiseError (s : State) {opc : Byte} {e : Raise} {truncated : Bool} (he : e.Fits)
    (hopc : truncated = true → opc = 7 ∨ opc = 9) : statusOk (s.raiseError opc e truncated) := by
  obtain ⟨herr, ho, hstage, hmip, hchanged, htruncated, hreserved⟩ := raiseError_fields s opc truncated he
  have hpos := e.code.num_pos
  refine ⟨hreserved, herr ▸ e.code.num_le, fun h => by omega, fun _ => ⟨hchanged, hstage ▸ he.1, hmip ▸ he.mip_cases⟩,
    fun h => ?_⟩
  rw [hchanged, htruncated] at h
  rw [ho]
  exact (hopc (h.resolve_left Bool.false_ne_true)).imp (congrArg BitVec.toNat) (congrArg BitVec.toNat)

end Sys2Proof.Machine
end

section
/-! What a command can do, said once for all eighteen (spec/30_encoding.md R122, R123, spec/60_exceptions.md R352): the error it
raises fits STATUS, or it leaves one of eight shapes of the state; CONVERT and NEGOTIATE_AND_CONVERT end as the pipeline does. -/

namespace Sys2Proof.Machine

/-! ### The errors of the checks fit STATUS -/

theorem Raise.fits_of_stage_zero {c : ErrCode} : (⟨c, 0, none⟩ : Raise).Fits := ⟨Nat.zero_le 4, nofun⟩

theorem Raise.fits_of_level {c : ErrCode} {st i : Nat} (hst : st ≤ 4) (hi : i < 16) : (⟨c, st, some i⟩ : Raise).Fits :=
  ⟨hst, fun _ hk => Option.some.inj hk ▸ hi⟩

theorem firstRaise_append_some {a b : List Check} {e : Raise} :
    firstRaise (a ++ b) = some e ↔ firstRaise a = some e ∨ (firstRaise a = none ∧ firstRaise b = some e) := by
  rw [firstRaise_append]
  cases firstRaise a <;> simp

theorem firstRaise_fits {l : List Check} {e : Raise} (hl : ∀ c ∈ l, c.2.Fits) (h : firstRaise l = some e) : e.Fits := by
  obtain ⟨c, hc, rfl⟩ := firstRaise_mem h
  exact hl c hc

theorem headerChecks_fits {s : State} {e : Raise} (h : firstRaise (headerChecks s) = some e) : e.Fits := by
  refine firstRaise_fits ?_ h
  simp [headerChecks, Raise.fits_of_stage_zero]

theorem rawMipChecks_fits {s : State} {i : Nat} (hi : i < 16) : ∀ c ∈ rawMipChecks s i, c.2.Fits := by
  simp [rawMipChecks, Raise.fits_of_level (Nat.zero_le 4) hi]

theorem blockMipChecks_fits {s : State} {ty : BlockType} {i : Nat} (hi : i < 16) : ∀ c ∈ blockMipChecks s ty i 0, c.2.Fits := by
  simp [blockMipChecks, Raise.fits_of_level (Nat.zero_le 4) hi]

theorem texelChecks_fits {b : Bool} {s : State} {e : Raise} (h : firstRaise (texelChecks b s) = some e) : e.Fits := by
  have kind_fits : ∀ c ∈ ([(b, ⟨.formatError, 0, none⟩), (decide (s.levels ≤ s.args[0].toNat), ⟨.boundsError, 0, none⟩)] :
      List Check), c.2.Fits := by simp [Raise.fits_of_stage_zero]
  simp only [texelChecks, firstRaise_append_some, firstRaise_append_none] at h
  rcases h with ((h | ⟨-, h⟩) | ⟨⟨hhead, hkind⟩, h⟩) | ⟨⟨⟨hhead, hkind⟩, -⟩, h⟩
  · exact headerChecks_fits h
  · exact firstRaise_fits kind_fits h
  all_goals
    simp only [firstRaise_cons_none, decide_eq_false_iff_not] at hkind
    have hlevel : s.args[0].toNat < 16 := by have := (header_ok hhead).2.1; omega
  · exact firstRaise_fits (rawMipChecks_fits hlevel) h
  · exact firstRaise_fits (by simp [Raise.fits_of_level (Nat.zero_le 4) hlevel]) h

theorem alphaScanChecks_fits {s : State} {e : Raise} (h : firstRaise (alphaScanChecks s) = some e) : e.Fits := by
  rcases firstRaise_append_some.1 h with h | ⟨hhead, h⟩
  · exact headerChecks_fits h
  · refine firstRaise_fits (fun c hc => ?_) h
    obtain ⟨i, hi, hc⟩ := List.mem_flatMap.1 hc
    have hlevel : i < 16 := by have := (header_ok hhead).2.1; have := List.mem_range.1 hi; omega
    cases ht : compType s.imgDesc.comp <;> rw [ht] at hc
    · exact rawMipChecks_fits hlevel c hc
    · exact blockMipChecks_fits hlevel c hc

theorem convertChecks_fits {s : State} {e : Raise} (h : firstRaise (convertChecks s) = some e) : e.Fits := by
  simp only [convertChecks, firstRaise_append_some, firstRaise_append_none] at h
  rcases h with ((h | ⟨-, h⟩) | ⟨⟨hhead, -⟩, h⟩) | ⟨-, h⟩
  · exact headerChecks_fits h
  · exact firstRaise_fits (by simp [distinctCheck, Raise.fits_of_stage_zero]) h
  · refine firstRaise_fits (fun c hc => ?_) h
    split at hc
    · obtain ⟨i, hi, hc⟩ := List.mem_flatMap.1 hc
      have := (header_ok hhead).2.1
      have := List.mem_range.1 hi
      exact rawMipChecks_fits (by omega) c hc
    · simp at hc
  · exact firstRaise_fits (by simp [Raise.fits_of_stage_zero]) h

/-- The image header of a CONVERT that passes its entry checks names at most 16 levels. -/
theorem levels_le_of_convertChecks {s : State} (h : firstRaise (convertChecks s) = none) : s.levels ≤ 16 := by
  simp only [convertChecks, firstRaise_append_none] at h
  exact (header_ok h.1.1.1).2.1

/-! ### The errors of the commands fit STATUS -/

theorem access_error {α : Type} {st : Nat} {mip : Option Nat} {o : Option α} {e : Raise} (h : access st mip o = .error e) :
    e = ⟨.boundsError, st, mip⟩ := by
  cases o with
  | none => exact (Except.error.inj h).symm
  | some a => exact absurd h nofun

theorem texelOperand_error {kindOk : Desc → Bool} {s : State} {e : Raise} (h : texelOperand kindOk s = .error e) : e.Fits := by
  rw [texelOperand_eq] at h
  split at h
  · next e' he => exact Except.error.inj h ▸ texelChecks_fits he
  · exact absurd h nofun

theorem texelOperand_level {kindOk : Desc → Bool} {s : State} {r : TexelRef} (h : texelOperand kindOk s = .ok r) :
    r.level < 16 := by
  rw [texelOperand_eq] at h
  split at h
  · exact absurd h nofun
  · next hnone =>
    obtain ⟨hhead, -, hlevel, -⟩ := texelChecks_none hnone
    have := (header_ok hhead).2.1
    rw [← Except.ok.inj h]
    exact Nat.lt_of_lt_of_le hlevel this

/-- The access to the texel that a texel command's checks let through. -/
theorem texelAccess_error {α : Type} {kindOk : Desc → Bool} {s : State} {r : TexelRef} {o : Option α} {e : Raise}
    (hr : texelOperand kindOk s = .ok r) (h : access 0 (some r.level) o = .error e) : e.Fits := by
  rw [access_error h]
  exact Raise.fits_of_level (Nat.zero_le 4) (texelOperand_level hr)

theorem resolveIndex_error {s : State} {e : Raise} (h : resolveIndex s = .error e) : e.Fits := by
  unfold resolveIndex at h
  split at h
  · next e' hcheck => exact Except.error.inj h ▸ texelOperand_error hcheck
  · next r hr =>
    split at h
    · next e' haccess => exact Except.error.inj h ▸ texelAccess_error hr haccess
    · exact absurd h nofun

theorem fetchColor_error {s : State} {e : Raise} (h : fetchColor s = .error e) : e.Fits := by
  unfold fetchColor at h
  split at h
  · next e' hcheck => exact Except.error.inj h ▸ texelOperand_error hcheck
  · next r hr =>
    split at h
    · next e' haccess => exact Except.error.inj h ▸ texelAccess_error hr haccess
    · exact absurd h nofun

theorem storeColor_error {s : State} {e : Raise} (h : storeColor s = .error e) : e.Fits := by
  unfold storeColor at h
  split at h
  · next e' hcheck => exact Except.error.inj h ▸ texelOperand_error hcheck
  · next r hr =>
    split at h
    · next e' haccess => exact Except.error.inj h ▸ texelAccess_error hr haccess
    · exact absurd h nofun

theorem decodeBlockAt_error {ty : BlockType} {s : State} {e : Raise} (h : decodeBlockAt ty s = .error e) : e.Fits := by
  unfold decodeBlockAt at h
  split at h
  · exact Except.error.inj h ▸ Raise.fits_of_stage_zero
  · exact absurd h nofun

theorem encodeBlockAt_error {ty : BlockType} {s : State} {e : Raise} (h : encodeBlockAt ty s = .error e) : e.Fits := by
  unfold encodeBlockAt at h
  split at h
  · exact absurd h nofun
  · exact Except.error.inj h ▸ Raise.fits_of_stage_zero

theorem alphaScanCommand_error {s : State} {e : Raise} (h : alphaScanCommand s = .error e) : e.Fits := by
  unfold alphaScanCommand at h
  rw [checkImage_eq] at h
  cases hchecks : firstRaise (alphaScanChecks s) with
  | some e' =>
    rw [hchecks] at h
    exact Except.error.inj h ▸ alphaScanChecks_fits hchecks
  | none =>
    rw [hchecks] at h
    obtain ⟨-, hlevels, -⟩ := header_ok (firstRaise_append_none.1 hchecks).1
    cases hscan : alphaScan 0 s with
    | ok a => simp [raising, hscan] at h
    | error e' =>
      obtain ⟨-, hstage, hmip⟩ := alphaScan_error hscan
      simp only [raising, hscan, Except.error.injEq] at h
      subst h
      exact ⟨by omega, fun k hk => Nat.lt_of_lt_of_le (hmip k hk) hlevels⟩

theorem negotiateDesc_error {S : Desc} {ha : Bool} {caps : Word} {e : Raise} (h : negotiateDesc S ha caps = .error e) :
    e = ⟨.formatError, 0, none⟩ := by
  have palette : ∀ {e : Raise}, negotiatePalette S caps = .error e → e = ⟨.formatError, 0, none⟩ := by
    intro e h
    unfold negotiatePalette at h
    split at h
    · split at h
      · exact (Except.error.inj h).symm
      · exact (Except.error.inj h).symm
      · exact absurd h nofun
    · exact absurd h nofun
  unfold negotiateDesc at h
  split at h
  · exact (Except.error.inj h).symm
  · split at h
    · split at h
      · exact palette h
      · exact absurd h nofun
    · exact palette h

theorem negotiateTarget_error {s : State} {e : Raise} (h : negotiateTarget s = .error e) : e.Fits := by
  unfold negotiateTarget at h
  split at h
  · next e' he => rw [← Except.error.inj h, negotiateDesc_error he]; exact Raise.fits_of_stage_zero
  · exact absurd h nofun

theorem releaseImage_error {s : State} {e : Raise} (h : releaseImage s = .error e) : e.Fits := by
  rw [releaseImage_eq] at h
  split at h
  · next e' he =>
    rw [← Except.error.inj h]
    exact firstRaise_fits (by simp [releaseChecks, distinctCheck, Raise.fits_of_stage_zero]) he
  · exact absurd h nofun

/-! ### The shapes a command leaves -/

/-- The state a command that succeeds leaves before STATUS is written: the registers its rule lets it write, and a buffer store
in canonical form if it was before. CONVERT and NEGOTIATE_AND_CONVERT have their own end, `ConvOut.finish`. -/
inductive CommandEffect (s : State) : Instr → State → Prop where
  | index (v : Word) : CommandEffect s .resolveIndex (s.setRes0 v)
  | colour (v found : Word) : CommandEffect s .fetchColor ((s.setRes0 v).setRes1 found)
  | stored (m : Memory) (hwf : s.mem.wf = true → m.wf = true) : CommandEffect s .storeColor (s.setMem m)
  | decoded (ty : BlockType) (v : Vector Word 16) : CommandEffect s (decodeBlockInstr ty) (s.setTb v)
  | encoded (ty : BlockType) (m : Memory) (hwf : s.mem.wf = true → m.wf = true) :
      CommandEffect s (encodeBlockInstr ty) (s.setMem m)
  | scanned (v : Word) (alpha : Bool) : CommandEffect s .alphaScan ((s.setRes0 v).setHasAlpha alpha)
  | target (T : Desc) : CommandEffect s .negotiate (s.setTgtFmt T.toWord)
  | released (hs : List Word) : CommandEffect s .release (clearImage (s.freeAll hs))

theorem resolveIndex_effect {s u : State} (h : resolveIndex s = .ok u) : CommandEffect s .resolveIndex u := by
  obtain ⟨-, item, -, rfl⟩ := resolveIndex_ok h
  exact .index _

theorem fetchColor_effect {s u : State} (h : fetchColor s = .ok u) : CommandEffect s .fetchColor u := by
  obtain ⟨-, c, found, -, rfl⟩ := fetchColor_ok h
  exact .colour _ _

theorem storeColor_effect {s u : State} (h : storeColor s = .ok u) : CommandEffect s .storeColor u := by
  obtain ⟨-, m, hm, rfl⟩ := storeColor_ok h
  exact .stored m (storeTexel_wrote hm).wf

theorem decodeBlockAt_effect {ty : BlockType} {s u : State} (h : decodeBlockAt ty s = .ok u) :
    CommandEffect s (decodeBlockInstr ty) u := by
  obtain ⟨B, -, rfl⟩ := decodeBlockAt_ok h
  exact .decoded ty _

theorem encodeBlockAt_effect {ty : BlockType} {s u : State} (h : encodeBlockAt ty s = .ok u) :
    CommandEffect s (encodeBlockInstr ty) u := by
  obtain ⟨m, hm, rfl⟩ := encodeBlockAt_ok h
  exact .encoded ty m (wf_writeBytes hm)

theorem alphaScanCommand_effect {s u : State} (h : alphaScanCommand s = .ok u) : CommandEffect s .alphaScan u := by
  obtain ⟨-, a, -, rfl⟩ := alphaScanCommand_ok h
  exact .scanned _ a

theorem negotiateTarget_effect {s u : State} (h : negotiateTarget s = .ok u) : CommandEffect s .negotiate u := by
  obtain ⟨T, -, rfl⟩ := negotiateTarget_ok h
  exact .target T

theorem releaseImage_effect {s u : State} (h : releaseImage s = .ok u) : CommandEffect s .release u := by
  rw [releaseImage_eq] at h
  split at h
  · exact absurd h nofun
  · split at h
    · exact Except.ok.inj h ▸ .released _
    · exact Except.ok.inj h ▸ .released []

/-- The end of a command other than CONVERT and NEGOTIATE_AND_CONVERT: an error that fits STATUS and changes nothing else, or
success. -/
inductive PlainEnd (s : State) (i : Instr) : State → Prop where
  | failed (e : Raise) (he : e.Fits) : PlainEnd s i (s.raiseError i.opc e false)
  | done (u : State) (hu : CommandEffect s i u) : PlainEnd s i (u.complete i.opc false false)

theorem finish_plainEnd {s : State} {i : Instr} {r : Except Raise State} (herr : ∀ e, r = .error e → e.Fits)
    (hok : ∀ u, r = .ok u → CommandEffect s i u) : PlainEnd s i (s.finish i.opc r) := by
  cases r with
  | error e => exact .failed e (herr e rfl)
  | ok u => exact .done u (hok u rfl)

theorem encodeUnsupported_plainEnd (s : State) (ty : BlockType) :
    PlainEnd s (encodeBlockInstr ty) (s.finish (encodeBlockInstr ty).opc encodeUnsupported) :=
  .failed _ Raise.fits_of_stage_zero

/-- Everything a command can do, as one case distinction over its ends. -/
theorem exec_cases {i : Instr} {s t : State} (h : exec i s = .next t) :
    PlainEnd s i t ∨ (i = .convert ∧ t = (convertImage s).finish 0x07)
      ∨ (i = .negotiateAndConvert ∧ t = negotiateAndConvert s) := by
  have decode (ty : BlockType) := finish_plainEnd (fun e => decodeBlockAt_error (ty := ty) (s := s) (e := e))
    fun _ => decodeBlockAt_effect
  have encode (ty : BlockType) := finish_plainEnd (fun e => encodeBlockAt_error (ty := ty) (s := s) (e := e))
    fun _ => encodeBlockAt_effect
  cases i <;> obtain rfl := Host.Outcome.next.inj h
  case resolveIndex => exact .inl (finish_plainEnd (fun _ => resolveIndex_error) fun _ => resolveIndex_effect)
  case fetchColor => exact .inl (finish_plainEnd (fun _ => fetchColor_error) fun _ => fetchColor_effect)
  case storeColor => exact .inl (finish_plainEnd (fun _ => storeColor_error) fun _ => storeColor_effect)
  case decodeBlockDxt1 => exact .inl (decode .dxt1)
  case decodeBlockDxt2 => exact .inl (decode .dxt2)
  case decodeBlockDxt3 => exact .inl (decode .dxt3)
  case decodeBlockDxt4 => exact .inl (decode .dxt4)
  case decodeBlockDxt5 => exact .inl (decode .dxt5)
  case encodeBlockDxt1 => exact .inl (encode .dxt1)
  case encodeBlockDxt2 => exact .inl (encodeUnsupported_plainEnd s .dxt2)
  case encodeBlockDxt3 => exact .inl (encode .dxt3)
  case encodeBlockDxt4 => exact .inl (encodeUnsupported_plainEnd s .dxt4)
  case encodeBlockDxt5 => exact .inl (encode .dxt5)
  case alphaScan => exact .inl (finish_plainEnd (fun _ => alphaScanCommand_error) fun _ => alphaScanCommand_effect)
  case negotiate => exact .inl (finish_plainEnd (fun _ => negotiateTarget_error) fun _ => negotiateTarget_effect)
  case release => exact .inl (finish_plainEnd (fun _ => releaseImage_error) fun _ => releaseImage_effect)
  case convert => exact .inr (.inl ⟨rfl, rfl⟩)
  case negotiateAndConvert => exact .inr (.inr ⟨rfl, rfl⟩)

end Sys2Proof.Machine
end

section
/-! What CONVERT keeps (spec/42_conversion_engine.md R252, R253, R280): each stage leaves the registers that are not the image's,
never lengthens the mip chain, and keeps the buffer store in canonical form and the reserved bits of the image's registers 0; so
does the pipeline, whose errors fit STATUS. -/

namespace Sys2Proof.Machine

/-! ### Reserved bits -/

/-- The bits of a register that its definition reserves are 0 (10_state R30). -/
def Reg.Clear (r : Reg) (v : Word) : Prop := v &&& ~~~ r.defined = 0

theorem Reg.clear_iff {r : Reg} {v : Word} : r.Clear v ↔ ∀ i, r.defined.getLsbD i = false → v.getLsbD i = false := by
  constructor
  · intro h i hi
    have hbit : (v &&& ~~~ r.defined).getLsbD i = false := by rw [h]; exact BitVec.getLsbD_zero
    by_cases hlt : i < 32
    · rwa [BitVec.getLsbD_and, BitVec.getLsbD_not, hi, decide_eq_true hlt, Bool.not_false, Bool.and_self, Bool.and_true] at hbit
    · exact BitVec.getLsbD_of_ge _ _ (Nat.not_lt.1 hlt)
  · intro h
    refine BitVec.eq_of_getLsbD_eq fun i hi => ?_
    refine Eq.trans ?_ BitVec.getLsbD_zero.symm
    rw [BitVec.getLsbD_and, BitVec.getLsbD_not, decide_eq_true hi, Bool.true_and]
    cases hd : r.defined.getLsbD i
    · rw [h i hd, Bool.false_and]
    · rw [Bool.not_true, Bool.and_false]

theorem Reg.clear_zero (r : Reg) : r.Clear 0 := BitVec.zero_and

/-- The bits a host write of a register keeps. -/
theorem Reg.clear_and_defined (r : Reg) (v : Word) : r.Clear (v &&& r.defined) :=
  Reg.clear_iff.2 fun i hi => by simp [hi]

/-- A register whose defined bits are the n low ones holds any value below 2^n. -/
theorem Reg.clear_of_high {r : Reg} {n : Nat} (hr : r.defined = BitVec.ofNat 32 (2 ^ n - 1)) (hn : n ≤ 32) {v : Word}
    (hv : ∀ i, n ≤ i → v.getLsbD i = false) : r.Clear v := by
  refine Reg.clear_iff.2 fun i hi => hv i (Nat.le_of_not_lt fun hlt => ?_)
  rw [hr, BitVec.getLsbD_ofNat, Nat.testBit_two_pow_sub_one] at hi
  simp [hlt, Nat.lt_of_lt_of_le hlt hn] at hi

theorem Reg.clear_ofNat {r : Reg} {n k : Nat} (hr : r.defined = BitVec.ofNat 32 (2 ^ n - 1)) (hn : n ≤ 32) (hk : k < 2 ^ n) :
    r.Clear (BitVec.ofNat 32 k) := by
  refine Reg.clear_of_high hr hn fun i hi => ?_
  rw [BitVec.getLsbD_ofNat, Nat.testBit_lt_two_pow (Nat.lt_of_lt_of_le hk (Nat.pow_le_pow_right (by decide) hi)),
    Bool.and_false]

theorem Reg.clear_withBit {r : Reg} {v : Word} {i : Nat} (b : Bool) (hi : i < 32) (hr : r.defined.getLsbD i = true)
    (hv : r.Clear v) : r.Clear (withBit v i b) := by
  refine Reg.clear_iff.2 fun j hj => ?_
  have hne : j ≠ i := fun e => by rw [e, hr] at hj; exact absurd hj nofun
  exact (bit_withBit v i j b hi).trans ((if_neg hne).trans (Reg.clear_iff.1 hv j hj))

/-- A descriptor word has no bit above COMP (30_encoding R127). -/
theorem Desc.toWord_high (D : Desc) {i : Nat} (hi : 27 ≤ i) : D.toWord.getLsbD i = false := by
  have hraster : D.raster.getLsbD i = false := BitVec.getLsbD_of_ge _ _ (by omega)
  have hdepth : D.depth.getLsbD (i - 4) = false := BitVec.getLsbD_of_ge _ _ (by omega)
  have halign : D.rowAlign.getLsbD (i - 12) = false := BitVec.getLsbD_of_ge _ _ (by omega)
  have horder : D.order.getLsbD (i - 20) = false := BitVec.getLsbD_of_ge _ _ (by omega)
  have hpal : D.palMode.getLsbD (i - 22) = false := BitVec.getLsbD_of_ge _ _ (by omega)
  have hcomp : D.comp.getLsbD (i - 24) = false := BitVec.getLsbD_of_ge _ _ (by omega)
  simp [Desc.toWord, hraster, hdepth, halign, horder, hpal, hcomp]

theorem Desc.imgFmt_clear (D : Desc) : Reg.imgFmt.Clear D.toWord :=
  Reg.clear_of_high (n := 27) rfl (by decide) fun _ => D.toWord_high

theorem Desc.tgtFmt_clear (D : Desc) : Reg.tgtFmt.Clear D.toWord := D.imgFmt_clear

/-! ### What a stage keeps -/

/-- The part of the machine's invariant that the stages of CONVERT write: the buffer store, and the reserved bits of IMG_FMT,
PAL_COUNT and MIP_COUNT. -/
structure ImageInv (s : State) : Prop where
  wf : s.mem.wf = true
  imgFmt : Reg.imgFmt.Clear s.imgFmt
  palCount : Reg.palCount.Clear s.palCount
  mipCount : Reg.mipCount.Clear s.mipCount

/-- What every stage keeps, whether it commits or fails. -/
structure StageKeeps (s t : State) : Prop where
  frame : ImageOnly s t
  levels : t.levels ≤ s.levels
  inv : ImageInv s → ImageInv t

theorem StageKeeps.refl (s : State) : StageKeeps s s := ⟨.refl s, Nat.le_refl _, fun h => h⟩

theorem StageKeeps.trans {s t u : State} (a : StageKeeps s t) (b : StageKeeps t u) : StageKeeps s u :=
  ⟨a.frame.trans b.frame, Nat.le_trans b.levels a.levels, fun h => b.inv (a.inv h)⟩

theorem StageKeeps.heap {s : State} {hp : Heap} (hwf : s.mem.wf = true → hp.mem.wf = true) :
    StageKeeps s { s with heap := hp } :=
  ⟨.heap s hp, Nat.le_refl _, fun h => ⟨hwf h.wf, h.imgFmt, h.palCount, h.mipCount⟩⟩

theorem Untouched.keeps {s t : State} (h : Untouched s t) : StageKeeps s t := by
  obtain ⟨⟨hp, rfl⟩, hmem⟩ := h
  exact .heap fun hwf => (congrArg Memory.wf hmem).trans hwf

theorem Run.keeps {s t : State} {sz : Nat → Nat} {new : List Word} (h : Run s sz new t) : StageKeeps s t := by
  obtain ⟨hp, rfl⟩ := h.regs
  exact .heap h.wf

theorem StageKeeps.freeAll (s : State) (hs : List Word) : StageKeeps s (s.freeAll hs) := .heap (wf_freeAll hs)

theorem StageKeeps.setPalette (s : State) (h : Word) {n : Word} (hn : Reg.palCount.Clear n) : StageKeeps s (s.setPalette h n) :=
  ⟨setPalette_imageOnly s h n, Nat.le_refl _, fun h => ⟨h.wf, h.imgFmt, hn, h.mipCount⟩⟩

theorem StageKeeps.dropPalette (s : State) : StageKeeps s s.dropPalette := by
  unfold State.dropPalette
  split
  · exact (StageKeeps.freeAll s _).trans (.setPalette _ 0 (Reg.clear_zero _))
  · exact .refl s

theorem StageKeeps.setMips (s : State) (v : Vector MipRegs 16) : StageKeeps s (s.setMips v) :=
  ⟨setMips_imageOnly s v, Nat.le_refl _, fun h => ⟨h.wf, h.imgFmt, h.palCount, h.mipCount⟩⟩

theorem StageKeeps.setImgFmt (s : State) (D : Desc) : StageKeeps s (s.setImgFmt D.toWord) :=
  ⟨setImgFmt_imageOnly s _, Nat.le_refl _, fun h => ⟨h.wf, D.imgFmt_clear, h.palCount, h.mipCount⟩⟩

theorem levels_lt (s : State) : s.levels < 2 ^ 5 := bits_lt ..

theorem StageKeeps.setMipCount (s : State) {n : Nat} (hn : n ≤ s.levels) :
    StageKeeps s (s.setMipCount (BitVec.ofNat 32 n)) := by
  refine ⟨setMipCount_imageOnly s _, ?_, fun h => ⟨h.wf, h.imgFmt, h.palCount, ?_⟩⟩
  · have hbits : (s.setMipCount (BitVec.ofNat 32 n)).levels = n % 2 ^ 32 % 2 ^ 5 := by simp [State.levels, bits]
    rw [hbits]
    exact ((Nat.mod_le _ _).trans (Nat.mod_le _ _)).trans hn
  · exact Reg.clear_ofNat (n := 5) rfl (by decide) (Nat.lt_of_le_of_lt hn (levels_lt s))

theorem commitStage1_keeps (R1 : Desc) {new : List Word} {s : State} (hn : new.length ≤ s.levels) :
    StageKeeps s (commitStage1 R1 new s) :=
  (((StageKeeps.freeAll s _).trans (.setMips ..)).trans (.setMipCount _ hn)).trans (.setImgFmt ..)

theorem setReshaped_keeps (T' : Desc) (new : List Word) (s : State) : StageKeeps s (setReshaped T' new s) :=
  (StageKeeps.setMips s _).trans (.setImgFmt ..)

theorem commitRecode_keeps (T' : Desc) (new : List Word) (s : State) : StageKeeps s (commitRecode T' new s) :=
  ((StageKeeps.freeAll s _).trans (.dropPalette _)).trans (setReshaped_keeps ..)

theorem commitRepack_keeps (T' : Desc) (new : List Word) (s : State) : StageKeeps s (commitRepack T' new s) :=
  (StageKeeps.freeAll s _).trans (setReshaped_keeps ..)

theorem commitPalettize_keeps (T' : Desc) (hp : Word) {k : Nat} (hk : k ≤ 256) (new : List Word) (s : State) :
    StageKeeps s (commitPalettize T' hp k new s) :=
  (((StageKeeps.freeAll s _).trans (.dropPalette _)).trans
    (.setPalette _ hp (Reg.clear_ofNat (n := 9) rfl (by decide) (by omega)))).trans (setReshaped_keeps ..)

theorem commitStage3_keeps (ty : BlockType) (V : Raster) (T : Desc) (new : List Word) (s : State) :
    StageKeeps s (commitStage3 ty V T new s) :=
  (((StageKeeps.freeAll s _).trans (.dropPalette _)).trans (.setMips ..)).trans (.setImgFmt ..)

theorem atMost_length_le {n : Nat} (hn : 1 ≤ n) (colours : List Colour) : (atMost n colours).length ≤ n := by
  unfold atMost
  split
  · exact hn
  · next c cs htake => exact htake ▸ List.length_take_le n colours

/-- A built palette is no longer than the target mode's limit (43_palettizer R302, R303). -/
theorem buildPalette_length_le (external : Bool) (seed : List Colour) {n : Nat} (hn : 1 ≤ n) :
    (buildPalette external seed n).length ≤ n := by
  unfold buildPalette
  split
  · exact atMost_length_le hn _
  · split
    · assumption
    · exact atMost_length_le hn _

theorem maxEntries_bounds (palMode : BitVec 2) : 1 ≤ maxEntries palMode ∧ maxEntries palMode ≤ 256 := by
  unfold maxEntries
  split <;> decide

theorem stage1_keeps (s : State) (ty : BlockType) (T : Desc) : StageKeeps s (stage1 s ty T).state := by
  rcases stage1_cases s ty T with ⟨new, u, h, hr, hlen, -⟩ | ⟨t, e, h, ht, -⟩ | ⟨t, i, h, -, ht⟩ | ⟨t, i, _, _, _, _, h, -, ht, -⟩ <;>
    rw [h]
  · obtain ⟨hp, rfl⟩ := hr.regs
    exact hr.keeps.trans (commitStage1_keeps _ hlen)
  all_goals exact ht.keeps

theorem recode_keeps (s : State) (T' : Desc) : StageKeeps s (recode s T').state := by
  rcases recode_cases s T' with ⟨new, u, h, hr, -⟩ | ⟨t, i, h, -, ht⟩ | ⟨t, i, _, _, _, _, h, -, ht, -⟩ <;> rw [h]
  · exact hr.keeps.trans (commitRecode_keeps ..)
  all_goals exact ht.keeps

theorem repack_keeps (s : State) (T' : Desc) : StageKeeps s (repack s T').state := by
  rcases repack_cases s T' with ⟨new, u, h, hr, -⟩ | ⟨t, i, h, -, ht⟩ | ⟨t, i, _, _, _, _, h, -, ht, -⟩ <;> rw [h]
  · exact hr.keeps.trans (commitRepack_keeps ..)
  all_goals exact ht.keeps

theorem palettizeWith_keeps (s : State) (T' : Desc) {P : List Colour} (hP : P.length ≤ 256) :
    StageKeeps s (palettizeWith s T' P).state := by
  rcases palettizeWith_cases s T' P with
    ⟨hp, new, u, h, hr, -⟩ | ⟨t, k, h, -, ht⟩ | ⟨t, _, _, h, ht, -⟩ | ⟨t, i, _, _, _, _, h, -, ht, -⟩ <;> rw [h]
  · exact hr.keeps.trans (commitPalettize_keeps _ _ hP ..)
  all_goals exact ht.keeps

theorem stage2_keeps (s : State) (T' : Desc) : StageKeeps s (stage2 s T').state := by
  unfold stage2
  split
  · exact recode_keeps s T'
  · split
    · exact repack_keeps s T'
    · unfold palettize
      split
      · exact .refl s
      · obtain ⟨hpos, hle⟩ := maxEntries_bounds T'.palMode
        exact palettizeWith_keeps s T' ((buildPalette_length_le _ _ hpos).trans hle)

theorem stage3_keeps (s : State) (ty : BlockType) (T : Desc) : StageKeeps s (stage3 s ty T).state := by
  rcases stage3_cases s ty T with ⟨e, -, h⟩ | ⟨a, new, u, -, h, hr, -⟩ | ⟨t, i, h, -, ht⟩ | ⟨t, i, _, _, _, _, h, -, ht, -⟩ <;> rw [h]
  · exact .refl s
  · exact hr.keeps.trans (commitStage3_keeps ..)
  all_goals exact ht.keeps

theorem runStage1_keeps (s : State) (T : Desc) : StageKeeps s (runStage1 s T).state := by
  unfold runStage1
  split
  · exact stage1_keeps ..
  · exact .refl s

theorem runStage2_keeps (s : State) (T T' : Desc) : StageKeeps s (runStage2 s T T').state := by
  unfold runStage2
  split
  · exact stage2_keeps ..
  · exact .refl s

theorem runStage3_keeps (s : State) (T : Desc) : StageKeeps s (runStage3 s T).state := by
  unfold runStage3
  split
  · exact stage3_keeps ..
  · exact .refl s

/-! ### How CONVERT ends -/

/-- The end of CONVERT: an error that fits STATUS; no change of HAS_ALPHA, where no stage ran; or the rescan of the alpha. -/
inductive ConvertEnd (s : State) : ConvOut → Prop where
  | failed (u : State) (truncated : Bool) (e : Raise) (hu : StageKeeps s u) (he : e.Fits) :
      ConvertEnd s ⟨u, false, truncated, some e⟩
  | unchanged (u : State) (truncated : Bool) (hu : StageKeeps s u) : ConvertEnd s ⟨u, false, truncated, none⟩
  | rescanned (u : State) (alpha truncated : Bool) (hu : StageKeeps s u) :
      ConvertEnd s ⟨(u.setHasAlpha alpha).settlePalette, true, truncated, none⟩

/-- The error a stage raises fits STATUS, where the image has at most 16 levels. -/
theorem StageOk.fits {s : State} {stage : Nat} {out : StageOut} {e : Raise} (h : StageOk s stage out) (hst : stage ≤ 4)
    (hlevels : s.levels ≤ 16) (he : out.error = some e) : e.Fits := by
  obtain ⟨-, hstage, hmip⟩ := h.failed e he
  refine ⟨hstage ▸ hst, fun k hk => ?_⟩
  have := hmip k hk
  omega

theorem finishPipeline_end {s u : State} (ran truncated : Bool) (hu : StageKeeps s u) (hlevels : s.levels ≤ 16) :
    ConvertEnd s (finishPipeline u ran truncated) := by
  rcases finishPipeline_cases u ran truncated with ⟨-, h⟩ | ⟨-, e, hscan, h⟩ | ⟨-, a, -, h⟩ <;> rw [h]
  · exact .unchanged u truncated hu
  · obtain ⟨-, hstage, hmip⟩ := alphaScan_error hscan
    refine .failed u truncated e hu ⟨hstage.le, fun k hk => ?_⟩
    have := hmip k hk
    have := hu.levels
    omega
  · exact .rescanned u a truncated hu

theorem pipeline_end (s : State) (T T' : Desc) (hlevels : s.levels ≤ 16) : ConvertEnd s (pipeline s T T') := by
  have keeps1 := runStage1_keeps s T
  have ok1 := runStage1_ok s T
  rcases pipeline_cases s T T' with ⟨s1, e, h1, h⟩ | ⟨s1, s2, e, h1, h2, h⟩ | ⟨s1, s2, s3, e, h1, h2, h3, h⟩ | ⟨s1, s2, s3, h1, h2, h3, h⟩ <;>
    rw [h] <;> rw [h1] at keeps1
  · exact .failed s1 false e keeps1 (ok1.fits (by decide) hlevels (by rw [h1]))
  all_goals
    have keeps2 := runStage2_keeps s1 T T'
    have ok2 := runStage2_ok s1 T T'
    have levels1 : s1.levels ≤ 16 := keeps1.levels.trans hlevels
    rw [h2] at keeps2
  · exact .failed s2 _ e (keeps1.trans keeps2) (ok2.fits (by decide) levels1 (by rw [h2]))
  all_goals
    have keeps3 := runStage3_keeps s2 T
    have ok3 := runStage3_ok s2 T
    have levels2 : s2.levels ≤ 16 := keeps2.levels.trans levels1
    rw [h3] at keeps3
  · exact .failed s3 _ e ((keeps1.trans keeps2).trans keeps3) (ok3.fits (by decide) levels2 (by rw [h3]))
  · exact finishPipeline_end _ _ ((keeps1.trans keeps2).trans keeps3) hlevels

theorem convertImage_end (s : State) : ConvertEnd s (convertImage s) := by
  rcases convertImage_cases s with ⟨-, h⟩ | ⟨-, -, h⟩ | ⟨-, -, e, hchecks, h⟩ | ⟨-, -, hchecks, h⟩ <;> rw [h]
  · exact .failed s false _ (.refl s) Raise.fits_of_stage_zero
  · exact .unchanged s false (.refl s)
  · exact .failed s false e (.refl s) (convertChecks_fits hchecks)
  · exact pipeline_end s s.tgtDesc s.rawTgt (levels_le_of_convertChecks hchecks)

end Sys2Proof.Machine
end

section
/-! The obligation that every step keeps the machine's invariant (spec/10_state.md R30, R33, spec/20_memory.md R90, R102,
spec/60_exceptions.md R352): every command through its end, every move of the host through what it writes. -/

namespace Sys2Proof.Machine

/-! ### The invariant apart from STATUS -/

/-- The invariant of the machine without its clause on STATUS, which every command writes anew. -/
def StoreInv (s : State) : Prop := s.mem.wf = true ∧ reservedClear s

theorem MachineInv.store {s : State} (h : MachineInv s) : StoreInv s := ⟨h.1, h.2.1⟩

theorem StoreInv.image {s : State} (h : StoreInv s) : ImageInv s := by
  obtain ⟨hwf, -, -, hfmt, -, hpal, hmip, -⟩ := h
  exact ⟨hwf, hfmt, hpal, hmip⟩

theorem StoreInv.imgFlags {s : State} (h : StoreInv s) : Reg.imgFlags.Clear s.imgFlags := by
  obtain ⟨-, -, -, -, hflags, -⟩ := h
  exact hflags

/-- A change of the image alone keeps the invariant if it keeps the image's part of it. -/
theorem StoreInv.of_image {s t : State} (h : StoreInv s) (hf : ImageOnly s t) (hi : ImageInv t) : StoreInv t := by
  obtain ⟨-, hcaps, hpz, -, hflags, -, -, htgt⟩ := h
  exact ⟨hi.wf, hf.caps ▸ hcaps, hf.pzCfg ▸ hpz, hi.imgFmt, hf.imgFlags ▸ hflags, hi.palCount, hi.mipCount, hf.tgtFmt ▸ htgt⟩

theorem StageKeeps.storeInv {s t : State} (h : StageKeeps s t) (hs : StoreInv s) : StoreInv t :=
  hs.of_image h.frame (h.inv hs.image)

theorem StoreInv.setMem {s : State} {m : Memory} (hm : m.wf = true) (h : StoreInv s) : StoreInv (s.setMem m) := ⟨hm, h.2⟩

theorem StoreInv.withImgFlags {s : State} {v : Word} (hv : Reg.imgFlags.Clear v) (h : StoreInv s) :
    StoreInv { s with imgFlags := v } := by
  obtain ⟨hwf, hcaps, hpz, hfmt, -, hrest⟩ := h
  exact ⟨hwf, hcaps, hpz, hfmt, hv, hrest⟩

theorem StoreInv.setHasAlpha {s : State} (alpha : Bool) (h : StoreInv s) : StoreInv (s.setHasAlpha alpha) :=
  h.withImgFlags (Reg.clear_withBit alpha (by decide) (by decide) h.imgFlags)

theorem StoreInv.setTgtFmt {s : State} (T : Desc) (h : StoreInv s) : StoreInv (s.setTgtFmt T.toWord) := by
  obtain ⟨hwf, hcaps, hpz, hfmt, hflags, hpal, hmip, -⟩ := h
  exact ⟨hwf, hcaps, hpz, hfmt, hflags, hpal, hmip, T.tgtFmt_clear⟩

theorem StoreInv.settlePalette {s : State} (h : StoreInv s) : StoreInv s.settlePalette := by
  unfold State.settlePalette
  split
  · exact h
  · exact (StageKeeps.setPalette s 0 (Reg.clear_zero _)).storeInv h

theorem StoreInv.clearImage {s : State} (h : StoreInv s) : StoreInv (clearImage s) := by
  have empty := (((StageKeeps.setMipCount s (Nat.zero_le _)).trans (.setPalette _ 0 (Reg.clear_zero _))).trans
    (.setMips _ (mipsOf fun _ => MipRegs.zero))).storeInv h
  exact empty.withImgFlags (Reg.clear_withBit false (by decide) (by decide) empty.imgFlags)

/-! ### Commands -/

theorem CommandEffect.storeInv {s u : State} {i : Instr} (hu : CommandEffect s i u) (h : StoreInv s) : StoreInv u := by
  cases hu with
  | index v => exact h
  | colour v found => exact h
  | stored m hwf => exact h.setMem (hwf h.1)
  | decoded ty v => exact h
  | encoded ty m hwf => exact h.setMem (hwf h.1)
  | scanned v alpha => exact StoreInv.setHasAlpha (s := s.setRes0 v) alpha h
  | target T => exact h.setTgtFmt T
  | released hs => exact ((StageKeeps.freeAll s hs).storeInv h).clearImage

theorem PlainEnd.machineInv {s t : State} {i : Instr} (ht : PlainEnd s i t) (h : StoreInv s) : MachineInv t := by
  cases ht with
  | failed e he => exact ⟨h.1, h.2, statusOk_raiseError s he nofun⟩
  | done u hu =>
    obtain ⟨hwf, hclear⟩ := hu.storeInv h
    exact ⟨hwf, hclear, statusOk_complete u fun h => absurd (or_self_iff.1 h) Bool.false_ne_true⟩

theorem ConvertEnd.machineInv {s : State} {o : ConvOut} {opc : Byte} (ho : ConvertEnd s o) (hopc : opc = 7 ∨ opc = 9)
    (h : StoreInv s) : MachineInv (o.finish opc) := by
  cases ho with
  | failed u truncated e hu he =>
    obtain ⟨hwf, hclear⟩ := hu.storeInv h
    exact ⟨hwf, hclear, statusOk_raiseError u he fun _ => hopc⟩
  | unchanged u truncated hu =>
    obtain ⟨hwf, hclear⟩ := hu.storeInv h
    exact ⟨hwf, hclear, statusOk_complete u fun _ => hopc⟩
  | rescanned u alpha truncated hu =>
    obtain ⟨hwf, hclear⟩ := ((hu.storeInv h).setHasAlpha alpha).settlePalette
    exact ⟨hwf, hclear, statusOk_complete _ fun _ => hopc⟩

theorem negotiateAndConvert_machineInv {s : State} (h : StoreInv s) : MachineInv (negotiateAndConvert s) := by
  unfold negotiateAndConvert
  cases hr : negotiateTarget s with
  | error e => exact ⟨h.1, h.2, statusOk_raiseError s (negotiateTarget_error hr) nofun⟩
  | ok u => exact (convertImage_end u).machineInv (.inr rfl) ((negotiateTarget_effect hr).storeInv h)

theorem exec_machineInv {i : Instr} {s t : State} (h : StoreInv s) (he : exec i s = .next t) : MachineInv t := by
  rcases exec_cases he with hend | ⟨-, rfl⟩ | ⟨-, rfl⟩
  · exact hend.machineInv h
  · exact (convertImage_end s).machineInv (.inl rfl) h
  · exact negotiateAndConvert_machineInv h

theorem issue_machineInv {w : Word} {s t : State} (h : StoreInv s) (he : issue w s = .next t) : MachineInv t := by
  unfold issue at he
  split at he
  · exact exec_machineInv h he
  · obtain rfl := Host.Outcome.next.inj he
    exact ⟨h.1, h.2, statusOk_raiseError s Raise.fits_of_stage_zero nofun⟩

/-! ### Moves of the host -/

/-- A move that leaves STATUS keeps the invariant if it keeps the rest of it. -/
theorem MachineInv.of_status {s t : State} (h : MachineInv s) (hst : t.status = s.status) (ht : StoreInv t) : MachineInv t := by
  obtain ⟨-, -, hok⟩ := h
  refine ⟨ht.1, ht.2, ?_⟩
  unfold statusOk State.errField State.stageField State.mipField State.changedFlag State.truncatedFlag State.opcReported
  rw [hst]
  exact hok

theorem setReg_status (s : State) (r : Reg) (v : Word) : (s.setReg r v).status = s.status := by cases r <;> rfl

theorem setReg_heap (s : State) (r : Reg) (v : Word) : (s.setReg r v).heap = s.heap := by cases r <;> rfl

theorem StoreInv.setReg {s : State} {r : Reg} {v : Word} (hv : r.Clear v) (h : StoreInv s) : StoreInv (s.setReg r v) := by
  obtain ⟨hwf, hcaps, hpz, hfmt, hflags, hpal, hmip, htgt⟩ := h
  cases r with
  | caps => exact ⟨hwf, hv, hpz, hfmt, hflags, hpal, hmip, htgt⟩
  | pzCfg => exact ⟨hwf, hcaps, hv, hfmt, hflags, hpal, hmip, htgt⟩
  | imgFmt => exact ⟨hwf, hcaps, hpz, hv, hflags, hpal, hmip, htgt⟩
  | imgFlags => exact ⟨hwf, hcaps, hpz, hfmt, hv, hpal, hmip, htgt⟩
  | palCount => exact ⟨hwf, hcaps, hpz, hfmt, hflags, hv, hmip, htgt⟩
  | mipCount => exact ⟨hwf, hcaps, hpz, hfmt, hflags, hpal, hv, htgt⟩
  | tgtFmt => exact ⟨hwf, hcaps, hpz, hfmt, hflags, hpal, hmip, hv⟩
  | _ => exact ⟨hwf, hcaps, hpz, hfmt, hflags, hpal, hmip, htgt⟩

theorem writeReg_machineInv {s : State} (off : Nat) (v : Word) (h : MachineInv s) : MachineInv (s.writeReg off v) := by
  unfold State.writeReg
  split
  · next r _ => exact h.of_status (setReg_status ..) (h.store.setReg (r.clear_and_defined v))
  · exact h

theorem hostWrite_machineInv {off : Nat} {w : Word} {s t : State} (h : MachineInv s) (he : hostWrite off w s = .next t) :
    MachineInv t := by
  unfold hostWrite at he
  split at he
  · split at he
    · exact issue_machineInv h.store he
    · exact Host.Outcome.next.inj he ▸ writeReg_machineInv off w h
  · exact absurd he nofun

theorem hostRead_machineInv {off : Nat} {k : Option Nat} {s t : State} (h : MachineInv s) (he : hostRead off k s = .next t) :
    MachineInv t := by
  unfold hostRead at he
  split at he
  · cases k <;> exact Host.Outcome.next.inj he ▸ h
  · exact absurd he nofun

theorem hostAlloc_machineInv {k n : Nat} {s t : State} (h : MachineInv s) (he : hostAlloc k n s = .next t) : MachineInv t := by
  obtain ⟨hwf, hclear, hok⟩ := h
  unfold hostAlloc at he
  split at he
  · next s1 g hs1 =>
    obtain ⟨hadm, rfl⟩ := alloc_some hs1
    exact Host.Outcome.next.inj he ▸ ⟨wf_insert hadm hwf, hclear, hok⟩
  · next s1 hs1 =>
    obtain ⟨rfl, hmem⟩ := alloc_none hs1
    exact Host.Outcome.next.inj he ▸ ⟨(congrArg Memory.wf hmem).trans hwf, hclear, hok⟩

theorem hostPut_machineInv {g : Word} {off : Nat} {bs : List Byte} {s t : State} (h : MachineInv s)
    (he : hostPut g off bs s = .next t) : MachineInv t := by
  unfold hostPut at he
  split at he
  · next m hm => exact Host.Outcome.next.inj he ▸ ⟨wf_writeBytes hm h.1, h.2⟩
  · exact absurd he nofun

theorem hostGet_machineInv {g : Word} {off n : Nat} {s t : State} (h : MachineInv s) (he : hostGet g off n s = .next t) :
    MachineInv t := by
  unfold hostGet at he
  split at he
  · exact Host.Outcome.next.inj he ▸ h
  · exact absurd he nofun

theorem hostFree_machineInv {g : Word} {s t : State} (h : MachineInv s) (he : hostFree g s = .next t) : MachineInv t := by
  unfold hostFree at he
  split at he
  · exact Host.Outcome.next.inj he ▸ ⟨wf_freeAll [g] h.1, h.2⟩
  · exact absurd he nofun

theorem reset_machineInv : MachineInv State.reset := by
  refine ⟨wf_reset, ?_, ?_⟩
  · exact ⟨by decide, by decide, by decide, by decide, by decide, by decide, by decide⟩
  · unfold statusOk; decide

theorem hostStep_machineInv {op : HostOp} {s t : State} (h : MachineInv s) (he : hostStep op s = .next t) : MachineInv t := by
  cases op <;> simp only [hostStep] at he
  case rd off k => exact hostRead_machineInv h he
  case halloc k n => exact hostAlloc_machineInv h he
  case reset => exact Host.Outcome.next.inj he ▸ reset_machineInv
  case wr off v =>
    split at he
    · exact hostWrite_machineInv h he
    · exact absurd he nofun
  case hwrite v off bs =>
    split at he
    · exact hostPut_machineInv h he
    · exact absurd he nofun
  case hread v off n =>
    split at he
    · exact hostGet_machineInv h he
    · exact absurd he nofun
  case hfree v =>
    split at he
    · exact hostFree_machineInv h he
    · exact absurd he nofun

/-- Settles O59: every move of the host keeps the invariant, the issue of a command through the command's end. -/
theorem everyStepKeepsInv : Obligations.EveryStepKeepsInv := by
  intro s t h he
  unfold step at he
  split at he
  · exact hostStep_machineInv h he
  · exact absurd he nofun

end Sys2Proof.Machine
end

section
/-! The obligations on which command writes which register (spec/10_state.md R36 to R38, R43, R44, R47 to R49, R51,
spec/30_encoding.md R122, R130): read off the eight shapes a plain command leaves and the end of CONVERT. -/

namespace Sys2Proof.Machine

/-! ### The registers CONVERT leaves -/

theorem settlePalette_imageOnly (s : State) : ImageOnly s s.settlePalette := by
  unfold State.settlePalette
  split
  · exact .refl s
  · exact setPalette_imageOnly s 0 0

/-- What CONVERT and NEGOTIATE_AND_CONVERT leave besides STATUS, the image's registers, IMG_FLAGS and TGT_FMT. -/
structure ConvertFrame (s t : State) : Prop where
  config : sameConfig s t
  host : hostAdvances s t
  res : t.res = s.res
  tb : t.tb = s.tb
  alphaRampRule : t.alphaRampRule = s.alphaRampRule

/-- A state that ends a command from u, where u agrees with s on all that the frame names. -/
theorem ConvertFrame.of_end {s u t : State} (hu : ImageOnly s u) (hcaps : t.caps = u.caps) (hpz : t.pzCfg = u.pzCfg)
    (hargs : t.args = u.args) (hhost : t.host = { u.host with hpc := u.host.hpc + 1 }) (hres : t.res = u.res)
    (htb : t.tb = u.tb) (hramp : t.alphaRampRule = u.alphaRampRule) : ConvertFrame s t := by
  refine ⟨⟨hcaps.trans hu.caps, hpz.trans hu.pzCfg, hargs.trans hu.args⟩, ?_, hres.trans hu.res, htb.trans hu.tb,
    hramp.trans hu.alphaRampRule⟩
  unfold hostAdvances
  rw [hhost, hu.host]
  exact ⟨rfl, rfl, rfl, rfl⟩

theorem ConvertEnd.frame {s : State} {o : ConvOut} (ho : ConvertEnd s o) (opc : Byte) :
    ConvertFrame s (o.finish opc) ∧ (o.finish opc).tgtFmt = s.tgtFmt := by
  cases ho with
  | failed u truncated e hu he => exact ⟨.of_end hu.frame rfl rfl rfl rfl rfl rfl rfl, hu.frame.tgtFmt⟩
  | unchanged u truncated hu => exact ⟨.of_end hu.frame rfl rfl rfl rfl rfl rfl rfl, hu.frame.tgtFmt⟩
  | rescanned u alpha truncated hu =>
    have settled := settlePalette_imageOnly (u.setHasAlpha alpha)
    exact ⟨.of_end hu.frame settled.caps settled.pzCfg settled.args (congrArg (fun a => { a with hpc := a.hpc + 1 }) settled.host)
      settled.res settled.tb settled.alphaRampRule, settled.tgtFmt.trans hu.frame.tgtFmt⟩

theorem negotiateAndConvert_frame (s : State) : ConvertFrame s (negotiateAndConvert s) := by
  unfold negotiateAndConvert
  cases hr : negotiateTarget s with
  | error e => exact .of_end (.refl s) rfl rfl rfl rfl rfl rfl rfl
  | ok u =>
    obtain ⟨T, -, rfl⟩ := negotiateTarget_ok hr
    obtain ⟨⟨hconfig, hhost, hres, htb, hramp⟩, -⟩ := (convertImage_end (s.setTgtFmt T.toWord)).frame 0x09
    exact ⟨hconfig, hhost, hres, htb, hramp⟩

/-- Settles O52: each shape a command leaves writes only the registers of its rule. -/
theorem registerFrame : Obligations.RegisterFrame := by
  intro i s t h
  rcases exec_cases h with hend | ⟨rfl, rfl⟩ | ⟨rfl, rfl⟩
  · cases hend with
    | failed e he => simp [sameConfig, hostAdvances, sameImage]
    | done u hu => cases hu <;> simp [sameConfig, hostAdvances, sameImage, clearImage]
  · obtain ⟨⟨hconfig, hhost, -, htb, hramp⟩, htgt⟩ := (convertImage_end s).frame 0x07
    exact ⟨hconfig, hhost, hramp, fun _ => htb, fun _ _ => htgt, fun h => absurd rfl h, fun h => absurd rfl h⟩
  · obtain ⟨hconfig, hhost, -, htb, hramp⟩ := negotiateAndConvert_frame s
    exact ⟨hconfig, hhost, hramp, fun _ => htb, fun _ h => absurd rfl h, fun _ h => absurd rfl h, fun _ h => absurd rfl h⟩

/-! ### RES0 to RES3 -/

/-- Which command writes RES, and what it then holds: nothing but RES0 and, for FETCH_COLOR, RES1; and only without an error. -/
theorem exec_res {i : Instr} {s t : State} (h : exec i s = .next t) :
    t.res = s.res
    ∨ (t.errField = 0 ∧ (i = .resolveIndex ∨ i = .alphaScan) ∧ ∃ v, t.res = s.res.set 0 v)
    ∨ (t.errField = 0 ∧ i = .fetchColor ∧ ∃ v found, t.res = (s.res.set 0 v).set 1 found) := by
  rcases exec_cases h with hend | ⟨-, rfl⟩ | ⟨-, rfl⟩
  · cases hend with
    | failed e he => exact .inl rfl
    | done u hu =>
      cases hu with
      | index v => exact .inr (.inl ⟨complete_errField .., .inl rfl, v, rfl⟩)
      | colour v found => exact .inr (.inr ⟨complete_errField .., rfl, v, found, rfl⟩)
      | scanned v alpha => exact .inr (.inl ⟨complete_errField .., .inr rfl, v, rfl⟩)
      | _ => exact .inl rfl
  · exact .inl ((convertImage_end s).frame 0x07).1.res
  · exact .inl (negotiateAndConvert_frame s).res

theorem setReg_res (s : State) (r : Reg) (v : Word) : (s.setReg r v).res = s.res := by cases r <;> rfl

theorem writeReg_res (s : State) (off : Nat) (v : Word) : (s.writeReg off v).res = s.res := by
  unfold State.writeReg
  split
  · exact setReg_res ..
  · rfl

/-- A host write of a register other than CMD that is a move of the host. -/
theorem hostWrite_next {off : Nat} {v : Word} {s t : State} (hoff : off ≠ 0) (h : hostWrite off v s = .next t) :
    t = (s.writeReg off v).advance := by
  simp only [hostWrite, if_neg hoff] at h
  split at h
  · exact (Host.Outcome.next.inj h).symm
  · exact absurd h nofun

/-- A step at which the host writes a register. -/
theorem step_write {s : State} {off : Nat} {hv : HostVal} {v : Word} (hop : fetchOp s = some (.wr off hv))
    (hval : s.hostVal hv = some v) : step s = hostWrite off v s := by
  simp only [step, hop, hostStep, hval]

/-- Settles O53: from the three shapes that write RES, and from the registers a host write sets. -/
theorem resultRegisters : Obligations.ResultRegisters := by
  refine ⟨by decide, fun i s t h => ?_, fun s t off v hop hoff h => ?_⟩
  · rcases exec_res h with hres | ⟨herr, hi, v, hres⟩ | ⟨herr, hi, v, found, hres⟩
    · simp [hres]
    · rcases hi with rfl | rfl <;> simp [hres, herr]
    · simp [hres, herr, hi]
  · rw [step_write hop rfl] at h
    rw [hostWrite_next hoff h]
    exact writeReg_res s off v

/-! ### IMG_FLAGS -/

theorem settlePalette_imgFlags (s : State) : s.settlePalette.imgFlags = s.imgFlags := (settlePalette_imageOnly s).imgFlags

theorem ConvertEnd.imgFlags {s : State} {o : ConvOut} (ho : ConvertEnd s o) (opc : Byte) :
    (o.finish opc).imgFlags = s.imgFlags
    ∨ ((o.finish opc).errField = 0 ∧ ∃ alpha, (o.finish opc).imgFlags = withBit s.imgFlags 0 alpha) := by
  cases ho with
  | failed u truncated e hu he => exact .inl hu.frame.imgFlags
  | unchanged u truncated hu => exact .inl hu.frame.imgFlags
  | rescanned u alpha truncated hu =>
    refine .inr ⟨complete_errField .., alpha, ?_⟩
    exact (settlePalette_imgFlags _).trans (congrArg (withBit · 0 alpha) hu.frame.imgFlags)

theorem negotiateAndConvert_imgFlags (s : State) :
    (negotiateAndConvert s).imgFlags = s.imgFlags
    ∨ ((negotiateAndConvert s).errField = 0 ∧ ∃ alpha, (negotiateAndConvert s).imgFlags = withBit s.imgFlags 0 alpha) := by
  unfold negotiateAndConvert
  cases hr : negotiateTarget s with
  | error e => exact .inl rfl
  | ok u =>
    obtain ⟨T, -, rfl⟩ := negotiateTarget_ok hr
    exact (convertImage_end (s.setTgtFmt T.toWord)).imgFlags 0x09

/-- Which command writes IMG_FLAGS: HAS_ALPHA or ACQUIRED, one bit, and only without an error. -/
theorem exec_imgFlags {i : Instr} {s t : State} (h : exec i s = .next t) :
    t.imgFlags = s.imgFlags
    ∨ (t.errField = 0 ∧ (i = .convert ∨ i = .negotiateAndConvert ∨ i = .alphaScan) ∧ ∃ alpha, t.imgFlags = withBit s.imgFlags 0 alpha)
    ∨ (t.errField = 0 ∧ i = .release ∧ t.imgFlags = withBit s.imgFlags 2 false) := by
  rcases exec_cases h with hend | ⟨hi, rfl⟩ | ⟨hi, rfl⟩
  · cases hend with
    | failed e he => exact .inl rfl
    | done u hu =>
      cases hu with
      | scanned v alpha => exact .inr (.inl ⟨complete_errField .., .inr (.inr rfl), alpha, rfl⟩)
      | released hs => exact .inr (.inr ⟨complete_errField .., rfl, rfl⟩)
      | _ => exact .inl rfl
  · rcases (convertImage_end s).imgFlags 0x07 with hflags | ⟨herr, hflags⟩
    · exact .inl hflags
    · exact .inr (.inl ⟨herr, .inl hi, hflags⟩)
  · rcases negotiateAndConvert_imgFlags s with hflags | ⟨herr, hflags⟩
    · exact .inl hflags
    · exact .inr (.inl ⟨herr, .inr (.inl hi), hflags⟩)

/-- Settles O54: the one bit a command writes leaves the others. -/
theorem imageFlags : Obligations.ImageFlags := by
  intro i s t h
  unfold State.isStandalone State.acquired State.hasAlpha
  rcases exec_imgFlags h with hflags | ⟨herr, hi, alpha, hflags⟩ | ⟨herr, rfl, hflags⟩
  · simp [hflags]
  · have other (k : Nat) (hk : k ≠ 0) : bit t.imgFlags k = bit s.imgFlags k := by
      rw [hflags, bit_withBit _ _ _ _ (by decide), if_neg hk]
    refine ⟨other 1 (by decide), fun k hk => other k (by omega), fun _ => other 2 (by decide), fun h1 h2 h3 => ?_,
      fun h => absurd herr h⟩
    exact (hi.elim h1 fun hi => hi.elim h2 h3).elim
  · have other (k : Nat) (hk : k ≠ 2) : bit t.imgFlags k = bit s.imgFlags k := by
      rw [hflags, bit_withBit _ _ _ _ (by decide), if_neg hk]
    exact ⟨other 1 (by decide), fun k hk => other k (by omega), fun h => absurd rfl h, fun _ _ _ => other 0 (by decide),
      fun h => absurd herr h⟩

end Sys2Proof.Machine
end

section
/-! The obligations on CMD and on the register window (spec/10_state.md R30 to R32, spec/20_memory.md R101, spec/30_encoding.md
R124, R128): what a write of CMD issues, where each register stands, and what a host access reads and keeps. -/

namespace Sys2Proof.Machine

/-! ### The fields of a command word -/

theorem opcField_toNat (w : Word) : (opcField w).toNat = w.toNat % 2 ^ 8 := by simp [opcField]

theorem typeField_toNat (w : Word) : (typeField w).toNat = w.toNat / 2 ^ 8 % 2 ^ 3 := by
  simp [typeField, Nat.shiftRight_eq_div_pow]

theorem reservedField_toNat (w : Word) : (reservedField w).toNat = w.toNat / 2 ^ 11 := by
  have := w.isLt
  simp only [reservedField, BitVec.extractLsb'_toNat, Nat.shiftRight_eq_div_pow]
  omega

theorem blockTypeOf_some {t : BitVec 3} {ty : BlockType} (h : blockTypeOf t = some ty) :
    t = (decodeBlockInstr ty).typeCode ∧ t = (encodeBlockInstr ty).typeCode := by
  unfold blockTypeOf at h
  split at h
  case h_6 => exact absurd h nofun
  all_goals
    next ht =>
      obtain rfl := Option.some.inj h
      exact ⟨BitVec.eq_of_toNat_eq ht, BitVec.eq_of_toNat_eq ht⟩

theorem plainInstr_some {opc : Byte} {i : Instr} (h : plainInstr opc = some i) : opc = i.opc ∧ i.typeCode = 0 := by
  unfold plainInstr at h
  split at h
  case h_9 => exact absurd h nofun
  all_goals
    next ho =>
      obtain rfl := Option.some.inj h
      exact ⟨BitVec.eq_of_toNat_eq ho, rfl⟩

/-- A word that decodes to a command has that command's fields (30_encoding R124). -/
theorem decode_fields {w : Word} {i : Instr} (h : decode w = .ok i) :
    reservedField w = 0 ∧ opcField w = i.opc ∧ typeField w = i.typeCode := by
  unfold decode at h
  split_ifs at h with hres hdec henc htype
  · cases hty : blockTypeOf (typeField w) with
    | none => simp [hty] at h
    | some ty =>
      obtain rfl : decodeBlockInstr ty = i := by simpa [hty] using h
      exact ⟨Decidable.not_not.1 hres, by cases ty <;> exact hdec, (blockTypeOf_some hty).1⟩
  · cases hty : blockTypeOf (typeField w) with
    | none => simp [hty] at h
    | some ty =>
      obtain rfl : encodeBlockInstr ty = i := by simpa [hty] using h
      exact ⟨Decidable.not_not.1 hres, by cases ty <;> exact henc, (blockTypeOf_some hty).2⟩
  · cases hi : plainInstr (opcField w) with
    | none => simp [hi] at h
    | some j =>
      obtain rfl : j = i := by simpa [hi] using h
      obtain ⟨hopc, hcode⟩ := plainInstr_some hi
      exact ⟨Decidable.not_not.1 hres, hopc, htype.trans hcode.symm⟩
  · cases hi : plainInstr (opcField w) <;> simp [hi] at h

theorem legalWord_of_decode {w : Word} {i : Instr} (h : decode w = .ok i) : legalWord w := by
  obtain ⟨hres, hopc, htype⟩ := decode_fields h
  unfold legalWord
  rw [← opcField_toNat, ← typeField_toNat, ← reservedField_toNat, hres, hopc, htype]
  cases i <;> decide

/-! ### The issue of a command -/

theorem exec_next (i : Instr) (s : State) : ∃ t, exec i s = .next t := by cases i <;> exact ⟨_, rfl⟩

theorem finish_opcReported (o : ConvOut) (opc : Byte) : (o.finish opc).opcReported = opc.toNat := by
  unfold ConvOut.finish
  split
  · exact (complete_fields ..).2.1
  · exact raiseError_opcReported ..

theorem exec_opcReported {i : Instr} {s t : State} (h : exec i s = .next t) : t.opcReported = i.opc.toNat := by
  rcases exec_cases h with hend | ⟨rfl, rfl⟩ | ⟨rfl, rfl⟩
  · cases hend with
    | failed e he => exact raiseError_opcReported ..
    | done u hu => exact (complete_fields ..).2.1
  · exact finish_opcReported ..
  · unfold negotiateAndConvert
    split
    · exact raiseError_opcReported ..
    · exact finish_opcReported ..

theorem issue_of_decode {w : Word} {i : Instr} (s : State) (h : decode w = .ok i) : issue w s = exec i s := by
  simp only [issue, h]

theorem issue_of_illegal {w : Word} (s : State) (h : ¬ legalWord w) : issue w s = .next (illegalCommand w s) := by
  cases hd : decode w with
  | ok i => exact absurd (legalWord_of_decode hd) h
  | error r => simp only [issue, hd]

theorem issue_opcReported (w : Word) (s : State) : ∃ t, issue w s = .next t ∧ t.opcReported = w.toNat % 2 ^ 8 := by
  cases hd : decode w with
  | ok i =>
    obtain ⟨t, ht⟩ := exec_next i s
    refine ⟨t, (issue_of_decode s hd).trans ht, ?_⟩
    rw [exec_opcReported ht, ← (decode_fields hd).2.1, opcField_toNat]
  | error r => exact ⟨illegalCommand w s, by simp only [issue, hd], (raiseError_opcReported ..).trans (opcField_toNat w)⟩

/-- An error changes nothing but STATUS and the host's position (60_exceptions R353). -/
theorem raiseError_onlyStatus (s : State) (opc : Byte) (e : Raise) (truncated : Bool) :
    onlyStatus s (s.raiseError opc e truncated) ∧ sameOracle s (s.raiseError opc e truncated)
      ∧ hostAdvances s (s.raiseError opc e truncated) :=
  ⟨⟨⟨rfl, rfl, rfl⟩, ⟨rfl, rfl, rfl, rfl, rfl⟩, rfl, rfl, rfl, rfl, fun _ => ⟨rfl, fun _ => rfl⟩, rfl⟩, ⟨rfl, rfl⟩,
    rfl, rfl, rfl, rfl⟩

/-- The write of CMD is the issue of a command (10_state R32). -/
theorem step_issue {s : State} {v : HostVal} {w : Word} (hop : fetchOp s = some (.wr 0 v)) (hval : s.hostVal v = some w) :
    step s = issue w s := step_write hop hval

/-- Settles O5: a write of CMD is the issue of its word, and a word that decodes is its command. -/
theorem stepRunsDecodedCommand : Obligations.StepRunsDecodedCommand := fun s _ _ _ hop hval hdec =>
  (step_issue hop hval).trans (issue_of_decode s hdec)

theorem readReg_zero (s : State) : s.readReg 0 = 0 := BitVec.zero_and

/-- Settles O6: the word decodes, and its command reports its OPC, or it is illegal and only STATUS changes. -/
theorem commandRegister : Obligations.CommandRegister := by
  intro s v w hop hval
  have hstep := step_issue hop hval
  refine ⟨hstep, ?_, fun i hdec => hstep.trans (issue_of_decode s hdec), fun hill => ?_⟩
  · obtain ⟨t, ht, hopc⟩ := issue_opcReported w s
    exact ⟨t, hstep.trans ht, hopc, readReg_zero t⟩
  · obtain ⟨herr, hopc, hstage, hmip, hchanged, htruncated, -⟩ :=
      raiseError_fields s (opcField w) false (Raise.fits_of_stage_zero (c := .illegalCommand))
    exact ⟨illegalCommand w s, hstep.trans (issue_of_illegal s hill), herr, hopc.trans (opcField_toNat w), hstage, hmip,
      hchanged, htruncated, raiseError_onlyStatus ..⟩

/-! ### The register map -/

/-- The offset of a register in the window (10_state R31). -/
def Reg.offset : Reg → Nat
  | .cmd => 0x000
  | .status => 0x004
  | .caps => 0x008
  | .pzCfg => 0x00C
  | .arg i => 0x010 + 4 * i
  | .res i => 0x030 + 4 * i
  | .tb i => 0x040 + 4 * i
  | .imgFmt => 0x080
  | .imgFlags => 0x084
  | .palBuf => 0x088
  | .palCount => 0x08C
  | .mipCount => 0x090
  | .tgtFmt => 0x094
  | .mipBuf i => 0x100 + 16 * i
  | .mipSdim i => 0x104 + 16 * i
  | .mipLdim i => 0x108 + 16 * i
  | .mipSize i => 0x10C + 16 * i

/-- The map gives back the register whose offset it is asked for. -/
theorem regAt_offset (r : Reg) : regAt r.offset = some r := by
  cases r with
  | arg i | res i | tb i | mipBuf i | mipSdim i | mipLdim i | mipSize i => revert i; decide
  | _ => rfl

/-- No two aligned offsets share a register: each stands at its own. -/
theorem offset_of_regAt {off : Nat} {r : Reg} (hal : off % 4 = 0) (h : regAt off = some r) : r.offset = off := by
  unfold regAt at h
  split_ifs at h
  case pos =>
    have hoff : off = 0x0 ∨ off = 0x4 ∨ off = 0x8 ∨ off = 0xC := by omega
    rcases hoff with rfl | rfl | rfl | rfl <;> exact Option.some.inj h ▸ rfl
  case pos =>
    rw [← Option.some.inj h]
    show 0x10 + 4 * ((off - 0x10) / 4 % 8) = off
    omega
  case pos =>
    rw [← Option.some.inj h]
    show 0x30 + 4 * ((off - 0x30) / 4 % 4) = off
    omega
  case pos =>
    rw [← Option.some.inj h]
    show 0x40 + 4 * ((off - 0x40) / 4 % 16) = off
    omega
  case pos =>
    have hoff : off = 0x80 ∨ off = 0x84 ∨ off = 0x88 ∨ off = 0x8C ∨ off = 0x90 ∨ off = 0x94 := by omega
    rcases hoff with rfl | rfl | rfl | rfl | rfl | rfl <;> exact Option.some.inj h ▸ rfl
  case pos =>
    split at h
    next hk =>
      rw [← Option.some.inj h]
      show 0x100 + 16 * ((off - 0x100) / 16 % 16) = off
      omega
    next hk =>
      rw [← Option.some.inj h]
      show 0x104 + 16 * ((off - 0x100) / 16 % 16) = off
      omega
    next hk =>
      rw [← Option.some.inj h]
      show 0x108 + 16 * ((off - 0x100) / 16 % 16) = off
      omega
    next h0 h1 h2 =>
      rw [imp_false] at h0 h1 h2
      rw [← Option.some.inj h]
      show 0x10C + 16 * ((off - 0x100) / 16 % 16) = off
      omega

theorem regAt_reserved {off : Nat} (h : 0x98 ≤ off ∧ off < 0x100 ∨ 0x200 ≤ off) : regAt off = none := by
  unfold regAt
  rw [if_neg (by omega), if_neg (by omega), if_neg (by omega), if_neg (by omega), if_neg (by omega)]
  rcases h with h | h
  · rw [if_pos h.2]
  · rw [if_neg (by omega), if_neg (by omega)]

/-- Settles O9: each offset is its register's own, and the two reserved ranges have none. -/
theorem registerMap : Obligations.RegisterMap :=
  ⟨rfl, rfl, rfl, rfl, fun i => regAt_offset (.arg i), fun i => regAt_offset (.res i), fun t => regAt_offset (.tb t),
    rfl, rfl, rfl, rfl, rfl, rfl, fun k => regAt_reserved (.inl ⟨by omega, by omega⟩),
    fun i => ⟨regAt_offset (.mipBuf i), regAt_offset (.mipSdim i), regAt_offset (.mipLdim i), regAt_offset (.mipSize i)⟩,
    fun k => regAt_reserved (.inr (by omega))⟩

end Sys2Proof.Machine
end

section
/-! The obligation on host accesses to the register window (spec/10_state.md R30, spec/20_memory.md R101, spec/30_encoding.md
R128): a write moves the one register it names, a read gives its defined bits, and other accesses are refused. -/

namespace Sys2Proof.Machine

/-! ### The registers after a write -/

/-- What a register reads after it is written: the value, unless the host cannot write it (10_state R31). -/
def Reg.written (s : State) (v : Word) : Reg → Word
  | .cmd => 0
  | .status => s.status
  | .res i => s.res[i]
  | _ => v

theorem reg_setReg_same (s : State) (r : Reg) (v : Word) : (s.setReg r v).reg r = r.written s v := by
  cases r <;> simp [State.setReg, State.reg, Reg.written]

/-- A field of a mip level that a write of another level, or of another field, keeps. -/
theorem mips_set_field (f : MipRegs → Word) {mips : Vector MipRegs 16} {m : MipRegs} {i j : Fin 16}
    (hf : j = i → f m = f mips[i]) : f (mips.set i m)[j] = f mips[j] := by
  by_cases h : j = i
  · subst h
    simpa using hf rfl
  · have hne : (i : Nat) ≠ j := fun e => h (Fin.ext e.symm)
    simp [hne]

theorem reg_setReg_other (s : State) {r r' : Reg} (v : Word) (h : r' ≠ r) : (s.setReg r v).reg r' = s.reg r' := by
  cases r with
  | cmd | status | res i => rfl
  | caps | pzCfg | imgFmt | imgFlags | palBuf | palCount | mipCount | tgtFmt => cases r' <;> simp_all [State.setReg, State.reg]
  | arg i =>
    cases r' with
    | arg j =>
      have hne : (i : Nat) ≠ j := fun e => h (congrArg Reg.arg (Fin.ext e.symm))
      simp [State.setReg, State.reg, hne]
    | _ => rfl
  | tb i =>
    cases r' with
    | tb j =>
      have hne : (i : Nat) ≠ j := fun e => h (congrArg Reg.tb (Fin.ext e.symm))
      simp [State.setReg, State.reg, hne]
    | _ => rfl
  | mipBuf i | mipSdim i | mipLdim i | mipSize i =>
    cases r' with
    | mipBuf j => exact mips_set_field MipRegs.buf fun e => by simp_all
    | mipSdim j => exact mips_set_field MipRegs.sdim fun e => by simp_all
    | mipLdim j => exact mips_set_field MipRegs.ldim fun e => by simp_all
    | mipSize j => exact mips_set_field MipRegs.size fun e => by simp_all
    | _ => rfl

theorem setReg_host (s : State) (r : Reg) (v : Word) : (s.setReg r v).host = s.host := by cases r <;> rfl

theorem writeReg_host (s : State) (off : Nat) (v : Word) : (s.writeReg off v).host = s.host := by
  unfold State.writeReg
  split
  · exact setReg_host ..
  · rfl

theorem writeReg_heap (s : State) (off : Nat) (v : Word) : (s.writeReg off v).heap = s.heap := by
  unfold State.writeReg
  split
  · exact setReg_heap ..
  · rfl

theorem readReg_of_regAt {s : State} {off : Nat} {r : Reg} (h : regAt off = some r) : s.readReg off = s.reg r &&& r.defined := by
  simp only [State.readReg, h]

theorem readReg_of_reserved {s : State} {off : Nat} (h : regAt off = none) : s.readReg off = 0 := by
  simp only [State.readReg, h]

theorem writeReg_of_regAt {s : State} {off : Nat} {r : Reg} {v : Word} (h : regAt off = some r) :
    s.writeReg off v = s.setReg r (v &&& r.defined) := by
  simp only [State.writeReg, h]

theorem writeReg_of_reserved {s : State} {off : Nat} {v : Word} (h : regAt off = none) : s.writeReg off v = s := by
  simp only [State.writeReg, h]

theorem readReg_advance (s : State) (off : Nat) : s.advance.readReg off = s.readReg off := by
  unfold State.readReg
  split
  · next r _ => cases r <;> rfl
  · rfl

/-- A write leaves what every other offset reads (10_state R30). -/
theorem readReg_writeReg_other (s : State) {off o : Nat} (v : Word) (hoff : off % 4 = 0) (ho : o % 4 = 0) (hne : o ≠ off) :
    (s.writeReg off v).readReg o = s.readReg o := by
  cases hr : regAt off with
  | none => rw [writeReg_of_reserved hr]
  | some r =>
    rw [writeReg_of_regAt hr]
    cases hr' : regAt o with
    | none => rw [readReg_of_reserved hr', readReg_of_reserved hr']
    | some r' =>
      have hreg : r' ≠ r := by
        rintro rfl
        exact hne ((offset_of_regAt ho hr').symm.trans (offset_of_regAt hoff hr))
      rw [readReg_of_regAt hr', readReg_of_regAt hr', reg_setReg_other s _ hreg]

theorem readReg_writeReg_same (s : State) {off : Nat} {r : Reg} (v : Word) (hr : regAt off = some r) :
    (s.writeReg off v).readReg off = r.written s (v &&& r.defined) &&& r.defined := by
  rw [writeReg_of_regAt hr, readReg_of_regAt hr, reg_setReg_same]

/-! ### The accesses the host has -/

theorem regAccessOk_iff {off : Nat} : regAccessOk off = true ↔ off % 4 = 0 ∧ off < 4096 := by
  rw [regAccessOk, Bool.and_eq_true, decide_eq_true_eq, decide_eq_true_eq]
  rfl

theorem regAccessOk_false {off : Nat} (h : off % 4 ≠ 0 ∨ 4096 ≤ off) : ¬ regAccessOk off = true := by
  rw [regAccessOk_iff]
  omega

theorem hostWrite_of_ok {off : Nat} (v : Word) (s : State) (hal : off % 4 = 0) (hlt : off < 4096) (h0 : off ≠ 0) :
    hostWrite off v s = .next (s.writeReg off v).advance := by
  rw [hostWrite, if_pos (regAccessOk_iff.2 ⟨hal, hlt⟩), if_neg h0]

theorem step_read {s : State} {off : Nat} {k : Option Nat} (hop : fetchOp s = some (.rd off k)) :
    step s = hostRead off k s := by
  simp only [step, hop, hostStep]

theorem hostRead_of_ok {off : Nat} (k : Option Nat) (s : State) (hal : off % 4 = 0) (hlt : off < 4096) :
    hostRead off k s = .next (((s.observe (.value (s.readReg off))).bindOpt k (s.readReg off)).advance) := by
  rw [hostRead, if_pos (regAccessOk_iff.2 ⟨hal, hlt⟩)]

/-- A move that changes the host alone leaves the block as it was. -/
theorem onlyStatus_host (s : State) (agent : HostAgent) : onlyStatus s { s with host := agent } :=
  ⟨⟨rfl, rfl, rfl⟩, ⟨rfl, rfl, rfl, rfl, rfl⟩, rfl, rfl, rfl, rfl, fun _ => ⟨rfl, fun _ => rfl⟩, rfl⟩

theorem lookupName_bindName (names : List (Nat × Word)) (k : Nat) (w : Word) : lookupName (bindName names k w) k = some w := by
  simp [bindName, lookupName]

/-- What a register reads after a host write of it, as the register's kind says. -/
theorem readReg_after_write (s : State) {off : Nat} (v : Word) : (s.writeReg off v).readReg off = (match regAt off with
    | none => 0
    | some .status => s.readReg off
    | some (.res _) => s.readReg off
    | some r => v &&& r.defined) := by
  cases hr : regAt off with
  | none => exact readReg_of_reserved hr
  | some r =>
    rw [readReg_writeReg_same s v hr, readReg_of_regAt hr]
    cases r with
    | cmd => exact BitVec.zero_and.trans BitVec.and_zero.symm
    | status | res i => rfl
    | _ => exact (BitVec.and_assoc ..).trans (congrArg (v &&& ·) (BitVec.and_self ..))

/-- Settles O8: an aligned access in the window goes to the register at its offset, every other one is refused. -/
theorem registerAccess : Obligations.RegisterAccess := by
  intro s off
  refine ⟨fun hv v hop hval hal hlt h0 => ?_, fun k hop hal hlt => ?_, fun r hr => ?_, fun hr => readReg_of_reserved hr,
    fun hbad => ⟨fun hv v hop hval => ?_, fun k hop => ?_⟩, fun hv hop hval => ?_⟩
  · refine ⟨_, (step_write hop hval).trans (hostWrite_of_ok v s hal hlt h0), ?_, writeReg_heap s off v, ?_, fun o ho _ hne => ?_⟩
    · unfold hostAdvances
      rw [State.advance_host, writeReg_host]
      exact ⟨rfl, rfl, rfl, rfl⟩
    · exact (readReg_advance ..).trans (readReg_after_write s v)
    · rw [readReg_advance, readReg_writeReg_other s v hal ho hne]
  · refine ⟨_, (step_read hop).trans (hostRead_of_ok k s hal hlt), ?_⟩
    cases k with
    | none => exact ⟨rfl, onlyStatus_host s _, rfl, rfl, nofun⟩
    | some j => exact ⟨rfl, onlyStatus_host s _, rfl, rfl, fun _ hj => Option.some.inj hj ▸ lookupName_bindName ..⟩
  · rw [readReg_of_regAt hr]
    exact r.clear_and_defined _
  · rw [step_write hop hval, hostWrite, if_neg (regAccessOk_false hbad)]
  · rw [step_read hop, hostRead, if_neg (regAccessOk_false hbad)]
  · simp only [step, hop, hostStep, hval]

end Sys2Proof.Machine
end

section
/-! The obligation on the well-formedness of a descriptor (spec/10_state.md R42, R53), each field read as a number. -/

namespace Sys2Proof.Machine

/-- What direct and indexed descriptors share, in numbers (10_state R53). -/
def Desc.PixelsOk (D : Desc) : Prop :=
  1 ≤ D.raster.toNat ∧ D.raster.toNat ≤ 8 ∧ 1 ≤ D.rowAlign.toNat ∧ D.order.toNat ≤ 2
    ∧ ¬ (D.order = 2 ∧ (D.raster = 1 ∨ D.raster = 2 ∨ D.raster = 7 ∨ D.raster = 6))

/-- The depth of a direct texel, in numbers (10_state R42). -/
def Desc.DepthOk (D : Desc) : Prop :=
  (D.raster.toNat ∈ [1, 2, 3, 7, 8] → D.depth.toNat = 16) ∧ (D.raster.toNat = 4 → D.depth.toNat = 8)
    ∧ (D.raster.toNat = 5 → D.depth.toNat = 32) ∧ (D.raster.toNat = 6 → D.depth.toNat = 24 ∨ D.depth.toNat = 32)

theorem order_ne_three_iff {o : BitVec 2} : o ≠ 3 ↔ o.toNat ≤ 2 := by revert o; decide

theorem rowAlign_ne_zero_iff {a : BitVec 8} : a ≠ 0 ↔ 1 ≤ a.toNat := by
  rw [ne_eq, ← BitVec.toNat_inj]
  exact Nat.one_le_iff_ne_zero.symm

/-- The raster formats that have a pixel layout, and those of them that WF refuses in ABGR order. -/
theorem raster_pixels_iff {c : BitVec 4} {abgr : Bool} :
    ((match rasterOf c with
      | none => false
      | some .default => false
      | some f => !(abgr && refusesAbgr f)) = true)
    ↔ 1 ≤ c.toNat ∧ c.toNat ≤ 8 ∧ ¬ (abgr = true ∧ (c = 1 ∨ c = 2 ∨ c = 7 ∨ c = 6)) := by
  revert c abgr; decide

theorem Desc.pixelsOk_iff {D : Desc} : D.pixelsOk = true ↔ D.PixelsOk := by
  unfold Desc.pixelsOk Desc.PixelsOk
  rw [Bool.and_eq_true, Bool.and_eq_true, decide_eq_true_eq, decide_eq_true_eq, order_ne_three_iff, rowAlign_ne_zero_iff]
  have h := raster_pixels_iff (c := D.raster) (abgr := decide (D.order = 2))
  rw [decide_eq_true_eq] at h
  refine (and_congr_left' (and_congr_left' h)).trans ?_
  tauto

/-- The depths R42 lists for a format. -/
theorem Desc.depthSet_iff {D : Desc} (hp : D.PixelsOk) : (depthSet D.rasterF).contains D.depth.toNat = true ↔ D.DepthOk := by
  obtain ⟨hlo, hhi, -⟩ := hp
  unfold Desc.rasterF rasterOf Desc.DepthOk
  generalize D.raster.toNat = r at *
  interval_cases r <;> simp [depthSet]

theorem comp_legal_iff {D : Desc} :
    D.comp ≠ 0 ∧ D.reservedComp = false ↔ 1 ≤ D.comp.toNat ∧ D.comp.toNat ≤ 5 := by
  unfold Desc.reservedComp
  generalize D.comp = c
  revert c; decide

/-- A direct descriptor (10_state R53). -/
theorem Desc.wf_direct {D : Desc} (hc : D.comp = 0) (hp : D.palMode = palNone) :
    D.wf = true ↔ D.PixelsOk ∧ D.DepthOk := by
  rw [Desc.wf, if_pos hc, if_pos hp, Bool.and_eq_true, Desc.pixelsOk_iff]
  exact and_congr_right Desc.depthSet_iff

/-- An indexed descriptor with a 4-bit palette (10_state R53). -/
theorem Desc.wf_pal4 {D : Desc} (hc : D.comp = 0) (hp : D.palMode = pal4) :
    D.wf = true ↔ D.PixelsOk ∧ (D.depth.toNat = 4 ∨ D.depth.toNat = 8) := by
  rw [Desc.wf, if_pos hc, if_neg (by rw [hp]; decide), if_pos hp, Bool.and_eq_true, Desc.pixelsOk_iff, Bool.or_eq_true,
    decide_eq_true_eq, decide_eq_true_eq, ← BitVec.toNat_inj, ← BitVec.toNat_inj]
  rfl

/-- An indexed descriptor with an 8-bit palette (10_state R53). -/
theorem Desc.wf_pal8 {D : Desc} (hc : D.comp = 0) (hp : D.palMode = pal8) :
    D.wf = true ↔ D.PixelsOk ∧ D.depth.toNat = 8 := by
  rw [Desc.wf, if_pos hc, if_neg (by rw [hp]; decide), if_neg (by rw [hp]; decide), if_pos hp, Bool.and_eq_true,
    Desc.pixelsOk_iff, decide_eq_true_eq, ← BitVec.toNat_inj]
  rfl

/-- A compressed descriptor (10_state R53). -/
theorem Desc.wf_compressed {D : Desc} (hc : D.comp ≠ 0) :
    D.wf = true ↔ D.comp.toNat ≤ 5 ∧ D.palMode.toNat = 0 ∧ D.order.toNat ≤ 2 := by
  have hcomp := comp_legal_iff (D := D)
  have hpos : 1 ≤ D.comp.toNat := Nat.one_le_iff_ne_zero.2 fun h => hc (BitVec.eq_of_toNat_eq h)
  simp only [hc, ne_eq, not_false_eq_true, true_and, hpos] at hcomp
  rw [Desc.wf, if_neg hc, Bool.and_eq_true, Bool.and_eq_true, Bool.not_eq_true', hcomp, decide_eq_true_eq, decide_eq_true_eq,
    order_ne_three_iff, ← BitVec.toNat_inj, and_assoc]
  rfl

/-- Settles O32: the kinds of descriptor by COMP and PALMODE, each with its own clauses. -/
theorem wellFormedDescriptor : Obligations.WellFormedDescriptor := by
  intro D
  show D.wf = true ↔ (D.comp.toNat = 0 ∧ D.palMode.toNat = 0 ∧ D.PixelsOk ∧ D.DepthOk)
    ∨ (D.comp.toNat = 0 ∧ D.palMode.toNat = 1 ∧ D.PixelsOk ∧ (D.depth.toNat = 4 ∨ D.depth.toNat = 8))
    ∨ (D.comp.toNat = 0 ∧ D.palMode.toNat = 2 ∧ D.PixelsOk ∧ D.depth.toNat = 8)
    ∨ (1 ≤ D.comp.toNat ∧ D.comp.toNat ≤ 5 ∧ D.palMode.toNat = 0 ∧ D.order.toNat ≤ 2)
  by_cases hc : D.comp = 0
  · have hcomp : D.comp.toNat = 0 := congrArg BitVec.toNat hc
    have hmode : D.palMode = palNone ∨ D.palMode = pal4 ∨ D.palMode = pal8 ∨ D.palMode = 3 := by
      generalize D.palMode = p
      revert p; decide
    rcases hmode with hp | hp | hp | hp
    · rw [Desc.wf_direct hc hp]
      simp [hcomp, hp, palNone]
    · rw [Desc.wf_pal4 hc hp]
      simp [hcomp, hp, pal4]
    · rw [Desc.wf_pal8 hc hp]
      simp [hcomp, hp, pal8]
    · simp [Desc.wf, hc, hp, palNone, pal4, pal8]
  · have hpos : 1 ≤ D.comp.toNat := Nat.one_le_iff_ne_zero.2 fun h => hc (BitVec.eq_of_toNat_eq h)
    have hne : D.comp.toNat ≠ 0 := by omega
    rw [Desc.wf_compressed hc]
    simp only [hne, hpos, false_and, true_and, false_or]

end Sys2Proof.Machine
end

section
/-! The obligation that only the negotiator reads CAPS (spec/10_state.md R34): each part of a command does the same in a state with
another CAPS, and the register itself goes through it. -/

namespace Sys2Proof.Machine

/-- The state with another value in CAPS. -/
def State.withCaps (c : Word) (s : State) : State := { s with caps := c }

/-- The outcome of a stage with another value in CAPS. -/
def StageOut.withCaps (c : Word) (out : StageOut) : StageOut := ⟨out.state.withCaps c, out.error⟩

/-- The outcome of CONVERT with another value in CAPS. -/
def ConvOut.withCaps (c : Word) (o : ConvOut) : ConvOut := ⟨o.state.withCaps c, o.changed, o.truncated, o.error⟩

variable (c : Word) (s : State)

@[simp] theorem State.withCaps_mem : (s.withCaps c).mem = s.mem := rfl
@[simp] theorem State.withCaps_args : (s.withCaps c).args = s.args := rfl
@[simp] theorem State.withCaps_palBuf : (s.withCaps c).palBuf = s.palBuf := rfl
@[simp] theorem State.withCaps_imgDesc : (s.withCaps c).imgDesc = s.imgDesc := rfl
@[simp] theorem State.withCaps_tgtDesc : (s.withCaps c).tgtDesc = s.tgtDesc := rfl
@[simp] theorem State.withCaps_palEntries : (s.withCaps c).palEntries = s.palEntries := rfl
@[simp] theorem State.withCaps_levels : (s.withCaps c).levels = s.levels := rfl
@[simp] theorem State.withCaps_hasAlpha : (s.withCaps c).hasAlpha = s.hasAlpha := rfl
@[simp] theorem State.withCaps_isStandalone : (s.withCaps c).isStandalone = s.isStandalone := rfl
@[simp] theorem State.withCaps_strategy : (s.withCaps c).strategy = s.strategy := rfl

/-! ### Plain commands -/

theorem texelOperand_withCaps (kindOk : Desc → Bool) : texelOperand kindOk (s.withCaps c) = texelOperand kindOk s := rfl

theorem resolveIndex_withCaps : resolveIndex (s.withCaps c) = (resolveIndex s).map (State.withCaps c) := by
  unfold resolveIndex
  rw [texelOperand_withCaps]
  cases texelOperand kindIndexed s with
  | error e => rfl
  | ok r =>
    simp only [State.withCaps_mem, State.withCaps_imgDesc]
    cases access 0 (some r.level) (readItem s.mem r.buf r.lw s.imgDesc r.x r.y) <;> rfl

theorem fetchColor_withCaps : fetchColor (s.withCaps c) = (fetchColor s).map (State.withCaps c) := by
  unfold fetchColor
  rw [texelOperand_withCaps]
  cases texelOperand kindRaw s with
  | error e => rfl
  | ok r =>
    simp only [State.withCaps_mem, State.withCaps_imgDesc, State.withCaps_palBuf, State.withCaps_palEntries]
    cases access 0 (some r.level) (fetchTexel s.mem s.imgDesc s.palBuf s.palEntries r.buf r.lw r.x r.y) <;> rfl

theorem storeColor_withCaps : storeColor (s.withCaps c) = (storeColor s).map (State.withCaps c) := by
  unfold storeColor
  rw [texelOperand_withCaps]
  cases texelOperand kindDirect s with
  | error e => rfl
  | ok r =>
    simp only [State.withCaps_mem, State.withCaps_imgDesc, State.withCaps_args]
    cases access 0 (some r.level) (storeTexel s.mem s.imgDesc r.buf r.lw r.x r.y (unpackColour s.args[3])) <;> rfl

theorem decodeBlockAt_withCaps (ty : BlockType) :
    decodeBlockAt ty (s.withCaps c) = (decodeBlockAt ty s).map (State.withCaps c) := by
  simp only [decodeBlockAt, State.withCaps_mem, State.withCaps_args]
  cases s.mem.readBytes s.args[0] s.args[1].toNat (blockBytes ty) <;> rfl

theorem encodeBlockAt_withCaps (ty : BlockType) :
    encodeBlockAt ty (s.withCaps c) = (encodeBlockAt ty s).map (State.withCaps c) := by
  symm
  exact apply_ite (Except.map (State.withCaps c)) (s.mem.inBounds s.args[0] s.args[1].toNat (blockBytes ty) = true) _ _

theorem levelUses_withCaps (i : Nat) (l : List (Nat × Nat)) : levelUses (s.withCaps c) i l = levelUses s i l := by
  induction l with
  | nil => rfl
  | cons p l ih => obtain ⟨x, y⟩ := p; simp only [levelUses, ih]; rfl

theorem usedIndices_withCaps (stage : Nat) (l : List Nat) : usedIndices stage (s.withCaps c) l = usedIndices stage s l := by
  induction l with
  | nil => rfl
  | cons i l ih => simp only [usedIndices, ih, levelUses_withCaps]; rfl

theorem alphaScan_withCaps (stage : Nat) : alphaScan stage (s.withCaps c) = alphaScan stage s := by
  unfold alphaScan
  rw [usedIndices_withCaps]
  rfl

theorem alphaScanCommand_withCaps : alphaScanCommand (s.withCaps c) = (alphaScanCommand s).map (State.withCaps c) := by
  have hcheck : checkImage (s.withCaps c) = checkImage s := rfl
  unfold alphaScanCommand
  rw [hcheck, alphaScan_withCaps]
  cases checkImage s with
  | error e => rfl
  | ok => cases alphaScan 0 s <;> rfl

theorem releaseImage_withCaps : releaseImage (s.withCaps c) = (releaseImage s).map (State.withCaps c) := by
  have hchecks : releaseChecks (s.withCaps c) = releaseChecks s := rfl
  rw [releaseImage_eq, releaseImage_eq, hchecks]
  cases firstRaise (releaseChecks s) with
  | some e => rfl
  | none =>
    refine congrArg Except.ok (Eq.symm ?_)
    exact apply_ite (State.withCaps c) ((s.isStandalone && !s.acquired) = true) _ _

theorem finish_withCaps (opc : Byte) (r : Except Raise State) :
    (s.withCaps c).finish opc (r.map (State.withCaps c)) = (s.finish opc r).withCaps c := by
  cases r <;> rfl

/-! ### The stages of CONVERT -/

theorem alloc_withCaps (n : Nat) : (s.withCaps c).alloc n = ((s.alloc n).1.withCaps c, (s.alloc n).2) := by
  have hanswer : (s.withCaps c).heap.answer n = s.heap.answer n := rfl
  unfold State.alloc
  rw [hanswer]
  rcases s.heap.answer n with ⟨_ | h, hp⟩
  · rfl
  · symm
    exact apply_ite (fun out : State × Option Word => (out.1.withCaps c, out.2)) (s.mem.admits h n = true) _ _

/-- A run over levels whose fill does not read CAPS. -/
theorem allocLevels_withCaps {stage : Nat} {size : Nat → Nat} {fill : State → Nat → Word → Option Memory}
    (hfill : ∀ u i h, fill (State.withCaps c u) i h = fill u i h) (l : List Nat) (new : List Word) :
    allocLevels stage size fill l new (s.withCaps c)
      = ((allocLevels stage size fill l new s).1.withCaps c, (allocLevels stage size fill l new s).2) := by
  induction l generalizing new s with
  | nil => rfl
  | cons i l ih =>
    simp only [allocLevels, alloc_withCaps]
    rcases s.alloc (size i) with ⟨u, _ | h⟩
    · rfl
    · simp only [hfill]
      cases fill u i h with
      | none => rfl
      | some m => exact ih (u.setMem m) _

theorem decodeLevels_withCaps (ty : BlockType) (R1 : Desc) (l : List Nat) (new : List Word) :
    decodeLevels ty R1 l new (s.withCaps c)
      = ((decodeLevels ty R1 l new s).1.withCaps c, (decodeLevels ty R1 l new s).2) := by
  induction l generalizing new s with
  | nil => rfl
  | cons i l ih =>
    have hcheck : checkBlockMip (s.withCaps c) ty i 1 = checkBlockMip s ty i 1 := rfl
    have hlw : (s.withCaps c).lw i = s.lw i := rfl
    have hlh : (s.withCaps c).lh i = s.lh i := rfl
    simp only [decodeLevels, hcheck, hlw, hlh, alloc_withCaps]
    cases checkBlockMip s ty i 1 with
    | error e => simp only; split <;> rfl
    | ok =>
      simp only
      rcases s.alloc (R1.rawSize (s.lw i) (s.lh i)) with ⟨u, _ | h⟩
      · rfl
      · have hfill : decodeLevel (u.withCaps c) ty i R1 h = decodeLevel u ty i R1 h := rfl
        simp only [hfill]
        cases decodeLevel u ty i R1 h with
        | none => rfl
        | some m => exact ih (u.setMem m) _

theorem dropPalette_withCaps : (s.withCaps c).dropPalette = s.dropPalette.withCaps c := by
  symm
  exact apply_ite (State.withCaps c) (s.imgDesc.isIndexed = true) _ _

theorem settlePalette_withCaps : (s.withCaps c).settlePalette = s.settlePalette.withCaps c := by
  symm
  exact apply_ite (State.withCaps c) (s.imgDesc.isIndexed = true) _ _

theorem commitRecode_withCaps (T' : Desc) (new : List Word) :
    commitRecode T' new (s.withCaps c) = (commitRecode T' new s).withCaps c :=
  congrArg (setReshaped T' new) (dropPalette_withCaps c (s.freeAll s.mipHandles))

theorem commitPalettize_withCaps (T' : Desc) (hp : Word) (k : Nat) (new : List Word) :
    commitPalettize T' hp k new (s.withCaps c) = (commitPalettize T' hp k new s).withCaps c :=
  congrArg (fun u : State => setReshaped T' new (u.setPalette hp (BitVec.ofNat 32 k))) (dropPalette_withCaps c (s.freeAll s.mipHandles))

theorem commitStage3_withCaps (ty : BlockType) (V : Raster) (T : Desc) (new : List Word) :
    commitStage3 ty V T new (s.withCaps c) = (commitStage3 ty V T new s).withCaps c := by
  unfold commitStage3
  rw [show ((s.withCaps c).freeAll (s.withCaps c).mipHandles).dropPalette = (s.freeAll s.mipHandles).dropPalette.withCaps c from
    dropPalette_withCaps c (s.freeAll s.mipHandles)]
  rfl

theorem stage1_withCaps (ty : BlockType) (T : Desc) : stage1 (s.withCaps c) ty T = (stage1 s ty T).withCaps c := by
  simp only [stage1, State.withCaps_levels, decodeLevels_withCaps]
  rcases decodeLevels ty (stage1Format T) (List.range s.levels) [] s with ⟨u, e | new⟩ <;> rfl

theorem recode_withCaps (T' : Desc) : recode (s.withCaps c) T' = (recode s T').withCaps c := by
  have hsize : levelSize T' (s.withCaps c) = levelSize T' s := rfl
  have hfill : ∀ u i h, recodeLevel T' (State.withCaps c u) i h = recodeLevel T' u i h := fun _ _ _ => rfl
  simp only [recode, hsize, State.withCaps_levels, allocLevels_withCaps c s hfill]
  rcases allocLevels 2 (levelSize T' s) (recodeLevel T') (List.range s.levels) [] s with ⟨u, e | new⟩
  · rfl
  · exact congrArg (StageOut.mk · none) (commitRecode_withCaps c u T' new)

theorem repack_withCaps (T' : Desc) : repack (s.withCaps c) T' = (repack s T').withCaps c := by
  have hsize : levelSize T' (s.withCaps c) = levelSize T' s := rfl
  have hfill : ∀ u i h, repackLevel T' (State.withCaps c u) i h = repackLevel T' u i h := fun _ _ _ => rfl
  simp only [repack, hsize, State.withCaps_levels, allocLevels_withCaps c s hfill]
  rcases allocLevels 2 (levelSize T' s) (repackLevel T') (List.range s.levels) [] s with ⟨u, e | new⟩ <;> rfl

theorem palettizeWith_withCaps (T' : Desc) (P : List Colour) :
    palettizeWith (s.withCaps c) T' P = (palettizeWith s T' P).withCaps c := by
  have hsize : levelSize T' (s.withCaps c) = levelSize T' s := rfl
  have hfill : ∀ u i h, indexLevel T' P (State.withCaps c u) i h = indexLevel T' P u i h := fun _ _ _ => rfl
  simp only [palettizeWith, hsize, State.withCaps_levels, alloc_withCaps]
  rcases s.alloc (P.length * T'.entryBytes) with ⟨u, _ | hp⟩
  · rfl
  · simp only [State.withCaps_mem]
    cases writePalette T' hp P 0 u.mem with
    | none => rfl
    | some m =>
      have hset : (u.withCaps c).setMem m = (u.setMem m).withCaps c := rfl
      simp only [hset, allocLevels_withCaps c (u.setMem m) hfill]
      rcases allocLevels 2 (levelSize T' s) (indexLevel T' P) (List.range s.levels) [hp] (u.setMem m) with ⟨v, e | new⟩
      · rfl
      · exact congrArg (StageOut.mk · none) (commitPalettize_withCaps c v T' hp P.length (new.drop 1))

theorem stage2_withCaps (T' : Desc) : stage2 (s.withCaps c) T' = (stage2 s T').withCaps c := by
  have hrepack : repackApplies (s.withCaps c) T' = repackApplies s T' := rfl
  have hseed : paletteSeed (s.withCaps c) = paletteSeed s := rfl
  simp only [stage2, hrepack]
  split
  · exact recode_withCaps c s T'
  · split
    · exact repack_withCaps c s T'
    · simp only [palettize, hseed, State.withCaps_strategy]
      cases paletteSeed s with
      | none => rfl
      | some seed => exact palettizeWith_withCaps ..

theorem stage3_withCaps (ty : BlockType) (T : Desc) : stage3 (s.withCaps c) ty T = (stage3 s ty T).withCaps c := by
  have hsize : encodedSize ty (s.withCaps c) = encodedSize ty s := rfl
  have hfill : ∀ u i h, encodeLevel ty (State.withCaps c u) i h = encodeLevel ty u i h := fun _ _ _ => rfl
  simp only [stage3, alphaScan_withCaps, hsize, State.withCaps_levels, allocLevels_withCaps c s hfill]
  cases alphaScan 3 s with
  | error e => rfl
  | ok alpha =>
    simp only
    rcases allocLevels 3 (encodedSize ty s) (encodeLevel ty) (List.range s.levels) [] s with ⟨u, e | new⟩
    · rfl
    · exact congrArg (StageOut.mk · none) (commitStage3_withCaps c u ty (virtualRaster ty alpha) T new)

theorem runStage1_withCaps (T : Desc) : runStage1 (s.withCaps c) T = (runStage1 s T).withCaps c := by
  simp only [runStage1, State.withCaps_imgDesc]
  cases compType s.imgDesc.comp with
  | none => rfl
  | some ty => exact stage1_withCaps c s ty T

theorem runStage2_withCaps (T T' : Desc) : runStage2 (s.withCaps c) T T' = (runStage2 s T T').withCaps c := by
  have hreshapes : reshapes (s.withCaps c) T T' = reshapes s T T' := rfl
  simp only [runStage2, hreshapes]
  split
  · exact stage2_withCaps c s T'
  · rfl

theorem runStage3_withCaps (T : Desc) : runStage3 (s.withCaps c) T = (runStage3 s T).withCaps c := by
  simp only [runStage3]
  cases compType T.comp with
  | none => rfl
  | some ty => exact stage3_withCaps c s ty T

/-! ### CONVERT -/

theorem finishPipeline_withCaps (ran truncated : Bool) :
    finishPipeline (s.withCaps c) ran truncated = (finishPipeline s ran truncated).withCaps c := by
  simp only [finishPipeline, alphaScan_withCaps]
  cases ran with
  | false => rfl
  | true =>
    simp only [if_true]
    cases alphaScan 4 s with
    | error e => rfl
    | ok a => exact congrArg (ConvOut.mk · true truncated none) (settlePalette_withCaps c (s.setHasAlpha a))

theorem pipeline_withCaps (T T' : Desc) : pipeline (s.withCaps c) T T' = (pipeline s T T').withCaps c := by
  simp only [pipeline, runStage1_withCaps]
  rcases runStage1 s T with ⟨s1, _ | e⟩
  · simp only [StageOut.withCaps, runStage2_withCaps]
    rcases runStage2 s1 T T' with ⟨s2, _ | e⟩
    · simp only [StageOut.withCaps, runStage3_withCaps]
      rcases runStage3 s2 T with ⟨s3, _ | e⟩
      · exact finishPipeline_withCaps ..
      · rfl
    · rfl
  · rfl

theorem convertImage_withCaps : convertImage (s.withCaps c) = (convertImage s).withCaps c := by
  have hchecks : entryChecks (s.withCaps c) = entryChecks s := rfl
  simp only [convertImage, hchecks, State.withCaps_isStandalone, State.withCaps_imgDesc, State.withCaps_tgtDesc,
    State.withCaps_hasAlpha]
  split
  · rfl
  · split
    · rfl
    · cases entryChecks s with
      | error e => rfl
      | ok => exact pipeline_withCaps ..

theorem convFinish_withCaps (o : ConvOut) (opc : Byte) : (o.withCaps c).finish opc = (o.finish opc).withCaps c := by
  obtain ⟨u, changed, truncated, _ | e⟩ := o <;> rfl

/-- A command that commutes with CAPS before STATUS is written commutes with it as a whole. -/
theorem finish_next_withCaps {f : State → Except Raise State} {opc : Byte}
    (hf : f (s.withCaps c) = (f s).map (State.withCaps c)) :
    (.next ((s.withCaps c).finish opc (f (s.withCaps c))) : Host.Outcome State Fault Refusal)
      = .next ((s.finish opc (f s)).withCaps c) := by
  rw [hf, finish_withCaps]

end Sys2Proof.Machine

namespace Sys2Proof.Machine

/-- Settles O58: every part of the other commands does the same whatever CAPS holds. -/
theorem capsUnread : Obligations.CapsUnread := by
  intro i s t c hneg hnac h
  have decode (ty : BlockType) := finish_next_withCaps c s (opc := 0x04) (decodeBlockAt_withCaps c s ty)
  have encode (ty : BlockType) := finish_next_withCaps c s (opc := 0x05) (encodeBlockAt_withCaps c s ty)
  cases i <;> obtain rfl := Host.Outcome.next.inj h
  case resolveIndex => exact finish_next_withCaps c s (resolveIndex_withCaps c s)
  case fetchColor => exact finish_next_withCaps c s (fetchColor_withCaps c s)
  case storeColor => exact finish_next_withCaps c s (storeColor_withCaps c s)
  case decodeBlockDxt1 => exact decode .dxt1
  case decodeBlockDxt2 => exact decode .dxt2
  case decodeBlockDxt3 => exact decode .dxt3
  case decodeBlockDxt4 => exact decode .dxt4
  case decodeBlockDxt5 => exact decode .dxt5
  case encodeBlockDxt1 => exact encode .dxt1
  case encodeBlockDxt2 => rfl
  case encodeBlockDxt3 => exact encode .dxt3
  case encodeBlockDxt4 => rfl
  case encodeBlockDxt5 => exact encode .dxt5
  case alphaScan => exact finish_next_withCaps c s (alphaScanCommand_withCaps c s)
  case release => exact finish_next_withCaps c s (releaseImage_withCaps c s)
  case convert =>
    exact congrArg Host.Outcome.next ((congrArg (ConvOut.finish · 0x07) (convertImage_withCaps c s)).trans
      (convFinish_withCaps c (convertImage s) 0x07))
  case negotiate => exact absurd rfl hneg
  case negotiateAndConvert => exact absurd rfl hnac

end Sys2Proof.Machine
end

section
/-! The obligation on the host's moves on buffers (spec/20_memory.md R93, R109, spec/30_encoding.md R128): each move is an operation
on the buffer store and on the host, so no register changes. -/

namespace Sys2Proof.Machine

/-! ### Writes to the bytes at one address -/

/-- m' has the buffers and lengths of m, and every byte of m outside the n bytes at (h, off). -/
structure Memory.SameOutside (h : Word) (off n : Nat) (m m' : Memory) : Prop where
  len : ∀ g, m'.len? g = m.len? g
  byte : ∀ g j, ¬ (g = h ∧ off ≤ j ∧ j < off + n) → m'.byte? g j = m.byte? g j

theorem Memory.SameOutside.refl (h : Word) (off n : Nat) (m : Memory) : m.SameOutside h off n m := ⟨fun _ => rfl, fun _ _ _ => rfl⟩

theorem put_sameOutside (m : Memory) (h : Word) (off : Nat) (bs : List Byte) :
    Memory.SameOutside h off bs.length m (m.put h off bs) :=
  ⟨len?_put m h off bs, fun g j hj => by rw [byte?_put, if_neg hj]⟩

/-- The byte at each address of a write inside the bounds. -/
theorem byte?_put_same {m : Memory} {h : Word} {off i : Nat} {bs : List Byte} (hb : m.inBounds h off bs.length = true)
    (hi : i < bs.length) : (m.put h off bs).byte? h (off + i) = some (bs.getD i 0) :=
  byte?_of_readBytes (readBytes_put_same hb) hi

theorem readBytes_eq_none {m : Memory} {h : Word} {off n : Nat} (hb : m.inBounds h off n = false) : m.readBytes h off n = none := by
  rw [← Option.isNone_iff_eq_none, ← Option.not_isSome, readBytes_isSome, hb]
  rfl

/-! ### The moves of the host -/

/-- The register file is apart from the buffer store and the host. -/
theorem sameRegisters_heap_host (s : State) (hp : Heap) (agent : HostAgent) :
    sameRegisters s { s with heap := hp, host := agent } :=
  ⟨rfl, ⟨rfl, rfl, rfl⟩, ⟨rfl, rfl, rfl, rfl, rfl⟩, rfl, rfl, rfl, rfl⟩

theorem lookupName_unbindName (names : List (Nat × Word)) (k : Nat) : lookupName (unbindName names k) k = none := by
  induction names with
  | nil => rfl
  | cons p names ih =>
    obtain ⟨j, w⟩ := p
    by_cases hj : j = k
    · simpa [unbindName, hj] using ih
    · simpa [unbindName, hj, lookupName] using ih

/-- HAlloc: the answer of the oracle is bound to the name, or the name is left unbound. -/
theorem hostAlloc_next (k n : Nat) (s : State) :
    ∃ t, hostAlloc k n s = .next t ∧ t.heap = (s.alloc n).1.heap ∧ t.hostVal (.name k) = (s.alloc n).2 ∧ sameRegisters s t := by
  unfold hostAlloc
  rcases ha : s.alloc n with ⟨s1, _ | h⟩
  · obtain ⟨rfl, -⟩ := alloc_none ha
    exact ⟨_, rfl, rfl, lookupName_unbindName .., sameRegisters_heap_host ..⟩
  · obtain ⟨-, rfl⟩ := alloc_some ha
    exact ⟨_, rfl, rfl, lookupName_bindName .., sameRegisters_heap_host ..⟩

theorem hostPut_of_inBounds {h : Word} {off : Nat} {bs : List Byte} {s : State} (hb : s.mem.inBounds h off bs.length = true) :
    hostPut h off bs s = .next (s.setMem (s.mem.put h off bs)).advance := by
  rw [hostPut, writeBytes_of_inBounds hb]

theorem hostPut_of_outside {h : Word} {off : Nat} {bs : List Byte} {s : State} (hb : s.mem.inBounds h off bs.length = false) :
    hostPut h off bs s = .refused .bufferMoveOutsideBounds := by
  rw [hostPut, Memory.writeBytes, hb]
  rfl

/-- HRead inside the bounds: the host observes the bytes, and nothing else changes. -/
theorem hostGet_of_inBounds {h : Word} {off n : Nat} {s : State} (hb : s.mem.inBounds h off n = true) :
    ∃ bs, s.mem.readBytes h off n = some bs ∧ hostGet h off n s = .next (s.observe (.bytes bs)).advance := by
  obtain ⟨bs, hbs⟩ := Option.isSome_iff_exists.1 ((readBytes_isSome ..).trans hb)
  exact ⟨bs, hbs, by rw [hostGet, hbs]⟩

theorem hostGet_of_outside {h : Word} {off n : Nat} {s : State} (hb : s.mem.inBounds h off n = false) :
    hostGet h off n s = .refused .bufferMoveOutsideBounds := by
  rw [hostGet, readBytes_eq_none hb]

/-- A step performs the host operation at the host's position. -/
theorem step_eq_hostStep {s : State} {op : HostOp} (hop : fetchOp s = some op) : step s = hostStep op s := by rw [step, hop]

/-- Settles O15: each move is the store's own operation, and the registers are apart from the store and the host. -/
theorem hostBufferMoves : Obligations.HostBufferMoves := by
  intro s
  refine ⟨fun k n hop => ?_, fun v h off bs hop hval => ?_, fun v h off n hop hval => ?_, fun v h hop hval => ?_,
    fun v off bs n hval hop => ?_⟩
  · rw [step_eq_hostStep hop]
    exact hostAlloc_next k n s
  · simp only [step_eq_hostStep hop, hostStep, hval]
    refine ⟨fun hb => ?_, hostPut_of_outside⟩
    have outside := put_sameOutside s.mem h off bs
    exact ⟨_, hostPut_of_inBounds hb, sameRegisters_heap_host .., ⟨rfl, rfl, rfl, rfl⟩, ⟨rfl, rfl⟩,
      fun i hi => byte?_put_same hb hi, outside.byte, outside.len⟩
  · simp only [step_eq_hostStep hop, hostStep, hval]
    refine ⟨fun hb => ?_, hostGet_of_outside⟩
    obtain ⟨bs, hbs, hget⟩ := hostGet_of_inBounds hb
    exact ⟨_, bs, hget, readBytes_length hbs, rfl, onlyStatus_host .., rfl, rfl, fun i hi => byte?_of_readBytes hbs hi⟩
  · simp only [step_eq_hostStep hop, hostStep, hval, hostFree]
    refine ⟨fun hl => ⟨_, if_pos hl, ?_, fun g hg => sameBuffer_of_find ?_, sameRegisters_heap_host .., ⟨rfl, rfl, rfl, rfl⟩,
      ⟨rfl, rfl⟩⟩, fun hl => if_neg (by rw [hl]; exact Bool.false_ne_true)⟩
    · show (s.mem.freeAll [h]).live h = false
      simp [Memory.live, find_freeAll]
    · exact (find_freeAll [h] s.mem g).trans (if_neg (by simpa using hg))
  · rcases hop with hop | hop | hop <;> simp only [step_eq_hostStep hop, hostStep, hval]

end Sys2Proof.Machine
end

section
/-! What CONVERT leaves alone in buffer space (spec/42_conversion_engine.md R252, R280): a stage frees only buffers the image named
when it started, and the image it leaves names only these and the stage's own new buffers. -/

namespace Sys2Proof.Machine

/-! ### The handles an image names after a commit -/

theorem toWord_palMode (D : Desc) : (Desc.ofWord D.toWord).palMode = D.palMode := by
  refine BitVec.eq_of_getLsbD_eq fun i hi => ?_
  have : i = 0 ∨ i = 1 := by omega
  rcases this with rfl | rfl <;> simp [Desc.ofWord, Desc.toWord]

theorem isIndexed_toWord (D : Desc) : (Desc.ofWord D.toWord).isIndexed = D.isIndexed := by
  simp only [Desc.isIndexed, toWord_palMode]

theorem not_isIndexed_of_palNone {D : Desc} (h : D.palMode = palNone) : D.isIndexed = false := by
  rw [Desc.isIndexed, h]
  rfl

theorem mip_of_ge (s : State) {i : Nat} (hi : 16 ≤ i) : s.mip i = MipRegs.zero := by simp [State.mip, hi]

theorem getD_zero_or_mem (hs : List Word) (i : Nat) : hs.getD i 0 = 0 ∨ hs.getD i 0 ∈ hs := by
  by_cases hi : i < hs.length
  · exact .inr (by rw [List.getD_eq_getElem _ _ hi]; exact List.getElem_mem hi)
  · exact .inl (List.getD_eq_default _ _ (Nat.not_lt.1 hi))

/-- The levels of an image name only the handles hs if the registers of every level do. -/
theorem mipHandles_of_mip {s : State} {hs : List Word} (h : ∀ i, i < s.levels → i < 16 → (s.mip i).buf = 0 ∨ (s.mip i).buf ∈ hs) :
    ∀ g ∈ s.mipHandles, g = 0 ∨ g ∈ hs := by
  intro g hg
  obtain ⟨i, hi, rfl⟩ := List.mem_map.1 hg
  by_cases h16 : i < 16
  · exact h i (List.mem_range.1 hi) h16
  · exact .inl (by rw [mip_of_ge s (Nat.not_lt.1 h16)]; rfl)

theorem setLevels_mipHandles {s : State} {n : Nat} {f : Nat → MipRegs} {new : List Word} (hn : s.levels = n)
    (hf : ∀ i, (f i).buf = new.getD i 0) : ∀ g ∈ (s.setLevels n f).mipHandles, g = 0 ∨ g ∈ new :=
  mipHandles_of_mip fun i hi h16 => by
    rw [mip_setLevels s _ _ _ h16, if_pos (hn ▸ hi), hf]
    exact getD_zero_or_mem new i

theorem commitStage1_mipHandles (R1 : Desc) (new : List Word) (s : State) :
    ∀ g ∈ (commitStage1 R1 new s).mipHandles, g = 0 ∨ g ∈ new :=
  mipHandles_of_mip fun i _ h16 => by
    rw [commit1_mip _ _ _ _ h16]
    split
    · exact getD_zero_or_mem new i
    · exact .inl rfl

/-! ### The stages -/

/-- A commit that frees handles the image named, gives the levels new buffers, and keeps the palette or has a new one. -/
theorem keep_levels {s u c : State} {sz : Nat → Nat} {new : List Word} (hr : Run s sz new u) {F : List Word}
    (hF : ∀ g ∈ F, g = 0 ∨ g ∈ s.imageHandles) (hc : c.mem = u.mem.freeAll F) (hmip : ∀ g ∈ c.mipHandles, g = 0 ∨ g ∈ new)
    (hpal : c.imgDesc.isIndexed = true → c.palBuf = 0 ∨ c.palBuf ∈ new ∨ c.palBuf ∈ s.imageHandles) : Keep s c := by
  refine keep_commit hr F hF hc fun g hg => ?_
  obtain ⟨h0, ⟨hi, rfl⟩ | hg⟩ := mem_imageHandles.1 hg
  · exact (hpal hi).resolve_left h0
  · exact .inl ((hmip g hg).resolve_left h0)

/-- The handles a commit that drops the palette frees. -/
def State.superseded (s : State) : List Word := s.mipHandles ++ if s.imgDesc.isIndexed then [s.palBuf] else []

theorem superseded_sub {s : State} : ∀ g ∈ s.superseded, g = 0 ∨ g ∈ s.imageHandles := by
  intro g hg
  rcases List.mem_append.1 hg with hg | hg
  · exact mipHandles_sub g hg
  · split at hg
    · next hi => exact List.mem_singleton.1 hg ▸ pal_sub hi
    · simp at hg

theorem dropPalette_mem (s : State) : (s.freeAll s.mipHandles).dropPalette.mem = s.mem.freeAll s.superseded := by
  rw [(dropPalette_eq _).1, State.superseded, freeAll_append]
  rfl

theorem dropPalette_levels (s : State) : s.dropPalette.levels = s.levels := by
  obtain ⟨-, -, hcount, -⟩ := dropPalette_eq s
  rw [State.levels, hcount, State.levels]

theorem stage1Format_palMode (T : Desc) : (stage1Format T).palMode = palNone := by
  unfold stage1Format
  split
  · next h => exact h.2
  · rfl

/-- A commit that leaves an image with no palette names the new buffers alone. -/
theorem keep_direct {s u c : State} {sz : Nat → Nat} {new : List Word} (hr : Run s sz new u) {F : List Word}
    (hF : ∀ g ∈ F, g = 0 ∨ g ∈ s.imageHandles) (hc : c.mem = u.mem.freeAll F) (hmip : ∀ g ∈ c.mipHandles, g = 0 ∨ g ∈ new)
    {D : Desc} (hD : c.imgFmt = D.toWord) (hp : D.palMode = palNone) : Keep s c :=
  keep_levels hr hF hc hmip fun hi => by
    rw [State.imgDesc, hD, isIndexed_toWord, not_isIndexed_of_palNone hp] at hi
    exact absurd hi Bool.false_ne_true

theorem stage1_keep (s : State) (ty : BlockType) (T : Desc) : Keep s (stage1 s ty T).state := by
  rcases stage1_cases s ty T with ⟨new, u, h, hr, -⟩ | ⟨t, e, h, ht, -⟩ | ⟨t, i, h, -, ht⟩ | ⟨t, i, _, _, _, _, h, -, ht, -⟩ <;> rw [h]
  · obtain ⟨hp, rfl⟩ := hr.regs
    exact keep_direct hr mipHandles_sub rfl (commitStage1_mipHandles _ new _) rfl (stage1Format_palMode T)
  all_goals exact keep_untouched ht

theorem recode_keep (s : State) {T' : Desc} (hp : T'.palMode = palNone) : Keep s (recode s T').state := by
  rcases recode_cases s T' with ⟨new, u, h, hr, -⟩ | ⟨t, i, h, -, ht⟩ | ⟨t, i, _, _, _, _, h, -, ht, -⟩ <;> rw [h]
  · obtain ⟨_, rfl⟩ := hr.regs
    exact keep_direct hr superseded_sub (dropPalette_mem _) (setLevels_mipHandles rfl fun _ => rfl) rfl hp
  all_goals exact keep_untouched ht

/-- Case (b) keeps the palette, which the image named. -/
theorem repack_keep (s : State) (T' : Desc) (hi : s.imgDesc.isIndexed = true) : Keep s (repack s T').state := by
  rcases repack_cases s T' with ⟨new, u, h, hr, -⟩ | ⟨t, i, h, -, ht⟩ | ⟨t, i, _, _, _, _, h, -, ht, -⟩ <;> rw [h]
  · obtain ⟨_, rfl⟩ := hr.regs
    exact keep_levels hr mipHandles_sub rfl (setLevels_mipHandles rfl fun _ => rfl) fun _ => (pal_sub hi).imp_right .inr
  all_goals exact keep_untouched ht

theorem palettizeWith_keep (s : State) (T' : Desc) (P : List Colour) : Keep s (palettizeWith s T' P).state := by
  rcases palettizeWith_cases s T' P with
    ⟨hp, new, u, h, hr, -⟩ | ⟨t, k, h, -, ht⟩ | ⟨t, _, _, h, ht, -⟩ | ⟨t, i, _, _, _, _, h, -, ht, -⟩ <;> rw [h]
  · obtain ⟨_, rfl⟩ := hr.regs
    exact keep_levels hr superseded_sub (dropPalette_mem _)
      (fun g hg => (setLevels_mipHandles rfl (fun _ => rfl) g hg).imp_right (List.mem_cons_of_mem hp))
      fun _ => .inr (.inl List.mem_cons_self)
  all_goals exact keep_untouched ht

theorem stage2_keep (s : State) (T' : Desc) (hi : s.imgDesc.palMode ≠ palNone → s.imgDesc.isIndexed = true) :
    Keep s (stage2 s T').state := by
  unfold stage2
  split
  · next hp => exact recode_keep s hp
  · split
    · next happ =>
      simp only [repackApplies, Bool.and_eq_true, decide_eq_true_eq] at happ
      exact repack_keep s T' (hi happ.1.1.1)
    · unfold palettize
      split
      · exact .refl s
      · exact palettizeWith_keep s T' _

theorem stage3_keep (s : State) (ty : BlockType) (T : Desc) : Keep s (stage3 s ty T).state := by
  rcases stage3_cases s ty T with ⟨e, -, h⟩ | ⟨a, new, u, -, h, hr, -⟩ | ⟨t, i, h, -, ht⟩ | ⟨t, i, _, _, _, _, h, -, ht, -⟩ <;> rw [h]
  · exact .refl s
  · obtain ⟨_, rfl⟩ := hr.regs
    exact keep_direct hr superseded_sub (dropPalette_mem _) (setLevels_mipHandles (dropPalette_levels _) fun _ => rfl)
      (D := compressedDesc (virtualRaster ty a) T) rfl rfl
  all_goals exact keep_untouched ht

/-! ### The pipeline -/

theorem runStage1_keep (s : State) (T : Desc) : Keep s (runStage1 s T).state := by
  unfold runStage1
  split
  · exact stage1_keep s _ T
  · exact .refl s

/-- After stage 1 a raw image with a palette mode has a palette: it is the source, for what stage 1 decodes to has none. -/
theorem runStage1_isIndexed {s s1 : State} {T : Desc} (hw : s.imgDesc.wf = true) (h : runStage1 s T = ⟨s1, none⟩)
    (hc : s1.imgDesc.comp = 0) (hp : s1.imgDesc.palMode ≠ palNone) : s1.imgDesc.isIndexed = true := by
  unfold runStage1 at h
  split at h
  · next ty _ =>
    rcases stage1_cases s ty T with ⟨new, u, hs, -⟩ | ⟨t, e, hs, -⟩ | ⟨t, i, hs, -⟩ | ⟨t, i, _, _, _, _, hs, -⟩ <;> rw [hs] at h <;>
      obtain ⟨rfl, herr⟩ := StageOut.mk.inj h
    · exact absurd ((toWord_palMode _).trans (stage1Format_palMode T)) hp
    all_goals exact absurd herr nofun
  · obtain ⟨rfl, -⟩ := StageOut.mk.inj h
    exact (isIndexed_iff hw hc).2 hp

theorem runStage2_keep (s : State) (T T' : Desc)
    (hi : s.imgDesc.comp = 0 → s.imgDesc.palMode ≠ palNone → s.imgDesc.isIndexed = true) : Keep s (runStage2 s T T').state := by
  unfold runStage2
  split
  · next hre =>
    simp only [reshapes, Desc.isRaw, Bool.and_eq_true, decide_eq_true_eq] at hre
    exact stage2_keep s T' (hi hre.1.1)
  · exact .refl s

theorem runStage3_keep (s : State) (T : Desc) : Keep s (runStage3 s T).state := by
  unfold runStage3
  split
  · exact stage3_keep s _ T
  · exact .refl s

theorem finishPipeline_keep (s : State) (ran truncated : Bool) : Keep s (finishPipeline s ran truncated).state := by
  rcases finishPipeline_cases s ran truncated with ⟨-, h⟩ | ⟨-, e, -, h⟩ | ⟨-, a, -, h⟩ <;> rw [h]
  · exact .refl s
  · exact .refl s
  · exact (setHas_keep s a).trans (settle_keep _)

theorem pipeline_keep (s : State) (T T' : Desc) (hw : s.imgDesc.wf = true) : Keep s (pipeline s T T').state := by
  have keep1 := runStage1_keep s T
  rcases pipeline_cases s T T' with ⟨s1, e, h1, h⟩ | ⟨s1, s2, e, h1, h2, h⟩ | ⟨s1, s2, s3, e, h1, h2, h3, h⟩ | ⟨s1, s2, s3, h1, h2, h3, h⟩ <;>
    rw [h] <;> rw [h1] at keep1
  · exact keep1
  all_goals
    have keep2 := runStage2_keep s1 T T' (runStage1_isIndexed hw h1)
    rw [h2] at keep2
  · exact keep1.trans keep2
  all_goals
    have keep3 := runStage3_keep s2 T
    rw [h3] at keep3
  · exact (keep1.trans keep2).trans keep3
  · exact ((keep1.trans keep2).trans keep3).trans (finishPipeline_keep s3 _ _)

/-- CONVERT leaves every live buffer that the image does not name (42_conversion_engine R280). -/
theorem convertImage_keep (s : State) : Keep s (convertImage s).state := by
  rcases convertImage_cases s with ⟨-, h⟩ | ⟨-, -, h⟩ | ⟨-, -, e, -, h⟩ | ⟨-, -, hchecks, h⟩ <;> rw [h]
  · exact .refl s
  · exact .refl s
  · exact .refl s
  · simp only [convertChecks, firstRaise_append_none] at hchecks
    obtain ⟨-, -, hw, -⟩ := header_ok hchecks.1.1.1
    exact pipeline_keep _ _ _ hw

end Sys2Proof.Machine
end

section
/-! The obligation on which bytes of which buffer a command may change (spec/20_memory.md R92, R100, spec/30_encoding.md R122,
spec/42_conversion_engine.md R280, R285). -/

namespace Sys2Proof.Machine

/-- What holds of the buffer store before a command and of the store its success leaves holds of the store at its end. -/
theorem finish_mem {P : Memory → Prop} {s : State} {r : Except Raise State} (opc : Byte) (herr : P s.mem)
    (hok : ∀ u, r = .ok u → P u.mem) : P (s.finish opc r).mem := by
  cases r with
  | error e => exact herr
  | ok u => exact hok u rfl

theorem decodeBlockInstr_opc (ty : BlockType) : (decodeBlockInstr ty).opc = 0x04 := by cases ty <;> rfl

theorem encodeBlockInstr_opc (ty : BlockType) : (encodeBlockInstr ty).opc = 0x05 := by cases ty <;> rfl

/-- Only STORE_COLOR, ENCODE_BLOCK, CONVERT, NEGOTIATE_AND_CONVERT and RELEASE, told by their OPC, write buffer space
(30_encoding R122). -/
theorem exec_mem {i : Instr} {s t : State} (h : exec i s = .next t) (hopc : i.opc ∉ [0x03, 0x05, 0x07, 0x09, 0x0A]) :
    t.mem = s.mem := by
  rcases exec_cases h with hend | ⟨rfl, -⟩ | ⟨rfl, -⟩
  · cases hend with
    | failed e he => rfl
    | done u hu =>
      cases hu with
      | stored m _ => exact absurd (by decide) hopc
      | encoded ty m _ => exact absurd (by rw [encodeBlockInstr_opc]; decide) hopc
      | released hs => exact absurd (by decide) hopc
      | _ => rfl
  all_goals exact absurd (by decide) hopc

/-- STORE_COLOR writes the bytes of the item of its texel (20_memory R96, 40_color_model R165). -/
theorem storeColor_sameOutside {s u : State} (h : storeColor s = .ok u) :
    Memory.SameOutside (s.mip s.args[0].toNat).buf
      (s.args[2].toNat * s.imgDesc.pitch (s.lw s.args[0].toNat) + s.args[1].toNat * (s.imgDesc.depth.toNat / 8))
      (s.imgDesc.depth.toNat / 8) s.mem u.mem := by
  obtain ⟨-, m, hm, rfl⟩ := storeColor_ok h
  obtain ⟨-, rfl⟩ := write_eq_some.1 hm
  simpa only [State.setMem_mem, leBytes_length] using put_sameOutside s.mem _ _ (leBytes (s.imgDesc.depth.toNat / 8) _)

/-- ENCODE_BLOCK writes the bytes of its block (41_block_codec R221). -/
theorem encodeBlockAt_sameOutside {ty : BlockType} {s u : State} (h : encodeBlockAt ty s = .ok u) :
    Memory.SameOutside s.args[0] s.args[1].toNat (blockBytes ty) s.mem u.mem := by
  obtain ⟨m, hm, rfl⟩ := encodeBlockAt_ok h
  obtain ⟨-, rfl⟩ := writeBytes_eq_some.1 hm
  simpa only [State.setMem_mem, compress_length] using put_sameOutside s.mem _ _ (compress s.alphaRampRule ty s.tbGrid)

theorem exec_encodeBlock_sameOutside {ty : BlockType} {s t : State} (h : exec (encodeBlockInstr ty) s = .next t) :
    Memory.SameOutside s.args[0] s.args[1].toNat (blockBytes ty) s.mem t.mem := by
  have encoded := finish_mem (s := s) 0x05 (.refl ..) fun u => encodeBlockAt_sameOutside (ty := ty) (u := u)
  cases ty <;> obtain rfl := Host.Outcome.next.inj h
  case dxt1 => exact encoded
  case dxt2 => exact .refl ..
  case dxt3 => exact encoded
  case dxt4 => exact .refl ..
  case dxt5 => exact encoded

/-- RELEASE frees the handles the image names, or none (42_conversion_engine R285). -/
theorem releaseImage_find {s u : State} {g : Word} (h : releaseImage s = .ok u) (hg : g ∉ s.imageHandles) :
    u.mem.find g = s.mem.find g := by
  rw [releaseImage_eq] at h
  split at h
  · exact absurd h nofun
  · obtain rfl := Except.ok.inj h
    split
    · exact (find_freeAll s.imageHandles s.mem g).trans (if_neg hg)
    · rfl

theorem convFinish_mem (o : ConvOut) (opc : Byte) : (o.finish opc).mem = o.state.mem := by
  obtain ⟨u, changed, truncated, _ | e⟩ := o <;> rfl

theorem negotiateAndConvert_find {s : State} {g : Word} (h0 : g ≠ 0) (hl : s.mem.live g = true) (hg : g ∉ s.imageHandles) :
    (negotiateAndConvert s).mem.find g = s.mem.find g := by
  unfold negotiateAndConvert
  cases hr : negotiateTarget s with
  | error e => rfl
  | ok u =>
    obtain ⟨T, -, rfl⟩ := negotiateTarget_ok hr
    rw [convFinish_mem]
    exact (convertImage_keep (s.setTgtFmt T.toWord) g h0 hl hg).1

/-- Settles O55: most commands write no buffer, two write the bytes at one address, three free or replace the image's buffers. -/
theorem bufferFrame : Obligations.BufferFrame := by
  intro i s t h
  refine ⟨fun hi g => ?_, ?_, ?_, fun hi g h0 hl hg => sameBuffer_of_find ?_⟩
  · have hopc : i.opc ∉ [0x03, 0x05, 0x07, 0x09, 0x0A] := by
      rcases hi with rfl | rfl | rfl | rfl | ⟨ty, rfl⟩
      case inr.inr.inr.inr => rw [decodeBlockInstr_opc]; decide
      all_goals decide
    exact sameBuffer_of_find (by rw [exec_mem h hopc])
  · rintro rfl
    obtain rfl := Host.Outcome.next.inj h
    have stored := finish_mem (s := s) 0x03 (.refl ..) fun u => storeColor_sameOutside (u := u)
    exact ⟨stored.len, stored.byte⟩
  · rintro ty rfl
    have encoded := exec_encodeBlock_sameOutside h
    exact ⟨encoded.len, encoded.byte⟩
  · rcases hi with rfl | rfl | rfl <;> obtain rfl := Host.Outcome.next.inj h
    · exact finish_mem (P := fun m => m.find g = s.mem.find g) 0x0A rfl fun u hu => releaseImage_find hu hg
    · rw [convFinish_mem]
      exact (convertImage_keep s g h0 hl hg).1
    · exact negotiateAndConvert_find h0 hl hg

end Sys2Proof.Machine
end

section
/-! The obligations on command words, descriptor words and the host's sequencing (spec/30_encoding.md R120 to R130): a word is told
by its fields, so decoding and encoding agree; the fields of a descriptor word add up; every host operation moves hpc by one. -/

namespace Sys2Proof.Machine

/-! ### Decoding and encoding agree -/

/-- OPC, T and the reserved bits are all of a command word (30_encoding R121). -/
theorem word_eq_of_fields {v w : Word} (hres : reservedField v = reservedField w) (hopc : opcField v = opcField w)
    (htype : typeField v = typeField w) : v = w := by
  have hres := congrArg BitVec.toNat hres
  have hopc := congrArg BitVec.toNat hopc
  have htype := congrArg BitVec.toNat htype
  rw [reservedField_toNat, reservedField_toNat] at hres
  rw [opcField_toNat, opcField_toNat] at hopc
  rw [typeField_toNat, typeField_toNat] at htype
  exact BitVec.eq_of_toNat_eq (by omega)

theorem decode_encode (i : Instr) : decode (encode i) = .ok i := by cases i <;> decide

/-- Settles O2: a word that decodes has its command's fields, and so has the command's own word. -/
theorem decodeIffEncode : Obligations.DecodeIffEncode := by
  refine fun w i => ⟨fun h => ?_, fun h => h ▸ decode_encode i⟩
  obtain ⟨hres, hopc, htype⟩ := decode_fields h
  obtain ⟨hres', hopc', htype'⟩ := decode_fields (decode_encode i)
  exact word_eq_of_fields (hres.trans hres'.symm) (hopc.trans hopc'.symm) (htype.trans htype'.symm)

/-- Settles O1: each is the word of its command. -/
theorem commandWords : Obligations.CommandWords := by
  unfold Obligations.CommandWords
  simp only [decodeIffEncode _ _]
  decide

/-! ### The decode rule -/

theorem exists_blockTypeOf {t : BitVec 3} (h1 : 1 ≤ t.toNat) (h5 : t.toNat ≤ 5) : ∃ ty, blockTypeOf t = some ty := by
  have named : ∀ t : BitVec 3, 1 ≤ t.toNat → t.toNat ≤ 5 → (blockTypeOf t).isSome = true := by decide
  exact Option.isSome_iff_exists.1 (named t h1 h5)

theorem exists_plainInstr {opc : Byte} (h1 : 1 ≤ opc.toNat) (h10 : opc.toNat ≤ 0x0A) (h4 : opc ≠ 0x04) (h5 : opc ≠ 0x05) :
    ∃ i, plainInstr opc = some i := by
  have named : ∀ opc : Byte, 1 ≤ opc.toNat → opc.toNat ≤ 0x0A → opc ≠ 0x04 → opc ≠ 0x05 →
      (plainInstr opc).isSome = true := by decide
  exact Option.isSome_iff_exists.1 (named opc h1 h10 h4 h5)

/-- No legal word is rejected: each branch of the decoder finds its command (30_encoding R124). -/
theorem exists_decode_of_legalWord {w : Word} (h : legalWord w) : ∃ i, decode w = .ok i := by
  unfold legalWord at h
  rw [← opcField_toNat, ← typeField_toNat, ← reservedField_toNat] at h
  obtain ⟨hres, h1, h10, htype⟩ := h
  have hres : reservedField w = 0 := BitVec.eq_of_toNat_eq hres
  by_cases h4 : opcField w = 0x04
  · rw [if_pos (.inl (congrArg BitVec.toNat h4))] at htype
    obtain ⟨ty, hty⟩ := exists_blockTypeOf htype.1 htype.2
    exact ⟨decodeBlockInstr ty, by rw [decode, if_neg (not_not.2 hres), if_pos h4, hty]⟩
  by_cases h5 : opcField w = 0x05
  · rw [if_pos (.inr (congrArg BitVec.toNat h5))] at htype
    obtain ⟨ty, hty⟩ := exists_blockTypeOf htype.1 htype.2
    exact ⟨encodeBlockInstr ty, by rw [decode, if_neg (not_not.2 hres), if_neg h4, if_pos h5, hty]⟩
  · rw [if_neg (by rintro (h | h); exacts [h4 (BitVec.eq_of_toNat_eq h), h5 (BitVec.eq_of_toNat_eq h)])] at htype
    have htype : typeField w = 0 := BitVec.eq_of_toNat_eq htype
    obtain ⟨i, hi⟩ := exists_plainInstr h1 h10 h4 h5
    refine ⟨i, ?_⟩
    rw [decode, if_neg (not_not.2 hres), if_neg h4, if_neg h5, hi]
    exact if_pos htype

/-- Settles O3: a legal word decodes and has its command's fields; any other raises IllegalCommand. -/
theorem decodeRule : Obligations.DecodeRule := by
  refine fun s w => ⟨fun hlegal => ?_, fun hill => ?_⟩
  · obtain ⟨i, hi⟩ := exists_decode_of_legalWord hlegal
    obtain ⟨-, hopc, htype⟩ := decode_fields hi
    exact ⟨i, hi, hopc ▸ opcField_toNat w, htype ▸ typeField_toNat w, issue_of_decode s hi⟩
  · obtain ⟨herr, hopc, hstage, hmip, hchanged, htruncated, -⟩ :=
      raiseError_fields s (opcField w) false (Raise.fits_of_stage_zero (c := .illegalCommand))
    exact ⟨illegalCommand w s, issue_of_illegal s hill, herr, hopc.trans (opcField_toNat w), hstage, hmip, hchanged, htruncated,
      raiseError_onlyStatus ..⟩

/-! ### Descriptor words -/

/-- A field shifted to its place inside a word loses no bit. -/
theorem setWidth_shiftLeft_toNat {n k : Nat} (v : BitVec n) (h : n + k ≤ 32) :
    (v.setWidth 32 <<< k).toNat = v.toNat <<< k := by
  have hlt : v.toNat <<< k < 2 ^ 32 := Nat.lt_of_lt_of_le (Nat.shiftLeft_lt v.isLt) (Nat.pow_le_pow_right (by decide) h)
  rw [BitVec.toNat_shiftLeft, BitVec.toNat_setWidth_of_le (by omega), Nat.mod_eq_of_lt hlt]

/-- The formula of 30_encoding R127 as numbers. -/
theorem toWord_toNat (D : Desc) :
    D.toWord.toNat = D.raster.toNat ||| D.depth.toNat <<< 4 ||| D.rowAlign.toNat <<< 12 ||| D.order.toNat <<< 20
      ||| D.palMode.toNat <<< 22 ||| D.comp.toNat <<< 24 := by
  simp only [Desc.toWord, BitVec.toNat_or]
  rw [setWidth_shiftLeft_toNat _ (by decide), setWidth_shiftLeft_toNat _ (by decide), setWidth_shiftLeft_toNat _ (by decide),
    setWidth_shiftLeft_toNat _ (by decide), setWidth_shiftLeft_toNat _ (by decide), BitVec.toNat_setWidth_of_le (by decide)]

theorem or_shiftLeft_eq_add {a k : Nat} (b : Nat) (h : a < 2 ^ k) : a ||| b <<< k = a + 2 ^ k * b := by
  rw [Nat.or_comm, ← Nat.shiftLeft_add_eq_or_of_lt h, Nat.shiftLeft_eq, Nat.add_comm, Nat.mul_comm]

/-- The fields of a descriptor word do not overlap, so they add up (10_state R40). -/
theorem toWord_toNat_sum (D : Desc) :
    D.toWord.toNat = D.raster.toNat + 2 ^ 4 * D.depth.toNat + 2 ^ 12 * D.rowAlign.toNat + 2 ^ 20 * D.order.toNat
      + 2 ^ 22 * D.palMode.toNat + 2 ^ 24 * D.comp.toNat := by
  have hraster := D.raster.isLt
  have hdepth := D.depth.isLt
  have hrow := D.rowAlign.isLt
  have horder := D.order.isLt
  have hpal := D.palMode.isLt
  rw [toWord_toNat, or_shiftLeft_eq_add (k := 4) _ hraster, or_shiftLeft_eq_add (k := 12) _ (by omega),
    or_shiftLeft_eq_add (k := 20) _ (by omega), or_shiftLeft_eq_add (k := 22) _ (by omega),
    or_shiftLeft_eq_add (k := 24) _ (by omega)]

theorem eq_extractLsb' {n : Nat} {v : BitVec n} {w : Word} {lo : Nat} (h : w.toNat / 2 ^ lo % 2 ^ n = v.toNat) :
    w.extractLsb' lo n = v :=
  BitVec.eq_of_toNat_eq (by rw [BitVec.extractLsb'_toNat, Nat.shiftRight_eq_div_pow, h])

theorem ofWord_toWord (D : Desc) : Desc.ofWord D.toWord = D := by
  have hsum := toWord_toNat_sum D
  have hraster := D.raster.isLt
  have hdepth := D.depth.isLt
  have hrow := D.rowAlign.isLt
  have horder := D.order.isLt
  have hpal := D.palMode.isLt
  have hcomp := D.comp.isLt
  rw [Desc.ofWord, eq_extractLsb' (v := D.raster) (by omega), eq_extractLsb' (v := D.depth) (by omega),
    eq_extractLsb' (v := D.rowAlign) (by omega), eq_extractLsb' (v := D.order) (by omega),
    eq_extractLsb' (v := D.palMode) (by omega), eq_extractLsb' (v := D.comp) (by omega)]

/-- Settles O4: the shifted fields do not overlap, so each reads back; the examples are evaluated. -/
theorem descriptorWord : Obligations.DescriptorWord :=
  ⟨fun D => ⟨ofWord_toWord D, toWord_toNat D⟩, by decide⟩

/-! ### Sequencing -/

/-- The host is one operation further in the same program (30_encoding R130). -/
structure NextOp (s t : State) : Prop where
  hpc : t.host.hpc = s.host.hpc + 1
  program : t.host.program = s.host.program

theorem exec_nextOp {i : Instr} {s t : State} (h : exec i s = .next t) : NextOp s t := by
  obtain ⟨-, ⟨hprogram, hhpc, -⟩, -⟩ := registerFrame i s t h
  exact ⟨hhpc, hprogram⟩

theorem issue_nextOp {w : Word} {s t : State} (h : issue w s = .next t) : NextOp s t := by
  unfold issue at h
  split at h
  · exact exec_nextOp h
  · exact Host.Outcome.next.inj h ▸ ⟨rfl, rfl⟩

theorem hostWrite_nextOp {off : Nat} {v : Word} {s t : State} (h : hostWrite off v s = .next t) : NextOp s t := by
  by_cases hoff : off = 0
  · subst hoff
    exact issue_nextOp h
  · rw [hostWrite_next hoff h]
    have hhost := writeReg_host s off v
    exact ⟨congrArg (·.hpc + 1) hhost, congrArg (·.program) hhost⟩

theorem hostRead_nextOp {off : Nat} {k : Option Nat} {s t : State} (h : hostRead off k s = .next t) : NextOp s t := by
  unfold hostRead at h
  split at h
  · cases k <;> exact Host.Outcome.next.inj h ▸ ⟨rfl, rfl⟩
  · exact absurd h nofun

theorem hostAlloc_nextOp {k n : Nat} {s t : State} (h : hostAlloc k n s = .next t) : NextOp s t := by
  unfold hostAlloc at h
  split at h
  · next hs1 =>
    obtain ⟨-, rfl⟩ := alloc_some hs1
    exact Host.Outcome.next.inj h ▸ ⟨rfl, rfl⟩
  · next hs1 =>
    obtain ⟨rfl, -⟩ := alloc_none hs1
    exact Host.Outcome.next.inj h ▸ ⟨rfl, rfl⟩

theorem hostPut_nextOp {g : Word} {off : Nat} {bs : List Byte} {s t : State} (h : hostPut g off bs s = .next t) :
    NextOp s t := by
  unfold hostPut at h
  split at h
  · exact Host.Outcome.next.inj h ▸ ⟨rfl, rfl⟩
  · exact absurd h nofun

theorem hostGet_nextOp {g : Word} {off n : Nat} {s t : State} (h : hostGet g off n s = .next t) : NextOp s t := by
  unfold hostGet at h
  split at h
  · exact Host.Outcome.next.inj h ▸ ⟨rfl, rfl⟩
  · exact absurd h nofun

theorem hostFree_nextOp {g : Word} {s t : State} (h : hostFree g s = .next t) : NextOp s t := by
  unfold hostFree at h
  split at h
  · exact Host.Outcome.next.inj h ▸ ⟨rfl, rfl⟩
  · exact absurd h nofun

/-- No host operation branches: each that is a move goes on to the next one. -/
theorem hostStep_nextOp {op : HostOp} {s t : State} (h : hostStep op s = .next t) : NextOp s t := by
  cases op <;> simp only [hostStep] at h
  case rd off k => exact hostRead_nextOp h
  case halloc k n => exact hostAlloc_nextOp h
  case reset => exact Host.Outcome.next.inj h ▸ ⟨rfl, rfl⟩
  case wr off v =>
    split at h
    · exact hostWrite_nextOp h
    · exact absurd h nofun
  case hwrite v off bs =>
    split at h
    · exact hostPut_nextOp h
    · exact absurd h nofun
  case hread v off n =>
    split at h
    · exact hostGet_nextOp h
    · exact absurd h nofun
  case hfree v =>
    split at h
    · exact hostFree_nextOp h
    · exact absurd h nofun

/-- A step is one host operation of the program, and moves the host to the next one. -/
theorem step_nextOp {s t : State} (h : step s = .next t) : s.host.hpc < s.host.program.length ∧ NextOp s t := by
  unfold step at h
  split at h
  · next op hop => exact ⟨(List.getElem?_eq_some_iff.1 hop).1, hostStep_nextOp h⟩
  · exact absurd h nofun

theorem step_of_programEnd {s : State} (h : s.host.hpc = s.host.program.length) : step s = .fault .programEnded := by
  have hop : fetchOp s = none := List.getElem?_eq_none h.ge
  rw [step, hop]

/-- Settles O7: each host operation moves hpc by one, a command with an error as any other. -/
theorem sequencing : Obligations.Sequencing := by
  refine ⟨rfl, fun s t h => ?_, fun s => step_of_programEnd, fun i s => ?_⟩
  · obtain ⟨hlt, hhpc, hprogram⟩ := step_nextOp h
    exact ⟨hlt, hhpc, hprogram⟩
  · obtain ⟨t, ht⟩ := exec_next i s
    exact ⟨t, ht, (exec_nextOp ht).hpc⟩

end Sys2Proof.Machine
end

section
/-! The obligations on the colour model (spec/40_color_model.md R150 to R157): the round trips of the channel rescale, the layout of
the slots, and where each channel stands in a direct item, encoded and decoded. -/

namespace Sys2Proof.Machine

/-! ### The channel rescale -/

/-- Narrowing and expanding loses, whatever the width: both divisions round down (40_color_model R152). -/
theorem expand_narrow_le (c : Nat) {w : Nat} (hw : 0 < w) : expand (narrow c w) w ≤ c := by
  have hpos : 0 < 2 ^ w - 1 := Nat.sub_pos_of_lt (Nat.one_lt_two_pow hw.ne')
  calc expand (narrow c w) w ≤ c * (2 ^ w - 1) / (2 ^ w - 1) := Nat.div_le_div_right (Nat.div_mul_le_self _ 255)
    _ = c := Nat.mul_div_cancel _ hpos

theorem narrow_expand_six {v : Nat} (hv : v < 64) : narrow (expand v 6) 6 = if v ∈ [0, 21, 42, 63] then v else v - 1 := by
  simp only [narrow, expand, List.mem_cons, List.not_mem_nil, or_false]
  split <;> omega

theorem narrow_expand_five {v : Nat} (hv : v < 32) : narrow (expand v 5) 5 = if v ∈ [0, 31] then v else v - 1 := by
  simp only [narrow, expand, List.mem_cons, List.not_mem_nil, or_false]
  split <;> omega

/-- Settles O16: expanding widens by an exact factor at 8, 4 and 1 bits, and rounds at 6 and 5. -/
theorem rescaleRoundTrips : Obligations.RescaleRoundTrips := by
  refine ⟨fun v _ => ?_, fun c _ => ?_, fun v => narrow_expand_six, fun c _ => ⟨expand_narrow_le c (by decide), ?_⟩,
    fun v => narrow_expand_five, fun c _ => ⟨expand_narrow_le c (by decide), ?_⟩,
    fun v _ => ?_, fun c _ => ⟨expand_narrow_le c (by decide), ?_⟩,
    fun v _ => ?_, fun c _ => ⟨expand_narrow_le c (by decide), ?_⟩⟩
  · rw [expand_eight, narrow_eight]
  · rw [narrow_eight, expand_eight]
  all_goals
    simp only [narrow, expand]
    omega

/-! ### Slots -/

/-- Settles O18: the roles of each order that the format has, with their widths. -/
theorem slotLayouts : Obligations.SlotLayouts := by
  unfold Obligations.SlotLayouts
  decide

theorem mem_orderSeq (o : Order) (role : Role) : role ∈ orderSeq o := by
  cases o <;> cases role <;> decide

theorem mem_slots {f : Raster} {o : Order} {role : Role} {w : Nat} : (role, w) ∈ slots f o ↔ roleWidth f role = some w := by
  simp [slots, mem_orderSeq]

/-- Each role has at most one slot. -/
theorem slots_roles_nodup (f : Raster) (o : Order) : ((slots f o).map Prod.fst).Nodup := by
  cases f <;> cases o <;> decide

theorem roleWidth_of_slot {f : Raster} {o : Order} {k : Nat} {role : Role} {w : Nat} (hk : (slots f o)[k]? = some (role, w)) :
    roleWidth f role = some w := mem_slots.1 (List.mem_of_getElem? hk)

/-- A format that has some role is not a luminance format. -/
theorem not_lum_of_roleWidth {f : Raster} {role : Role} {w : Nat} (hw : roleWidth f role = some w) :
    f ≠ .lum ∧ f ≠ .lumAlpha := by
  constructor <;> rintro rfl <;> cases hw

/-- A format with a pixel layout that is not a luminance format has all roles but, at most, alpha. -/
theorem role_eq_alpha {f : Raster} {d : Nat} {role : Role} (hd : d ∈ depthSet f) (h1 : f ≠ .lum) (h2 : f ≠ .lumAlpha)
    (hw : roleWidth f role = none) : role = .a := by
  cases f
  case default => cases hd
  case lum => exact absurd rfl h1
  case lumAlpha => exact absurd rfl h2
  all_goals
    revert hw
    cases role <;> decide

/-! ### Decoding -/

theorem channel_withChannel_same (c : Colour) (role : Role) (v : Byte) : channel (withChannel c role v) role = v := by
  cases role <;> rfl

theorem channel_withChannel_other (c : Colour) {role role' : Role} (v : Byte) (h : role ≠ role') :
    channel (withChannel c role' v) role = channel c role := by
  revert h
  cases role <;> cases role' <;> simp [channel, withChannel]

theorem decodeSlots_other (word : Nat) {role : Role} {l : List (Role × Nat)} (h : role ∉ l.map Prod.fst) (p : Nat) (c : Colour) :
    channel (decodeSlots word l p c) role = channel c role := by
  induction l generalizing p c with
  | nil => rfl
  | cons a l ih =>
    obtain ⟨hne, hl⟩ := List.ne_and_not_mem_of_not_mem_cons h
    rw [decodeSlots, ih hl, channel_withChannel_other c _ hne]

/-- Slot k of a word is its bits at the sum of the widths below it, expanded (40_color_model R156). -/
theorem decodeSlots_slot (word : Nat) {role : Role} {w : Nat} {l : List (Role × Nat)} (hl : (l.map Prod.fst).Nodup) {k : Nat}
    (hk : l[k]? = some (role, w)) (p : Nat) (c : Colour) :
    channel (decodeSlots word l p c) role
      = BitVec.ofNat 8 (expand (word / 2 ^ (p + ((l.take k).map Prod.snd).sum) % 2 ^ w) w) := by
  induction l generalizing k p c with
  | nil => simp at hk
  | cons a l ih =>
    obtain ⟨hnot, hnodup⟩ := List.nodup_cons.1 hl
    rw [decodeSlots]
    cases k with
    | zero =>
      obtain rfl : a = (role, w) := by simpa using hk
      rw [decodeSlots_other word hnot, channel_withChannel_same, Nat.shiftRight_eq_div_pow]
      rfl
    | succ k => rw [ih hnodup (by simpa using hk), List.take_succ_cons, List.map_cons, List.sum_cons, Nat.add_assoc]

theorem decodeDirect_eq_decodeSlots {f : Raster} (h1 : f ≠ .lum) (h2 : f ≠ .lumAlpha) (o : Order) (word : Nat) :
    decodeDirect f o word = decodeSlots word (slots f o) 0 ⟨0, 0, 0, 255⟩ := by
  cases f
  case lum => exact absurd rfl h1
  case lumAlpha => exact absurd rfl h2
  all_goals rfl

theorem decodeDirect_slot {f : Raster} {o : Order} {k : Nat} {role : Role} {w : Nat} (hk : (slots f o)[k]? = some (role, w))
    (word : Nat) : channel (decodeDirect f o word) role
      = BitVec.ofNat 8 (expand (word / 2 ^ (((slots f o).take k).map Prod.snd).sum % 2 ^ w) w) := by
  obtain ⟨h1, h2⟩ := not_lum_of_roleWidth (roleWidth_of_slot hk)
  rw [decodeDirect_eq_decodeSlots h1 h2, decodeSlots_slot word (slots_roles_nodup f o) hk, Nat.zero_add]

theorem not_mem_slots_roles {f : Raster} {o : Order} {role : Role} (hw : roleWidth f role = none) :
    role ∉ (slots f o).map Prod.fst := by
  simp [mem_slots, hw]

/-- A missing alpha reads opaque (40_color_model R156). -/
theorem decodeDirect_missing_alpha {f : Raster} (hw : roleWidth f .a = none) (h2 : f ≠ .lumAlpha) (o : Order) (word : Nat) :
    (decodeDirect f o word).a = 255 := by
  by_cases h1 : f = .lum
  · rw [h1]; rfl
  · rw [decodeDirect_eq_decodeSlots h1 h2]
    exact decodeSlots_other word (not_mem_slots_roles hw) 0 _

/-! ### Encoding -/

/-- The 888/32 pad byte; 0 for every other item (40_color_model R157). -/
def padByte (f : Raster) (d : Nat) : Nat := if f = .r888 ∧ d = 32 then 0xFF else 0

theorem encodeSlots_fits (f : Raster) (o : Order) (c : Colour) :
    encodeSlots c (slots f o) 0 0 < 2 ^ ((slots f o).map Prod.snd).sum :=
  encodeSlots_lt c (slots f o) 0 0 _ (Nat.two_pow_pos _) (Nat.zero_add _).le

theorem slots_r888_sum (o : Order) : ((slots .r888 o).map Prod.snd).sum = 24 := by cases o <;> decide

theorem slots_r555_sum (o : Order) : ((slots .r555 o).map Prod.snd).sum = 15 := by cases o <;> decide

/-- An item with slots is its slots with the pad byte above them. -/
theorem encodeDirect_eq_encodeSlots {f : Raster} (h1 : f ≠ .lum) (h2 : f ≠ .lumAlpha) (o : Order) (d : Nat) (c : Colour) :
    encodeDirect f o d c
      = encodeSlots c (slots f o) 0 0 + padByte f d * 2 ^ ((slots f o).map Prod.snd).sum := by
  have hdef : encodeDirect f o d c = if f = .r888 ∧ d = 32 then encodeSlots c (slots f o) 0 0 ||| (0xFF <<< 24)
      else encodeSlots c (slots f o) 0 0 := by
    cases f
    case lum => exact absurd rfl h1
    case lumAlpha => exact absurd rfl h2
    all_goals rfl
  rw [hdef, padByte]
  split
  · next hpad =>
    obtain ⟨rfl, -⟩ := hpad
    have hlt := encodeSlots_fits .r888 o c
    rw [slots_r888_sum] at hlt ⊢
    exact or_shl hlt
  · rw [Nat.zero_mul, Nat.add_zero]

theorem slot_in_sum {l : List (Role × Nat)} {k : Nat} {role : Role} {w : Nat} (hk : l[k]? = some (role, w)) :
    ((l.take k).map Prod.snd).sum + w ≤ (l.map Prod.snd).sum := by
  have hsplit := congrArg (fun l => (l.map Prod.snd).sum) (List.take_append_drop k l)
  have hdrop : l.drop k = (role, w) :: l.drop (k + 1) := by
    obtain ⟨hlt, hget⟩ := List.getElem?_eq_some_iff.1 hk
    rw [List.drop_eq_getElem_cons hlt, hget]
  simp only [List.map_append, List.sum_append, hdrop, List.map_cons, List.sum_cons] at hsplit
  omega

/-- Bits from n up do not show in the bits below. -/
theorem add_mul_two_pow_field {a b n p w : Nat} (h : p + w ≤ n) : (a + b * 2 ^ n) / 2 ^ p % 2 ^ w = a / 2 ^ p % 2 ^ w := by
  obtain ⟨k, rfl⟩ := Nat.exists_eq_add_of_le h
  rw [Nat.pow_add, Nat.pow_add, show a + b * (2 ^ p * 2 ^ w * 2 ^ k) = a + b * 2 ^ k * 2 ^ w * 2 ^ p by ring,
    Nat.add_mul_div_right _ _ (Nat.two_pow_pos p), Nat.add_mul_mod_self_right]

theorem encodeDirect_slot {f : Raster} {o : Order} {k : Nat} {role : Role} {w : Nat} (hk : (slots f o)[k]? = some (role, w))
    (d : Nat) (c : Colour) : encodeDirect f o d c / 2 ^ (((slots f o).take k).map Prod.snd).sum % 2 ^ w
      = narrow (channel c role).toNat w := by
  obtain ⟨h1, h2⟩ := not_lum_of_roleWidth (roleWidth_of_slot hk)
  have hslot := encodeSlots_slot c (slots f o) 0 0 (by decide) k role w hk
  rw [encodeDirect_eq_encodeSlots h1 h2, add_mul_two_pow_field (slot_in_sum hk), ← hslot, Nat.zero_add]

theorem encodeDirect_r555_lt (o : Order) (d : Nat) (c : Colour) : encodeDirect .r555 o d c < 2 ^ 15 :=
  slots_r555_sum o ▸ encodeSlots_fits .r555 o c

theorem encodeDirect_r888_pad (o : Order) (c : Colour) : encodeDirect .r888 o 32 c / 2 ^ 24 = 0xFF := by
  have hlt := encodeSlots_fits .r888 o c
  rw [encodeDirect_eq_encodeSlots (by decide) (by decide)]
  rw [slots_r888_sum] at hlt ⊢
  rw [Nat.add_mul_div_right _ _ (by decide), Nat.div_eq_of_lt hlt]
  rfl

theorem encodeDirect_lumAlpha (o : Order) (d : Nat) (c : Colour) :
    encodeDirect .lumAlpha o d c = luminance c + 2 ^ 8 * c.a.toNat := by
  rw [encodeDirect, or_shiftLeft_eq_add _ (lum_lt c)]

theorem decodeDirect_lumAlpha (o : Order) (word : Nat) : decodeDirect .lumAlpha o word
    = ⟨BitVec.ofNat 8 word, BitVec.ofNat 8 word, BitVec.ofNat 8 word, BitVec.ofNat 8 (word / 2 ^ 8)⟩ := by
  rw [decodeDirect, Nat.shiftRight_eq_div_pow]

/-! ### Encoding, then decoding -/

theorem decode_encode_lumAlpha (o : Order) (d : Nat) (c : Colour) : decodeDirect .lumAlpha o (encodeDirect .lumAlpha o d c)
    = ⟨BitVec.ofNat 8 (luminance c), BitVec.ofNat 8 (luminance c), BitVec.ofNat 8 (luminance c), c.a⟩ := by
  have hlow : BitVec.ofNat 8 (luminance c + 2 ^ 8 * c.a.toNat) = BitVec.ofNat 8 (luminance c) :=
    BitVec.eq_of_toNat_eq (by simp)
  have hhigh : (luminance c + 2 ^ 8 * c.a.toNat) / 2 ^ 8 = c.a.toNat := by have := lum_lt c; omega
  rw [decodeDirect_lumAlpha, encodeDirect_lumAlpha, hlow, hhigh, BitVec.ofNat_toNat, BitVec.setWidth_eq]

/-- A channel the format has comes back narrowed and expanded (40_color_model R156, R157). -/
theorem decode_encode_channel {f : Raster} {role : Role} {w : Nat} (hw : roleWidth f role = some w) (o : Order) (d : Nat)
    (c : Colour) : channel (decodeDirect f o (encodeDirect f o d c)) role
      = BitVec.ofNat 8 (expand (narrow (channel c role).toNat w) w) := by
  obtain ⟨k, hk⟩ := List.mem_iff_getElem?.1 (mem_slots (o := o).2 hw)
  rw [decodeDirect_slot hk, encodeDirect_slot hk]

/-- Settles O17: the slots of an item do not overlap and each role has one, so each reads back; luminance and pads beside them. -/
theorem directItemRoundTrip : Obligations.DirectItemRoundTrip := by
  intro f o d c hd _
  refine ⟨encodeDirect_lt hd, fun k role w hk => ⟨encodeDirect_slot hk d c, decodeDirect_slot hk⟩,
    fun word hw h2 => decodeDirect_missing_alpha hw h2 o word, ?_, ?_, ?_, ?_, ?_, ?_, fun h1 h2 role => ?_⟩
  · rintro rfl
    exact encodeDirect_r555_lt o d c
  · rintro rfl rfl
    exact encodeDirect_r888_pad o c
  · rintro rfl
    exact ⟨rfl, fun _ => rfl⟩
  · rintro rfl
    exact ⟨encodeDirect_lumAlpha o d c, decodeDirect_lumAlpha o⟩
  · rintro rfl
    rfl
  · rintro rfl
    exact decode_encode_lumAlpha o d c
  · split
    · next w hw => exact decode_encode_channel hw o d c
    · next hw =>
      obtain rfl := role_eq_alpha hd h1 h2 hw
      exact decodeDirect_missing_alpha hw h2 o _

end Sys2Proof.Machine
end

section
/-! The obligations on the texel commands (spec/40_color_model.md R158 to R165): with an error the checks raise it, and without one
the texel is in a level its buffer holds, so that the access finds its bytes. -/

namespace Sys2Proof.Machine

/-! ### What the checks ensure -/

/-- The texel at (ARG1, ARG2) is in level ARG0 of a raw image, whose buffer holds the level; and the palette of an indexed image
is held by its buffer. -/
structure TexelInLevel (s : State) : Prop where
  wf : s.imgDesc.wf = true
  raw : s.imgDesc.comp = 0
  held : s.mem.inBounds (s.mip s.args[0].toNat).buf 0 (s.imgDesc.rawSize (s.lw s.args[0].toNat) (s.lh s.args[0].toNat)) = true
  x_lt : s.args[1].toNat < s.lw s.args[0].toNat
  y_lt : s.args[2].toNat < s.lh s.args[0].toNat
  palette : s.imgDesc.palMode ≠ palNone → s.mem.inBounds s.palBuf 0 (s.palEntries * s.imgDesc.entryBytes) = true

theorem texelInLevel_of_checks {b : Bool} {s : State} (h : firstRaise (texelChecks b s) = none) (hraw : s.imgDesc.comp = 0) :
    TexelInLevel s := by
  obtain ⟨hhead, -, -, hmip, hx, hy⟩ := texelChecks_none h
  obtain ⟨-, -, hwf, hpal⟩ := header_ok hhead
  obtain ⟨-, -, -, -, -, hheld⟩ := rawMip_ok hmip
  exact ⟨hwf, hraw, hheld, hx, hy, fun hp => (hpal hp).2⟩

/-- The texel's item reads (40_color_model R158). -/
theorem TexelInLevel.readItem {s : State} (h : TexelInLevel s) :
    ∃ item, Machine.readItem s.mem (s.mip s.args[0].toNat).buf (s.lw s.args[0].toNat) s.imgDesc s.args[1].toNat s.args[2].toNat
      = some item := by
  obtain ⟨item, hitem, -⟩ := readItem_of_level h.wf h.raw h.held h.x_lt h.y_lt
  exact ⟨item, hitem⟩

theorem resolveIndexChecks_eq (s : State) : resolveIndexChecks s = texelChecks (!kindIndexed s.imgDesc) s := by
  rw [kindIndexed_not, resolveIndexChecks]

theorem fetchColorChecks_eq (s : State) : fetchColorChecks s = texelChecks (!kindRaw s.imgDesc) s := by
  rw [kindRaw_not, fetchColorChecks]

theorem storeColorChecks_eq (s : State) : storeColorChecks s = texelChecks (!kindDirect s.imgDesc) s := by
  rw [kindDirect_not, storeColorChecks]

theorem texelInLevel_of_resolveIndexChecks {s : State} (h : firstRaise (resolveIndexChecks s) = none) :
    TexelInLevel s ∧ s.imgDesc.palMode ≠ palNone := by
  obtain ⟨-, hkind, -⟩ := texelChecks_none h
  obtain ⟨hraw, hpal⟩ := not_or.1 (of_decide_eq_false hkind)
  exact ⟨texelInLevel_of_checks h (not_not.1 hraw), hpal⟩

theorem texelInLevel_of_fetchColorChecks {s : State} (h : firstRaise (fetchColorChecks s) = none) : TexelInLevel s := by
  obtain ⟨-, hkind, -⟩ := texelChecks_none h
  exact texelInLevel_of_checks h (not_not.1 (of_decide_eq_false hkind))

theorem texelInLevel_of_storeColorChecks {s : State} (h : firstRaise (storeColorChecks s) = none) :
    TexelInLevel s ∧ s.imgDesc.palMode = palNone := by
  obtain ⟨-, hkind, -⟩ := texelChecks_none h
  obtain ⟨hraw, hpal⟩ := not_or.1 (of_decide_eq_false hkind)
  exact ⟨texelInLevel_of_checks h (not_not.1 hraw), not_not.1 hpal⟩

/-! ### The two ends of a texel command -/

theorem texelOperand_of_raise {kindOk : Desc → Bool} {s : State} {e : Raise}
    (h : firstRaise (texelChecks (!kindOk s.imgDesc) s) = some e) : texelOperand kindOk s = .error e := by
  rw [texelOperand_eq, h]

theorem texelOperand_of_pass {kindOk : Desc → Bool} {s : State} (h : firstRaise (texelChecks (!kindOk s.imgDesc) s) = none) :
    texelOperand kindOk s = .ok ⟨s.args[0].toNat, (s.mip s.args[0].toNat).buf, s.lw s.args[0].toNat, s.args[1].toNat,
      s.args[2].toNat⟩ := by
  rw [texelOperand_eq, h]

theorem exec_resolveIndex_of_raise {s : State} {e : Raise} (h : firstRaise (resolveIndexChecks s) = some e) :
    exec .resolveIndex s = .next (s.raiseError 0x01 e false) := by
  rw [resolveIndexChecks_eq] at h
  have herr : resolveIndex s = .error e := by rw [resolveIndex, texelOperand_of_raise h]
  rw [exec, execResolveIndex, herr, State.finish]

theorem exec_fetchColor_of_raise {s : State} {e : Raise} (h : firstRaise (fetchColorChecks s) = some e) :
    exec .fetchColor s = .next (s.raiseError 0x02 e false) := by
  rw [fetchColorChecks_eq] at h
  have herr : fetchColor s = .error e := by rw [fetchColor, texelOperand_of_raise h]
  rw [exec, execFetchColor, herr, State.finish]

theorem exec_storeColor_of_raise {s : State} {e : Raise} (h : firstRaise (storeColorChecks s) = some e) :
    exec .storeColor s = .next (s.raiseError 0x03 e false) := by
  rw [storeColorChecks_eq] at h
  have herr : storeColor s = .error e := by rw [storeColor, texelOperand_of_raise h]
  rw [exec, execStoreColor, herr, State.finish]

theorem exec_resolveIndex_of_item {s : State} {item : Nat} (h : firstRaise (resolveIndexChecks s) = none)
    (hitem : readItem s.mem (s.mip s.args[0].toNat).buf (s.lw s.args[0].toNat) s.imgDesc s.args[1].toNat s.args[2].toNat
      = some item) :
    exec .resolveIndex s = .next ((s.setRes0 (BitVec.ofNat 32 (indexOfItem s.imgDesc item))).complete 0x01 false false) := by
  rw [resolveIndexChecks_eq] at h
  have hok : resolveIndex s = .ok (s.setRes0 (BitVec.ofNat 32 (indexOfItem s.imgDesc item))) := by
    simp only [resolveIndex, texelOperand_of_pass h, hitem, access]
  rw [exec, execResolveIndex, hok, State.finish]

theorem exec_fetchColor_of_texel {s : State} {c : Colour} {found : Bool} (h : firstRaise (fetchColorChecks s) = none)
    (htexel : s.fetchLevel s.args[0].toNat s.args[1].toNat s.args[2].toNat = some (c, found)) :
    exec .fetchColor s
      = .next (((s.setRes0 (packColour c)).setRes1 (if found then 1 else 0)).complete 0x02 false false) := by
  rw [fetchColorChecks_eq] at h
  rw [State.fetchLevel] at htexel
  have hok : fetchColor s = .ok ((s.setRes0 (packColour c)).setRes1 (if found then 1 else 0)) := by
    simp only [fetchColor, texelOperand_of_pass h, htexel, access]
  rw [exec, execFetchColor, hok, State.finish]

theorem exec_storeColor_of_store {s : State} {m : Memory} (h : firstRaise (storeColorChecks s) = none)
    (hstore : storeTexel s.mem s.imgDesc (s.mip s.args[0].toNat).buf (s.lw s.args[0].toNat) s.args[1].toNat s.args[2].toNat
      (unpackColour s.args[3]) = some m) :
    exec .storeColor s = .next ((s.setMem m).complete 0x03 false false) := by
  rw [storeColorChecks_eq] at h
  have hok : storeColor s = .ok (s.setMem m) := by
    simp only [storeColor, texelOperand_of_pass h, hstore, access]
  rw [exec, execStoreColor, hok, State.finish]

/-! ### The byte of an index -/

theorem indexed_depth {D : Desc} (hw : D.wf = true) (hc : D.comp = 0) (hp : D.palMode ≠ palNone) :
    D.depth = 4 ∨ D.depth = 8 := by
  obtain ⟨-, -, -, hdepth⟩ := raw_wf hw hc
  rcases hdepth hp with ⟨-, h⟩ | ⟨-, h⟩
  · exact h
  · exact .inr h

/-- The byte of the texel at x, in its row (20_memory R96). -/
def indexByte (D : Desc) (x : Nat) : Nat := if D.depth = 4 then x / 2 else x

/-- The index of the texel at x in its byte b (40_color_model R158, R159). -/
def indexInByte (D : Desc) (x b : Nat) : Nat :=
  if D.depth = 4 then (if x % 2 = 0 then b % 16 else b / 16) else if D.palMode = pal4 then b % 16 else b

theorem itemOffset_indexed {D : Desc} (hd : D.depth = 4 ∨ D.depth = 8) (w x y : Nat) :
    itemOffset D w x y = y * D.pitch w + indexByte D x := by
  rcases hd with h | h <;> simp [itemOffset, indexByte, h]

theorem itemBytes_indexed {D : Desc} (hd : D.depth = 4 ∨ D.depth = 8) : itemBytes D = 1 := by
  rcases hd with h | h <;> simp [itemBytes, h]

/-- A byte holds two nibbles, that of an even x the low one (20_memory R96). -/
theorem nibble_eq {b : Nat} (hb : b < 256) (x : Nat) :
    (b >>> (4 * (x % 2))) &&& 0xF = if x % 2 = 0 then b % 16 else b / 16 := by
  rw [and15, Nat.shiftRight_eq_div_pow]
  rcases Nat.mod_two_eq_zero_or_one x with hx | hx
  · simp [hx]
  · simp only [hx, one_ne_zero, if_false]
    omega

theorem read_one {m : Memory} {h : Word} {off : Nat} (hb : m.inBounds h off 1 = true) :
    ∃ b : Byte, m.byte? h off = some b ∧ m.read h off 1 = some b.toNat := by
  obtain ⟨v, hv, hlt⟩ := read_of_inBounds hb
  obtain ⟨-, hbyte⟩ := read_bytes hv
  refine ⟨BitVec.ofNat 8 v, hbyte 0 Nat.one_pos, ?_⟩
  rw [hv, BitVec.toNat_ofNat, Nat.mod_eq_of_lt hlt]

theorem readItem_indexed {m : Memory} {h : Word} {w : Nat} {D : Desc} {x y : Nat} {b : Byte} (hd : D.depth = 4 ∨ D.depth = 8)
    (hr : m.read h (y * D.pitch w + indexByte D x) 1 = some b.toNat) :
    ∃ item, readItem m h w D x y = some item ∧ indexOfItem D item = indexInByte D x b.toNat := by
  rw [← itemOffset_indexed hd] at hr
  rcases hd with h4 | h8
  · refine ⟨_, by rw [readItem, if_pos h4, hr, Option.map_some], ?_⟩
    rw [nibble_eq b.isLt]
    simp [indexOfItem, indexInByte, h4]
  · refine ⟨b.toNat, by simpa [readItem, h8] using hr, ?_⟩
    simp [indexOfItem, indexInByte, h8, and15]

/-- Settles O19: the texel's byte is in the level, and its index in the byte. -/
theorem resolveIndexCommand : Obligations.ResolveIndexCommand := by
  refine ⟨by decide, fun s => ⟨fun h => ?_, fun e => exec_resolveIndex_of_raise⟩⟩
  obtain ⟨htexel, hpal⟩ := texelInLevel_of_resolveIndexChecks h
  have hd := indexed_depth htexel.wf htexel.raw hpal
  have hin := item_in_level htexel.wf htexel.raw htexel.x_lt htexel.y_lt
  rw [itemOffset_indexed hd, itemBytes_indexed hd] at hin
  obtain ⟨b, hbyte, hread⟩ := read_one (inBounds_mono htexel.held (hin.trans (Nat.zero_add _).ge))
  obtain ⟨item, hitem, hindex⟩ := readItem_indexed hd hread
  have hexec := exec_resolveIndex_of_item h hitem
  rw [hindex] at hexec
  exact ⟨b, hbyte, hexec⟩

/-! ### The colour of a texel -/

section
variable {m : Memory} {D : Desc} {pal h : Word} {n w x y item : Nat}

theorem readItem_direct (h4 : D.depth ≠ 4) :
    readItem m h w D x y = m.read h (y * D.pitch w + x * (D.depth.toNat / 8)) (D.depth.toNat / 8) := by
  rw [readItem, if_neg h4, itemOffset_direct h4]

theorem fetchTexel_direct (hp : D.palMode = palNone) (hitem : readItem m h w D x y = some item) :
    fetchTexel m D pal n h w x y = some (decodeDirect D.rasterF D.orderF item, true) := by
  simp [fetchTexel, hitem, hp]

/-- An index past the palette names no colour (40_color_model R161). -/
theorem fetchTexel_missing (hp : D.palMode ≠ palNone) (hitem : readItem m h w D x y = some item)
    (hn : n ≤ indexOfItem D item) : fetchTexel m D pal n h w x y = some (Colour.none, false) := by
  simp [fetchTexel, hitem, hp, hn]

theorem fetchTexel_entry {v : Nat} (hp : D.palMode ≠ palNone) (hitem : readItem m h w D x y = some item)
    (hn : indexOfItem D item < n) (hv : m.read pal (indexOfItem D item * D.entryBytes) D.entryBytes = some v) :
    fetchTexel m D pal n h w x y = some (decodeDirect D.rasterF D.orderF v, true) := by
  simp [fetchTexel, hitem, hp, Nat.not_le.2 hn, paletteColour, hv]

theorem read_entry {idx : Nat} (hb : m.inBounds pal 0 (n * D.entryBytes) = true) (hi : idx < n) :
    ∃ v, m.read pal (idx * D.entryBytes) D.entryBytes = some v := by
  obtain ⟨c, hc⟩ := paletteColour_of_lt hb hi
  obtain ⟨v, hv, -⟩ := Option.map_eq_some_iff.1 hc
  exact ⟨v, hv⟩

end

/-- Settles O20: the texel's item is read, and an index below PAL_COUNT has its entry in the palette's buffer. -/
theorem fetchColorCommand : Obligations.FetchColorCommand := by
  refine ⟨by decide, fun s => ⟨fun h => ?_, fun e => exec_fetchColor_of_raise⟩⟩
  have htexel := texelInLevel_of_fetchColorChecks h
  obtain ⟨item, hitem⟩ := htexel.readItem
  refine ⟨fun hp => ⟨item, ?_, exec_fetchColor_of_texel h (fetchTexel_direct hp hitem)⟩,
    fun hp => ⟨item, hitem, fun hn => ?_, fun hn => ?_⟩⟩
  · exact (readItem_direct (direct_depth htexel.wf htexel.raw hp).1).symm.trans hitem
  · exact exec_fetchColor_of_texel h (fetchTexel_missing hp hitem hn)
  · obtain ⟨v, hv⟩ := read_entry (htexel.palette hp) hn
    exact ⟨v, hv, exec_fetchColor_of_texel h (fetchTexel_entry hp hitem hn hv)⟩

/-- Settles O21: the item is written inside its level, by the one write of StoreTexel. -/
theorem storeColorCommand : Obligations.StoreColorCommand := by
  refine ⟨by decide, fun s => ⟨fun h => ?_, fun e => exec_storeColor_of_raise⟩⟩
  obtain ⟨htexel, hp⟩ := texelInLevel_of_storeColorChecks h
  obtain ⟨m, hstore, -⟩ :=
    storeTexel_spec htexel.wf htexel.raw hp (unpackColour s.args[3]) htexel.held htexel.x_lt htexel.y_lt
  exact ⟨m, hstore, exec_storeColor_of_store h hstore⟩

/-! ### STORE_COLOR, then FETCH_COLOR -/

theorem eq_of_channel_eq {c c' : Colour} (h : ∀ role, channel c role = channel c' role) : c = c' := by
  obtain ⟨r, g, b, a⟩ := c
  exact Colour.mk.injEq .. ▸ ⟨h .r, h .g, h .b, h .a⟩

/-- 8888 keeps every channel whole, in each order (40_color_model R152). -/
theorem decodeDirect_encodeDirect_r8888 (o : Order) (d : Nat) (c : Colour) :
    decodeDirect .r8888 o (encodeDirect .r8888 o d c) = c :=
  eq_of_channel_eq fun role => by
    rw [decode_encode_channel (w := 8) rfl, narrow_eight, expand_eight, BitVec.ofNat_toNat, BitVec.setWidth_eq]

/-- Pack undoes unpack: the four extractions stand side by side (00_scope R17). -/
theorem packColour_unpackColour (w : Word) : packColour (unpackColour w) = w := by
  rw [packColour, unpackColour]
  simp only [BitVec.extractLsb'_append_extractLsb'_eq_extractLsb', BitVec.extractLsb'_eq_self]

/-- The checks of a texel command read the lengths of buffers, not their bytes. -/
theorem texelChecks_setMem (b : Bool) {s : State} {m : Memory} (hlen : ∀ g, m.len? g = s.mem.len? g) :
    texelChecks b (s.setMem m) = texelChecks b s := by
  have hshort (g : Word) (n : Nat) : (s.setMem m).mem.tooShort g n = s.mem.tooShort g n := tooShort_congr (hlen g) n
  simp only [texelChecks, headerChecks, rawMipChecks, hshort]
  rfl

/-- A texel STORE_COLOR takes FETCH_COLOR takes, before and after the store. -/
theorem fetchColorChecks_of_stored {s : State} {m : Memory} (h : firstRaise (storeColorChecks s) = none)
    (hlen : ∀ g, m.len? g = s.mem.len? g) : firstRaise (fetchColorChecks ((s.setMem m).complete 0x03 false false)) = none := by
  obtain ⟨-, hkind, -⟩ := texelChecks_none h
  obtain ⟨htexel, -⟩ := texelInLevel_of_storeColorChecks h
  have hraw : decide (s.imgDesc.comp ≠ 0) = false := by simp [htexel.raw]
  calc firstRaise (fetchColorChecks ((s.setMem m).complete 0x03 false false))
      = firstRaise (texelChecks (decide (s.imgDesc.comp ≠ 0)) (s.setMem m)) := rfl
    _ = firstRaise (texelChecks false s) := by rw [texelChecks_setMem _ hlen, hraw]
    _ = none := by rwa [storeColorChecks, hkind] at h

/-- Settles O22: the item written is the item read, and 8888 loses nothing of the colour. -/
theorem storeThenFetch : Obligations.StoreThenFetch := by
  intro s h hraster
  obtain ⟨htexel, hp⟩ := texelInLevel_of_storeColorChecks h
  obtain ⟨m, hstore, hitem, -⟩ :=
    storeTexel_spec htexel.wf htexel.raw hp (unpackColour s.args[3]) htexel.held htexel.x_lt htexel.y_lt
  have hfetch := fetchTexel_direct (pal := s.palBuf) (n := s.palEntries) hp hitem
  rw [hraster, decodeDirect_encodeDirect_r8888] at hfetch
  refine ⟨_, _, exec_storeColor_of_store h hstore,
    exec_fetchColor_of_texel (fetchColorChecks_of_stored h (storeTexel_wrote hstore).len) hfetch, complete_errField .., ?_, ?_⟩
  · simp [packColour_unpackColour]
  · simp

end Sys2Proof.Machine
end

section
/-! The obligations on the block commands (spec/41_block_codec.md R209, R220, R221): a block that passes its buffer's end is a
BoundsError, and one inside it is decoded from its bytes or written as the compressor's. -/

namespace Sys2Proof.Machine

/-- A buffer is too short for a block exactly when the access of the block fails its check (20_memory R93). -/
theorem tooShort_add (m : Memory) (h : Word) (off n : Nat) : m.tooShort h (off + n) = !m.inBounds h off n := by
  have hb : m.inBounds h 0 (off + n) = m.inBounds h off n := by simp only [Memory.inBounds, Nat.zero_add]
  rw [← hb, ← Memory.holds, holds_eq, Bool.not_not]

theorem not_inBounds_of_tooShort {m : Memory} {h : Word} {off n : Nat} (hs : m.tooShort h (off + n) = true) :
    m.inBounds h off n = false := by simpa [tooShort_add] using hs

theorem readBytes_of_inBounds {m : Memory} {h : Word} {off n : Nat} (hb : m.inBounds h off n = true) :
    ∃ bs, m.readBytes h off n = some bs :=
  Option.isSome_iff_exists.1 ((readBytes_isSome m h off n).trans hb)

/-! ### DECODE_BLOCK -/

theorem exec_decodeBlockInstr_of_outside {ty : BlockType} {s : State}
    (hb : s.mem.inBounds s.args[0] s.args[1].toNat (blockBytes ty) = false) :
    exec (decodeBlockInstr ty) s = .next (s.raiseError 0x04 ⟨.boundsError, 0, none⟩ false) := by
  have hexec : exec (decodeBlockInstr ty) s = .next (s.finish 0x04 (decodeBlockAt ty s)) := by cases ty <;> rfl
  rw [hexec, decodeBlockAt, readBytes_eq_none hb, State.finish]

theorem tbOf_getElem (f : Nat → Word) (t : Fin 16) : (tbOf f)[t] = f t := by
  simpa using tbOf_get f t.isLt

theorem decodeBlock_getD (rule : AlphaRampRule) (ty : BlockType) (B : List Byte) {t : Nat} (ht : t < 16) :
    (decodeBlock rule ty B).getD t Colour.none = decodeTexel rule ty B t := by
  simp [decodeBlock, ht]

/-- Settles O23: the block's read fails or gives the bytes at its addresses, and the texels decode from these. -/
theorem decodeBlockCommand : Obligations.DecodeBlockCommand := by
  refine ⟨by decide, fun ty s => ⟨by cases ty <;> rfl, fun hs => ?_, fun hs => ?_⟩⟩
  · exact exec_decodeBlockInstr_of_outside (not_inBounds_of_tooShort hs)
  · obtain ⟨B, hB⟩ := readBytes_of_inBounds (inBounds_of_tooShort hs)
    refine ⟨B, _, readBytes_length hB, fun j hj => byte?_of_readBytes hB hj, fun t => ?_,
      exec_decodeBlockInstr_of_readBytes hB⟩
    rw [tbOf_getElem, decodeBlock_getD _ _ _ t.isLt]

/-! ### ENCODE_BLOCK -/

theorem exec_encodeBlockInstr_of_outside {ty : BlockType} {s : State} (hty : ty = .dxt1 ∨ ty = .dxt3 ∨ ty = .dxt5)
    (hb : s.mem.inBounds s.args[0] s.args[1].toNat (blockBytes ty) = false) :
    exec (encodeBlockInstr ty) s = .next (s.raiseError 0x05 ⟨.boundsError, 0, none⟩ false) := by
  have hexec : exec (encodeBlockInstr ty) s = .next (s.finish 0x05 (encodeBlockAt ty s)) := by
    rcases hty with rfl | rfl | rfl <;> rfl
  rw [hexec, encodeBlockAt, if_neg (by simp [hb]), State.finish]

/-- Settles O27: the two unsupported types never reach the bounds check, and the others write an answer of a block's length. -/
theorem encodeBlockCommand : Obligations.EncodeBlockCommand := by
  refine ⟨by decide, fun s => ⟨rfl, rfl, fun ty hty => ⟨fun hs => ?_, fun hs => ?_⟩⟩⟩
  · exact exec_encodeBlockInstr_of_outside hty (not_inBounds_of_tooShort hs)
  · have hb := inBounds_of_tooShort hs
    refine ⟨_, writeBytes_of_inBounds ?_, exec_encodeBlockInstr_of_inBounds hty hb⟩
    rwa [compress_length]

end Sys2Proof.Machine
end

section
/-! The obligations on the block decoder (spec/41_block_codec.md R201 to R208, R216): the colour palette and the alpha ramps entry
by entry, and where the code of a texel stands among the bytes of a block. -/

namespace Sys2Proof.Machine

/-! ### The fields of a block -/

theorem blockField_byte (B : List Byte) (o : Nat) {n i : Nat} (hi : i < n) :
    (B.getD (o + i) 0).toNat = blockField B o n / 2 ^ (8 * i) % 2 ^ 8 := by
  have h := getD_eq_leValue_shiftRight (bs := (List.range n).map fun i => B.getD (o + i) 0) (i := i) (by simpa using hi)
  rw [← blockField, Nat.shiftRight_eq_div_pow] at h
  have hget : ((List.range n).map fun i => B.getD (o + i) 0).getD i 0 = B.getD (o + i) 0 := by simp [hi]
  rw [← hget, h, BitVec.toNat_ofNat]

/-- A run of bits of a field that stays inside one byte is read in that byte. -/
theorem blockField_bits (B : List Byte) (o : Nat) {n p w : Nat} (hp : p / 8 < n) (hw : p % 8 + w ≤ 8) :
    (blockField B o n >>> p) % 2 ^ w = (B.getD (o + p / 8) 0).toNat / 2 ^ (p % 8) % 2 ^ w := by
  have hsplit : 2 ^ p = 2 ^ (8 * (p / 8)) * 2 ^ (p % 8) := by rw [← Nat.pow_add, Nat.div_add_mod]
  rw [blockField_byte B o hp, Nat.shiftRight_eq_div_pow, hsplit, ← Nat.div_div_eq_div_mul]
  generalize blockField B o n / 2 ^ (8 * (p / 8)) = v
  conv_lhs => rw [← Nat.mod_add_div' v (2 ^ 8)]
  exact add_mul_two_pow_field hw

theorem blockField_two (B : List Byte) (o : Nat) :
    blockField B o 2 = (B.getD o 0).toNat + 256 * (B.getD (o + 1) 0).toNat := by
  simp [blockField, List.range_succ, leValue]

/-- The two bits of texel t in the index word (41_block_codec R201). -/
theorem texelCode_byte (B : List Byte) (o : Nat) {t : Nat} (ht : t < 16) :
    (blockField B o 4 >>> (2 * t)) % 4 = (B.getD (o + t / 4) 0).toNat / 4 ^ (t % 4) % 4 := by
  have h := blockField_bits B o (n := 4) (p := 2 * t) (w := 2) (by omega) (by omega)
  rwa [show 2 * t / 8 = t / 4 by omega, show 2 * t % 8 = 2 * (t % 4) by omega, Nat.pow_mul] at h

/-- The four bits of texel t in the explicit alpha plane (41_block_codec R202). -/
theorem explicitAlpha_byte (B : List Byte) {t : Nat} (ht : t < 16) :
    explicitAlpha B t = (B.getD (t / 2) 0).toNat / 16 ^ (t % 2) % 16 * 17 := by
  have h := blockField_bits B 0 (n := 8) (p := 4 * t) (w := 4) (by omega) (by omega)
  rw [show 4 * t / 8 = t / 2 by omega, show 4 * t % 8 = 4 * (t % 2) by omega, Nat.pow_mul, Nat.zero_add] at h
  exact congrArg (· * 17) h

theorem blockField_codes (B : List Byte) :
    blockField B 2 6 = (B.getD 2 0).toNat + 2 ^ 8 * (B.getD 3 0).toNat + 2 ^ 16 * (B.getD 4 0).toNat
      + 2 ^ 24 * (B.getD 5 0).toNat + 2 ^ 32 * (B.getD 6 0).toNat + 2 ^ 40 * (B.getD 7 0).toNat := by
  simp only [blockField, List.range_succ, List.range_zero, List.nil_append, List.cons_append, List.map_cons, List.map_nil,
    leValue, Nat.reduceAdd]
  omega

/-! ### The colour palette -/

/-- The three channels of a colour as values. -/
def colourRgb (c : Colour) : Nat × Nat × Nat := (c.r.toNat, c.g.toNat, c.b.toNat)

/-- Three values of 8 bits. -/
def FitsBytes (p : Nat × Nat × Nat) : Prop := p.1 ≤ 255 ∧ p.2.1 ≤ 255 ∧ p.2.2 ≤ 255

theorem rgb_opaqueColour {p : Nat × Nat × Nat} (h : FitsBytes p) : colourRgb (opaqueColour p) = p := by
  obtain ⟨hr, hg, hb⟩ := h
  simp [colourRgb, opaqueColour, Nat.mod_eq_of_lt (Nat.lt_succ_of_le hr), Nat.mod_eq_of_lt (Nat.lt_succ_of_le hg),
    Nat.mod_eq_of_lt (Nat.lt_succ_of_le hb)]

theorem expand565_fits (c : Nat) : FitsBytes (expand565 c) :=
  ⟨Nat.le_of_lt_succ (expand_lt (by decide) (Nat.mod_lt _ (by decide))),
    Nat.le_of_lt_succ (expand_lt (by decide) (Nat.mod_lt _ (by decide))),
    Nat.le_of_lt_succ (expand_lt (by decide) (Nat.mod_lt _ (by decide)))⟩

/-- A weighted mean of two 8-bit values is an 8-bit value. -/
theorem weighted_le {i j a b : Nat} (ha : a ≤ 255) (hb : b ≤ 255) : (i * a + j * b) / (i + j) ≤ 255 :=
  Nat.div_le_of_le_mul (by rw [Nat.add_mul]; exact Nat.add_le_add (Nat.mul_le_mul_left i ha) (Nat.mul_le_mul_left j hb))

theorem mix565_fits {p q : Nat × Nat × Nat} (i j : Nat) (hp : FitsBytes p) (hq : FitsBytes q) :
    FitsBytes (mix565 i j (i + j) p q) :=
  ⟨weighted_le hp.1 hq.1, weighted_le hp.2.1 hq.2.1, weighted_le hp.2.2 hq.2.2⟩

theorem expand565_eq {c : Nat} (hc : c < 2 ^ 16) :
    expand565 c = (c / 2 ^ 11 * 255 / 31, c / 2 ^ 5 % 64 * 255 / 63, c % 32 * 255 / 31) := by
  rw [expand565, Nat.mod_eq_of_lt (show c / 2 ^ 11 < 2 ^ 5 by omega)]
  rfl

theorem rgb_mix565 (i j c d : Nat) :
    colourRgb (opaqueColour (mix565 i j (i + j) (expand565 c) (expand565 d))) = mix565 i j (i + j) (expand565 c) (expand565 d) :=
  rgb_opaqueColour (mix565_fits i j (expand565_fits c) (expand565_fits d))

section
variable (ty : BlockType) (c0 c1 : Nat)

theorem paletteEntry_zero : paletteEntry ty c0 c1 0 = opaqueColour (expand565 c0) := by
  unfold paletteEntry; split <;> rfl

theorem paletteEntry_one : paletteEntry ty c0 c1 1 = opaqueColour (expand565 c1) := by
  unfold paletteEntry; split <;> rfl

variable {ty c0 c1}

/-- The four-colour branch (41_block_codec R206). -/
theorem paletteEntry_fourColour (h : c1 < c0 ∨ ty ≠ .dxt1) :
    paletteEntry ty c0 c1 2 = opaqueColour (mix565 2 1 3 (expand565 c0) (expand565 c1))
      ∧ paletteEntry ty c0 c1 3 = opaqueColour (mix565 1 2 3 (expand565 c0) (expand565 c1)) := by
  simp only [paletteEntry, if_pos h, and_self]

/-- The three-colour branch (41_block_codec R206). -/
theorem paletteEntry_threeColour (h : c0 ≤ c1) :
    paletteEntry .dxt1 c0 c1 2 = opaqueColour (mix565 1 1 2 (expand565 c0) (expand565 c1))
      ∧ paletteEntry .dxt1 c0 c1 3 = Colour.none := by
  have hbranch : ¬ (c1 < c0 ∨ BlockType.dxt1 ≠ .dxt1) := by simpa using h
  simp only [paletteEntry, if_neg hbranch, and_self]

end

/-- The colour of texel t, its code and endpoints read byte by byte (41_block_codec R201, R206). -/
theorem blockColour_bytes (ty : BlockType) (B : List Byte) (o : Nat) {t : Nat} (ht : t < 16) :
    blockColour ty B o t = paletteEntry ty ((B.getD o 0).toNat + 256 * (B.getD (o + 1) 0).toNat)
      ((B.getD (o + 2) 0).toNat + 256 * (B.getD (o + 3) 0).toNat)
      ((B.getD (o + (4 + t / 4)) 0).toNat / 4 ^ (t % 4) % 4) := by
  rw [blockColour, blockField_two, blockField_two, texelCode_byte B (o + 4) ht, Nat.add_assoc o 4]

theorem colourOffset_if (ty : BlockType) : colourOffset ty = if ty = .dxt1 then 0 else 8 := by cases ty <;> rfl

/-- A texel has the colour of its colour block, and of DXT1 its alpha too (41_block_codec R208). -/
theorem decodeTexel_colour (rule : AlphaRampRule) (ty : BlockType) (B : List Byte) (t : Nat) :
    (decodeTexel rule ty B t).r = (blockColour ty B (colourOffset ty) t).r
      ∧ (decodeTexel rule ty B t).g = (blockColour ty B (colourOffset ty) t).g
      ∧ (decodeTexel rule ty B t).b = (blockColour ty B (colourOffset ty) t).b
      ∧ (ty = .dxt1 → (decodeTexel rule ty B t).a = (blockColour ty B (colourOffset ty) t).a) := by
  cases ty
  case dxt1 => exact ⟨rfl, rfl, rfl, fun _ => rfl⟩
  all_goals exact ⟨rfl, rfl, rfl, nofun⟩

/-- Settles O24: every channel of an entry fits its byte, and the code of a texel stays inside one byte of the index word. -/
theorem colourPalette : Obligations.ColourPalette := by
  refine ⟨fun ty c0 c1 h0 h1 => ?_, fun rule ty B t ht => ?_⟩
  · intro rgb ex mix P
    have e0 : expand565 c0 = ex c0 := expand565_eq h0
    have e1 : expand565 c1 = ex c1 := expand565_eq h1
    have hmix (i j : Nat) : colourRgb (opaqueColour (mix565 i j (i + j) (expand565 c0) (expand565 c1))) = mix i j (i + j) := by
      rw [rgb_mix565, e0, e1]; rfl
    refine ⟨?_, ?_, ?_, ?_, fun h => ?_, fun h hty => ?_⟩
    · exact ((congrArg colourRgb (paletteEntry_zero ty c0 c1)).trans (rgb_opaqueColour (expand565_fits c0))).trans e0
    · exact congrArg Colour.a (paletteEntry_zero ty c0 c1)
    · exact ((congrArg colourRgb (paletteEntry_one ty c0 c1)).trans (rgb_opaqueColour (expand565_fits c1))).trans e1
    · exact congrArg Colour.a (paletteEntry_one ty c0 c1)
    · obtain ⟨h2, h3⟩ := paletteEntry_fourColour h
      exact ⟨(congrArg colourRgb h2).trans (hmix 2 1), congrArg Colour.a h2, (congrArg colourRgb h3).trans (hmix 1 2),
        congrArg Colour.a h3⟩
    · subst hty
      obtain ⟨h2, h3⟩ := paletteEntry_threeColour h
      exact ⟨(congrArg colourRgb h2).trans (hmix 1 1), congrArg Colour.a h2, h3⟩
  · intro at' entry c
    have hentry : blockColour ty B (colourOffset ty) t = entry := by rw [blockColour_bytes ty B _ ht, colourOffset_if]; rfl
    rw [← hentry]
    exact decodeTexel_colour rule ty B t

/-! ### The alpha ramps -/

theorem ramp7_interior (a0 a1 : Nat) {i : Nat} (h : 2 ≤ i) : ramp7 a0 a1 i = ((8 - i) * a0 + (i - 1) * a1) / 7 := by
  obtain ⟨k, rfl⟩ := Nat.exists_eq_add_of_le' h
  rfl

theorem ramp5_interior (a0 a1 : Nat) {i : Nat} (h2 : 2 ≤ i) (h5 : i ≤ 5) :
    ramp5 a0 a1 i = ((6 - i) * a0 + (i - 1) * a1) / 5 := by
  interval_cases i <;> rfl

theorem ramp7_le {a0 a1 i : Nat} (h0 : a0 ≤ 255) (h1 : a1 ≤ 255) (hi : i < 8) : ramp7 a0 a1 i ≤ 255 := by
  match i with
  | 0 => exact h0
  | 1 => exact h1
  | k + 2 =>
    rw [ramp7_interior a0 a1 (by omega), ← show 8 - (k + 2) + (k + 2 - 1) = 7 by omega]
    exact weighted_le h0 h1

theorem ramp5_le {a0 a1 i : Nat} (h0 : a0 ≤ 255) (h1 : a1 ≤ 255) (hi : i < 8) : ramp5 a0 a1 i ≤ 255 := by
  match i with
  | 0 => exact h0
  | 1 => exact h1
  | 6 => exact Nat.zero_le _
  | 7 => exact Nat.le_refl _
  | 2 | 3 | 4 | 5 => exact weighted_le h0 h1

theorem alphaRamp_le (rule : AlphaRampRule) {a0 a1 i : Nat} (h0 : a0 ≤ 255) (h1 : a1 ≤ 255) (hi : i < 8) :
    alphaRamp rule a0 a1 i ≤ 255 := by
  cases rule <;> simp only [alphaRamp] <;> split
  case canonical.isTrue | orderSwapped.isFalse => exact ramp7_le h0 h1 hi
  case canonical.isFalse | orderSwapped.isTrue => exact ramp5_le h0 h1 hi

/-- Which ramp each rule takes (41_block_codec R216). -/
theorem alphaRamp_of_lt {a0 a1 : Nat} (h : a1 < a0) :
    alphaRamp .canonical a0 a1 = ramp7 a0 a1 ∧ alphaRamp .orderSwapped a0 a1 = ramp5 a0 a1 :=
  ⟨funext fun _ => if_pos h, funext fun _ => if_pos h⟩

theorem alphaRamp_of_le {a0 a1 : Nat} (h : a0 ≤ a1) :
    alphaRamp .canonical a0 a1 = ramp5 a0 a1 ∧ alphaRamp .orderSwapped a0 a1 = ramp7 a0 a1 :=
  ⟨funext fun _ => if_neg (Nat.not_lt.2 h), funext fun _ => if_neg (Nat.not_lt.2 h)⟩

/-- Settles O25: the order of the endpoints and the rule choose a ramp, and its entries are means of 8-bit values. -/
theorem alphaRamps : Obligations.AlphaRamps := by
  refine ⟨rfl, fun a0 a1 h0 h1 => ?_⟩
  intro isRamp7 isRamp5
  have r7 : isRamp7 (ramp7 a0 a1) := ⟨rfl, rfl, fun i hi _ => ramp7_interior a0 a1 hi⟩
  have r5 : isRamp5 (ramp5 a0 a1) := ⟨rfl, rfl, fun i hi hi' => ramp5_interior a0 a1 hi hi', rfl, rfl⟩
  refine ⟨fun h => ?_, fun h => ?_, fun rule i hi => alphaRamp_le rule h0 h1 hi⟩
  · obtain ⟨hc, hs⟩ := alphaRamp_of_lt h
    rw [hc, hs]
    exact ⟨r7, r5⟩
  · obtain ⟨hc, hs⟩ := alphaRamp_of_le h
    rw [hc, hs]
    exact ⟨r5, r7⟩

/-! ### The alpha of a texel -/

/-- Every type but DXT1 takes the four-colour branch (41_block_codec R206). -/
theorem paletteEntry_congr {ty ty' : BlockType} (h : ty ≠ .dxt1) (h' : ty' ≠ .dxt1) (c0 c1 sel : Nat) :
    paletteEntry ty c0 c1 sel = paletteEntry ty' c0 c1 sel := by
  simp only [paletteEntry, if_pos (Or.inr h : c1 < c0 ∨ ty ≠ .dxt1), if_pos (Or.inr h' : c1 < c0 ∨ ty' ≠ .dxt1)]

theorem decodeTexel_dxt2 (rule : AlphaRampRule) (B : List Byte) (t : Nat) :
    decodeTexel rule .dxt2 B t = decodeTexel rule .dxt3 B t := by
  simp only [decodeTexel, blockColour, paletteEntry_congr (ty := .dxt2) (ty' := .dxt3) nofun nofun]

theorem decodeTexel_dxt4 (rule : AlphaRampRule) (B : List Byte) (t : Nat) :
    decodeTexel rule .dxt4 B t = decodeTexel rule .dxt5 B t := by
  simp only [decodeTexel, blockColour, paletteEntry_congr (ty := .dxt4) (ty' := .dxt5) nofun nofun]

theorem decodeBlockAt_congr {ty ty' : BlockType} {s : State} (hbytes : blockBytes ty = blockBytes ty')
    (htexel : ∀ B t, decodeTexel s.alphaRampRule ty B t = decodeTexel s.alphaRampRule ty' B t) :
    decodeBlockAt ty s = decodeBlockAt ty' s := by
  simp only [decodeBlockAt, hbytes, htexel]

theorem decodeTexel_explicit_alpha (rule : AlphaRampRule) (B : List Byte) (t : Nat) :
    (decodeTexel rule .dxt3 B t).a.toNat = explicitAlpha B t := by
  have hnibble : (blockField B 0 8 >>> (4 * t)) % 16 < 16 := Nat.mod_lt _ (by decide)
  have hfits : explicitAlpha B t < 256 := by unfold explicitAlpha; omega
  exact (BitVec.toNat_ofNat ..).trans (Nat.mod_eq_of_lt hfits)

theorem decodeTexel_ramp_alpha (rule : AlphaRampRule) (B : List Byte) (t : Nat) :
    (decodeTexel rule .dxt5 B t).a.toNat = rampAlpha rule B t := by
  have hfits : rampAlpha rule B t ≤ 255 :=
    alphaRamp_le rule (Nat.le_of_lt_succ (B.getD 0 0).isLt) (Nat.le_of_lt_succ (B.getD 1 0).isLt) (Nat.mod_lt _ (by decide))
  exact (BitVec.toNat_ofNat ..).trans (Nat.mod_eq_of_lt (Nat.lt_succ_of_le hfits))

/-- Settles O26: the alpha of a texel fits its byte, and the type decides the palette's branch and the alpha plane only. -/
theorem decodedAlpha : Obligations.DecodedAlpha := by
  refine ⟨fun s => ?_, fun ty r r' B hty => ?_, fun rule B t ht => ?_⟩
  · have h23 := decodeBlockAt_congr (s := s) (ty := .dxt2) (ty' := .dxt3) rfl (decodeTexel_dxt2 s.alphaRampRule)
    have h45 := decodeBlockAt_congr (s := s) (ty := .dxt4) (ty' := .dxt5) rfl (decodeTexel_dxt4 s.alphaRampRule)
    exact ⟨congrArg (fun r => Host.Outcome.next (s.finish 0x04 r)) h23,
      congrArg (fun r => Host.Outcome.next (s.finish 0x04 r)) h45⟩
  · rcases hty with rfl | rfl | rfl <;> rfl
  · intro at' codes
    have hcodes : blockField B 2 6 = codes := blockField_codes B
    refine ⟨(decodeTexel_explicit_alpha rule B t).trans (explicitAlpha_byte B ht), (decodeTexel_ramp_alpha rule B t).trans ?_⟩
    rw [rampAlpha, hcodes, Nat.shiftRight_eq_div_pow, Nat.pow_mul]
    rfl

end Sys2Proof.Machine
end

section
/-! The obligations on the levels stage 1 decodes and stage 3 encodes (spec/41_block_codec.md R210 to R212): each texel stored is
the one of its block, each block written is the compressor's answer for its texels, and no other byte changes. -/

namespace Sys2Proof.Machine

/-! ### Loops that store texels -/

/-- m' comes from m by stores of texels in the level of width w at h: of each texel (x, y) of the region the item `item x y`.
Every other item of the level, and its padding, are as they were. -/
structure Stored (D : Desc) (h : Word) (w : Nat) (item : Nat → Nat → Nat) (region : Nat → Nat → Prop)
    (m m' : Memory) : Prop where
  wrote : Memory.Wrote h m m'
  items : ∀ x y, x < w → region x y → readItem m' h w D x y = some (item x y)
  others : ∀ x y, x < w → ¬ region x y → readItem m' h w D x y = readItem m h w D x y
  padding : ∀ y j, rowBytes w D.depth.toNat ≤ j → j < D.pitch w →
    m'.byte? h (y * D.pitch w + j) = m.byte? h (y * D.pitch w + j)

section
variable {D : Desc} {h : Word} {w : Nat} {item : Nat → Nat → Nat} {region region' : Nat → Nat → Prop} {m m' m'' : Memory}

theorem Stored.refl (hr : ∀ x y, ¬ region x y) : Stored D h w item region m m :=
  ⟨.refl h m, fun x y _ hxy => absurd hxy (hr x y), fun _ _ _ _ => rfl, fun _ _ _ _ => rfl⟩

theorem Stored.congr (hr : ∀ x y, region x y ↔ region' x y) (a : Stored D h w item region m m') :
    Stored D h w item region' m m' :=
  ⟨a.wrote, fun x y hx hxy => a.items x y hx ((hr x y).2 hxy), fun x y hx hxy => a.others x y hx (mt (hr x y).1 hxy), a.padding⟩

/-- A texel stored twice is given the same item both times. -/
theorem Stored.trans (a : Stored D h w item region m m') (b : Stored D h w item region' m' m'') :
    Stored D h w item (fun x y => region x y ∨ region' x y) m m'' := by
  refine ⟨a.wrote.trans b.wrote, fun x y hx hxy => ?_, fun x y hx hxy => ?_, fun y j hj hj' =>
    (b.padding y j hj hj').trans (a.padding y j hj hj')⟩
  · by_cases hb : region' x y
    · exact b.items x y hx hb
    · exact (b.others x y hx hb).trans (a.items x y hx (hxy.resolve_right hb))
  · obtain ⟨ha, hb⟩ := not_or.1 hxy
    exact (b.others x y hx hb).trans (a.others x y hx ha)

/-- A loop whose every access stores the texels of its region, from each store it may meet. -/
theorem Stored.forMem {α : Type} {f : Memory → α → Option Memory} {regionOf : α → Nat → Nat → Prop} {m0 : Memory}
    (l : List α)
    (hstep : ∀ a ∈ l, ∀ m, Memory.Wrote h m0 m → ∃ m', f m a = some m' ∧ Stored D h w item (regionOf a) m m') :
    ∀ m, Memory.Wrote h m0 m →
      ∃ m', Machine.forMem f l m = some m' ∧ Stored D h w item (fun x y => ∃ a ∈ l, regionOf a x y) m m' := by
  induction l with
  | nil => exact fun m _ => ⟨m, rfl, .refl (by simp)⟩
  | cons a l ih =>
    intro m hm
    obtain ⟨m1, hf, h1⟩ := hstep a (by simp) m hm
    obtain ⟨m2, hl, h2⟩ := ih (fun b hb => hstep b (by simp [hb])) m1 (hm.trans h1.wrote)
    exact ⟨m2, by simp only [Machine.forMem, hf, hl], (h1.trans h2).congr (by simp)⟩

end

theorem storeTexel_stored {D : Desc} (hw : D.wf = true) (hc : D.comp = 0) (hp : D.palMode = palNone) {m : Memory} {h : Word}
    {w hh x y : Nat} {c : Colour} {item : Nat → Nat → Nat} (hb : m.inBounds h 0 (D.rawSize w hh) = true) (hx : x < w)
    (hy : y < hh) (hitem : item x y = encodeDirect D.rasterF D.orderF D.depth.toNat c) :
    ∃ m', storeTexel m D h w x y c = some m' ∧ Stored D h w item (fun x' y' => x' = x ∧ y' = y) m m' := by
  obtain ⟨m', hm', hread, hothers, hpad⟩ := storeTexel_spec hw hc hp c hb hx hy
  refine ⟨m', hm', storeTexel_wrote hm', ?_, fun x' y' hx' hne => hothers x' y' hx' (by simpa using hne), hpad⟩
  rintro x' y' - ⟨rfl, rfl⟩
  rw [hread, hitem]

/-! ### Stage 1 -/

/-- The colour of texel (x, y) of compressed level i: texel 4·(y mod 4) + x mod 4 of its block (41_block_codec R211). -/
def State.blockTexel (s : State) (ty : BlockType) (i x y : Nat) : Colour :=
  decodeTexel s.alphaRampRule ty ((readBlock s.mem (s.mip i).buf ty (s.sw i) (x / 4) (y / 4)).getD []) (4 * (y % 4) + x % 4)

/-- The item stage 1 stores at texel (x, y) of level i (41_block_codec R211). -/
def State.decodedItem (s : State) (ty : BlockType) (i : Nat) (D : Desc) (x y : Nat) : Nat :=
  encodeDirect D.rasterF D.orderF D.depth.toNat (s.blockTexel ty i x y)

/-- (x, y) is the texel of number t in block b of level i, and inside the logical dimensions. -/
def State.isTexel (s : State) (i : Nat) (b : Nat × Nat) (t x y : Nat) : Prop :=
  (x = 4 * b.1 + t % 4 ∧ y = 4 * b.2 + t / 4) ∧ x < s.lw i ∧ y < s.lh i

/-- (x, y) is a texel of block b of level i inside the logical dimensions. -/
def State.inBlock (s : State) (i : Nat) (b : Nat × Nat) (x y : Nat) : Prop :=
  (x / 4, y / 4) = b ∧ x < s.lw i ∧ y < s.lh i

theorem exists_isTexel (s : State) (i : Nat) (b : Nat × Nat) (x y : Nat) :
    (∃ t ∈ List.range 16, s.isTexel i b t x y) ↔ s.inBlock i b x y := by
  obtain ⟨bx, by'⟩ := b
  simp only [List.mem_range, State.isTexel, State.inBlock, Prod.mk.injEq]
  constructor
  · rintro ⟨t, ht, ⟨rfl, rfl⟩, hin⟩
    exact ⟨⟨by omega, by omega⟩, hin⟩
  · rintro ⟨⟨rfl, rfl⟩, hin⟩
    exact ⟨4 * (y % 4) + x % 4, by omega, ⟨by omega, by omega⟩, hin⟩

/-- A block of a checked compressed level reads (20_memory R98). -/
theorem readBlock_of_inBounds {m : Memory} {g : Word} {ty : BlockType} {sw n bx by' : Nat} (hx : bx < sw / 4) (hy : by' < n)
    (hb : m.inBounds g 0 (sw / 4 * n * blockBytes ty) = true) : ∃ B, readBlock m g ty sw bx by' = some B :=
  readBytes_of_inBounds (inBounds_mono hb (by rw [blockOffset, Nat.zero_add]; exact block_lt hx hy))

theorem blockTexel_of_readBlock {s : State} {ty : BlockType} {i bx by' t : Nat} {B : List Byte} (ht : t < 16)
    (hB : readBlock s.mem (s.mip i).buf ty (s.sw i) bx by' = some B) :
    s.blockTexel ty i (4 * bx + t % 4) (4 * by' + t / 4) = decodeTexel s.alphaRampRule ty B t := by
  rw [State.blockTexel, show (4 * bx + t % 4) / 4 = bx by omega, show (4 * by' + t / 4) / 4 = by' by omega,
    show 4 * ((4 * by' + t / 4) % 4) + (4 * bx + t % 4) % 4 = t by omega, hB, Option.getD_some]

/-- The stores of stage 1 for one block: its texels inside the logical dimensions, in order (41_block_codec R211). -/
def storeBlock (s : State) (ty : BlockType) (i : Nat) (D : Desc) (h : Word) (b : Nat × Nat) (B : List Byte) :
    Memory → Option Memory :=
  forMem (fun m t =>
    if 4 * b.1 + t % 4 < s.lw i ∧ 4 * b.2 + t / 4 < s.lh i then
      storeTexel m D h (s.lw i) (4 * b.1 + t % 4) (4 * b.2 + t / 4) (decodeTexel s.alphaRampRule ty B t)
    else some m) (List.range 16)

section
variable {s : State} {ty : BlockType} {i : Nat} {D : Desc} {h : Word} (hw : D.wf = true) (hc : D.comp = 0) (hp : D.palMode = palNone)
include hw hc hp

/-- The texels of a block that stand inside the level are stored, and no other. -/
theorem storeBlock_stored {m : Memory} {b : Nat × Nat} {B : List Byte} (hb : m.inBounds h 0 (D.rawSize (s.lw i) (s.lh i)) = true)
    (hB : readBlock s.mem (s.mip i).buf ty (s.sw i) b.1 b.2 = some B) :
    ∃ m', storeBlock s ty i D h b B m = some m' ∧ Stored D h (s.lw i) (s.decodedItem ty i D) (s.inBlock i b) m m' := by
  refine Exists.imp (fun m' hm' => ⟨hm'.1, hm'.2.congr (exists_isTexel s i b)⟩)
    (Stored.forMem (List.range 16) (fun t ht k hk => ?_) m (.refl h m))
  split
  · next hin =>
    have hitem := congrArg (encodeDirect D.rasterF D.orderF D.depth.toNat) (blockTexel_of_readBlock (List.mem_range.1 ht) hB)
    obtain ⟨k', hk', hst⟩ := storeTexel_stored hw hc hp ((inBounds_len hk.len ..).trans hb) hin.1 hin.2
      (item := s.decodedItem ty i D) hitem
    refine ⟨k', hk', hst.congr fun x y => ⟨?_, fun hxy => hxy.1⟩⟩
    rintro ⟨rfl, rfl⟩
    exact ⟨⟨rfl, rfl⟩, hin⟩
  · next hout =>
    refine ⟨k, rfl, .refl ?_⟩
    rintro x y ⟨⟨rfl, rfl⟩, hin⟩
    exact hout hin

/-- Stage 1 stores every texel of a checked level. -/
theorem decodeLevel_stored (hchk : firstRaise (blockMipChecks s ty i 1) = none) (hne : h ≠ (s.mip i).buf)
    (hb : s.mem.inBounds h 0 (D.rawSize (s.lw i) (s.lh i)) = true) :
    ∃ m, decodeLevel s ty i D h = some m
      ∧ Stored D h (s.lw i) (s.decodedItem ty i D) (fun x y => x < s.lw i ∧ y < s.lh i) s.mem m := by
  obtain ⟨-, -, hsw, hsh, hlw, hlh, -, hheld⟩ := blockMip_ok hchk
  have hregion (x y : Nat) : (∃ b ∈ coords (s.sw i / 4) (s.sh i / 4), s.inBlock i b x y) ↔ x < s.lw i ∧ y < s.lh i :=
    ⟨fun ⟨_, _, hxy⟩ => hxy.2, fun hxy => ⟨(x / 4, y / 4), mem_coords.2 (by omega), rfl, hxy⟩⟩
  refine Exists.imp (fun m hm => ⟨hm.1, hm.2.congr hregion⟩) (Stored.forMem _ (fun b hmem k hk => ?_) s.mem (.refl h s.mem))
  obtain ⟨hx, hy⟩ := mem_coords.1 hmem
  obtain ⟨B, hB⟩ := readBlock_of_inBounds hx hy hheld
  have hBk : readBlock k (s.mip i).buf ty (s.sw i) b.1 b.2 = some B :=
    (readBytes_congr (hk.other _ hne.symm) ..).trans hB
  simp only [hBk]
  exact storeBlock_stored hw hc hp ((inBounds_len hk.len ..).trans hb) hB

end

/-- Settles O40: the level is stored texel by texel, each block read where no store has been. -/
theorem decodeLevelTexels : Obligations.DecodeLevelTexels := by
  intro s ty i D h hchk hw hc hp hne hb
  obtain ⟨-, -, hsw, hsh, hlw, hlh, -, hheld⟩ := blockMip_ok hchk
  obtain ⟨m, hm, hst⟩ := decodeLevel_stored hw hc hp hchk hne hb
  refine ⟨m, hm, fun x y hx hy => ?_, fun y j _ => hst.padding y j, hst.wrote.other⟩
  obtain ⟨B, hB⟩ := readBlock_of_inBounds (bx := x / 4) (by' := y / 4) (by omega) (by omega) hheld
  refine ⟨B, hB, ?_⟩
  rw [hst.items x y hx ⟨hx, hy⟩, State.decodedItem, State.blockTexel, hB, Option.getD_some]

/-! ### Stage 3 -/

theorem blockCoords_getD (s : State) (i bx by' : Nat) {t : Nat} (ht : t < 16) :
    (blockCoords s i (bx, by')).getD t (0, 0)
      = (min (4 * bx + t % 4) (s.lw i - 1), min (4 * by' + t / 4) (s.lh i - 1)) := by
  simp [blockCoords, ht]

/-- The texels of a block, edges repeated, are texels of the level, so they are fetched (41_block_codec R210). -/
theorem levelColours_block {s : State} {i : Nat} (hh : firstRaise (headerChecks s) = none) (hc : s.imgDesc.comp = 0)
    (hr : firstRaise (rawMipChecks s i) = none) (b : Nat × Nat) :
    ∃ G, levelColours s.mem s.imgDesc s.palBuf s.palEntries (s.mip i).buf (s.lw i) (blockCoords s i b) = some G
      ∧ G.length = 16
      ∧ ∀ t, t < 16 → ∃ found, s.fetchLevel i (min (4 * b.1 + t % 4) (s.lw i - 1)) (min (4 * b.2 + t / 4) (s.lh i - 1))
          = some (G.getD t Colour.none, found) := by
  obtain ⟨hw0, hh0, -⟩ := rawMip_ok hr
  have hfetch : ∀ p ∈ blockCoords s i b, ∃ c f, s.fetchLevel i p.1 p.2 = some (c, f) := by
    intro p hp
    obtain ⟨t, -, rfl⟩ := List.mem_map.1 hp
    exact fetchLevel_of_checks hh hc hr (by omega) (by omega)
  have hlen : (blockCoords s i b).length = 16 := by simp [blockCoords]
  obtain ⟨G, hG, hGlen, hcol⟩ := levelColours_spec _ hfetch
  refine ⟨G, hG, hGlen.trans hlen, fun t ht => ?_⟩
  obtain ⟨found, hf⟩ := hcol t (hlen ▸ ht)
  rw [blockCoords_getD s i b.1 b.2 ht] at hf
  exact ⟨found, hf⟩

/-- A block written inside a level reads back, and every other block of the level stays (20_memory R98). -/
theorem writeBlock_spec {m : Memory} {h : Word} {ty : BlockType} {sw n : Nat} {b : Nat × Nat} {bs : List Byte}
    (hb : m.inBounds h 0 (sw / 4 * n * blockBytes ty) = true) (hx : b.1 < sw / 4) (hy : b.2 < n)
    (hlen : bs.length = blockBytes ty) :
    ∃ m', m.writeBytes h (blockOffset ty sw b.1 b.2) bs = some m' ∧ readBlock m' h ty sw b.1 b.2 = some bs
      ∧ ∀ b' : Nat × Nat, b'.1 < sw / 4 → b' ≠ b → readBlock m' h ty sw b'.1 b'.2 = readBlock m h ty sw b'.1 b'.2 := by
  have hin : m.inBounds h (blockOffset ty sw b.1 b.2) bs.length = true :=
    inBounds_mono hb (by rw [hlen, blockOffset, Nat.zero_add]; exact block_lt hx hy)
  refine ⟨_, writeBytes_of_inBounds hin, ?_, fun b' hx' hne => readBytes_put_other (.inr ?_)⟩
  · rw [readBlock, ← hlen]
    exact readBytes_put_same hin
  · rw [hlen]
    exact blocks_apart hx hx' hne

/-- Block b of the encoded level h is the compressor's answer for its sixteen texels (41_block_codec R212). -/
def State.BlockEncoded (s : State) (ty : BlockType) (i : Nat) (h : Word) (b : Nat × Nat) (m : Memory) : Prop :=
  ∃ G, levelColours s.mem s.imgDesc s.palBuf s.palEntries (s.mip i).buf (s.lw i) (blockCoords s i b) = some G
    ∧ readBlock m h ty (roundup (s.lw i) 4) b.1 b.2 = some (compress s.alphaRampRule ty G)

/-- Stage 3 encodes every block of a checked level. -/
theorem encodeLevel_blocks {s : State} {ty : BlockType} {i : Nat} {h : Word} (hh : firstRaise (headerChecks s) = none)
    (hc : s.imgDesc.comp = 0) (hr : firstRaise (rawMipChecks s i) = none) (hne : h ≠ (s.mip i).buf)
    (hpal : s.imgDesc.palMode ≠ palNone → h ≠ s.palBuf)
    (hb : s.mem.inBounds h 0 (roundup (s.lw i) 4 / 4 * (roundup (s.lh i) 4 / 4) * blockBytes ty) = true) :
    ∃ m, encodeLevel ty s i h = some m ∧ Memory.Wrote h s.mem m
      ∧ ∀ b ∈ coords (roundup (s.lw i) 4 / 4) (roundup (s.lh i) 4 / 4), s.BlockEncoded ty i h b m := by
  refine forMem_spec (P := Memory.Wrote h s.mem) (Q := s.BlockEncoded ty i h) _ (fun b hmem m hm => ?_) s.mem (.refl h s.mem)
  obtain ⟨hx, hy⟩ := mem_coords.1 hmem
  obtain ⟨G, hG, -⟩ := levelColours_block hh hc hr b
  have hGm := (levelColours_congr (hm.other _ hne.symm) (fun hp => hm.other _ (hpal hp).symm) ..).trans hG
  obtain ⟨m', hm', hsame, hothers⟩ :=
    writeBlock_spec ((inBounds_len hm.len ..).trans hb) hx hy (compress_length s.alphaRampRule ty G)
  simp only [hGm]
  refine ⟨m', hm', hm.trans (Memory.wrote_writeBytes hm'), ⟨G, hG, hsame⟩, fun b' hmem' hb' => ?_⟩
  rintro ⟨G', hG', hread⟩
  exact ⟨G', hG', (hothers b' (mem_coords.1 hmem').1 hb').trans hread⟩

/-- Settles O44: the blocks of a level stand apart, and no write of one touches the image it is read from. -/
theorem encodeLevelBlocks : Obligations.EncodeLevelBlocks := by
  intro s ty i h hh hc hr hne hpal hb
  obtain ⟨m, hm, hwrote, hblocks⟩ := encodeLevel_blocks hh hc hr hne hpal hb
  refine ⟨m, hm, fun bx by' hx hy => ?_, hwrote.other⟩
  obtain ⟨G, hG, hread⟩ := hblocks (bx, by') (mem_coords.2 ⟨hx, hy⟩)
  obtain ⟨G', hG', hlen, hcol⟩ := levelColours_block hh hc hr (bx, by')
  obtain rfl : G' = G := Option.some.inj (hG'.symm.trans hG)
  exact ⟨G', hlen, hcol, hread⟩

end Sys2Proof.Machine
end

section
/-! The obligations on the alpha scan (spec/42_conversion_engine.md R275, R284): its answer over the texels, blocks or entries it
reads, and that it meets no access out of bounds in an image that passes its checks. -/

namespace Sys2Proof.Machine

/-! ### What the scan answers -/

/-- The answer of a search over the items of each level. -/
theorem scanLevels_anyMem_iff {α : Type} {stage : Nat} {f : Nat → α → Option Bool} {items : Nat → List α} {l : List Nat} {b : Bool}
    (h : scanLevels stage (fun i => anyMem (f i) (items i)) l = .ok b) :
    b = true ↔ ∃ i ∈ l, ∃ a ∈ items i, f i a = some true := by
  cases b with
  | true =>
    obtain ⟨i, hi, hlevel⟩ := scan_true l h
    obtain ⟨a, ha, hitem⟩ := anyMem_true _ hlevel
    exact iff_of_true rfl ⟨i, hi, a, ha, hitem⟩
  | false =>
    refine iff_of_false Bool.false_ne_true ?_
    rintro ⟨i, hi, a, ha, hitem⟩
    have hno := anyMem_false _ (scan_false l h i hi) a ha
    exact absurd (hitem.symm.trans hno) (by simp)

theorem blockHasAlpha_iff {s : State} {ty : BlockType} {i : Nat} {b : Nat × Nat} :
    blockHasAlpha s ty i b = some true ↔ ∃ t B, t < 16 ∧ 4 * b.1 + t % 4 < s.lw i ∧ 4 * b.2 + t / 4 < s.lh i
      ∧ readBlock s.mem (s.mip i).buf ty (s.sw i) b.1 b.2 = some B ∧ (decodeTexel s.alphaRampRule ty B t).a ≠ 255 := by
  simp only [blockHasAlpha, Option.map_eq_some_iff, List.any_eq_true, List.mem_range, Bool.and_eq_true, decide_eq_true_eq]
  constructor
  · rintro ⟨B, hB, t, ht, ⟨hx, hy⟩, ha⟩
    exact ⟨t, B, ht, hx, hy, hB, ha⟩
  · rintro ⟨t, B, ht, hx, hy, hB, ha⟩
    exact ⟨B, hB, t, ht, ⟨hx, hy⟩, ha⟩

theorem alphaScan_compressed {stage : Nat} {s : State} {ty : BlockType} (hty : compType s.imgDesc.comp = some ty) :
    alphaScan stage s = scanLevels stage (fun i => anyMem (blockHasAlpha s ty i) (coords (s.sw i / 4) (s.sh i / 4)))
      (List.range s.levels) := by
  simp only [alphaScan, hty]

theorem alphaScan_direct {stage : Nat} {s : State} (hc : compType s.imgDesc.comp = none) (hp : s.imgDesc.palMode = palNone) :
    alphaScan stage s = scanLevels stage (levelHasAlpha s) (List.range s.levels) := by
  simp only [alphaScan, hc, hp, if_true]

theorem alphaScan_indexed {stage : Nat} {s : State} {used : List Nat} (hc : compType s.imgDesc.comp = none)
    (hp : s.imgDesc.palMode ≠ palNone) (hu : usedIndices stage s (List.range s.levels) = .ok used) :
    alphaScan stage s = access stage none (paletteHasAlpha s used) := by
  simp only [alphaScan, hc, hp, if_false, hu]

theorem alphaScan_indexed_error {stage : Nat} {s : State} {e : Raise} (hc : compType s.imgDesc.comp = none)
    (hp : s.imgDesc.palMode ≠ palNone) (hu : usedIndices stage s (List.range s.levels) = .error e) :
    alphaScan stage s = .error e := by
  simp only [alphaScan, hc, hp, if_false, hu]

/-- A palette entry that counts, of a usage set with indices below PAL_COUNT alone. -/
theorem paletteHasAlpha_iff {s : State} {used : List Nat} {b : Bool} (h : paletteHasAlpha s used = some b)
    (hused : ∀ k ∈ used, k < s.palEntries) :
    b = true ↔ ∃ k ∈ used, ∃ c, paletteColour s.mem s.imgDesc s.palBuf k = some c ∧ c.a ≠ 255 := by
  have hmem (k : Nat) : k ∈ (List.range s.palEntries).filter (fun idx => used.contains idx) ↔ k ∈ used := by
    simp only [List.mem_filter, List.mem_range, List.contains_iff_mem, and_iff_right_iff_imp]
    exact hused k
  cases b with
  | true =>
    obtain ⟨k, hk, hentry⟩ := anyMem_true _ h
    obtain ⟨c, hc, ha⟩ := Option.map_eq_some_iff.1 hentry
    exact iff_of_true rfl ⟨k, (hmem k).1 hk, c, hc, of_decide_eq_true ha⟩
  | false =>
    refine iff_of_false Bool.false_ne_true ?_
    rintro ⟨k, hk, c, hc, ha⟩
    have hno := anyMem_false _ h k ((hmem k).2 hk)
    rw [hc] at hno
    exact ha (of_decide_eq_false (Option.some.inj hno) |> not_not.1)

theorem access_ok {α : Type} {stage : Nat} {mip : Option Nat} {o : Option α} {a : α} (h : access stage mip o = .ok a) :
    o = some a := by
  cases o with
  | none => exact absurd h nofun
  | some b => exact congrArg some (Except.ok.inj h)

/-- Settles O30: the search over blocks, over texels, and over the entries in the usage set. -/
theorem alphaScanMeaning : Obligations.AlphaScanMeaning := by
  intro s stage b h
  refine ⟨fun ty hty => ?_, fun hc hp => ?_, fun hc hp => ?_⟩
  · rw [alphaScan_compressed hty] at h
    simp only [scanLevels_anyMem_iff h, blockHasAlpha_iff, List.mem_range, Prod.exists, mem_coords]
    constructor
    · rintro ⟨i, hi, bx, by', ⟨hbx, hby⟩, t, B, htexel⟩
      exact ⟨i, bx, by', t, B, hi, hbx, hby, htexel⟩
    · rintro ⟨i, bx, by', t, B, hi, hbx, hby, htexel⟩
      exact ⟨i, hi, bx, by', ⟨hbx, hby⟩, t, B, htexel⟩
  · rw [alphaScan_direct hc hp] at h
    simp only [scanLevels_anyMem_iff h, List.mem_range, Prod.exists, mem_coords, Option.map_eq_some_iff, decide_eq_true_eq]
    constructor
    · rintro ⟨i, hi, x, y, ⟨hx, hy⟩, c, found, hfetch, ha⟩
      exact ⟨i, x, y, c, found, hi, hx, hy, hfetch, ha⟩
    · rintro ⟨i, x, y, c, found, hi, hx, hy, hfetch, ha⟩
      exact ⟨i, hi, x, y, ⟨hx, hy⟩, c, found, hfetch, ha⟩
  · cases hu : usedIndices stage s (List.range s.levels) with
    | error e => exact absurd ((alphaScan_indexed_error hc hp hu).symm.trans h) nofun
    | ok used =>
      rw [alphaScan_indexed hc hp hu] at h
      have hused := usedIndices_mem _ hu
      rw [paletteHasAlpha_iff (access_ok h) fun k hk => by obtain ⟨i, -, p, -, item, -, hlt, rfl⟩ := (hused k).1 hk; exact hlt]
      constructor
      · rintro ⟨k, hk, c, hc, ha⟩
        obtain ⟨i, hi, ⟨x, y⟩, hxy, item, hitem, hlt, rfl⟩ := (hused k).1 hk
        obtain ⟨hx, hy⟩ := mem_coords.1 hxy
        exact ⟨i, x, y, item, c, List.mem_range.1 hi, hx, hy, hitem, hlt, hc, ha⟩
      · rintro ⟨i, x, y, item, c, hi, hx, hy, hitem, hlt, hc, ha⟩
        exact ⟨_, (hused _).2 ⟨i, List.mem_range.2 hi, (x, y), mem_coords.2 ⟨hx, hy⟩, item, hitem, hlt, rfl⟩, c, hc, ha⟩

/-! ### An image that passes the scan's checks -/

/-- A raw image whose header and levels pass their checks (10_state R54, R55). -/
structure RawImage (s : State) : Prop where
  header : firstRaise (headerChecks s) = none
  raw : s.imgDesc.comp = 0
  mips : ∀ i, i < s.levels → firstRaise (rawMipChecks s i) = none

/-- A compressed image of block type ty whose header and levels pass their checks (10_state R54, R56). -/
structure BlockImage (s : State) (ty : BlockType) : Prop where
  header : firstRaise (headerChecks s) = none
  type : compType s.imgDesc.comp = some ty
  mips : ∀ i, i < s.levels → firstRaise (blockMipChecks s ty i 0) = none

/-- The COMP codes of a WF descriptor name a block type, or none is 0 (10_state R40, R53). -/
theorem compType_none_iff {D : Desc} (hw : D.wf = true) : compType D.comp = none ↔ D.comp = 0 := by
  by_cases hc : D.comp = 0
  · simp [hc, compType]
  · have hle := ((Desc.wf_compressed hc).1 hw).1
    revert hle
    generalize D.comp = c at *
    revert c; decide

theorem image_of_alphaScanChecks {s : State} (h : firstRaise (alphaScanChecks s) = none) :
    RawImage s ∨ ∃ ty, BlockImage s ty := by
  obtain ⟨hhead, hmips⟩ := firstRaise_append_none.1 h
  have hlevel := firstRaise_flatMap_none.1 hmips
  cases hty : compType s.imgDesc.comp with
  | none =>
    obtain ⟨-, -, hw, -⟩ := header_ok hhead
    simp only [hty] at hlevel
    exact .inl ⟨hhead, (compType_none_iff hw).1 hty, fun i hi => hlevel i (List.mem_range.2 hi)⟩
  | some ty =>
    simp only [hty] at hlevel
    exact .inr ⟨ty, hhead, hty, fun i hi => hlevel i (List.mem_range.2 hi)⟩

section
variable {s : State}

theorem RawImage.wf (h : RawImage s) : s.imgDesc.wf = true := (header_ok h.header).2.2.1

theorem RawImage.levels_pos (h : RawImage s) : 1 ≤ s.levels := (header_ok h.header).1

theorem RawImage.levels_le (h : RawImage s) : s.levels ≤ 16 := (header_ok h.header).2.1

theorem RawImage.palette (h : RawImage s) (hp : s.imgDesc.palMode ≠ palNone) :
    s.palEntries ≤ maxEntries s.imgDesc.palMode ∧ s.mem.inBounds s.palBuf 0 (s.palEntries * s.imgDesc.entryBytes) = true :=
  (header_ok h.header).2.2.2 hp

theorem RawImage.fetch (h : RawImage s) {i x y : Nat} (hi : i < s.levels) (hx : x < s.lw i) (hy : y < s.lh i) :
    ∃ c found, s.fetchLevel i x y = some (c, found) := fetchLevel_of_checks h.header h.raw (h.mips i hi) hx hy

theorem RawImage.item (h : RawImage s) {i x y : Nat} (hi : i < s.levels) (hx : x < s.lw i) (hy : y < s.lh i) :
    ∃ item, readItem s.mem (s.mip i).buf (s.lw i) s.imgDesc x y = some item ∧ item < 2 ^ s.imgDesc.depth.toNat := by
  obtain ⟨-, -, -, -, -, hheld⟩ := rawMip_ok (h.mips i hi)
  exact readItem_of_level h.wf h.raw hheld hx hy

/-- The scan of a checked raw image meets no access out of bounds (20_memory R93). -/
theorem RawImage.scan (h : RawImage s) (stage : Nat) : ∃ a, alphaScan stage s = .ok a := by
  have hc : compType s.imgDesc.comp = none := (compType_none_iff h.wf).2 h.raw
  by_cases hp : s.imgDesc.palMode = palNone
  · rw [alphaScan_direct hc hp]
    refine scan_some _ fun i hi => anyMem_some _ ?_
    rintro ⟨x, y⟩ hxy
    obtain ⟨hx, hy⟩ := mem_coords.1 hxy
    obtain ⟨c, found, hfetch⟩ := h.fetch (List.mem_range.1 hi) hx hy
    exact ⟨_, by rw [hfetch, Option.map_some]⟩
  · obtain ⟨used, hused⟩ := used_some (st := stage) (s := s) (List.range s.levels) fun i hi => levelUses_some _ fun p hxy => by
      obtain ⟨hx, hy⟩ := mem_coords.1 hxy
      exact (h.item (List.mem_range.1 hi) hx hy).imp fun _ hitem => hitem.1
    obtain ⟨a, ha⟩ : ∃ a, paletteHasAlpha s used = some a := anyMem_some _ fun k hk => by
      obtain ⟨c, hc⟩ := paletteColour_of_lt (h.palette hp).2 (List.mem_range.1 (List.mem_filter.1 hk).1)
      exact ⟨_, by rw [hc, Option.map_some]⟩
    exact ⟨a, by rw [alphaScan_indexed hc hp hused, ha, access]⟩

/-- The scan of a checked compressed image meets no access out of bounds (20_memory R93). -/
theorem BlockImage.scan {ty : BlockType} (h : BlockImage s ty) (stage : Nat) : ∃ a, alphaScan stage s = .ok a := by
  rw [alphaScan_compressed h.type]
  refine scan_some _ fun i hi => anyMem_some _ fun b hb => ?_
  obtain ⟨hx, hy⟩ := mem_coords.1 hb
  obtain ⟨-, -, -, -, -, -, -, hheld⟩ := blockMip_ok (h.mips i (List.mem_range.1 hi))
  obtain ⟨B, hB⟩ := readBlock_of_inBounds hx hy hheld
  exact ⟨_, by rw [blockHasAlpha, hB, Option.map_some]⟩

end

/-- Settles O31: the list of checks decides, and the scan of an image that passes them has an answer. -/
theorem alphaScanCommand_spec : Obligations.AlphaScanCommand := by
  refine ⟨by decide, fun s => ⟨fun h => ?_, fun e h => ?_⟩⟩
  · obtain ⟨a, ha⟩ : ∃ a, alphaScan 0 s = .ok a :=
      (image_of_alphaScanChecks h).elim (fun hraw => hraw.scan 0) fun ⟨_, hblocks⟩ => hblocks.scan 0
    have hok : alphaScanCommand s = .ok ((s.setRes0 (if a then 1 else 0)).setHasAlpha a) := by
      simp only [alphaScanCommand, checkImage_eq, h, raising, ha]
    exact ⟨a, ha, by rw [exec, execAlphaScan, hok, State.finish]⟩
  · have herr : alphaScanCommand s = .error e := by simp only [alphaScanCommand, checkImage_eq, h, raising]
    rw [exec, execAlphaScan, herr, State.finish]

end Sys2Proof.Machine
end

section
/-! The obligations on how CONVERT and RELEASE begin and end (spec/42_conversion_engine.md R250 to R253, R281, R285): the checks in
order, what a failed stage leaves, and the two flags of STATUS. -/

namespace Sys2Proof.Machine

/-! ### The target -/

theorem rasterOf_default_iff {c : BitVec 4} : rasterOf c = some .default ↔ c = 0 := by revert c; decide

/-- `EntryFormat(T, HA)` as a RASTER code (42_conversion_engine R251). -/
def Desc.entryRaster (T : Desc) (ha : Bool) : BitVec 4 := if T.raster = 0 then (if ha then 5 else 6) else T.raster

theorem rawTarget_eq (T : Desc) (ha : Bool) :
    rawTarget T ha = if T.comp = 0 ∧ T.palMode ≠ palNone then { T with raster := T.entryRaster ha } else T := by
  by_cases hindexed : T.comp = 0 ∧ T.palMode ≠ palNone
  · rw [if_pos hindexed, Desc.entryRaster]
    by_cases hr : T.raster = 0
    · rw [rawTarget, if_pos ⟨hindexed.1, hindexed.2, rasterOf_default_iff.2 hr⟩, if_pos hr]
      cases ha <;> rfl
    · rw [rawTarget, if_neg fun h => hr (rasterOf_default_iff.1 h.2.2), if_neg hr]
  · rw [if_neg hindexed, rawTarget, if_neg]
    exact fun h => hindexed ⟨h.1, h.2.1⟩

theorem rawTarget_of_direct {T : Desc} (ha : Bool) (h : T.palMode = palNone) : rawTarget T ha = T := by
  rw [rawTarget_eq, if_neg fun hT => hT.2 h]

/-- ValidateTarget of a compressed target (42_conversion_engine R251). -/
theorem targetOk_compressed {S T : Desc} {ha : Bool} (hc : T.comp ≠ 0) :
    targetOk S T ha = true ↔ T.comp ≠ 6 ∧ T.comp ≠ 7 ∧ T.palMode = palNone ∧ T.order.toNat ≤ 2 ∧ T.comp ≠ 2 ∧ T.comp ≠ 4
      ∧ S.comp ≠ T.comp := by
  have hmode : T.palMode ≠ 3 ∧ T.palMode = palNone ↔ T.palMode = palNone :=
    and_iff_right_of_imp fun h => by rw [h]; decide
  simp only [targetOk, Desc.reservedComp, Bool.and_eq_true, Bool.not_eq_true', Bool.or_eq_false_iff, decide_eq_false_iff_not,
    decide_eq_true_eq, if_pos hc, ← order_ne_three_iff, ne_eq]
  tauto

/-- ValidateTarget of a raw target (42_conversion_engine R251). -/
theorem targetOk_raw {S T : Desc} {ha : Bool} (hc : T.comp = 0) :
    targetOk S T ha = true ↔ T.palMode ≠ 3 ∧ (rawTarget T ha).wf = true := by
  simp [targetOk, Desc.reservedComp, hc]

/-- Settles O33: T' by its definition, and the check of a compressed, a direct and an indexed target. -/
theorem targetValidation : Obligations.TargetValidation := by
  intro S T ha
  refine ⟨rawTarget_eq T ha, ?_⟩
  by_cases hc : T.comp = 0
  · rw [targetOk_raw hc, rawTarget_eq]
    obtain ⟨h6, h7⟩ : T.comp ≠ 6 ∧ T.comp ≠ 7 := by rw [hc]; decide
    by_cases hp : T.palMode = palNone
    · rw [if_neg fun h => h.2 hp]
      exact ⟨fun ⟨h3, hw⟩ => ⟨h6, h7, h3, fun h => absurd hc h, fun _ _ => hw, fun _ h => absurd hp h⟩,
        fun ⟨_, _, h3, _, hw, _⟩ => ⟨h3, hw hc hp⟩⟩
    · rw [if_pos ⟨hc, hp⟩]
      exact ⟨fun ⟨h3, hw⟩ => ⟨h6, h7, h3, fun h => absurd hc h, fun _ h => absurd h hp, fun _ _ => hw⟩,
        fun ⟨_, _, h3, _, _, hw⟩ => ⟨h3, hw hc hp⟩⟩
  · rw [targetOk_compressed hc]
    have hp3 : T.palMode = palNone → T.palMode ≠ 3 := fun h => by rw [h]; decide
    simp only [hc, ne_eq, not_false_eq_true, true_imp_iff, false_imp_iff, and_true]
    show _ ↔ _ ∧ _ ∧ _ ∧ T.palMode = palNone ∧ _
    tauto

/-! ### The entry of CONVERT -/

theorem exec_convert_of_error {s u : State} {changed truncated : Bool} {e : Raise}
    (h : convertImage s = ⟨u, changed, truncated, some e⟩) : exec .convert s = .next (u.raiseError 0x07 e truncated) := by
  rw [exec, execConvert, h, ConvOut.finish]

theorem exec_convert_of_success {s u : State} {changed truncated : Bool} (h : convertImage s = ⟨u, changed, truncated, none⟩) :
    exec .convert s = .next (u.complete 0x07 changed truncated) := by
  rw [exec, execConvert, h, ConvOut.finish]

/-- Settles O34: the four ways CONVERT begins exclude each other. -/
theorem convertEntry : Obligations.ConvertEntry := by
  intro s
  rcases convertImage_cases s with ⟨hs, h⟩ | ⟨hs, heq, h⟩ | ⟨hs, hne, e, hchecks, h⟩ | ⟨hs, hne, hchecks, h⟩
  · exact ⟨fun _ => exec_convert_of_error h, by simp [hs], by simp [hs]⟩
  · exact ⟨by simp [hs], fun _ _ => exec_convert_of_success h, fun _ hne => absurd heq hne⟩
  · refine ⟨by simp [hs], fun _ heq => absurd heq hne, fun _ _ => ⟨fun e' he' => ?_, by simp [hchecks]⟩⟩
    obtain rfl := Option.some.inj (hchecks.symm.trans he')
    exact exec_convert_of_error h
  · refine ⟨by simp [hs], fun _ heq => absurd heq hne, fun _ _ => ⟨by simp [hchecks], fun _ => ?_⟩⟩
    rw [exec, execConvert, h]

/-! ### A failed stage -/

theorem Untouched.onlyStatus {s t : State} (h : Untouched s t) : onlyStatus s t ∧ t.status = s.status := by
  obtain ⟨⟨hp, rfl⟩, hmem⟩ := h
  exact ⟨⟨⟨rfl, rfl, rfl⟩, ⟨rfl, rfl, rfl, rfl, rfl⟩, rfl, rfl, rfl, rfl,
    fun g => sameBuffer_of_find (congrArg (fun m : Memory => m.find g) hmem), rfl⟩, rfl⟩

/-- Settles O39: a stage that fails has freed what it allocated, and wrote nothing else. -/
theorem failedStageLeavesNoTrace : Obligations.FailedStageLeavesNoTrace := fun s ty T T' e =>
  ⟨fun h => ((stage1_ok s ty T).failed e h).1.onlyStatus, fun h => ((stage2_ok s T').failed e h).1.onlyStatus,
    fun h => ((stage3_ok s ty T).failed e h).1.onlyStatus⟩

/-! ### The flags of STATUS -/

theorem Untouched.levels {s t : State} (h : Untouched s t) : t.levels = s.levels := by
  obtain ⟨⟨hp, rfl⟩, -⟩ := h
  rfl

theorem Run.levels {s t : State} {sz : Nat → Nat} {new : List Word} (h : Run s sz new t) : t.levels = s.levels := by
  obtain ⟨hp, rfl⟩ := h.regs
  rfl

theorem stage2_levels (s : State) (T' : Desc) : (stage2 s T').state.levels = s.levels := by
  unfold stage2
  split
  · rcases recode_cases s T' with ⟨new, u, h, hr, -⟩ | ⟨t, i, h, -, ht⟩ | ⟨t, i, _, _, _, _, h, -, ht, -⟩ <;> rw [h]
    · exact (dropPalette_levels _).trans hr.levels
    all_goals exact ht.levels
  · split
    · rcases repack_cases s T' with ⟨new, u, h, hr, -⟩ | ⟨t, i, h, -, ht⟩ | ⟨t, i, _, _, _, _, h, -, ht, -⟩ <;> rw [h]
      · exact hr.levels
      all_goals exact ht.levels
    · unfold palettize
      split
      · rfl
      · rcases palettizeWith_cases s T' _ with
          ⟨hp, new, u, h, hr, -⟩ | ⟨t, k, h, -, ht⟩ | ⟨t, _, _, h, ht, -⟩ | ⟨t, i, _, _, _, _, h, -, ht, -⟩ <;> rw [h]
        · exact (dropPalette_levels _).trans hr.levels
        all_goals exact ht.levels

theorem stage3_levels (s : State) (ty : BlockType) (T : Desc) : (stage3 s ty T).state.levels = s.levels := by
  rcases stage3_cases s ty T with ⟨e, -, h⟩ | ⟨a, new, u, -, h, hr, -⟩ | ⟨t, i, h, -, ht⟩ | ⟨t, i, _, _, _, _, h, -, ht, -⟩ <;> rw [h]
  · exact (dropPalette_levels _).trans hr.levels
  all_goals exact ht.levels

theorem runStage2_levels (s : State) (T T' : Desc) : (runStage2 s T T').state.levels = s.levels := by
  unfold runStage2
  split
  · exact stage2_levels s T'
  · rfl

theorem runStage3_levels (s : State) (T : Desc) : (runStage3 s T).state.levels = s.levels := by
  unfold runStage3
  split
  · exact stage3_levels s _ T
  · rfl

theorem settlePalette_levels (s : State) : s.settlePalette.levels = s.levels := by
  unfold State.settlePalette
  split <;> rfl

theorem finishPipeline_levels (s : State) (ran truncated : Bool) :
    (finishPipeline s ran truncated).state.levels = s.levels ∧ (finishPipeline s ran truncated).truncated = truncated := by
  rcases finishPipeline_cases s ran truncated with ⟨-, h⟩ | ⟨-, e, -, h⟩ | ⟨-, a, -, h⟩ <;> rw [h]
  · exact ⟨rfl, rfl⟩
  · exact ⟨rfl, rfl⟩
  · exact ⟨settlePalette_levels (s.setHasAlpha a), rfl⟩

/-- TRUNCATED says that the chain is shorter than it was: only stage 1 shortens it (42_conversion_engine R262). -/
theorem pipeline_truncated (s : State) (T T' : Desc) :
    (pipeline s T T').truncated = decide ((pipeline s T T').state.levels < s.levels) := by
  rcases pipeline_cases s T T' with ⟨s1, e, h1, h⟩ | ⟨s1, s2, e, h1, h2, h⟩ | ⟨s1, s2, s3, e, h1, h2, h3, h⟩ | ⟨s1, s2, s3, h1, h2, h3, h⟩ <;>
    rw [h]
  · have hfailed := ((runStage1_ok s T).failed e (by rw [h1])).1.levels
    rw [h1] at hfailed
    simp [hfailed]
  all_goals
    have hlevels2 := runStage2_levels s1 T T'
    rw [h2] at hlevels2
  · rw [← hlevels2]
  all_goals
    have hlevels3 := (runStage3_levels s2 T).trans hlevels2
    rw [h3] at hlevels3
  · rw [← hlevels3]
  · obtain ⟨hlevels, htruncated⟩ := finishPipeline_levels s3 (!s.imgDesc.isRaw || reshapes s1 T T' || !T.isRaw)
      (decide (s1.levels < s.levels))
    rw [hlevels, htruncated, ← hlevels3]

theorem convertImage_truncated (s : State) : (convertImage s).truncated = decide ((convertImage s).state.levels < s.levels) := by
  rcases convertImage_cases s with ⟨-, h⟩ | ⟨-, -, h⟩ | ⟨-, -, e, -, h⟩ | ⟨-, -, -, h⟩ <;> rw [h]
  · simp
  · simp
  · simp
  · exact pipeline_truncated ..

theorem convFinish_levels (o : ConvOut) (opc : Byte) : (o.finish opc).levels = o.state.levels := by
  obtain ⟨u, changed, truncated, _ | e⟩ := o <;> rfl

/-- The flags and ERR that CONVERT leaves in STATUS (60_exceptions R352). -/
theorem convFinish_flags (o : ConvOut) (opc : Byte) :
    (o.finish opc).truncatedFlag = o.truncated ∧ ((o.finish opc).changedFlag = true ↔ o.error = none ∧ o.changed = true)
      ∧ ((o.finish opc).errField = 0 ↔ o.error = none) := by
  obtain ⟨u, changed, truncated, _ | e⟩ := o
  · obtain ⟨herr, -, -, -, hchanged, htruncated, -⟩ := complete_fields u opc changed truncated
    simp only [ConvOut.finish, herr, hchanged, htruncated, true_and, and_self]
  · obtain ⟨herr, -, -, -, hchanged, htruncated, -⟩ := statusWord_fields opc (some e) false truncated
    have hcode : (u.raiseError opc e truncated).errField ≠ 0 := by
      have hpos := e.code.num_pos
      have hle := e.code.num_le
      exact herr.trans_ne (by rw [errFields, Nat.mod_eq_of_lt (by omega)]; omega)
    refine ⟨htruncated, ?_, ?_⟩
    · exact iff_of_false (by rw [ConvOut.finish, State.changedFlag, State.raiseError_status, hchanged]; exact Bool.false_ne_true)
        (fun h => absurd h.1 nofun)
    · exact iff_of_false hcode nofun

/-- Settles O38: the chain is shorter exactly where stage 1 committed fewer levels than it was given. -/
theorem truncatedFlag_spec : Obligations.TruncatedFlag := by
  intro s t h
  obtain rfl := Host.Outcome.next.inj h
  rw [(convFinish_flags _ _).1, convFinish_levels]
  refine ⟨?_, convertImage_truncated s⟩
  generalize convertImage s = o, convertImage_end s = hend
  cases hend with
  | failed u truncated e hu he => exact hu.levels
  | unchanged u truncated hu => exact hu.levels
  | rescanned u alpha truncated hu => exact (settlePalette_levels (u.setHasAlpha alpha)).le.trans hu.levels

/-- Some stage ran exactly where the source or the target is compressed, or the raw source is not yet T'
(42_conversion_engine R253, R281). -/
theorem ran_eq_someStageRuns {s s1 : State} (h : runStage1 s s.tgtDesc = ⟨s1, none⟩) :
    (!s.imgDesc.isRaw || reshapes s1 s.tgtDesc s.rawTgt || !s.tgtDesc.isRaw) = someStageRuns s := by
  by_cases hs : s.imgDesc.comp = 0
  · have hnone : compType s.imgDesc.comp = none := by rw [hs]; rfl
    simp only [runStage1, hnone] at h
    obtain ⟨rfl, -⟩ := StageOut.mk.inj h
    rw [someStageRuns, reshapes, Desc.isRaw, Desc.isRaw, decide_eq_true hs]
    cases decide (s.tgtDesc.comp = 0) <;> simp
  · rw [someStageRuns, Desc.isRaw, decide_eq_false hs]
    rfl

theorem finishPipeline_changed {s : State} {ran truncated : Bool} :
    ((finishPipeline s ran truncated).error = none → (finishPipeline s ran truncated).changed = ran)
      ∧ ((finishPipeline s ran truncated).error ≠ none → (finishPipeline s ran truncated).changed = false) := by
  rcases finishPipeline_cases s ran truncated with ⟨rfl, h⟩ | ⟨rfl, e, -, h⟩ | ⟨rfl, a, -, h⟩ <;> rw [h] <;> simp

theorem pipeline_changed {s : State} (h : (pipeline s s.tgtDesc s.rawTgt).error = none) :
    (pipeline s s.tgtDesc s.rawTgt).changed = someStageRuns s := by
  rcases pipeline_cases s s.tgtDesc s.rawTgt with
    ⟨s1, e, -, hp⟩ | ⟨s1, s2, e, -, -, hp⟩ | ⟨s1, s2, s3, e, -, -, -, hp⟩ | ⟨s1, s2, s3, h1, -, -, hp⟩ <;> rw [hp] at h ⊢
  · exact absurd h nofun
  · exact absurd h nofun
  · exact absurd h nofun
  · rw [finishPipeline_changed.1 h, ran_eq_someStageRuns h1]

/-- Settles O37: CHANGED is what the end of the pipeline says, and an identity ends before it. -/
theorem changedFlag_spec : Obligations.ChangedFlag := by
  intro s t h
  obtain rfl := Host.Outcome.next.inj h
  obtain ⟨-, hchanged, herr⟩ := convFinish_flags (convertImage s) 0x07
  rw [hchanged, herr]
  refine and_congr_right fun hnone => ?_
  rcases convertImage_cases s with ⟨-, h⟩ | ⟨-, heq, h⟩ | ⟨-, -, e, -, h⟩ | ⟨-, hne, -, h⟩ <;> rw [h] at hnone ⊢
  · exact absurd hnone nofun
  · simp [heq]
  · exact absurd hnone nofun
  · simp [hne, pipeline_changed hnone]

/-! ### RELEASE -/

/-- What RELEASE leaves where its checks pass (42_conversion_engine R285). -/
def State.released (s : State) : State :=
  if s.isStandalone && !s.acquired then clearImage (s.freeAll s.imageHandles) else clearImage s

theorem exec_release_of_pass {s : State} (h : firstRaise (releaseChecks s) = none) :
    exec .release s = .next (s.released.complete 0x0A false false) := by
  rw [exec, execRelease, releaseImage_eq, h, State.finish, State.released]

/-- RELEASE writes the image registers and one flag, and frees the handles of an owned image, or none. -/
theorem exists_released (s : State) : ∃ hs, s.released = clearImage (s.freeAll hs)
    ∧ ((s.isStandalone = true ∧ s.acquired = false) → hs = s.imageHandles)
    ∧ (¬ (s.isStandalone = true ∧ s.acquired = false) → hs = []) := by
  unfold State.released
  by_cases howned : s.isStandalone = true ∧ s.acquired = false
  · exact ⟨s.imageHandles, by simp [howned], fun _ => rfl, fun h => absurd howned h⟩
  · refine ⟨[], ?_, fun h => absurd h howned, fun _ => rfl⟩
    rw [if_neg (by simpa using howned)]
    rfl

theorem mipsOf_zero (i : Fin 16) : (mipsOf fun _ => MipRegs.zero)[i] = ⟨0, 0, 0, 0⟩ := by fin_cases i <;> rfl

/-- The registers RELEASE does not write, and those that say that there is no image (42_conversion_engine R285). -/
theorem released_frame (s : State) (hs : List Word) :
    let t := (clearImage (s.freeAll hs)).complete 0x0A false false
    hostAdvances s t ∧ sameConfig s t ∧ sameOracle s t ∧ t.res = s.res ∧ t.tb = s.tb ∧ t.tgtFmt = s.tgtFmt ∧ t.imgFmt = s.imgFmt
      ∧ t.mipCount = 0 ∧ t.palBuf = 0 ∧ t.palCount = 0 := by
  simp [clearImage, hostAdvances, sameConfig, sameOracle]

theorem clearImage_imgFlags (s : State) : (clearImage s).imgFlags = s.imgFlags &&& ~~~ (4 : Word) := by
  have hbit : BitVec.twoPow 32 2 = (4 : Word) := by decide
  show withBit s.imgFlags 2 false = _
  rw [withBit, if_neg Bool.false_ne_true, hbit]

theorem clearImage_acquired (s : State) : (clearImage s).acquired = false :=
  (bit_withBit s.imgFlags 2 2 false (by decide)).trans (if_pos rfl)

/-- The handles an owned image names are live where RELEASE's checks pass. -/
theorem live_of_releaseChecks {s : State} (h : firstRaise (releaseChecks s) = none) (hs : s.isStandalone = true)
    (ha : s.acquired = false) : ∀ g ∈ s.imageHandles, s.mem.live g = true := by
  simp only [releaseChecks, distinctCheck, firstRaise_cons_none, hs, ha, Bool.not_false, Bool.and_self, Bool.true_and,
    List.any_eq_false, Bool.not_eq_true'] at h
  obtain ⟨-, -, hlive, -⟩ := h
  exact fun g hg => by simpa using hlive g hg

theorem sameBuffer_freeAll {s t : State} {hs : List Word} {g : Word} (ht : t.mem = s.mem.freeAll hs) (hg : g ∉ hs) :
    sameBuffer s t g :=
  sameBuffer_of_find (by rw [ht, find_freeAll, if_neg hg])

/-- Settles O51: RELEASE frees the image's handles or none, and its registers are those of no image. -/
theorem releaseCommand : Obligations.ReleaseCommand := by
  refine ⟨by decide, fun s => ⟨fun h => ?_, fun e h => ?_⟩⟩
  · obtain ⟨hs, heq, howned, hborrowed⟩ := exists_released s
    have hexec := exec_release_of_pass h
    rw [heq] at hexec
    obtain ⟨hhost, hconfig, horacle, hres, htb, htgt, hfmt, hcount, hpal, hentries⟩ := released_frame s hs
    refine ⟨_, hexec, State.complete_status .., hhost, hconfig, horacle, hres, htb, htgt, hfmt, clearImage_imgFlags _,
      clearImage_acquired _, hcount, hpal, hentries, mipsOf_zero, fun hst ha g => ?_, fun hb g => ?_⟩
    · obtain rfl := howned ⟨hst, ha⟩
      refine ⟨fun hg => ⟨live_of_releaseChecks h hst ha g hg, ?_⟩, sameBuffer_freeAll rfl⟩
      exact congrArg Option.isSome ((find_freeAll s.imageHandles s.mem g).trans (if_pos hg))
    · obtain rfl := hborrowed hb
      exact sameBuffer_freeAll rfl List.not_mem_nil
  · rw [exec, execRelease, releaseImage_eq, h, State.finish]

end Sys2Proof.Machine
end

section
/-! The obligations on the levels stage 2 recodes and repacks (spec/42_conversion_engine.md R264 to R266): a loop over a level stores
each of its texels, or writes each of its indices, and no other byte. -/

namespace Sys2Proof.Machine

/-! ### Case (a) -/

/-- What case (a) stores at a texel: the colour fetched, in the target's format (42_conversion_engine R265). -/
def State.recodedItem (s : State) (i : Nat) (D : Desc) (x y : Nat) : Nat :=
  encodeDirect D.rasterF D.orderF D.depth.toNat (((s.fetchLevel i x y).map Prod.fst).getD Colour.none)

/-- Case (a) stores every texel of a checked level. -/
theorem recodeLevel_stored {s : State} {i : Nat} {D : Desc} {h : Word} (hh : firstRaise (headerChecks s) = none)
    (hraw : s.imgDesc.comp = 0) (hr : firstRaise (rawMipChecks s i) = none) (hw : D.wf = true) (hc : D.comp = 0)
    (hp : D.palMode = palNone) (hne : h ≠ (s.mip i).buf) (hpal : s.imgDesc.palMode ≠ palNone → h ≠ s.palBuf)
    (hb : s.mem.inBounds h 0 (D.rawSize (s.lw i) (s.lh i)) = true) :
    ∃ m, recodeLevel D s i h = some m
      ∧ Stored D h (s.lw i) (s.recodedItem i D) (fun x y => x < s.lw i ∧ y < s.lh i) s.mem m := by
  have hregion (x y : Nat) : (∃ p ∈ coords (s.lw i) (s.lh i), x = p.1 ∧ y = p.2) ↔ x < s.lw i ∧ y < s.lh i := by
    simp only [Prod.exists, mem_coords]
    exact ⟨fun ⟨_, _, hxy, hx, hy⟩ => by rw [hx, hy]; exact hxy, fun hxy => ⟨x, y, hxy, rfl, rfl⟩⟩
  refine Exists.imp (fun m hm => ⟨hm.1, hm.2.congr hregion⟩) (Stored.forMem _ (fun p hmem k hk => ?_) s.mem (.refl h s.mem))
  obtain ⟨hx, hy⟩ := mem_coords.1 hmem
  obtain ⟨c, found, hfetch⟩ := fetchLevel_of_checks hh hraw hr hx hy
  have hfetchk := (fetchTexel_congr (hk.other _ hne.symm) (fun h0 => hk.other _ (hpal h0).symm) ..).trans hfetch
  simp only [hfetchk]
  exact storeTexel_stored hw hc hp ((inBounds_len hk.len ..).trans hb) hx hy
    (by rw [State.recodedItem, hfetch, Option.map_some, Option.getD_some])

/-- Settles O41: the level is stored texel by texel, each fetched where no store has been. -/
theorem recodeLevelTexels : Obligations.RecodeLevelTexels := by
  intro s i D h hh hraw hr hw hc hp hne hpal hb
  obtain ⟨m, hm, hst⟩ := recodeLevel_stored hh hraw hr hw hc hp hne hpal hb
  refine ⟨m, hm, fun x y hx hy => ?_, fun y j _ => hst.padding y j, hst.wrote.other⟩
  obtain ⟨c, found, hfetch⟩ := fetchLevel_of_checks hh hraw hr hx hy
  refine ⟨c, found, hfetch, ?_⟩
  rw [hst.items x y hx ⟨hx, hy⟩, State.recodedItem, hfetch, Option.map_some, Option.getD_some]

/-! ### Loops that write indices -/

/-- An index cut to the width of D's palette mode (40_color_model R160). -/
def Desc.cutIndex (D : Desc) (idx : Nat) : Nat := if D.palMode = pal4 then idx % 16 else idx % 256

/-- Padding bytes and the unused nibble of an odd 4-bit row are in m' as in m (20_memory R95, R100). -/
structure SamePadding (D : Desc) (h : Word) (w : Nat) (m m' : Memory) : Prop where
  bytes : ∀ y j, rowBytes w D.depth.toNat ≤ j → j < D.pitch w →
    m'.byte? h (y * D.pitch w + j) = m.byte? h (y * D.pitch w + j)
  nibble : D.depth = 4 → w % 2 = 1 → ∀ y, (m'.byte? h (y * D.pitch w + w / 2)).map (fun b => b.toNat / 16)
    = (m.byte? h (y * D.pitch w + w / 2)).map (fun b => b.toNat / 16)

theorem SamePadding.refl (D : Desc) (h : Word) (w : Nat) (m : Memory) : SamePadding D h w m m :=
  ⟨fun _ _ _ _ => rfl, fun _ _ _ => rfl⟩

theorem SamePadding.trans {D : Desc} {h : Word} {w : Nat} {m m' m'' : Memory} (a : SamePadding D h w m m')
    (b : SamePadding D h w m' m'') : SamePadding D h w m m'' :=
  ⟨fun y j hj hj' => (b.bytes y j hj hj').trans (a.bytes y j hj hj'), fun h4 ho y => (b.nibble h4 ho y).trans (a.nibble h4 ho y)⟩

/-- m' comes from m by writing the index `idx x y` at every texel (x, y) of the level of width w and height hh at h. -/
structure Indexed (D : Desc) (h : Word) (w hh : Nat) (idx : Nat → Nat → Nat) (m m' : Memory) : Prop where
  wrote : Memory.Wrote h m m'
  items : ∀ x y, x < w → y < hh → readItem m' h w D x y = some (D.cutIndex (idx x y))
  padding : SamePadding D h w m m'

/-- A loop over a level whose every access writes an index, from each store it may meet. -/
theorem Indexed.forMem {D : Desc} (hw : D.wf = true) (hc : D.comp = 0) (hp : D.palMode ≠ palNone)
    {f : Memory → Nat × Nat → Option Memory} {h : Word} {w hh : Nat} {idx : Nat → Nat → Nat} {m : Memory}
    (hb : m.inBounds h 0 (D.rawSize w hh) = true)
    (hf : ∀ k x y, Memory.Wrote h m k → x < w → y < hh → f k (x, y) = writeIndex k h w D x y (idx x y)) :
    ∃ m', Machine.forMem f (coords w hh) m = some m' ∧ Indexed D h w hh idx m m' := by
  refine Exists.imp (fun m' hm' => ⟨hm'.1, hm'.2.1.1, fun x y hx hy => hm'.2.2 (x, y) (mem_coords.2 ⟨hx, hy⟩), hm'.2.1.2⟩)
    (forMem_spec (P := fun k => Memory.Wrote h m k ∧ SamePadding D h w m k)
      (Q := fun p k => readItem k h w D p.1 p.2 = some (D.cutIndex (idx p.1 p.2))) _ (fun p hmem k hPk => ?_) m
      ⟨.refl h m, .refl D h w m⟩)
  obtain ⟨hk, hkpad⟩ := hPk
  obtain ⟨hx, hy⟩ := mem_coords.1 hmem
  obtain ⟨k', hk', hread, hothers⟩ := writeIndex_spec hw hc hp (idx p.1 p.2) ((inBounds_len hk.len ..).trans hb) hx hy
  obtain ⟨hbytes, hnibble⟩ := writeIndex_padding hw hc hp hx hk'
  refine ⟨k', (hf k p.1 p.2 hk hx hy).trans hk', ⟨hk.trans (writeIndex_wrote hk'), hkpad.trans ⟨hbytes, hnibble⟩⟩, hread,
    fun q hq hne hqk => ?_⟩
  obtain ⟨hqx, hqy⟩ := mem_coords.1 hq
  exact (hothers q.1 q.2 hqx hqy hne).trans hqk

/-- The byte with the unused nibble of an odd 4-bit row, before and after. -/
theorem SamePadding.nibble_bytes {D : Desc} {h : Word} {w hh : Nat} {m m' : Memory} (hp : SamePadding D h w m m')
    (ha : 1 ≤ D.rowAlign.toNat) (hb : m.inBounds h 0 (D.rawSize w hh) = true) (h4 : D.depth = 4) (ho : w % 2 = 1) {y : Nat}
    (hy : y < hh) : ∃ b b' : Byte, m.byte? h (y * D.pitch w + w / 2) = some b
      ∧ m'.byte? h (y * D.pitch w + w / 2) = some b' ∧ b'.toNat / 16 = b.toNat / 16 := by
  have hrow : w / 2 < rowBytes w D.depth.toNat := by rw [depth_eq_four.1 h4]; unfold rowBytes; omega
  have hpitch : rowBytes w D.depth.toNat ≤ D.pitch w := rowBytes_le_pitch w D.depth.toNat D.rowAlign.toNat ha
  have hrows : (y + 1) * D.pitch w ≤ D.rawSize w hh := (Nat.mul_le_mul_right _ hy).trans (Nat.mul_comm _ _).le
  have hin : m.inBounds h (y * D.pitch w + w / 2) 1 = true := inBounds_mono hb (by rw [Nat.add_mul] at hrows; omega)
  obtain ⟨b, hbyte, -⟩ := read_one hin
  have hnib := hp.nibble h4 ho y
  rw [hbyte, Option.map_some] at hnib
  obtain ⟨b', hbyte', heq⟩ := Option.map_eq_some_iff.1 hnib
  exact ⟨b, b', hbyte, hbyte', heq⟩

/-! ### Case (b) -/

/-- The index that a texel's item holds (40_color_model R159). -/
def State.sourceIndex (s : State) (i x y : Nat) : Nat :=
  indexOfItem s.imgDesc ((readItem s.mem (s.mip i).buf (s.lw i) s.imgDesc x y).getD 0)

/-- Case (b) writes the index of every texel of a checked level. -/
theorem repackLevel_indexed {s : State} {i : Nat} {D : Desc} {h : Word} (hh : firstRaise (headerChecks s) = none)
    (hraw : s.imgDesc.comp = 0) (hr : firstRaise (rawMipChecks s i) = none) (hw : D.wf = true) (hc : D.comp = 0)
    (hp : D.palMode ≠ palNone) (hne : h ≠ (s.mip i).buf) (hb : s.mem.inBounds h 0 (D.rawSize (s.lw i) (s.lh i)) = true) :
    ∃ m, repackLevel D s i h = some m ∧ Indexed D h (s.lw i) (s.lh i) (s.sourceIndex i) s.mem m := by
  obtain ⟨-, -, hwf, -⟩ := header_ok hh
  obtain ⟨-, -, -, -, -, hheld⟩ := rawMip_ok hr
  refine Indexed.forMem hw hc hp hb fun k x y hk hx hy => ?_
  obtain ⟨item, hitem, -⟩ := readItem_of_level hwf hraw hheld hx hy
  have hitemk := (readItem_congr (hk.other _ hne.symm) ..).trans hitem
  simp only [hitemk, State.sourceIndex, hitem, Option.getD_some]

/-- An index of a checked source, cut to the target's width, is an index of the target. -/
theorem cutIndex_sourceIndex {D S : Desc} (hw : S.wf = true) (hc : S.comp = 0) (hp : S.palMode ≠ palNone) {item : Nat}
    (hi : item < 2 ^ S.depth.toNat) :
    D.cutIndex (indexOfItem S item) = if D.palMode = pal4 then indexOfItem S item % 16 else indexOfItem S item := by
  unfold Desc.cutIndex
  rw [Nat.mod_eq_of_lt (indexOfItem_lt hw hc hp hi)]

theorem indexOfItem_cutIndex (D : Desc) (idx : Nat) : indexOfItem D (D.cutIndex idx) = D.cutIndex idx := by
  unfold indexOfItem Desc.cutIndex
  split
  · next h => rw [if_pos h.1, and15, Nat.mod_mod]
  · rfl

theorem maxEntries_eq (mode : BitVec 2) : maxEntries mode = if mode = 1 then 16 else 256 := rfl

/-- The condition of case (b), as the statements write it (42_conversion_engine R264). -/
theorem repackApplies_iff {s : State} {D : Desc} : repackApplies s D = true ↔
    s.imgDesc.palMode ≠ 0 ∧ s.imgDesc.raster = D.raster ∧ s.imgDesc.order = D.order
      ∧ s.palEntries ≤ (if D.palMode = 1 then 16 else 256) := by
  rw [← maxEntries_eq]
  simp only [repackApplies, Bool.and_eq_true, decide_eq_true_eq, and_assoc]
  rfl

theorem stage2_recode {s : State} {D : Desc} (h : D.palMode = palNone) : stage2 s D = recode s D := if_pos h

theorem stage2_repack {s : State} {D : Desc} (h : D.palMode ≠ palNone) (happ : repackApplies s D = true) :
    stage2 s D = repack s D := (if_neg h).trans (if_pos happ)

theorem stage2_palettize {s : State} {D : Desc} (h : D.palMode ≠ palNone) (happ : ¬ repackApplies s D = true) :
    stage2 s D = palettize s D := (if_neg h).trans (if_neg happ)

/-- Settles O42: the three cases of stage 2, and the loop that writes each index read. -/
theorem repackLevelIndices : Obligations.RepackLevelIndices := by
  refine ⟨fun s D => ⟨stage2_recode, fun hp hkept => stage2_repack hp (repackApplies_iff.2 hkept),
    fun hp hkept => stage2_palettize hp (mt repackApplies_iff.1 hkept)⟩, ?_⟩
  intro s i D h hh hraw hpal hr hw hc hp hne hb
  obtain ⟨m, hm, hidx⟩ := repackLevel_indexed hh hraw hr hw hc hp hne hb
  obtain ⟨-, -, hwf, -⟩ := header_ok hh
  obtain ⟨-, -, -, -, -, hheld⟩ := rawMip_ok hr
  refine ⟨m, hm, fun x y hx hy => ?_, fun y j _ => hidx.padding.bytes y j,
    fun h4 ho y hy => hidx.padding.nibble_bytes (raw_wf hw hc).1 hb h4 ho hy, hidx.wrote.other⟩
  obtain ⟨item, hitem, hlt⟩ := readItem_of_level hwf hraw hheld hx hy
  have hindex : s.sourceIndex i x y = indexOfItem s.imgDesc item := by rw [State.sourceIndex, hitem, Option.getD_some]
  refine ⟨item, _, hitem, hidx.items x y hx hy, ?_, indexOfItem_cutIndex ..⟩
  rw [hindex, cutIndex_sourceIndex hwf hraw hpal hlt]

end Sys2Proof.Machine
end

section
/-! What a stage of CONVERT that commits leaves (spec/42_conversion_engine.md R262, R265 to R267, R272, R280): levels with new buffers
of their sizes, every other buffer as it was, and an image that passes its checks again. -/

namespace Sys2Proof.Machine

/-! ### Images that pass their checks -/

theorem comp_reserved_of_wf {D : Desc} (hw : D.wf = true) : ¬ (D.comp = 6 ∨ D.comp = 7) := by
  by_cases hc : D.comp = 0
  · rw [hc]; decide
  · have hle := ((Desc.wf_compressed hc).1 hw).1
    rintro (h | h) <;> rw [h] at hle <;> exact absurd hle (by decide)

theorem headerChecks_none {s : State} (h1 : 1 ≤ s.levels) (h16 : s.levels ≤ 16) (hw : s.imgDesc.wf = true)
    (hp : s.imgDesc.palMode ≠ palNone → s.palEntries ≤ maxEntries s.imgDesc.palMode
      ∧ s.mem.inBounds s.palBuf 0 (s.palEntries * s.imgDesc.entryBytes) = true) : firstRaise (headerChecks s) = none := by
  simp only [headerChecks, firstRaise_cons_none, decide_eq_false_iff_not, Bool.not_eq_false', Bool.and_eq_false_imp,
    decide_eq_true_eq, tooShort_false]
  exact ⟨by omega, comp_reserved_of_wf hw, hw, fun h => Nat.not_lt.2 (hp h).1, fun h => (hp h).2, rfl⟩

theorem rawMipChecks_none {s : State} {i : Nat} (hw : 0 < s.lw i) (hh : 0 < s.lh i) (hsw : s.sw i = s.lw i)
    (hsh : s.sh i = s.lh i) (hsize : (s.mip i).size.toNat = s.imgDesc.rawSize (s.lw i) (s.lh i))
    (hheld : s.mem.inBounds (s.mip i).buf 0 (s.mip i).size.toNat = true) : firstRaise (rawMipChecks s i) = none := by
  simp only [rawMipChecks, firstRaise_cons_none, decide_eq_false_iff_not, tooShort_false]
  exact ⟨by omega, by omega, not_not.2 hsize, hheld, rfl⟩

theorem blockMipChecks_none {s : State} {ty : BlockType} {i st : Nat} (hw : 0 < s.lw i) (hh : 0 < s.lh i)
    (hsw : s.sw i = roundup (s.lw i) 4) (hsh : s.sh i = roundup (s.lh i) 4)
    (hsize : (s.mip i).size.toNat = s.sw i / 4 * (s.sh i / 4) * blockBytes ty)
    (hheld : s.mem.inBounds (s.mip i).buf 0 (s.mip i).size.toNat = true) : firstRaise (blockMipChecks s ty i st) = none := by
  simp only [blockMipChecks, firstRaise_cons_none, decide_eq_false_iff_not, tooShort_false]
  have hpadw := roundup4 (s.lw i)
  have hpadh := roundup4 (s.lh i)
  exact ⟨by omega, not_not.2 hsize, hheld, rfl⟩

/-- Every buffer a checked raw image names is live. -/
theorem RawImage.handles_live {s : State} (h : RawImage s) : ∀ g ∈ s.imageHandles, s.mem.live g = true := by
  intro g hg
  obtain ⟨-, ⟨hi, rfl⟩ | hmip⟩ := mem_imageHandles.1 hg
  · exact inBounds_live (h.palette ((isIndexed_iff h.wf h.raw).1 hi)).2
  · obtain ⟨i, hi, rfl⟩ := List.mem_map.1 hmip
    obtain ⟨-, -, -, -, -, hheld⟩ := rawMip_ok (h.mips i (List.mem_range.1 hi))
    exact inBounds_live hheld

/-- No handle a run has allocated is one a checked raw image names. -/
theorem RawImage.run_clean {s u : State} (h : RawImage s) {sz : Nat → Nat} {new : List Word} (hr : Run s sz new u) :
    ∀ g ∈ new, g ∉ s.imageHandles := by
  intro g hg himg
  obtain ⟨-, -, hdead⟩ := hr.live g hg
  exact absurd ((h.handles_live g himg).symm.trans hdead) (by decide)

/-! ### Levels with new buffers -/

/-- The stage that started at s left d: its levels have new buffers, level i of sz i bytes, the registers past the chain are as
`rest` says, and nothing that the image does not name has changed (42_conversion_engine R252, R280). -/
structure Replaced (s d : State) (sz : Nat → Nat) (rest : Nat → MipRegs) : Prop where
  frame : ImageOnly s d
  wf : d.mem.wf = true
  pos : 1 ≤ d.levels
  le : d.levels ≤ s.levels
  ldim : ∀ i, i < d.levels → (d.mip i).ldim = (s.mip i).ldim
  size : ∀ i, i < d.levels → (d.mip i).size.toNat = sz i
  len : ∀ i, i < d.levels → d.mem.len? (d.mip i).buf = some (sz i)
  beyond : ∀ i, d.levels ≤ i → i < 16 → d.mip i = rest i
  live : LiveIs s d

/-- The level registers a commit writes: the buffers `new` and the storage dimensions `dims` for the first levels, what `rest`
says for the others. -/
structure NewLevels (s d : State) (sz : Nat → Nat) (new : List Word) (dims : Nat → Word) (rest : Nat → MipRegs) : Prop where
  count : d.levels = new.length
  le : new.length ≤ 16
  mip : ∀ i, i < 16 → d.mip i
    = if i < new.length then ⟨new.getD i 0, dims i, (s.mip i).ldim, BitVec.ofNat 32 (sz i)⟩ else rest i

section
variable {s u d : State} {sz szs : Nat → Nat} {pre new F : List Word} {dims : Nat → Word} {rest : Nat → MipRegs} {i : Nat}

theorem NewLevels.mip_of_lt (h : NewLevels s d sz new dims rest) (hi : i < d.levels) :
    d.mip i = ⟨new.getD i 0, dims i, (s.mip i).ldim, BitVec.ofNat 32 (sz i)⟩ := by
  have hlen : i < new.length := h.count ▸ hi
  rw [h.mip i (hlen.trans_le h.le), if_pos hlen]

theorem NewLevels.buf (h : NewLevels s d sz new dims rest) (hi : i < d.levels) : (d.mip i).buf = new.getD i 0 := by
  rw [h.mip_of_lt hi]

theorem NewLevels.sdim (h : NewLevels s d sz new dims rest) (hi : i < d.levels) : (d.mip i).sdim = dims i := by
  rw [h.mip_of_lt hi]

theorem NewLevels.mipHandles (h : NewLevels s d sz new dims rest) : d.mipHandles = new := by
  rw [State.mipHandles]
  exact (List.map_congr_left fun i hi => h.buf (List.mem_range.1 hi)).trans (by rw [h.count, map_getD])

theorem mem_imageHandles_direct (hd : d.imgDesc.isIndexed = false) {g : Word} :
    g ∈ d.imageHandles ↔ g ≠ 0 ∧ g ∈ d.mipHandles := by
  rw [mem_imageHandles, hd]
  simp

theorem mem_imageHandles_indexed (hd : d.imgDesc.isIndexed = true) {g : Word} :
    g ∈ d.imageHandles ↔ g ≠ 0 ∧ g ∈ [d.palBuf] ++ d.mipHandles := by
  rw [mem_imageHandles, hd]
  simp

/-- The buffers of a run are none of those that a commit frees. -/
theorem Run.not_freed (hr : Run s szs new u) (hclean : ∀ g ∈ new, g ∉ s.imageHandles)
    (hsub : ∀ g ∈ F, g = 0 ∨ g ∈ s.imageHandles) : ∀ g ∈ new, g ∉ F := by
  intro g hg hF
  obtain ⟨-, h0, -⟩ := hr.live g hg
  exact (hsub g hF).elim h0 (hclean g hg)

/-- A commit that frees every buffer the image named leaves these dead, and its own live. -/
theorem live_of_superseded (hwf : s.mem.wf = true) (hr : Run s szs new u) (hmem : d.mem = u.mem.freeAll s.superseded)
    (hclean : ∀ g ∈ new, g ∉ s.imageHandles) (himg : ∀ g, g ∈ d.imageHandles ↔ g ≠ 0 ∧ g ∈ new) : LiveIs s d := by
  refine live_commit hwf hr _ superseded_sub hmem (fun g hg => .inl ((himg g).1 hg).2) (fun g hg => .inl ?_) fun g hg => ?_
  · obtain ⟨-, ⟨hi, rfl⟩ | hmip⟩ := mem_imageHandles.1 hg
    · exact List.mem_append_right _ (by rw [if_pos hi]; exact List.mem_singleton_self _)
    · exact List.mem_append_left _ hmip
  · obtain ⟨-, h0, -⟩ := hr.live g hg
    exact ⟨(himg g).2 ⟨h0, hg⟩, hr.not_freed hclean superseded_sub g hg⟩

/-- What a commit's registers say of the levels, `pre` being what was allocated before their buffers. -/
theorem NewLevels.replaced (h : NewLevels s d sz new dims rest) (hwf : s.mem.wf = true) (hr : Run s szs (pre ++ new) u)
    (hsz : ∀ i, szs (pre.length + i) = sz i) (hmem : d.mem = u.mem.freeAll F) (hF : ∀ g ∈ pre ++ new, g ∉ F)
    (frame : ImageOnly u d) (pos : 1 ≤ new.length) (le : new.length ≤ s.levels) (live : LiveIs s d) : Replaced s d sz rest := by
  have hdwf : d.mem.wf = true := by rw [hmem]; exact wf_freeAll F (hr.wf hwf)
  have hlen (i : Nat) (hi : i < d.levels) : d.mem.len? (d.mip i).buf = some (sz i) := by
    have hlt : i < new.length := h.count ▸ hi
    have := len_after hr hmem hF (i := pre.length + i) (by simp [hlt])
    rwa [List.getD_append_right _ _ _ _ (by omega), Nat.add_sub_cancel_left, hsz, ← h.buf hi] at this
  refine ⟨hr.imageOnly.trans frame, hdwf, h.count ▸ pos, h.count ▸ le, fun i hi => by rw [h.mip_of_lt hi], fun i hi => ?_, hlen,
    fun i hi h16 => by rw [h.mip i h16, if_neg (by rw [← h.count]; omega)], live⟩
  have hfits : sz i < 2 ^ 32 := Nat.lt_of_le_of_lt (len_le hdwf (hlen i hi)) (by decide)
  rw [h.mip_of_lt hi]
  exact Nat.mod_eq_of_lt hfits

theorem Replaced.logical (h : Replaced s d sz rest) (hi : i < d.levels) : d.lw i = s.lw i ∧ d.lh i = s.lh i := dim_eq (h.ldim i hi)

theorem Replaced.held (h : Replaced s d sz rest) (hi : i < d.levels) :
    d.mem.inBounds (d.mip i).buf 0 (d.mip i).size.toNat = true := by
  rw [inBounds_iff_len?, h.size i hi]
  exact ⟨sz i, h.len i hi, (Nat.zero_add _).le⟩

end

end Sys2Proof.Machine
end

section
/-! The fills of CONVERT's stages in a new buffer (spec/42_conversion_engine.md R265 to R267, R272, spec/41_block_codec.md R211, R212,
spec/43_palettizer.md R305, R306): on an image that passes its checks none fails (spec/20_memory.md R93), and what the buffer holds. -/

namespace Sys2Proof.Machine

/-! ### What a level holds -/

/-- The level of width w and height hh at h: its items, and zeros beside them (20_memory R91, R95). -/
structure LevelHolds (D : Desc) (w hh : Nat) (item : Nat → Nat → Nat) (h : Word) (m : Memory) : Prop where
  items : ∀ x y, x < w → y < hh → readItem m h w D x y = some (item x y)
  padding : PadAt m h D w hh

/-- A fill that does not fail in a new buffer of n bytes, and what the buffer holds after it. -/
def Fills (s : State) (n : Nat) (fill : State → Word → Option Memory) (Good : Word → Memory → Prop) : Prop :=
  ∀ v h, Fresh s n h v → ∃ m, fill v h = some m ∧ ∀ m' : Memory, m'.find h = m.find h → Good h m'

/-- What the buffers of a run hold after a commit that frees none of them. -/
theorem Filled.good {s u c : State} {sz : Nat → Nat} {fill : Nat → State → Word → Option Memory} {new F : List Word}
    {Good : Nat → Word → Memory → Prop} (hf : Filled s sz fill new u) (hm : c.mem = u.mem.freeAll F) (hF : ∀ g ∈ new, g ∉ F)
    {k : Nat} (hk : k < new.length) (hfills : Fills s (sz k) (fill k) (Good k)) : Good k (new.getD k 0) c.mem := by
  obtain ⟨v, m, hfresh, hm, hfind⟩ := hf.after hm hF hk
  obtain ⟨m', hm', hgood⟩ := hfills v _ hfresh
  obtain rfl := Option.some.inj (hm'.symm.trans hm)
  exact hgood _ hfind

/-- A fill that does not fail in a new buffer does not fail in a run. -/
theorem Fills.ne_none {s v u1 : State} {n : Nat} {fill : State → Word → Option Memory} {Good : Word → Memory → Prop}
    {sz : Nat → Nat} {new : List Word} {h : Word} (hfills : Fills s n fill Good) (hr : Run s sz new v)
    (ha : v.alloc n = (u1, some h)) : fill u1 h ≠ none := by
  obtain ⟨m, hm, -⟩ := hfills u1 h (hr.fresh ha)
  rw [hm]
  exact nofun

section
variable {s v : State} {D : Desc} {w hh : Nat} {h : Word} {m m' : Memory} (hw : D.wf = true) (hc : D.comp = 0)
include hw hc

theorem Stored.levelHolds (hp : D.palMode = palNone) (hv : Fresh s (D.rawSize w hh) h v) {item : Nat → Nat → Nat}
    (hst : Stored D h w item (fun x y => x < w ∧ y < hh) v.mem m) (hf : m'.find h = m.find h) : LevelHolds D w hh item h m' :=
  ⟨fun x y hx hy => (readItem_congr hf ..).trans (hst.items x y hx ⟨hx, hy⟩),
    hv.padAt hw hc hf (fun y j _ hj hj' => hst.padding y j hj hj') fun h4 => absurd h4 (direct_depth hw hc hp).1⟩

theorem Indexed.levelHolds (hv : Fresh s (D.rawSize w hh) h v) {idx : Nat → Nat → Nat} (hidx : Indexed D h w hh idx v.mem m)
    (hf : m'.find h = m.find h) : LevelHolds D w hh (fun x y => D.cutIndex (idx x y)) h m' :=
  ⟨fun x y hx hy => (readItem_congr hf ..).trans (hidx.items x y hx hy),
    hv.padAt hw hc hf (fun y j _ hj hj' => hidx.padding.bytes y j hj hj') fun h4 ho _ hy =>
      hidx.padding.nibble_bytes (raw_wf hw hc).1 hv.bounds h4 ho hy⟩

end

/-! ### The fills of a raw image -/

/-- The index case (c) writes at a texel: that of its colour in the palette P (43_palettizer R306). -/
def State.mappedIndex (s : State) (P : List Colour) (i x y : Nat) : Nat :=
  mapColour s.strategy P (((s.fetchLevel i x y).map Prod.fst).getD Colour.none)

/-- Case (c) writes the index of every texel of a checked level. -/
theorem indexLevel_indexed {s : State} {i : Nat} {D : Desc} {P : List Colour} {h : Word}
    (hh : firstRaise (headerChecks s) = none) (hraw : s.imgDesc.comp = 0) (hr : firstRaise (rawMipChecks s i) = none)
    (hw : D.wf = true) (hc : D.comp = 0) (hp : D.palMode ≠ palNone) (hne : h ≠ (s.mip i).buf)
    (hpal : s.imgDesc.palMode ≠ palNone → h ≠ s.palBuf) (hb : s.mem.inBounds h 0 (D.rawSize (s.lw i) (s.lh i)) = true) :
    ∃ m, indexLevel D P s i h = some m ∧ Indexed D h (s.lw i) (s.lh i) (s.mappedIndex P i) s.mem m := by
  refine Indexed.forMem hw hc hp hb fun k x y hk hx hy => ?_
  obtain ⟨c, found, hfetch⟩ := fetchLevel_of_checks hh hraw hr hx hy
  have hfetchk := (fetchTexel_congr (hk.other _ hne.symm) (fun h0 => hk.other _ (hpal h0).symm) ..).trans hfetch
  simp only [hfetchk, State.mappedIndex, hfetch, Option.map_some, Option.getD_some]

section
variable {s v : State} {n i : Nat} {h : Word} (hv : Fresh s n h v)
include hv

theorem Fresh.raw (hs : s.imgDesc.comp = 0) : v.imgDesc.comp = 0 := by
  obtain ⟨_, rfl⟩ := hv.regs
  exact hs

theorem Fresh.dims : v.lw i = s.lw i ∧ v.lh i = s.lh i := by
  obtain ⟨_, rfl⟩ := hv.regs
  exact ⟨rfl, rfl⟩

/-- A new buffer is none that a checked raw level is read from. -/
theorem Fresh.apart (hh : firstRaise (headerChecks s) = none) (hr : firstRaise (rawMipChecks s i) = none) :
    h ≠ (v.mip i).buf ∧ (v.imgDesc.palMode ≠ palNone → h ≠ v.palBuf) := by
  have hbuf := (hv.rawBuf hr).2
  have hpal := fun hp => (hv.pal hh hp).2
  obtain ⟨_, rfl⟩ := hv.regs
  exact ⟨hbuf, hpal⟩

theorem Fresh.sourceIndex (hr : firstRaise (rawMipChecks s i) = none) : v.sourceIndex i = s.sourceIndex i := by
  have hbuf := (hv.rawBuf hr).1
  obtain ⟨_, rfl⟩ := hv.regs
  funext x y
  exact congrArg (fun o => indexOfItem s.imgDesc (Option.getD o 0)) (readItem_congr hbuf ..)

theorem Fresh.recodedItem (hh : firstRaise (headerChecks s) = none) (hr : firstRaise (rawMipChecks s i) = none) (D : Desc) :
    v.recodedItem i D = s.recodedItem i D := by
  funext x y
  rw [State.recodedItem, hv.fetch hh hr, State.recodedItem]

theorem Fresh.mappedIndex (hh : firstRaise (headerChecks s) = none) (hr : firstRaise (rawMipChecks s i) = none)
    (P : List Colour) : v.mappedIndex P i = s.mappedIndex P i := by
  funext x y
  rw [State.mappedIndex, hv.fetch hh hr, State.mappedIndex]
  obtain ⟨_, rfl⟩ := hv.regs
  rfl

theorem Fresh.decodedItem {ty : BlockType} {st : Nat} (hr : firstRaise (blockMipChecks s ty i st) = none) (D : Desc) :
    v.decodedItem ty i D = s.decodedItem ty i D := by
  have hbuf := (hv.blockBuf hr).1
  obtain ⟨_, rfl⟩ := hv.regs
  funext x y
  have hblock := readBytes_congr hbuf (blockOffset ty (s.sw i) (x / 4) (y / 4)) (blockBytes ty)
  exact congrArg (fun o => encodeDirect D.rasterF D.orderF D.depth.toNat
    (decodeTexel s.alphaRampRule ty (Option.getD o []) (4 * (y % 4) + x % 4))) hblock

end

section
variable {s : State} {D : Desc} {i : Nat} (hs : RawImage s) (hi : i < s.levels)
include hs hi

theorem RawImage.encode_fills (ty : BlockType) : Fills s (encodedSize ty s i) (fun v h => encodeLevel ty v i h)
    (fun h m => ∀ b ∈ coords (roundup (s.lw i) 4 / 4) (roundup (s.lh i) 4 / 4), s.BlockEncoded ty i h b m) := by
  intro v h hv
  have hmip := hs.mips i hi
  obtain ⟨hne, hpal⟩ := hv.apart hs.header hmip
  have hbuf := (hv.rawBuf hmip).1
  have hpbuf := fun hp => (hv.pal hs.header hp).1
  have hin : v.mem.inBounds h 0 (encodedSize ty v i) = true := by obtain ⟨_, rfl⟩ := hv.regs; exact hv.bounds
  obtain ⟨m, hm, -, hblocks⟩ := encodeLevel_blocks (hv.header hs.header) (hv.raw hs.raw) (hv.rawMip hmip) hne hpal hin
  obtain ⟨_, rfl⟩ := hv.regs
  refine ⟨m, hm, fun m' hf b hb => ?_⟩
  obtain ⟨G, hG, hread⟩ := hblocks b hb
  exact ⟨G, (levelColours_congr hbuf hpbuf ..).symm.trans hG, (readBytes_congr hf ..).trans hread⟩

variable (hw : D.wf = true) (hc : D.comp = 0)
include hw hc

theorem RawImage.recode_fills (hp : D.palMode = palNone) : Fills s (levelSize D s i) (fun v h => recodeLevel D v i h)
    (LevelHolds D (s.lw i) (s.lh i) (s.recodedItem i D)) := by
  intro v h hv
  have hmip := hs.mips i hi
  obtain ⟨hlw, hlh⟩ := hv.dims (i := i)
  obtain ⟨hne, hpal⟩ := hv.apart hs.header hmip
  obtain ⟨m, hm, hst⟩ := recodeLevel_stored (hv.header hs.header) (hv.raw hs.raw) (hv.rawMip hmip) hw hc hp hne hpal
    (by rw [hlw, hlh]; exact hv.bounds)
  rw [hlw, hlh, hv.recodedItem hs.header hmip] at hst
  exact ⟨m, hm, fun m' hf => hst.levelHolds hw hc hp hv hf⟩

variable (hp : D.palMode ≠ palNone)
include hp

theorem RawImage.repack_fills : Fills s (levelSize D s i) (fun v h => repackLevel D v i h)
    (LevelHolds D (s.lw i) (s.lh i) (fun x y => D.cutIndex (s.sourceIndex i x y))) := by
  intro v h hv
  have hmip := hs.mips i hi
  obtain ⟨hlw, hlh⟩ := hv.dims (i := i)
  obtain ⟨hne, -⟩ := hv.apart hs.header hmip
  obtain ⟨m, hm, hidx⟩ := repackLevel_indexed (hv.header hs.header) (hv.raw hs.raw) (hv.rawMip hmip) hw hc hp hne
    (by rw [hlw, hlh]; exact hv.bounds)
  rw [hlw, hlh, hv.sourceIndex hmip] at hidx
  exact ⟨m, hm, fun m' hf => hidx.levelHolds hw hc hv hf⟩

theorem RawImage.index_fills (P : List Colour) : Fills s (levelSize D s i) (fun v h => indexLevel D P v i h)
    (LevelHolds D (s.lw i) (s.lh i) (fun x y => D.cutIndex (s.mappedIndex P i x y))) := by
  intro v h hv
  have hmip := hs.mips i hi
  obtain ⟨hlw, hlh⟩ := hv.dims (i := i)
  obtain ⟨hne, hpal⟩ := hv.apart hs.header hmip
  obtain ⟨m, hm, hidx⟩ := indexLevel_indexed (P := P) (hv.header hs.header) (hv.raw hs.raw) (hv.rawMip hmip) hw hc hp hne hpal
    (by rw [hlw, hlh]; exact hv.bounds)
  rw [hlw, hlh, hv.mappedIndex hs.header hmip] at hidx
  exact ⟨m, hm, fun m' hf => hidx.levelHolds hw hc hv hf⟩

end

/-! ### The palette -/

/-- The palette buffer h holds the entries of P, each the encoding of its colour in D's raster (43_palettizer R305). -/
def PaletteHolds (D : Desc) (P : List Colour) (h : Word) (m : Memory) : Prop :=
  ∀ j c, P[j]? = some c →
    m.read h (j * D.entryBytes) D.entryBytes = some (encodeDirect D.rasterF D.orderF (entryDepth D.rasterF) c)

theorem writePalette_of_inBounds {D : Desc} {h : Word} (P : List Colour) : ∀ (j : Nat) (m : Memory),
    m.inBounds h 0 ((j + P.length) * D.entryBytes) = true → ∃ m', writePalette D h P j m = some m' := by
  induction P with
  | nil => exact fun j m _ => ⟨m, rfl⟩
  | cons c P ih =>
    intro j m hb
    have hlast : (j + 1) * D.entryBytes ≤ (j + (c :: P).length) * D.entryBytes :=
      Nat.mul_le_mul_right _ (by simp only [List.length_cons]; omega)
    rw [Nat.add_mul, Nat.one_mul] at hlast
    have hwrite := write_of_inBounds (m := m) (encodeDirect D.rasterF D.orderF (entryDepth D.rasterF) c)
      (inBounds_mono (off' := j * D.entryBytes) (n' := D.entryBytes) hb (by omega))
    obtain ⟨m', hm'⟩ := ih (j + 1) _ ((inBounds_len (Memory.wrote_write hwrite).len ..).trans
      (by rw [show j + 1 + P.length = j + (c :: P).length by simp only [List.length_cons]; omega]; exact hb))
    exact ⟨m', by simp only [writePalette, hwrite, hm']⟩

theorem palette_fills (s : State) {D : Desc} (hw : D.wf = true) (hc : D.comp = 0) (P : List Colour) :
    Fills s (P.length * D.entryBytes) (fun v h => writePalette D h P 0 v.mem) (PaletteHolds D P) := by
  intro v h hv
  obtain ⟨m, hm⟩ := writePalette_of_inBounds P 0 v.mem (by rw [Nat.zero_add]; exact hv.bounds)
  refine ⟨m, hm, fun m' hf j c hj => ?_⟩
  have hread := (writePalette_spec P 0 v.mem m hm).1 j c hj
  rw [Nat.zero_add, Nat.mod_eq_of_lt (entry_fits hw hc c)] at hread
  exact (read_congr hf ..).trans hread

/-! ### Stage 1 -/

theorem decode_fills {s : State} {ty : BlockType} {i : Nat} {D : Desc} (hchk : firstRaise (blockMipChecks s ty i 1) = none)
    (hw : D.wf = true) (hc : D.comp = 0) (hp : D.palMode = palNone) : Fills s (levelSize D s i) (fun v h => decodeLevel v ty i D h)
    (LevelHolds D (s.lw i) (s.lh i) (s.decodedItem ty i D)) := by
  intro v h hv
  obtain ⟨hlw, hlh⟩ := hv.dims (i := i)
  have hne : h ≠ (v.mip i).buf := by
    have hbuf := (hv.blockBuf hchk).2
    obtain ⟨_, rfl⟩ := hv.regs
    exact hbuf
  obtain ⟨m, hm, hst⟩ := decodeLevel_stored hw hc hp (hv.blockMip hchk) hne (by rw [hlw, hlh]; exact hv.bounds)
  rw [hlw, hlh, hv.decodedItem hchk] at hst
  exact ⟨m, hm, fun m' hf => hst.levelHolds hw hc hp hv hf⟩

end Sys2Proof.Machine
end

section
/-! What stages 2 and 3 of CONVERT leave of an image that passes its checks (spec/42_conversion_engine.md R264 to R267, R270 to R272,
spec/43_palettizer.md R300 to R307): an image that passes its checks again, with the items, the palette and the blocks the rules name,
or AllocationError; no access fails (spec/20_memory.md R93). -/

namespace Sys2Proof.Machine

/-! ### The palette that is built -/

/-- The colours of a list of texels that can all be fetched. -/
theorem levelColours_eq_map {m : Memory} {D : Desc} {pal h : Word} {n w : Nat} {f : Nat × Nat → Colour} (l : List (Nat × Nat))
    (hl : ∀ p ∈ l, ∃ found, fetchTexel m D pal n h w p.1 p.2 = some (f p, found)) :
    levelColours m D pal n h w l = some (l.map f) := by
  induction l with
  | nil => rfl
  | cons p l ih =>
    obtain ⟨found, hfetch⟩ := hl p List.mem_cons_self
    simp only [levelColours, hfetch, ih fun q hq => hl q (List.mem_cons_of_mem p hq), Option.map_some, List.map_cons]

/-- Build of a checked raw image makes the palette of the colours of its level 0 (43_palettizer R301). -/
theorem RawImage.palettize_eq {s : State} (hs : RawImage s) (D : Desc) :
    palettize s D = palettizeWith s D (s.newPalette D.palMode) := by
  have hseed : paletteSeed s
      = some ((coords (s.lw 0) (s.lh 0)).map fun p => (s.texelColour 0 p.1 p.2).getD Colour.none) := by
    refine levelColours_eq_map _ fun p hp => ?_
    obtain ⟨hx, hy⟩ := mem_coords.1 hp
    obtain ⟨c, found, hfetch⟩ := hs.fetch hs.levels_pos hx hy
    exact ⟨found, by rw [texelColour_raw hs.raw hfetch]; exact hfetch⟩
  rw [palettize, hseed, State.newPalette, maxEntries_eq]

theorem distinctColours_ne_nil {seed : List Colour} (h : seed ≠ []) : distinctColours seed ≠ [] := by
  suffices hfold : ∀ (l U : List Colour), U ≠ [] → l.foldl (fun U c => if c ∈ U then U else U ++ [c]) U ≠ [] by
    obtain ⟨c, l, rfl⟩ := List.exists_cons_of_ne_nil h
    exact hfold l _ (by simp)
  intro l
  induction l with
  | nil => exact fun U hU => hU
  | cons c l ih =>
    intro U hU
    refine ih _ ?_
    show (if c ∈ U then U else U ++ [c]) ≠ []
    split
    · exact hU
    · simp

theorem atMost_ne_nil (n : Nat) (colours : List Colour) : atMost n colours ≠ [] := by
  unfold atMost
  split <;> simp

/-- The palette of a seed that is not empty has an entry (43_palettizer R302, R303). -/
theorem buildPalette_ne_nil (external : Bool) {seed : List Colour} (n : Nat) (h : seed ≠ []) :
    buildPalette external seed n ≠ [] := by
  unfold buildPalette
  split
  · exact atMost_ne_nil _ _
  · split
    · exact distinctColours_ne_nil h
    · exact atMost_ne_nil _ _

/-- The map answers an index of the palette (43_palettizer R307). -/
theorem mapColour_lt (external : Bool) {P : List Colour} (h : P ≠ []) (c : Colour) : mapColour external P c < P.length := by
  have hpos : 0 < P.length := List.length_pos_iff.2 h
  unfold mapColour
  split
  · exact Nat.mod_lt _ hpos
  · cases hfound : P.findIdx? (fun p => decide (p = c)) with
    | none => exact Nat.mod_lt _ hpos
    | some j => exact (List.findIdx?_eq_some_iff_findIdx_eq.1 hfound).1

theorem newPalette_length_le (s : State) (mode : BitVec 2) : (s.newPalette mode).length ≤ maxEntries mode :=
  buildPalette_length_le _ _ (maxEntries_bounds mode).1

theorem RawImage.newPalette_ne_nil {s : State} (hs : RawImage s) (mode : BitVec 2) : s.newPalette mode ≠ [] := by
  obtain ⟨hw, hh, -⟩ := rawMip_ok (hs.mips 0 hs.levels_pos)
  refine buildPalette_ne_nil _ _ fun hnil => ?_
  have hlen := congrArg List.length hnil
  rw [List.length_map, coords_length] at hlen
  exact absurd hlen (Nat.mul_pos hw hh).ne'

/-- An index the map answers fits the target's mode, so that no bit of it is cut (43_palettizer R306, R307). -/
theorem cutIndex_of_lt {D : Desc} {idx : Nat} (h : idx < maxEntries D.palMode) : D.cutIndex idx = idx := by
  by_cases hp : D.palMode = pal4
  · rw [maxEntries, if_pos hp] at h
    rw [Desc.cutIndex, if_pos hp]
    exact Nat.mod_eq_of_lt h
  · rw [maxEntries, if_neg hp] at h
    rw [Desc.cutIndex, if_neg hp]
    exact Nat.mod_eq_of_lt h

/-! ### The registers of a commit -/

/-- The stage that started at s left the raw image d of descriptor D: its levels have new buffers in the layout of D, and the items
that `item` says. -/
structure RawResult (s d : State) (D : Desc) (item : Nat → Nat → Nat → Nat) (rest : Nat → MipRegs) : Prop where
  levels : Replaced s d (levelSize D s) rest
  desc : d.imgDesc = D
  image : RawImage d
  holds : ∀ i, i < d.levels → LevelHolds D (s.lw i) (s.lh i) (item i) (d.mip i).buf d.mem

/-- The stage that started at s left the compressed image d of descriptor D and block type ty: its levels have new buffers, which
hold their blocks. -/
structure BlockResult (s d : State) (ty : BlockType) (D : Desc) : Prop where
  levels : Replaced s d (encodedSize ty s) s.mip
  desc : d.imgDesc = D
  image : BlockImage d ty
  sdim : ∀ i, i < d.levels → d.sw i = roundup (s.lw i) 4 ∧ d.sh i = roundup (s.lh i) 4
  blocks : ∀ i, i < d.levels → ∀ b ∈ coords (roundup (s.lw i) 4 / 4) (roundup (s.lh i) 4 / 4),
    s.BlockEncoded ty i (d.mip i).buf b d.mem

section
variable {s u d : State} {D : Desc} {sz szs : Nat → Nat} {rest : Nat → MipRegs} {pre new : List Word} {dims : Nat → Word}

theorem Replaced.rawImage (h : Replaced s d (levelSize D s) rest) (hdesc : d.imgDesc = D) (hw : D.wf = true)
    (hc : D.comp = 0) (h16 : s.levels ≤ 16) (hpos : ∀ i, i < d.levels → 0 < s.lw i ∧ 0 < s.lh i)
    (hdims : ∀ i, i < d.levels → d.sw i = s.lw i ∧ d.sh i = s.lh i)
    (hpal : D.palMode ≠ palNone → d.palEntries ≤ maxEntries D.palMode
      ∧ d.mem.inBounds d.palBuf 0 (d.palEntries * D.entryBytes) = true) : RawImage d := by
  subst hdesc
  refine ⟨headerChecks_none h.pos (h.le.trans h16) hw hpal, hc, fun i hi => ?_⟩
  obtain ⟨hlw, hlh⟩ := h.logical hi
  obtain ⟨hsw, hsh⟩ := hdims i hi
  obtain ⟨hw0, hh0⟩ := hpos i hi
  refine rawMipChecks_none (hlw ▸ hw0) (hlh ▸ hh0) (hsw.trans hlw.symm) (hsh.trans hlh.symm) ?_ (h.held hi)
  rw [h.size i hi, levelSize, hlw, hlh]

theorem Replaced.blockImage {ty : BlockType} (h : Replaced s d (encodedSize ty s) rest) (hdesc : d.imgDesc = D)
    (hw : D.wf = true) (hty : compType D.comp = some ty) (hp : D.palMode = palNone) (h16 : s.levels ≤ 16)
    (hpos : ∀ i, i < d.levels → 0 < s.lw i ∧ 0 < s.lh i)
    (hsdim : ∀ i, i < d.levels → d.sw i = roundup (s.lw i) 4 ∧ d.sh i = roundup (s.lh i) 4) : BlockImage d ty := by
  subst hdesc
  refine ⟨headerChecks_none h.pos (h.le.trans h16) hw fun h0 => absurd hp h0, hty, fun i hi => ?_⟩
  obtain ⟨hlw, hlh⟩ := h.logical hi
  obtain ⟨hsw, hsh⟩ := hsdim i hi
  obtain ⟨hw0, hh0⟩ := hpos i hi
  refine blockMipChecks_none (hlw ▸ hw0) (hlh ▸ hh0) (hlw.symm ▸ hsw) (hlh.symm ▸ hsh) ?_ (h.held hi)
  rw [h.size i hi, encodedSize, hsw, hsh]

/-- A commit that frees every buffer the image named. -/
theorem NewLevels.replaced_superseded (h : NewLevels s d sz new dims rest) (hwf : s.mem.wf = true)
    (hr : Run s szs (pre ++ new) u) (hsz : ∀ i, szs (pre.length + i) = sz i) (hmem : d.mem = u.mem.freeAll s.superseded)
    (hclean : ∀ g ∈ pre ++ new, g ∉ s.imageHandles) (himg : ∀ g, g ∈ d.imageHandles ↔ g ≠ 0 ∧ g ∈ pre ++ new)
    (frame : ImageOnly u d) (pos : 1 ≤ new.length) (le : new.length ≤ s.levels) : Replaced s d sz rest :=
  h.replaced hwf hr hsz hmem (hr.not_freed hclean superseded_sub) frame pos le (live_of_superseded hwf hr hmem hclean himg)

/-- The registers stages 2 and 3 write for the levels of the chain. -/
theorem newLevels_of_setLevels {x : State} {n : Nat} {f : Nat → MipRegs} {fmt : Word} (hmips : x.mips = s.mips)
    (hlevels : x.levels = s.levels) (hn : n = s.levels) (hlen : new.length = s.levels) (h16 : s.levels ≤ 16)
    (hf : ∀ i, f i = ⟨new.getD i 0, dims i, (s.mip i).ldim, BitVec.ofNat 32 (sz i)⟩) :
    NewLevels s ((x.setLevels n f).setImgFmt fmt) sz new dims s.mip := by
  refine ⟨hlevels.trans hlen.symm, hlen ▸ h16, fun i hi => ?_⟩
  refine (mip_setLevels x n f i hi).trans ?_
  rw [hn, ← hlen, hf]
  exact if_congr Iff.rfl rfl (by rw [State.mip, hmips, State.mip])

theorem mip_congr {x : State} (hmips : x.mips = s.mips) (i : Nat) :
    x.mip i = s.mip i ∧ x.lw i = s.lw i ∧ x.lh i = s.lh i := by
  have hmip : x.mip i = s.mip i := by rw [State.mip, hmips, State.mip]
  exact ⟨hmip, by rw [State.lw, hmip, State.lw], by rw [State.lh, hmip, State.lh]⟩

theorem setReshaped_newLevels {x : State} (hmips : x.mips = s.mips) (hlevels : x.levels = s.levels)
    (hlen : new.length = s.levels) (h16 : s.levels ≤ 16) :
    NewLevels s (setReshaped D new x) (levelSize D s) new (fun i => (s.mip i).sdim) s.mip := by
  refine newLevels_of_setLevels hmips hlevels hlevels hlen h16 fun i => ?_
  obtain ⟨hmip, hlw, hlh⟩ := mip_congr hmips i
  rw [hmip, levelSize, hlw, hlh, levelSize]

theorem setReshaped_imgDesc (D : Desc) (new : List Word) (x : State) : (setReshaped D new x).imgDesc = D := ofWord_toWord D

end

/-! ### Stage 2 -/

section
variable {s u : State} {D : Desc} {new : List Word} (hs : RawImage s) (hwf : s.mem.wf = true) (hw : D.wf = true) (hc : D.comp = 0)
include hs

theorem RawImage.dims_pos (i : Nat) (hi : i < s.levels) : 0 < s.lw i ∧ 0 < s.lh i := by
  obtain ⟨hw, hh, -⟩ := rawMip_ok (hs.mips i hi)
  exact ⟨hw, hh⟩

/-- The storage dimensions a commit of stage 2 leaves are the logical ones, as the checked source has them. -/
theorem RawImage.reshaped_sdim {d : State} {sz : Nat → Nat}
    (h : NewLevels s d sz new (fun i => (s.mip i).sdim) s.mip) (hle : d.levels ≤ s.levels) :
    ∀ i, i < d.levels → d.sw i = s.lw i ∧ d.sh i = s.lh i := by
  intro i hi
  obtain ⟨-, -, hsw, hsh, -⟩ := rawMip_ok (hs.mips i (hi.trans_le hle))
  exact ⟨by rw [State.sw, h.sdim hi]; exact hsw, by rw [State.sh, h.sdim hi]; exact hsh⟩

include hwf

/-- The palette's buffer is live, and none of the levels' (10_state R57). -/
theorem RawImage.palBuf_of_distinct (hp : s.imgDesc.palMode ≠ palNone) (hnodup : s.imageHandles.Nodup) :
    s.mem.live s.palBuf = true ∧ s.palBuf ∈ s.imageHandles ∧ s.palBuf ∉ s.mipHandles := by
  have hlive := inBounds_live (hs.palette hp).2
  have hi := (isIndexed_iff hs.wf hs.raw).2 hp
  have h0 : s.palBuf ≠ 0 := fun h0 => by rw [h0, zero_dead hwf] at hlive; exact absurd hlive Bool.false_ne_true
  refine ⟨hlive, mem_imageHandles.2 ⟨h0, .inl ⟨hi, rfl⟩⟩, fun hmem => ?_⟩
  rw [State.imageHandles, if_pos hi, List.singleton_append, List.filter_cons_of_pos (by simpa using h0)] at hnodup
  exact (List.nodup_cons.1 hnodup).1 (List.mem_filter.2 ⟨hmem, by simpa using h0⟩)

include hw hc

theorem RawImage.recode_commit (hp : D.palMode = palNone) (hr : Run s (levelSize D s) new u) (hlen : new.length = s.levels)
    (hf : Filled s (levelSize D s) (fun i v h => recodeLevel D v i h) new u) :
    RawResult s (commitRecode D new u) D (fun i => s.recodedItem i D) s.mip := by
  have hclean := hs.run_clean hr
  obtain ⟨-, hmips, -⟩ := dropPalette_eq (u.freeAll u.mipHandles)
  have hregs : u.mips = s.mips ∧ u.superseded = s.superseded := by obtain ⟨_, rfl⟩ := hr.regs; exact ⟨rfl, rfl⟩
  have hnew : NewLevels s (commitRecode D new u) (levelSize D s) new (fun i => (s.mip i).sdim) s.mip :=
    setReshaped_newLevels (hmips.trans hregs.1) ((dropPalette_levels _).trans hr.levels) hlen hs.levels_le
  have hmem : (commitRecode D new u).mem = u.mem.freeAll s.superseded := hregs.2 ▸ dropPalette_mem u
  have hdesc : (commitRecode D new u).imgDesc = D := setReshaped_imgDesc ..
  have hlevels : Replaced s (commitRecode D new u) (levelSize D s) s.mip :=
    hnew.replaced_superseded (pre := []) hwf hr (fun i => by simp) hmem hclean
      (fun g => by rw [mem_imageHandles_direct (by rw [hdesc]; exact not_isIndexed_of_palNone hp), hnew.mipHandles, List.nil_append])
      (commitRecode_imageOnly ..) (hlen ▸ hs.levels_pos) hlen.le
  refine ⟨hlevels, hdesc, hlevels.rawImage hdesc hw hc hs.levels_le (fun i hi => hs.dims_pos i (hi.trans_le hlevels.le))
    (hs.reshaped_sdim hnew hlevels.le) fun h0 => absurd hp h0, fun i hi => ?_⟩
  rw [hnew.buf hi]
  exact hf.good (Good := fun i => LevelHolds D (s.lw i) (s.lh i) (s.recodedItem i D)) hmem (hr.not_freed hclean superseded_sub)
    (hnew.count ▸ hi) (hs.recode_fills (hi.trans_le hlevels.le) hw hc hp)

variable (hp : D.palMode ≠ palNone)
include hp

/-- Case (b) leaves the palette in place (42_conversion_engine R266). -/
theorem RawImage.repack_commit (hnodup : s.imageHandles.Nodup) (happ : repackApplies s D = true)
    (hr : Run s (levelSize D s) new u) (hlen : new.length = s.levels)
    (hf : Filled s (levelSize D s) (fun i v h => repackLevel D v i h) new u) :
    RawResult s (commitRepack D new u) D (fun i x y => D.cutIndex (s.sourceIndex i x y)) s.mip
      ∧ (commitRepack D new u).palBuf = s.palBuf ∧ (commitRepack D new u).palCount = s.palCount
      ∧ (commitRepack D new u).mem.find s.palBuf = s.mem.find s.palBuf := by
  have hclean := hs.run_clean hr
  obtain ⟨hsp, hraster, -, hfits⟩ := repackApplies_iff.1 happ
  obtain ⟨-, hheld⟩ := hs.palette hsp
  obtain ⟨hpl, hpimg, hpmip⟩ := hs.palBuf_of_distinct hwf hsp hnodup
  have hregs : u.mips = s.mips ∧ u.mipHandles = s.mipHandles ∧ u.palBuf = s.palBuf ∧ u.palCount = s.palCount := by
    obtain ⟨_, rfl⟩ := hr.regs
    exact ⟨rfl, rfl, rfl, rfl⟩
  obtain ⟨hmips, hhandles, hpal, hcount⟩ := hregs
  have hnew : NewLevels s (commitRepack D new u) (levelSize D s) new (fun i => (s.mip i).sdim) s.mip :=
    setReshaped_newLevels hmips hr.levels hlen hs.levels_le
  have hmem : (commitRepack D new u).mem = u.mem.freeAll s.mipHandles := hhandles ▸ rfl
  have hdesc : (commitRepack D new u).imgDesc = D := setReshaped_imgDesc ..
  have hnot := hr.not_freed hclean mipHandles_sub
  have himg (g : Word) : g ∈ (commitRepack D new u).imageHandles ↔ g ≠ 0 ∧ g ∈ [s.palBuf] ++ new := by
    rw [mem_imageHandles_indexed (by rw [hdesc]; exact (isIndexed_iff hw hc).2 hp), hnew.mipHandles]
    exact iff_of_eq (congrArg (fun p => g ≠ 0 ∧ g ∈ [p] ++ new) hpal)
  have hlive : LiveIs s (commitRepack D new u) := by
    refine live_commit hwf hr _ mipHandles_sub hmem (fun g hg => ?_) (fun g hg => ?_) fun g hg => ⟨?_, hnot g hg⟩
    · rcases List.mem_cons.1 ((himg g).1 hg).2 with rfl | hg
      · exact .inr ⟨hpimg, hpmip, hpl⟩
      · exact .inl hg
    · obtain ⟨h0, ⟨-, rfl⟩ | hg⟩ := mem_imageHandles.1 hg
      · exact .inr ((himg _).2 ⟨h0, List.mem_cons_self⟩)
      · exact .inl hg
    · obtain ⟨-, h0, -⟩ := hr.live g hg
      exact (himg g).2 ⟨h0, List.mem_cons_of_mem _ hg⟩
  have hlevels : Replaced s (commitRepack D new u) (levelSize D s) s.mip :=
    hnew.replaced (pre := []) hwf hr (fun i => by simp) hmem hnot (commitRepack_imageOnly ..) (hlen ▸ hs.levels_pos) hlen.le hlive
  have hfind : (commitRepack D new u).mem.find s.palBuf = s.mem.find s.palBuf := by
    rw [hmem, find_freeAll, if_neg hpmip]
    exact (hr.keep _ hpl).1
  have hentries : (commitRepack D new u).palEntries = s.palEntries := congrArg (fun v => bits v 0 9) hcount
  have hbytes : D.entryBytes = s.imgDesc.entryBytes := by
    rw [Desc.entryBytes, Desc.rasterF, ← hraster, Desc.entryBytes, Desc.rasterF]
  refine ⟨⟨hlevels, hdesc, hlevels.rawImage hdesc hw hc hs.levels_le (fun i hi => hs.dims_pos i (hi.trans_le hlevels.le))
    (hs.reshaped_sdim hnew hlevels.le) fun _ => ⟨?_, ?_⟩, fun i hi => ?_⟩, hpal, hcount, hfind⟩
  · rw [hentries, maxEntries_eq]
    exact hfits
  · rw [hentries, hbytes, show (commitRepack D new u).palBuf = s.palBuf from hpal, inBounds_congr hfind]
    exact hheld
  · rw [hnew.buf hi]
    exact hf.good (Good := fun i => LevelHolds D (s.lw i) (s.lh i) fun x y => D.cutIndex (s.sourceIndex i x y)) hmem hnot
      (hnew.count ▸ hi) (hs.repack_fills (hi.trans_le hlevels.le) hw hc hp)

/-- What the buffers of case (c) hold: the palette's, then the levels' (43_palettizer R305, R306). -/
def PaletteGood (s : State) (D : Desc) (P : List Colour) : Nat → Word → Memory → Prop
  | 0 => PaletteHolds D P
  | i + 1 => LevelHolds D (s.lw i) (s.lh i) fun x y => D.cutIndex (s.mappedIndex P i x y)

theorem RawImage.palettize_commit {P : List Colour} (hP : P.length ≤ maxEntries D.palMode) {palBuf : Word}
    (hr : Run s (paletteSizes D s P) (palBuf :: new) u) (hlen : new.length = s.levels)
    (hf : Filled s (paletteSizes D s P) (paletteFills D P) (palBuf :: new) u) :
    let d := commitPalettize D palBuf P.length new u
    RawResult s d D (fun i x y => D.cutIndex (s.mappedIndex P i x y)) s.mip
      ∧ d.palEntries = P.length ∧ d.mem.len? d.palBuf = some (P.length * D.entryBytes) ∧ PaletteHolds D P d.palBuf d.mem := by
  intro d
  have hclean := hs.run_clean hr
  obtain ⟨-, hmips, -⟩ := dropPalette_eq (u.freeAll u.mipHandles)
  have hregs : u.mips = s.mips ∧ u.superseded = s.superseded := by obtain ⟨_, rfl⟩ := hr.regs; exact ⟨rfl, rfl⟩
  have hnew : NewLevels s d (levelSize D s) new (fun i => (s.mip i).sdim) s.mip :=
    setReshaped_newLevels (hmips.trans hregs.1) ((dropPalette_levels _).trans hr.levels) hlen hs.levels_le
  have hmem : d.mem = u.mem.freeAll s.superseded := hregs.2 ▸ dropPalette_mem u
  have hdesc : d.imgDesc = D := setReshaped_imgDesc ..
  have hnot := hr.not_freed hclean superseded_sub
  have hlevels : Replaced s d (levelSize D s) s.mip :=
    hnew.replaced_superseded (pre := [palBuf]) hwf hr
      (fun i => by rw [List.length_singleton, Nat.add_comm]; rfl) hmem hclean
      (fun g => by rw [mem_imageHandles_indexed (by rw [hdesc]; exact (isIndexed_iff hw hc).2 hp), hnew.mipHandles]; rfl)
      (commitPalettize_imageOnly ..) (hlen ▸ hs.levels_pos) hlen.le
  have hentries : d.palEntries = P.length := by
    have hle := hP.trans (maxEntries_bounds D.palMode).2
    show bits (BitVec.ofNat 32 P.length) 0 9 = P.length
    simp [bits]
    omega
  have hpallen : d.mem.len? d.palBuf = some (P.length * D.entryBytes) := len_after hr hmem hnot (i := 0) (Nat.succ_pos _)
  refine ⟨⟨hlevels, hdesc, hlevels.rawImage hdesc hw hc hs.levels_le (fun i hi => hs.dims_pos i (hi.trans_le hlevels.le))
    (hs.reshaped_sdim hnew hlevels.le) fun _ => ⟨hentries ▸ hP, ?_⟩, fun i hi => ?_⟩, hentries, hpallen, ?_⟩
  · rw [hentries]
    exact inBounds_iff_len?.2 ⟨_, hpallen, (Nat.zero_add _).le⟩
  · rw [hnew.buf hi]
    exact hf.good (Good := PaletteGood s D P) (k := i + 1) hmem hnot (Nat.succ_lt_succ (hnew.count ▸ hi))
      (hs.index_fills (hi.trans_le hlevels.le) hw hc hp P)
  · exact hf.good (Good := PaletteGood s D P) (k := 0) hmem hnot (Nat.succ_pos _) (palette_fills s hw hc P)

end

/-! ### Stage 3 -/

/-- A compressed target that ValidateTarget passes, with any virtual raster, is a WF descriptor of its block type
(42_conversion_engine R251, R272). -/
theorem compressedDesc_wf {S T : Desc} {ha : Bool} {ty : BlockType} (V : Raster) (hty : compType T.comp = some ty)
    (h : targetOk S T ha = true) : (compressedDesc V T).wf = true := by
  have hc : T.comp ≠ 0 := fun h0 => by rw [h0] at hty; exact absurd hty nofun
  obtain ⟨h6, h7, -, ho, -⟩ := (targetOk_compressed hc).1 h
  rw [Desc.wf, if_neg (show (compressedDesc V T).comp ≠ 0 from hc)]
  simp only [Desc.reservedComp, Bool.and_eq_true, Bool.not_eq_true', Bool.or_eq_false_iff, decide_eq_false_iff_not,
    decide_eq_true_eq]
  exact ⟨⟨⟨h6, h7⟩, rfl⟩, order_ne_three_iff.2 ho⟩

section
variable {s u : State} {new : List Word} (hs : RawImage s) (hwf : s.mem.wf = true)
include hs hwf

theorem RawImage.stage3_commit {ty : BlockType} {V : Raster} {T : Desc} (hty : compType T.comp = some ty)
    (hw : (compressedDesc V T).wf = true) (hfit : paddedFit s) (hr : Run s (encodedSize ty s) new u)
    (hlen : new.length = s.levels) (hf : Filled s (encodedSize ty s) (fun i v h => encodeLevel ty v i h) new u) :
    BlockResult s (commitStage3 ty V T new u) ty (compressedDesc V T) := by
  have hclean := hs.run_clean hr
  obtain ⟨-, hmips, -⟩ := dropPalette_eq (u.freeAll u.mipHandles)
  have hregs : u.mips = s.mips ∧ u.superseded = s.superseded := by obtain ⟨_, rfl⟩ := hr.regs; exact ⟨rfl, rfl⟩
  have hnew : NewLevels s (commitStage3 ty V T new u) (encodedSize ty s) new
      (fun i => dimWord (roundup (s.lw i) 4) (roundup (s.lh i) 4)) s.mip := by
    refine newLevels_of_setLevels (hmips.trans hregs.1) ((dropPalette_levels _).trans hr.levels)
      hr.levels hlen hs.levels_le fun i => ?_
    obtain ⟨hmip, hlw, hlh⟩ := mip_congr hregs.1 i
    rw [hmip, encodedSize, hlw, hlh, encodedSize]
  have hmem : (commitStage3 ty V T new u).mem = u.mem.freeAll s.superseded := hregs.2 ▸ dropPalette_mem u
  have hdesc : (commitStage3 ty V T new u).imgDesc = compressedDesc V T := ofWord_toWord _
  have hlevels : Replaced s (commitStage3 ty V T new u) (encodedSize ty s) s.mip :=
    hnew.replaced_superseded (pre := []) hwf hr (fun i => by simp) hmem hclean
      (fun g => by rw [mem_imageHandles_direct (by rw [hdesc]; rfl), hnew.mipHandles, List.nil_append])
      (commitStage3_imageOnly ..) (hlen ▸ hs.levels_pos) hlen.le
  have hsdim : ∀ i, i < (commitStage3 ty V T new u).levels → (commitStage3 ty V T new u).sw i = roundup (s.lw i) 4
      ∧ (commitStage3 ty V T new u).sh i = roundup (s.lh i) 4 := by
    intro i hi
    obtain ⟨hlw, hlh⟩ := hfit i (hi.trans_le hlevels.le)
    have hpadw := roundup4 (s.lw i)
    have hpadh := roundup4 (s.lh i)
    obtain ⟨hdw, hdh⟩ := dimWord_parts (roundup (s.lw i) 4) (roundup (s.lh i) 4) (by omega) (by omega)
    exact ⟨by rw [State.sw, hnew.sdim hi]; exact hdw, by rw [State.sh, hnew.sdim hi]; exact hdh⟩
  refine ⟨hlevels, hdesc, hlevels.blockImage hdesc hw hty rfl hs.levels_le
    (fun i hi => hs.dims_pos i (hi.trans_le hlevels.le)) hsdim, hsdim, fun i hi => ?_⟩
  rw [hnew.buf hi]
  exact hf.good (Good := fun i h m => ∀ b ∈ coords (roundup (s.lw i) 4 / 4) (roundup (s.lh i) 4 / 4), s.BlockEncoded ty i h b m)
    hmem (hr.not_freed hclean superseded_sub) (hnew.count ▸ hi) (hs.encode_fills (hi.trans_le hlevels.le) ty)

end

/-! ### What a stage does to a checked image -/

/-- What stage 2 leaves where it commits, in each of its three cases (42_conversion_engine R264 to R267). -/
inductive Reshaped (s d : State) (D : Desc) : Prop
  | recoded (hp : D.palMode = palNone) (image : RawResult s d D (fun i => s.recodedItem i D) s.mip)
  | repacked (hp : D.palMode ≠ palNone) (happ : repackApplies s D = true)
      (image : RawResult s d D (fun i x y => D.cutIndex (s.sourceIndex i x y)) s.mip)
      (hbuf : d.palBuf = s.palBuf) (hcount : d.palCount = s.palCount) (hfind : d.mem.find s.palBuf = s.mem.find s.palBuf)
  | palettized (hp : D.palMode ≠ palNone) (happ : ¬ repackApplies s D = true)
      (image : RawResult s d D (fun i x y => D.cutIndex (s.mappedIndex (s.newPalette D.palMode) i x y)) s.mip)
      (hentries : d.palEntries = (s.newPalette D.palMode).length)
      (hlen : d.mem.len? d.palBuf = some ((s.newPalette D.palMode).length * D.entryBytes))
      (hpal : PaletteHolds D (s.newPalette D.palMode) d.palBuf d.mem)

/-- A stage ends with AllocationError (42_conversion_engine R252). -/
def StageOut.OutOfMemory (o : StageOut) : Prop := ∃ e, o.error = some e ∧ e.code = .allocationError

theorem Reshaped.exists_raw {s d : State} {D : Desc} (h : Reshaped s d D) : ∃ item, RawResult s d D item s.mip := by
  cases h with
  | recoded hp image => exact ⟨_, image⟩
  | repacked hp happ image hbuf hcount hfind => exact ⟨_, image⟩
  | palettized hp happ image hentries hlen hpal => exact ⟨_, image⟩

section
variable {s : State} (hs : RawImage s) (hwf : s.mem.wf = true)
include hs hwf

/-- Stage 2 on a checked image meets no access out of bounds. -/
theorem RawImage.stage2_outcome {D : Desc} (hw : D.wf = true) (hc : D.comp = 0)
    (hnodup : repackApplies s D = true → s.imageHandles.Nodup) :
    (∃ d, stage2 s D = ⟨d, none⟩ ∧ Reshaped s d D) ∨ (stage2 s D).OutOfMemory := by
  by_cases hp : D.palMode = palNone
  · rw [stage2_recode hp]
    rcases recode_cases s D with ⟨new, u, h, hr, hlen, hf⟩ | ⟨t, i, h, -⟩ | ⟨t, i, new, v, u1, g, h, hi, -, hr, ha, hnone⟩
    · exact .inl ⟨_, h, .recoded hp (hs.recode_commit hwf hw hc hp hr hlen hf)⟩
    · exact .inr ⟨_, by rw [h], rfl⟩
    · exact absurd hnone ((hs.recode_fills hi hw hc hp).ne_none hr ha)
  by_cases happ : repackApplies s D = true
  · rw [stage2_repack hp happ]
    rcases repack_cases s D with ⟨new, u, h, hr, hlen, hf⟩ | ⟨t, i, h, -⟩ | ⟨t, i, new, v, u1, g, h, hi, -, hr, ha, hnone⟩
    · obtain ⟨himage, hbuf, hcount, hfind⟩ := hs.repack_commit hwf hw hc hp (hnodup happ) happ hr hlen hf
      exact .inl ⟨_, h, .repacked hp happ himage hbuf hcount hfind⟩
    · exact .inr ⟨_, by rw [h], rfl⟩
    · exact absurd hnone ((hs.repack_fills hi hw hc hp).ne_none hr ha)
  · rw [stage2_palettize hp happ, hs.palettize_eq]
    rcases palettizeWith_cases s D (s.newPalette D.palMode) with
      ⟨g, new, u, h, hr, hlen, hf⟩ | ⟨t, k, h, -⟩ | ⟨t, u1, g, h, -, ha, hnone⟩ | ⟨t, i, new, v, u1, g, h, hi, -, hr, ha, hnone⟩
    · obtain ⟨himage, hentries, hpallen, hpal⟩ := hs.palettize_commit hwf hw hc hp (newPalette_length_le s _) hr hlen hf
      exact .inl ⟨_, h, .palettized hp happ himage hentries hpallen hpal⟩
    · exact .inr ⟨_, by rw [h], rfl⟩
    · exact absurd hnone ((palette_fills s hw hc _).ne_none (.start s fun _ => 0) ha)
    · exact absurd hnone ((hs.index_fills hi hw hc hp _).ne_none hr ha)

/-- Stage 3 on a checked image meets no access out of bounds. -/
theorem RawImage.stage3_outcome {ty : BlockType} {T : Desc} (hty : compType T.comp = some ty)
    (hw : ∀ V, (compressedDesc V T).wf = true) (hfit : paddedFit s) :
    (∃ alpha d, alphaScan 3 s = .ok alpha ∧ stage3 s ty T = ⟨d, none⟩
        ∧ BlockResult s d ty (compressedDesc (virtualRaster ty alpha) T)) ∨ (stage3 s ty T).OutOfMemory := by
  rcases stage3_cases s ty T with
    ⟨e, hscan, -⟩ | ⟨alpha, new, u, hscan, h, hr, hlen, hf⟩ | ⟨t, i, h, -⟩ | ⟨t, i, new, v, u1, g, h, hi, -, hr, ha, hnone⟩
  · obtain ⟨a, hok⟩ := hs.scan 3
    exact absurd (hok.symm.trans hscan) nofun
  · exact .inl ⟨alpha, _, hscan, h, hs.stage3_commit hwf hty (hw _) hfit hr hlen hf⟩
  · exact .inr ⟨_, by rw [h], rfl⟩
  · exact absurd hnone ((hs.encode_fills hi ty).ne_none hr ha)

end

end Sys2Proof.Machine
end

section
/-! Stage 1 of CONVERT, and the errors CONVERT can end with (spec/42_conversion_engine.md R250, R252, R260 to R262, R282): a compressed
source is checked level by level, and no other stage meets anything but a failing Alloc. -/

namespace Sys2Proof.Machine

/-! ### The entry checks -/

/-- What the entry checks of CONVERT leave (42_conversion_engine R250). -/
structure EntryPassed (s : State) : Prop where
  header : firstRaise (headerChecks s) = none
  distinct : s.imageHandles.Nodup
  raw : s.imgDesc.comp = 0 → RawImage s
  target : targetOk s.imgDesc s.tgtDesc s.hasAlpha = true

theorem entryPassed_of_convertChecks {s : State} (h : firstRaise (convertChecks s) = none) : EntryPassed s := by
  simp only [convertChecks, distinctCheck, firstRaise_append_none, firstRaise_cons_none, decide_eq_false_iff_not, not_not,
    Bool.not_eq_false'] at h
  obtain ⟨⟨⟨hhead, hdistinct, -⟩, hmips⟩, htarget, -⟩ := h
  refine ⟨hhead, hdistinct, fun hc => ⟨hhead, hc, fun i hi => ?_⟩, htarget⟩
  rw [if_pos hc, firstRaise_flatMap_none] at hmips
  exact hmips i (List.mem_range.2 hi)

section
variable {s : State} (h : EntryPassed s)
include h

theorem EntryPassed.wf : s.imgDesc.wf = true := (header_ok h.header).2.2.1

theorem EntryPassed.levels_pos : 1 ≤ s.levels := (header_ok h.header).1

theorem EntryPassed.levels_le : s.levels ≤ 16 := (header_ok h.header).2.1

theorem EntryPassed.rawTgt (hT : s.tgtDesc.comp = 0) : s.rawTgt.wf = true ∧ s.rawTgt.comp = 0 := by
  refine ⟨((targetOk_raw hT).1 h.target).2, ?_⟩
  rw [State.rawTgt, rawTarget_eq]
  split
  · next hind => exact hind.1
  · exact hT

theorem EntryPassed.compressed_wf {ty : BlockType} (hty : compType s.tgtDesc.comp = some ty) (V : Raster) :
    (compressedDesc V s.tgtDesc).wf = true := compressedDesc_wf V hty h.target

/-- A compressed target that passes has a block type. -/
theorem EntryPassed.type_of_compressed (hT : s.tgtDesc.comp ≠ 0) : ∃ ty, compType s.tgtDesc.comp = some ty := by
  obtain ⟨h6, h7, -⟩ := (targetOk_compressed hT).1 h.target
  have htypes : ∀ c : BitVec 3, c ≠ 0 → c ≠ 6 → c ≠ 7 → (compType c).isSome = true := by decide
  exact Option.isSome_iff_exists.1 (htypes _ hT h6 h7)

/-- The descriptor stage 1 decodes to is WF and has no palette (42_conversion_engine R260). -/
theorem EntryPassed.stage1Format : (stage1Format s.tgtDesc).wf = true ∧ (stage1Format s.tgtDesc).comp = 0
    ∧ (stage1Format s.tgtDesc).palMode = palNone := by
  refine ⟨?_, ?_, stage1Format_palMode _⟩ <;> unfold Machine.stage1Format <;> split
  · next hdirect =>
    have hw := (h.rawTgt hdirect.1).1
    rwa [State.rawTgt, rawTarget_of_direct _ hdirect.2] at hw
  · decide
  · next hdirect => exact hdirect.1
  · rfl

end

/-! ### Stage 1 -/

/-- An invariant of the runs that start at s with which no new buffer is one that the image names, live or not
(log entry 8). -/
structure CleanRuns (s : State) (sz : Nat → Nat) (A : List Word → State → Prop) : Prop where
  start : A [] s
  run : ∀ new u, A new u → Run s sz new u
  clean : ∀ new u, A new u → ∀ g ∈ new, g ∉ s.imageHandles
  round : ∀ new u u1 h m, new.length < s.levels → A new u → u.alloc (sz new.length) = (u1, some h) → Memory.Wrote h u1.mem m →
    A (new ++ [h]) (u1.setMem m)

theorem cleanRuns_of_live {s : State} {sz : Nat → Nat} (hlive : ∀ g ∈ s.imageHandles, s.mem.live g = true) :
    CleanRuns s sz (Run s sz) where
  start := .start s sz
  run _ _ hr := hr
  clean new u hr g hg himg := by
    obtain ⟨-, -, hdead⟩ := hr.live g hg
    exact absurd ((hlive g himg).symm.trans hdead) (by decide)
  round _ _ _ _ _ _ hr ha hw := hr.round ha hw

theorem cleanRuns_of_ready {s : State} {sz : Nat → Nat} {hs : List Word} (hready : Ready s hs)
    (hfresh : ∀ g ∈ hs, g ∉ s.imageHandles) (hmax : ∀ i, i < s.levels → sz i ≤ Config.maxBufLen) (hcnt : s.levels ≤ hs.length) :
    CleanRuns s sz (RunR s sz hs) where
  start := .start s sz hready
  run _ _ hr := hr.run
  clean new u hr g hg := by
    rw [hr.new] at hg
    exact hfresh g (List.mem_of_mem_take hg)
  round new u u1 h m hlt hr ha hw := by
    obtain ⟨u1', g, hnext, hans, hnew⟩ := hr.next hready (hlt.trans_le hcnt) (hmax _ hlt)
    obtain ⟨rfl, hg⟩ := Prod.mk.inj (ha.symm.trans hnext)
    obtain rfl := Option.some.inj hg
    refine ⟨hr.run.round ha hw, ?_, ?_⟩
    · rw [List.length_append, List.length_singleton]
      exact hans
    · rw [List.length_append, List.length_singleton]
      exact hnew

section
variable {s u : State} {ty : BlockType} {R : Desc} {new : List Word}

/-- A check of a level that passes in a run passes at its start: the level's buffer is none of the run's own. -/
theorem Run.blockMip_of_pass {sz : Nat → Nat} {i : Nat} (hr : Run s sz new u) (hclean : ∀ g ∈ new, g ∉ s.imageHandles)
    (hi : i < s.levels) (hpass : checkBlockMip u ty i 1 = .ok ()) : firstRaise (blockMipChecks s ty i 1) = none := by
  have hchecks : firstRaise (blockMipChecks u ty i 1) = none := by
    rw [checkBlockMip_eq] at hpass
    cases hf : firstRaise (blockMipChecks u ty i 1) with
    | none => rfl
    | some e => rw [hf] at hpass; exact absurd hpass nofun
  obtain ⟨-, -, -, -, -, -, -, hheld⟩ := blockMip_ok hchecks
  have hmip : (u.mip i).buf = (s.mip i).buf := by obtain ⟨_, rfl⟩ := hr.regs; rfl
  have hlive : s.mem.live (s.mip i).buf = true := by
    refine (hr.back _ (hmip ▸ inBounds_live hheld)).resolve_right fun hnew => ?_
    exact (mipHandles_sub _ (mip_mem hi)).elim (hr.live _ hnew).2.1 (hclean _ hnew)
  have hfind := (hr.keep _ hlive).1
  obtain ⟨_, rfl⟩ := hr.regs
  exact (congrArg firstRaise (blockMip_heap (len?_congr hfind))).symm.trans hchecks

/-- The sizes of the levels do not change in a run. -/
theorem Run.levelSize_eq {sz : Nat → Nat} (hr : Run s sz new u) (i : Nat) : R.rawSize (u.lw i) (u.lh i) = levelSize R s i := by
  obtain ⟨_, rfl⟩ := hr.regs
  rfl

/-- Stage 1 on a source whose header passes: it commits the levels that pass their checks, or level 0 fails its check, or Alloc fails;
no access fails (20_memory R93). -/
theorem stage1_outcome {T : Desc} {A : List Word → State → Prop} (hA : CleanRuns s (levelSize (stage1Format T) s) A)
    (hpos : 1 ≤ s.levels) (hw : (stage1Format T).wf = true) (hc : (stage1Format T).comp = 0) :
    (∃ new u, stage1 s ty T = ⟨commitStage1 (stage1Format T) new u, none⟩ ∧ A new u ∧ new.length ≤ s.levels ∧ 1 ≤ new.length
        ∧ Filled s (levelSize (stage1Format T) s) (fun i v h => decodeLevel v ty i (stage1Format T) h) new u
        ∧ ∀ k, k < new.length → firstRaise (blockMipChecks s ty k 1) = none)
    ∨ (∃ e, (stage1 s ty T).error = some e ∧ firstRaise (blockMipChecks s ty 0 1) = some e)
    ∨ (∃ new v u1, new.length < s.levels ∧ A new v ∧ v.alloc (levelSize (stage1Format T) s new.length) = (u1, none)
        ∧ (stage1 s ty T).OutOfMemory) := by
  have hp := stage1Format_palMode T
  rcases decodeLevels_cases (ty := ty) (R1 := stage1Format T)
    (P := fun new v => A new v ∧ Filled s (levelSize (stage1Format T) s) (fun i v h => decodeLevel v ty i (stage1Format T) h) new v
      ∧ ∀ k, k < new.length → firstRaise (blockMipChecks s ty k 1) = none) s.levels
    (by
      rintro i new u u1 h m hi rfl ⟨hAu, hf, hchk⟩ hpass ha hm
      have hr := hA.run new u hAu
      rw [hr.levelSize_eq] at ha
      refine ⟨hA.round _ _ _ _ _ hi hAu ha (decodeLevel_wrote hm), hf.round hr ha hm (decodeLevel_wrote hm), fun k hk => ?_⟩
      rw [List.length_append, List.length_singleton, Nat.lt_succ_iff_lt_or_eq] at hk
      rcases hk with hk | rfl
      · exact hchk k hk
      · exact hr.blockMip_of_pass (hA.clean new u hAu) hi hpass) s.levels 0 [] s (Nat.zero_add _) rfl
    ⟨hA.start, Filled.nil _ _ _ _, fun k hk => absurd hk (Nat.not_lt_zero k)⟩ with
    ⟨new, t, hrun, ⟨hAt, hf, hchk⟩, hle, hlen⟩ | ⟨v, e, -, ⟨hAv, -⟩, herr, hrun⟩ | ⟨i, new, v, u1, hi, rfl, ⟨hAv, -⟩, ha, hrun⟩
      | ⟨i, new, v, u1, h, hi, -, ⟨hAv, -⟩, hpass, ha, hnone, -⟩
  · refine .inl ⟨new, t, ?_, hAt, hle, hlen hpos, hf, hchk⟩
    rw [stage1, List.range_eq_range', hrun]
  · refine .inr (.inl ⟨e, by rw [stage1, List.range_eq_range', hrun], ?_⟩)
    have hr := hA.run [] v hAv
    have hmem : v.mem = s.mem := hr.undo
    rw [checkBlockMip_eq] at herr
    have hsame : blockMipChecks v ty 0 1 = blockMipChecks s ty 0 1 := by
      obtain ⟨_, rfl⟩ := hr.regs
      exact blockMip_heap (congrArg (fun m : Memory => m.len? _) hmem)
    rw [hsame] at herr
    cases hfirst : firstRaise (blockMipChecks s ty 0 1) with
    | none => rw [hfirst] at herr; exact absurd herr nofun
    | some e' => rw [hfirst] at herr; exact congrArg some (Except.error.inj herr)
  · rw [(hA.run new v hAv).levelSize_eq] at ha
    exact .inr (.inr ⟨new, v, u1, hi, hAv, ha, ⟨_, by rw [stage1, List.range_eq_range', hrun], rfl⟩⟩)
  · have hr := hA.run new v hAv
    rw [hr.levelSize_eq] at ha
    exact absurd hnone ((decode_fills (hr.blockMip_of_pass (hA.clean new v hAv) hi hpass) hw hc hp).ne_none hr ha)

/-- What stage 1 leaves where it commits (42_conversion_engine R262). -/
theorem stage1_commit (hhead : firstRaise (headerChecks s) = none) (hty : compType s.imgDesc.comp = some ty)
    (hwf : s.mem.wf = true) (hw : R.wf = true) (hc : R.comp = 0) (hp : R.palMode = palNone) (hr : Run s (levelSize R s) new u)
    (hclean : ∀ g ∈ new, g ∉ s.imageHandles) (hle : new.length ≤ s.levels) (hpos : 1 ≤ new.length)
    (hf : Filled s (levelSize R s) (fun i v h => decodeLevel v ty i R h) new u)
    (hchk : ∀ k, k < new.length → firstRaise (blockMipChecks s ty k 1) = none) :
    RawResult s (commitStage1 R new u) R (fun i => s.decodedItem ty i R) (fun _ => MipRegs.zero) := by
  obtain ⟨-, h16, hswf, -⟩ := header_ok hhead
  have hcomp : s.imgDesc.comp ≠ 0 := fun h0 => by rw [h0] at hty; exact absurd hty nofun
  have hnew : NewLevels s (commitStage1 R new u) (levelSize R s) new (fun i => (s.mip i).ldim) (fun _ => MipRegs.zero) := by
    refine ⟨?_, hle.trans h16, fun i hi => ?_⟩
    · show bits (BitVec.ofNat 32 new.length) 0 5 = new.length
      simp [bits]
      omega
    · obtain ⟨_, rfl⟩ := hr.regs
      exact commit1_mip R new _ i hi
  have hmem : (commitStage1 R new u).mem = u.mem.freeAll s.superseded := by
    rw [State.superseded, compressed_notIndexed hswf hcomp, if_neg Bool.false_ne_true, List.append_nil]
    obtain ⟨_, rfl⟩ := hr.regs
    rfl
  have hdesc : (commitStage1 R new u).imgDesc = R := ofWord_toWord R
  have hlevels : Replaced s (commitStage1 R new u) (levelSize R s) (fun _ => MipRegs.zero) :=
    hnew.replaced_superseded (pre := []) hwf hr (fun i => by simp) hmem hclean
      (fun g => by
        rw [mem_imageHandles_direct (by rw [hdesc]; exact not_isIndexed_of_palNone hp), hnew.mipHandles, List.nil_append])
      (commitStage1_imageOnly ..) hpos hle
  refine ⟨hlevels, hdesc, hlevels.rawImage hdesc hw hc h16 (fun i hi => ?_) (fun i hi => ?_) fun h0 => absurd hp h0,
    fun i hi => ?_⟩
  · obtain ⟨hw0, hh0, -⟩ := blockMip_ok (hchk i (hnew.count ▸ hi))
    exact ⟨hw0, hh0⟩
  · exact ⟨by rw [State.sw, hnew.sdim hi]; rfl, by rw [State.sh, hnew.sdim hi]; rfl⟩
  · rw [hnew.buf hi]
    have hlt : i < new.length := hnew.count ▸ hi
    exact hf.good (Good := fun i => LevelHolds R (s.lw i) (s.lh i) (s.decodedItem ty i R)) hmem
      (hr.not_freed hclean superseded_sub) hlt (decode_fills (hchk i hlt) hw hc hp)

end

end Sys2Proof.Machine
end

section
/-! The obligation on the errors CONVERT can end with (spec/42_conversion_engine.md R250, R252, R282). -/

namespace Sys2Proof.Machine

/-! ### The stages that run -/

theorem imageHandles_live_of_levels {s : State} (hlive : levelsLive s) (hd : s.imgDesc.isIndexed = false) :
    ∀ g ∈ s.imageHandles, s.mem.live g = true := by
  intro g hg
  obtain ⟨-, hmip⟩ := (mem_imageHandles_direct hd).1 hg
  obtain ⟨i, hi, rfl⟩ := List.mem_map.1 hmip
  exact hlive i (List.mem_range.1 hi)

theorem paddedFit_of_replaced {s d : State} {sz : Nat → Nat} {rest : Nat → MipRegs} (h : Replaced s d sz rest)
    (hfit : paddedFit s) : paddedFit d := by
  intro i hi
  obtain ⟨hlw, hlh⟩ := h.logical hi
  rw [hlw, hlh]
  exact hfit i (hi.trans_le h.le)

theorem not_repackApplies_of_direct {s : State} (h : s.imgDesc.palMode = palNone) (D : Desc) : ¬ repackApplies s D = true :=
  fun happ => (repackApplies_iff.1 happ).1 h

theorem blockMipChecks_error {s : State} {ty : BlockType} {i st : Nat} {e : Raise}
    (h : firstRaise (blockMipChecks s ty i st) = some e) : e = ⟨.corruptDataError, st, some i⟩ :=
  checkBlockMip_error (s := s) (ty := ty) (by rw [checkBlockMip_eq, h, raising])

section
variable {s : State} (hin : EntryPassed s) (hwf : s.mem.wf = true) (hlive : levelsLive s)
include hin hlive

theorem EntryPassed.cleanRuns (hc : s.imgDesc.comp ≠ 0) (sz : Nat → Nat) : CleanRuns s sz (Run s sz) :=
  cleanRuns_of_live (imageHandles_live_of_levels hlive (compressed_notIndexed hin.wf hc))

/-- The errors of stage 1: of level 0's check, or of an Alloc (42_conversion_engine R261). -/
theorem EntryPassed.runStage1_error {e : Raise} (h : (runStage1 s s.tgtDesc).error = some e) :
    e = ⟨.corruptDataError, 1, some 0⟩ ∨ e.code = .allocationError := by
  unfold runStage1 at h
  split at h
  · next ty hty =>
    have hc : s.imgDesc.comp ≠ 0 := fun h0 => by rw [h0] at hty; exact absurd hty nofun
    obtain ⟨hw, hraw, -⟩ := hin.stage1Format
    rcases stage1_outcome (ty := ty) (hin.cleanRuns hlive hc _) hin.levels_pos hw hraw with
      ⟨new, u, hcommit, -⟩ | ⟨e', herr, hchk⟩ | ⟨new, v, u1, -, -, -, e', herr, hcode⟩
    · rw [hcommit] at h
      exact absurd h nofun
    · obtain rfl := Option.some.inj (herr.symm.trans h)
      exact .inl (blockMipChecks_error hchk)
    · obtain rfl := Option.some.inj (herr.symm.trans h)
      exact .inr hcode
  · exact absurd h nofun

include hwf

/-- The image the later stages start from passes its checks (42_conversion_engine R253). -/
theorem EntryPassed.runStage1_image {s1 : State} (h : runStage1 s s.tgtDesc = ⟨s1, none⟩) :
    RawImage s1 ∧ s1.mem.wf = true ∧ (paddedFit s → paddedFit s1) ∧ ∀ D, repackApplies s1 D = true → s1.imageHandles.Nodup := by
  unfold runStage1 at h
  split at h
  · next ty hty =>
    have hc : s.imgDesc.comp ≠ 0 := fun h0 => by rw [h0] at hty; exact absurd hty nofun
    obtain ⟨hw, hraw, hp⟩ := hin.stage1Format
    have hclean := hin.cleanRuns hlive hc (levelSize (Machine.stage1Format s.tgtDesc) s)
    rcases stage1_outcome (ty := ty) hclean hin.levels_pos hw hraw with
      ⟨new, u, hcommit, hr, hle, hpos, hf, hchk⟩ | ⟨e, herr, -⟩ | ⟨new, v, u1, -, -, -, e, herr, -⟩
    · obtain ⟨rfl, -⟩ := StageOut.mk.inj (hcommit.symm.trans h)
      have hresult := stage1_commit hin.header hty hwf hw hraw hp hr (hclean.clean new u hr) hle hpos hf hchk
      exact ⟨hresult.image, hresult.levels.wf, paddedFit_of_replaced hresult.levels, fun D happ =>
        absurd happ (not_repackApplies_of_direct (by rw [hresult.desc]; exact hp) D)⟩
    · rw [h] at herr
      exact absurd herr nofun
    · rw [h] at herr
      exact absurd herr nofun
  · next hnone =>
    obtain ⟨rfl, -⟩ := StageOut.mk.inj h
    exact ⟨hin.raw ((compType_none_iff hin.wf).1 hnone), hwf, id, fun _ _ => hin.distinct⟩

end

theorem reshapes_raw {s : State} {T D : Desc} (h : reshapes s T D = true) : s.imgDesc.comp = 0 ∧ T.comp = 0 ∧ s.imgDesc ≠ D := by
  simpa [reshapes, Desc.isRaw, and_assoc] using h

section
variable {s : State} (hs : RawImage s) (hwf : s.mem.wf = true)
include hs hwf

/-- Stage 2 where it runs on a checked image, and otherwise nothing (42_conversion_engine R253). -/
theorem RawImage.runStage2_outcome {T D : Desc} (hD : T.comp = 0 → D.wf = true ∧ D.comp = 0)
    (hnodup : repackApplies s D = true → s.imageHandles.Nodup) :
    (reshapes s T D = false ∧ runStage2 s T D = ⟨s, none⟩)
    ∨ (∃ d, reshapes s T D = true ∧ runStage2 s T D = ⟨d, none⟩ ∧ Reshaped s d D) ∨ (runStage2 s T D).OutOfMemory := by
  cases hre : reshapes s T D with
  | false => exact .inl ⟨rfl, by rw [runStage2, hre]; rfl⟩
  | true =>
    obtain ⟨-, hT, -⟩ := reshapes_raw hre
    obtain ⟨hw, hc⟩ := hD hT
    rw [runStage2, if_pos hre]
    exact .inr ((hs.stage2_outcome hwf hw hc hnodup).imp (fun ⟨d, hd⟩ => ⟨d, rfl, hd⟩) id)

/-- Stage 3 where it runs on a checked image, and otherwise nothing (42_conversion_engine R253). -/
theorem RawImage.runStage3_outcome {T : Desc} (hw : ∀ ty V, compType T.comp = some ty → (compressedDesc V T).wf = true)
    (hfit : ∀ ty, compType T.comp = some ty → paddedFit s) :
    (compType T.comp = none ∧ runStage3 s T = ⟨s, none⟩)
    ∨ (∃ ty alpha d, compType T.comp = some ty ∧ alphaScan 3 s = .ok alpha ∧ runStage3 s T = ⟨d, none⟩
        ∧ BlockResult s d ty (compressedDesc (virtualRaster ty alpha) T)) ∨ (runStage3 s T).OutOfMemory := by
  cases hty : compType T.comp with
  | none => exact .inl ⟨rfl, by rw [runStage3, hty]⟩
  | some ty =>
    have hrun : runStage3 s T = stage3 s ty T := by rw [runStage3, hty]
    rw [hrun]
    exact .inr ((hs.stage3_outcome hwf hty (fun V => hw ty V hty) (hfit ty hty)).imp
      (fun ⟨alpha, d, hd⟩ => ⟨ty, alpha, d, rfl, hd⟩) id)

end

/-! ### The errors -/

theorem StageOut.OutOfMemory.code {o : StageOut} {e : Raise} (h : o.OutOfMemory) (he : o.error = some e) :
    e.code = .allocationError := by
  obtain ⟨e', he', hcode⟩ := h
  exact Option.some.inj (he.symm.trans he') ▸ hcode

theorem finishPipeline_of_scan {s : State} {a : Bool} (h : alphaScan 4 s = .ok a) (ran truncated : Bool) :
    (finishPipeline s ran truncated).error = none := by
  rcases finishPipeline_cases s ran truncated with ⟨-, hf⟩ | ⟨-, e, herr, -⟩ | ⟨-, a', -, hf⟩
  · rw [hf]
  · exact absurd (h.symm.trans herr) nofun
  · rw [hf]

/-- The pipeline on a source that passed its entry checks ends with CorruptDataError of level 0 in stage 1, or with AllocationError
of one of the three stages (42_conversion_engine R282). -/
theorem pipeline_error {s : State} {e : Raise} (hin : EntryPassed s) (hwf : s.mem.wf = true) (hlive : levelsLive s)
    (hfit : s.tgtDesc.comp ≠ 0 → paddedFit s) (h : (pipeline s s.tgtDesc s.rawTgt).error = some e) :
    e = ⟨.corruptDataError, 1, some 0⟩ ∨ (e.code = .allocationError ∧ 1 ≤ e.stage ∧ e.stage ≤ 3) := by
  have hfitTy : ∀ ty, compType s.tgtDesc.comp = some ty → paddedFit s := fun ty hty =>
    hfit fun h0 => by rw [h0] at hty; exact absurd hty nofun
  rcases pipeline_cases s s.tgtDesc s.rawTgt with
    ⟨s1, e', h1, hp⟩ | ⟨s1, s2, e', h1, h2, hp⟩ | ⟨s1, s2, s3, e', h1, h2, h3, hp⟩ | ⟨s1, s2, s3, h1, h2, h3, hp⟩ <;> rw [hp] at h
  · obtain rfl := Option.some.inj h
    obtain ⟨-, hstage, -⟩ := (runStage1_ok s s.tgtDesc).failed e' (by rw [h1])
    exact (hin.runStage1_error hlive (by rw [h1])).imp_right fun hcode => ⟨hcode, hstage.symm.le, hstage.le.trans (by decide)⟩
  all_goals
    obtain ⟨hs1, hwf1, hfit1, hnodup⟩ := hin.runStage1_image hwf hlive h1
    have out2 := hs1.runStage2_outcome hwf1 (T := s.tgtDesc) hin.rawTgt (hnodup _)
    rw [h2] at out2
  · obtain rfl := Option.some.inj h
    obtain ⟨-, hstage, -⟩ := (runStage2_ok s1 s.tgtDesc s.rawTgt).failed e' (by rw [h2])
    rcases out2 with ⟨-, hno⟩ | ⟨d, -, hno, -⟩ | hmem
    · exact absurd (congrArg StageOut.error hno) nofun
    · exact absurd (congrArg StageOut.error hno) nofun
    · exact .inr ⟨hmem.code rfl, by omega, by omega⟩
  all_goals
    have himage2 : RawImage s2 ∧ s2.mem.wf = true ∧ (∀ ty, compType s.tgtDesc.comp = some ty → paddedFit s2) := by
      rcases out2 with ⟨-, hno⟩ | ⟨d, hre, hd, hresult⟩ | ⟨e', he', -⟩
      · obtain ⟨rfl, -⟩ := StageOut.mk.inj hno
        exact ⟨hs1, hwf1, fun ty hty => hfit1 (hfitTy ty hty)⟩
      · obtain ⟨rfl, -⟩ := StageOut.mk.inj hd
        obtain ⟨item, hraw⟩ := hresult.exists_raw
        exact ⟨hraw.image, hraw.levels.wf, fun ty hty => paddedFit_of_replaced hraw.levels (hfit1 (hfitTy ty hty))⟩
      · exact absurd he' nofun
    obtain ⟨hs2, hwf2, hfit2⟩ := himage2
    have out3 := hs2.runStage3_outcome hwf2 (fun ty V hty => hin.compressed_wf hty V) hfit2
    rw [h3] at out3
  · obtain rfl := Option.some.inj h
    obtain ⟨-, hstage, -⟩ := (runStage3_ok s2 s.tgtDesc).failed e' (by rw [h3])
    rcases out3 with ⟨-, hno⟩ | ⟨ty, alpha, d, -, -, hno, -⟩ | hmem
    · exact absurd (congrArg StageOut.error hno) nofun
    · exact absurd (congrArg StageOut.error hno) nofun
    · exact .inr ⟨hmem.code rfl, by omega, by omega⟩
  · have hscan : ∃ a, alphaScan 4 s3 = .ok a := by
      rcases out3 with ⟨-, hno⟩ | ⟨ty, alpha, d, -, -, hd, hresult⟩ | ⟨e', he', -⟩
      · obtain ⟨rfl, -⟩ := StageOut.mk.inj hno
        exact hs2.scan 4
      · obtain ⟨rfl, -⟩ := StageOut.mk.inj hd
        exact hresult.image.scan 4
      · exact absurd he' nofun
    obtain ⟨a, ha⟩ := hscan
    rw [finishPipeline_of_scan ha] at h
    exact absurd h nofun

/-- The entry checks raise FormatError or CorruptDataError (42_conversion_engine R250). -/
theorem convertChecks_error {s : State} {e : Raise} (h : firstRaise (convertChecks s) = some e) :
    e.stage = 0 ∧ (e.code = .formatError ∨ e.code = .corruptDataError) := by
  have hall : ∀ c ∈ convertChecks s, c.2.stage = 0 ∧ (c.2.code = .formatError ∨ c.2.code = .corruptDataError) := by
    intro c hc
    simp only [convertChecks, headerChecks, distinctCheck, List.mem_append, List.mem_cons, List.not_mem_nil, or_false] at hc
    rcases hc with (((rfl | rfl | rfl | rfl | rfl) | rfl) | hc) | rfl
    any_goals simp
    split at hc
    · obtain ⟨i, -, hc⟩ := List.mem_flatMap.1 hc
      simp only [rawMipChecks, List.mem_cons, List.not_mem_nil, or_false] at hc
      rcases hc with rfl | rfl | rfl | rfl <;> simp
    · exact absurd hc List.not_mem_nil
  obtain ⟨c, hc, rfl⟩ := firstRaise_mem h
  exact hall c hc

/-- Settles O36: the entry raises its own errors, and in the pipeline only level 0's check and Alloc fail. -/
theorem convertErrors : Obligations.ConvertErrors := by
  intro s t hwf hlive hfit hexec herr
  obtain rfl := Host.Outcome.next.inj hexec
  have hfits : ∀ e, (convertImage s).error = some e → e.Fits := by
    generalize convertImage s = o, convertImage_end s = hend
    cases hend with
    | failed u truncated e hu he => exact fun e' he' => Option.some.inj he' ▸ he
    | unchanged u truncated hu => exact nofun
    | rescanned u alpha truncated hu => exact nofun
  obtain ⟨e, he⟩ : ∃ e, (convertImage s).error = some e :=
    Option.ne_none_iff_exists'.1 fun hnone => herr ((convFinish_flags _ _).2.2.2 hnone)
  obtain ⟨hcode, -, hstage, hmip, -⟩ := raiseError_fields (convertImage s).state 0x07 (convertImage s).truncated (hfits e he)
  rw [ConvOut.finish, he]
  simp only [hcode, hstage, hmip]
  rcases convertImage_cases s with ⟨hown, hc⟩ | ⟨-, -, hc⟩ | ⟨-, -, e', hchecks, hc⟩ | ⟨-, -, hchecks, hc⟩ <;> rw [hc] at he
  · obtain rfl := Option.some.inj he
    exact .inl ⟨rfl, rfl, hown⟩
  · exact absurd he nofun
  · obtain rfl := Option.some.inj he
    obtain ⟨hst, hf | hd⟩ := convertChecks_error hchecks
    · exact .inr (.inl ⟨by rw [hf]; rfl, hst⟩)
    · exact .inr (.inr (.inl ⟨by rw [hd]; rfl, .inl hst⟩))
  · rcases pipeline_error (entryPassed_of_convertChecks hchecks) hwf hlive hfit he with rfl | ⟨hcode, h1, h3⟩
    · exact .inr (.inr (.inl ⟨rfl, .inr ⟨rfl, rfl⟩⟩))
    · exact .inr (.inr (.inr ⟨by rw [hcode]; rfl, h1, h3⟩))

end Sys2Proof.Machine
end

section
/-! The end of a successful CONVERT (spec/42_conversion_engine.md R276, R280, R281): the alpha rescan and the palette registers of a result
that is not indexed change nothing of what the stages left. -/

namespace Sys2Proof.Machine

/-! ### The rescan and the palette registers -/

/-- The palette registers after a conversion: those of an indexed result, 0 otherwise (10_state R45). -/
theorem exists_settled (d : State) (a : Bool) : ∃ pb pc, (d.setHasAlpha a).settlePalette = (d.setHasAlpha a).setPalette pb pc
    ∧ (d.imgDesc.isIndexed = true → pb = d.palBuf ∧ pc = d.palCount) ∧ (d.imgDesc.isIndexed = false → pb = 0 ∧ pc = 0) := by
  cases hi : d.imgDesc.isIndexed with
  | true => exact ⟨d.palBuf, d.palCount, if_pos hi, fun _ => ⟨rfl, rfl⟩, nofun⟩
  | false =>
    refine ⟨0, 0, if_neg ?_, nofun, fun _ => ⟨rfl, rfl⟩⟩
    rw [show (d.setHasAlpha a).imgDesc = d.imgDesc from rfl, hi]
    exact Bool.false_ne_true

/-- The scan of an image with no palette does not read the palette registers. -/
theorem scan_setPalette {d : State} (h : RawImage d ∨ ∃ ty, BlockImage d ty) (hi : d.imgDesc.isIndexed = false) (pb pc : Word)
    (stage : Nat) : alphaScan stage (d.setPalette pb pc) = alphaScan stage d := by
  rcases h with h | ⟨ty, h⟩
  · have hp : d.imgDesc.palMode = palNone := by
      by_contra hp
      exact absurd ((isIndexed_iff h.wf h.raw).2 hp) (by rw [hi]; exact Bool.false_ne_true)
    have hc : compType d.imgDesc.comp = none := (compType_none_iff h.wf).2 h.raw
    have hfetch (i x y : Nat) : (d.setPalette pb pc).fetchLevel i x y = d.fetchLevel i x y := fetch_noPal hp
    have hlevel : levelHasAlpha (d.setPalette pb pc) = levelHasAlpha d := by
      funext i
      simp only [levelHasAlpha, hfetch]
      rfl
    rw [alphaScan_direct (s := d.setPalette pb pc) hc hp, alphaScan_direct hc hp, hlevel]
    rfl
  · exact (alphaScan_compressed (s := d.setPalette pb pc) h.type).trans (alphaScan_compressed h.type).symm

/-- The scan of what CONVERT leaves is the scan of what its last stage left. -/
theorem scan_settled {d : State} (h : RawImage d ∨ ∃ ty, BlockImage d ty) (a : Bool) (opc : Byte) (changed truncated : Bool)
    (stage : Nat) : alphaScan stage ((d.setHasAlpha a).settlePalette.complete opc changed truncated) = alphaScan stage d := by
  refine (scan_status ..).trans ?_
  unfold State.settlePalette
  split
  · exact scan_has d a stage
  · next hi =>
    exact (scan_has (d.setPalette 0 0) a stage).trans (scan_setPalette h (Bool.not_eq_true _ ▸ hi) 0 0 stage)

/-! ### The result of the stages -/

/-- What the last stage of a successful CONVERT of s leaves, HAS_ALPHA and the palette registers of a result that is not
indexed apart (42_conversion_engine R280). -/
structure Converted (s d : State) : Prop where
  frame : ImageOnly s d
  image : RawImage d ∨ ∃ ty, BlockImage d ty
  pos : 1 ≤ d.levels
  le : d.levels ≤ s.levels
  rawDesc : s.tgtDesc.comp = 0 → d.imgDesc = s.rawTgt
  blockDesc : ∀ ty, compType s.tgtDesc.comp = some ty → ∃ alpha, d.imgDesc = compressedDesc (virtualRaster ty alpha) s.tgtDesc
    ∧ alphaScan 3 (if s.imgDesc.comp = 0 then s else (runStage1 s s.tgtDesc).state) = .ok alpha
  levels : levelsConverted s d
  keptPalette : d.imgDesc.isIndexed = true → keepsPalette s →
    d.palBuf = s.palBuf ∧ d.palCount = s.palCount ∧ sameBuffer s d s.palBuf
  newPalette : d.imgDesc.isIndexed = true → ¬ keepsPalette s →
    1 ≤ d.palEntries ∧ d.palEntries ≤ (if d.imgDesc.palMode = 1 then 16 else 256)
      ∧ d.mem.len? d.palBuf = some (d.palEntries * (entryDepth d.imgDesc.rasterF / 8))
      ∧ d.palEntries = (s.newPalette d.imgDesc.palMode).length
      ∧ ∀ j c, (s.newPalette d.imgDesc.palMode)[j]? = some c →
          d.mem.read d.palBuf (j * (entryDepth d.imgDesc.rasterF / 8)) (entryDepth d.imgDesc.rasterF / 8)
            = some (encodeDirect d.imgDesc.rasterF d.imgDesc.orderF (entryDepth d.imgDesc.rasterF) c)
  texels : s.tgtDesc.comp = 0 → texelsConverted s d ∧ paddingZero s d
  blocks : blocksConverted s d
  live : LiveIs s d

theorem setHasAlpha_flags (d : State) (a : Bool) :
    (d.setHasAlpha a).hasAlpha = a ∧ (d.setHasAlpha a).isStandalone = d.isStandalone ∧ (d.setHasAlpha a).acquired = d.acquired :=
  ⟨bit_withBit d.imgFlags 0 0 a (by decide), bit_withBit d.imgFlags 0 1 a (by decide), bit_withBit d.imgFlags 0 2 a (by decide)⟩

theorem sameOwnership_of_imgFlags {s d : State} (h : d.imgFlags = s.imgFlags) : sameOwnership s d :=
  ⟨congrArg (bit · 1) h, congrArg (bit · 2) h⟩

/-- No buffer that the image does not name has moved (42_conversion_engine R280). -/
theorem sameBuffer_of_convertImage {s : State} (hwf : s.mem.wf = true) (opc : Byte) (g : Word) (hl : s.mem.live g = true)
    (hg : g ∉ s.imageHandles) : sameBuffer s ((convertImage s).finish opc) g := by
  have h0 : g ≠ 0 := fun h0 => by rw [h0, zero_dead hwf] at hl; exact absurd hl Bool.false_ne_true
  refine sameBuffer_of_find ?_
  rw [convFinish_mem]
  exact (convertImage_keep s g h0 hl hg).1

/-- The rescan ends a CONVERT whose stages left d. -/
theorem Converted.convertedTo {s d : State} {a truncated : Bool} (h : Converted s d) (hwf : s.mem.wf = true)
    (hran : someStageRuns s = true) (hscan : alphaScan 4 d = .ok a) (opc : Byte)
    (hconv : convertImage s = ⟨(d.setHasAlpha a).settlePalette, true, truncated, none⟩) :
    convertedTo s ((convertImage s).finish opc) := by
  obtain ⟨htruncated, hchanged, herr⟩ := convFinish_flags (convertImage s) opc
  have hbuffers := sameBuffer_of_convertImage hwf opc
  have hlevels := convFinish_levels (convertImage s) opc
  have hchain := convertImage_truncated s
  have hfin : (convertImage s).finish opc = (d.setHasAlpha a).settlePalette.complete opc true truncated := by
    rw [hconv, ConvOut.finish]
  have hrescan := (scan_settled h.image a opc true truncated 4).trans hscan
  obtain ⟨hhandles, -⟩ := settle_handles (d.setHasAlpha a)
  rw [← hlevels, ← htruncated] at hchain
  have herr0 := herr.2 (by rw [hconv])
  have hchanged1 : ((convertImage s).finish opc).changedFlag = true := hchanged.2 (by rw [hconv]; exact ⟨rfl, rfl⟩)
  rw [hfin] at herr0 hchanged1 hchain hbuffers ⊢
  obtain ⟨pb, pc, hsettled, hindexed, hdirect⟩ := exists_settled d a
  rw [hsettled] at herr0 hchanged1 hchain hbuffers hrescan hhandles ⊢
  obtain ⟨hflag, hst, hacq⟩ := setHasAlpha_flags d a
  obtain ⟨hown, hacq0⟩ := sameOwnership_of_imgFlags h.frame.imgFlags
  refine ⟨herr0, hchanged1.trans hran.symm, hchain, h.pos, h.le, h.rawDesc, h.blockDesc, h.levels, ⟨hdirect, fun hi hk => ?_,
    fun hi hk => ?_⟩, fun _ => ⟨h.texels, h.blocks⟩, fun hno => absurd (hran.symm.trans hno) (by decide), ?_,
    ⟨hst.trans hown, hacq.trans hacq0⟩, fun g => ?_, hbuffers⟩
  · obtain ⟨hpb, hpc⟩ := hindexed hi
    obtain ⟨hbuf, hcount, hsame⟩ := h.keptPalette hi hk
    exact ⟨hpb.trans hbuf, hpc.trans hcount, hsame⟩
  · obtain ⟨rfl, rfl⟩ := hindexed hi
    exact h.newPalette hi hk
  · rw [hran, if_pos rfl]
    exact hrescan.trans (congrArg Except.ok hflag.symm)
  · rw [show (((d.setHasAlpha a).setPalette pb pc).complete opc true truncated).imageHandles = d.imageHandles from hhandles]
    exact h.live g

end Sys2Proof.Machine
end

section
/-! What the stages of CONVERT leave, said of the source (spec/42_conversion_engine.md R262, R265 to R267, R272, R280): the levels, the items,
the blocks and the palette that each stage wrote, read off the image CONVERT started with. -/

namespace Sys2Proof.Machine

/-! ### The image the later stages work on -/

/-- c is the raw image stages 2 and 3 work on: the source s itself, or the intermediate stage 1 decoded a compressed source to. Its
texels have the colours of the source's (42_conversion_engine R253, R260). -/
structure Source (s c : State) : Prop where
  frame : ImageOnly s c
  image : RawImage c
  wf : c.mem.wf = true
  le : c.levels ≤ s.levels
  ldim : ∀ i, i < c.levels → (c.mip i).ldim = (s.mip i).ldim
  colour : ∀ i x y, i < c.levels → x < s.lw i → y < s.lh i → c.texelColour i x y = s.texelColour i x y
  keep : Keep s c
  live : LiveIs s c
  same : s.imgDesc.comp = 0 → c = s
  decoded : s.imgDesc.comp ≠ 0 → c.imgDesc.palMode = palNone ∧ ∀ i, c.levels ≤ i → i < 16 → c.mip i = MipRegs.zero

theorem RawImage.live_self {s : State} (h : RawImage s) : LiveIs s s := by
  intro g
  by_cases hg : g ∈ s.imageHandles
  · simp [hg, h.handles_live g hg]
  · simp [hg]

/-- A raw source is the image the later stages work on. -/
theorem source_self {s : State} (h : RawImage s) (hwf : s.mem.wf = true) : Source s s :=
  ⟨.refl s, h, hwf, Nat.le_refl _, fun _ _ => rfl, fun _ _ _ _ _ _ => rfl, .refl s, h.live_self, fun _ => rfl,
    fun hc => absurd h.raw hc⟩

/-- The colour of a texel of a checked compressed level is what its block decodes to. -/
theorem texelColour_compressed {s : State} {ty : BlockType} {i x y : Nat} (hty : compType s.imgDesc.comp = some ty)
    (hchk : firstRaise (blockMipChecks s ty i 1) = none) (hx : x < s.lw i) (hy : y < s.lh i) :
    s.texelColour i x y = some (s.blockTexel ty i x y) := by
  obtain ⟨-, -, hsw, hsh, hlw, hlh, -, hheld⟩ := blockMip_ok hchk
  obtain ⟨B, hB⟩ := readBlock_of_inBounds (bx := x / 4) (by' := y / 4) (by omega) (by omega) hheld
  simp only [State.texelColour, hty, State.blockTexel, hB, Option.map_some, Option.getD_some]

section
variable {s c : State} (h : Source s c)
include h

theorem Source.dims {i : Nat} (hi : i < c.levels) : c.lw i = s.lw i ∧ c.lh i = s.lh i := dim_eq (h.ldim i hi)

/-- The colour a later stage fetches is the source's. -/
theorem Source.fetch {i x y : Nat} (hi : i < c.levels) (hx : x < s.lw i) (hy : y < s.lh i) :
    ∃ col found, c.fetchLevel i x y = some (col, found) ∧ s.texelColour i x y = some col := by
  obtain ⟨hlw, hlh⟩ := h.dims hi
  obtain ⟨col, found, hfetch⟩ := h.image.fetch hi (hlw ▸ hx) (hlh ▸ hy)
  exact ⟨col, found, hfetch, (h.colour i x y hi hx hy).symm.trans (texelColour_raw h.image.raw hfetch)⟩

theorem Source.newPalette (mode : BitVec 2) : c.newPalette mode = s.newPalette mode :=
  newPalette_congr h.frame.pzCfg (h.ldim 0 h.image.levels_pos) (fun x y hx hy => h.colour 0 x y h.image.levels_pos hx hy) mode

theorem Source.strategy : c.strategy = s.strategy := congrArg (bit · 0) h.frame.pzCfg

theorem Source.kept_iff : repackApplies c s.rawTgt = true ↔ keepsPalette s := by
  by_cases hc : s.imgDesc.comp = 0
  · rw [h.same hc, repackApplies_iff]
    exact (and_iff_right hc).symm
  · exact iff_of_false (not_repackApplies_of_direct (h.decoded hc).1 _) fun hk => hc hk.1

end

/-! ### A raw result -/

/-- The levels of a checked raw result. -/
theorem levelsConverted_raw {s d : State} (hT : s.tgtDesc.comp = 0) (hd : RawImage d) (hdesc : d.imgDesc = s.rawTgt)
    (hldim : ∀ i, i < d.levels → (d.mip i).ldim = (s.mip i).ldim)
    (hlen : someStageRuns s = true → ∀ i, i < d.levels → d.mem.len? (d.mip i).buf = some (d.mip i).size.toNat)
    (hbeyond : s.imgDesc.comp ≠ 0 → ∀ i, d.levels ≤ i → i < 16 → d.mip i = MipRegs.zero) : levelsConverted s d := by
  refine ⟨fun i hi => ⟨hldim i hi, fun _ => ?_, fun hc => absurd hT hc, fun hran => hlen hran i hi⟩, hbeyond⟩
  obtain ⟨-, -, hsw, hsh, hsize, -⟩ := rawMip_ok (hd.mips i hi)
  obtain ⟨hlw, hlh⟩ := dim_eq (hldim i hi)
  have hlayout : s.rawTgt.depth = s.tgtDesc.depth ∧ s.rawTgt.rowAlign = s.tgtDesc.rowAlign := by
    rw [State.rawTgt, rawTarget_eq]
    split <;> exact ⟨rfl, rfl⟩
  refine ⟨hsw.trans hlw, hsh.trans hlh, ?_⟩
  rw [hsize, hlw, hlh, hdesc, Desc.rawSize, rawSize, hlayout.1, hlayout.2]

/-- A texel's item in a raw result of descriptor D, by the case of R265, R266 and 43_palettizer R306. -/
def ItemOf (s : State) (D : Desc) (i x y item : Nat) : Prop :=
  ∃ c, s.texelColour i x y = some c
    ∧ (D.palMode = palNone → item = encodeDirect D.rasterF D.orderF D.depth.toNat c)
    ∧ (D.palMode ≠ palNone → keepsPalette s → ∃ old, readItem s.mem (s.mip i).buf (s.lw i) s.imgDesc x y = some old
        ∧ item = (if D.palMode = pal4 then indexOfItem s.imgDesc old % 16 else indexOfItem s.imgDesc old))
    ∧ (D.palMode ≠ palNone → ¬ keepsPalette s → item = mapColour s.strategy (s.newPalette D.palMode) c)

/-- The texels and the padding of a raw result, from what each of its buffers holds. -/
theorem texels_of_holds {s d : State} {item : Nat → Nat → Nat → Nat}
    (hholds : ∀ i, i < d.levels → LevelHolds d.imgDesc (s.lw i) (s.lh i) (item i) (d.mip i).buf d.mem)
    (hitem : ∀ i x y, i < d.levels → x < s.lw i → y < s.lh i → ItemOf s d.imgDesc i x y (item i x y)) :
    texelsConverted s d ∧ paddingZero s d := by
  refine ⟨fun i x y hi hx hy => ?_, fun i y hi hy => (hholds i hi).padding y hy⟩
  obtain ⟨c, hc, hrest⟩ := hitem i x y hi hx hy
  exact ⟨c, _, hc, (hholds i hi).items x y hx hy, hrest⟩

/-- A compressed target has a block type, so a raw one none. -/
theorem no_blocks_of_raw {s : State} (hT : s.tgtDesc.comp = 0) (d : State) : blocksConverted s d := by
  intro ty hty
  rw [hT] at hty
  exact absurd hty nofun

section
variable {s c d : State} (h : Source s c) (hT : s.tgtDesc.comp = 0)
include h

/-- The levels of c's registers past the chain are 0 in the result of a stage that works on every level (log entry 18). -/
theorem Source.beyond {sz : Nat → Nat} (hd : Replaced c d sz c.mip) (hlevels : d.levels = c.levels) (hc : s.imgDesc.comp ≠ 0) :
    ∀ i, d.levels ≤ i → i < 16 → d.mip i = MipRegs.zero :=
  fun i hi h16 => (hd.beyond i hi h16).trans ((h.decoded hc).2 i (hlevels ▸ hi) h16)

theorem Source.ldim_result {sz : Nat → Nat} (hd : Replaced c d sz c.mip) :
    ∀ i, i < d.levels → (d.mip i).ldim = (s.mip i).ldim :=
  fun i hi => (hd.ldim i hi).trans (h.ldim i (hi.trans_le hd.le))

theorem Source.live_result (hwf : s.mem.wf = true) {sz : Nat → Nat} (hd : Replaced c d sz c.mip) : LiveIs s d :=
  LiveIs.trans hwf h.keep h.live hd.live

include hT

/-- A stage that works on every level of c and leaves a raw result ends the conversion of s, if its items and its palette are those
the rules name. -/
theorem Source.converted_raw {item : Nat → Nat → Nat → Nat} (hwf : s.mem.wf = true) (hd : RawResult c d s.rawTgt item c.mip)
    (hlevels : d.levels = c.levels)
    (hitem : ∀ i x y, i < c.levels → x < s.lw i → y < s.lh i → ItemOf s s.rawTgt i x y (item i x y))
    (hkept : s.rawTgt.palMode ≠ palNone → keepsPalette s →
      d.palBuf = s.palBuf ∧ d.palCount = s.palCount ∧ d.mem.find s.palBuf = s.mem.find s.palBuf)
    (hnew : s.rawTgt.palMode ≠ palNone → ¬ keepsPalette s → d.palEntries = (s.newPalette s.rawTgt.palMode).length
      ∧ d.mem.len? d.palBuf = some ((s.newPalette s.rawTgt.palMode).length * s.rawTgt.entryBytes)
      ∧ PaletteHolds s.rawTgt (s.newPalette s.rawTgt.palMode) d.palBuf d.mem) : Converted s d := by
  have hindexed : d.imgDesc.isIndexed = true → s.rawTgt.palMode ≠ palNone :=
    fun hi => hd.desc ▸ (isIndexed_iff hd.image.wf hd.image.raw).1 hi
  have hldim := h.ldim_result hd.levels
  refine ⟨h.frame.trans hd.levels.frame, .inl hd.image, hd.levels.pos, hd.levels.le.trans h.le, fun _ => hd.desc,
    fun ty hty => by rw [hT] at hty; exact absurd hty nofun,
    levelsConverted_raw hT hd.image hd.desc hldim (fun _ i hi => by rw [hd.levels.len i hi, hd.levels.size i hi])
      (h.beyond hd.levels hlevels), fun hi hk => ?_, fun hi hk => ?_, fun _ => ?_, no_blocks_of_raw hT d,
    h.live_result hwf hd.levels⟩
  · obtain ⟨hbuf, hcount, hfind⟩ := hkept (hindexed hi) hk
    exact ⟨hbuf, hcount, sameBuffer_of_find hfind⟩
  · obtain ⟨hentries, hlen, hpal⟩ := hnew (hindexed hi) hk
    rw [hd.desc, hentries]
    refine ⟨?_, ?_, hlen, rfl, hpal⟩
    · rw [← h.newPalette]
      exact List.length_pos_iff.2 (h.image.newPalette_ne_nil _)
    · rw [← maxEntries_eq]
      exact newPalette_length_le s _
  · refine texels_of_holds (item := item) (fun i hi => ?_) fun i x y hi hx hy => ?_
    · obtain ⟨hlw, hlh⟩ := h.dims (hi.trans_le hd.levels.le)
      rw [hd.desc, ← hlw, ← hlh]
      exact hd.holds i hi
    · rw [hd.desc]
      exact hitem i x y (hi.trans_le hd.levels.le) hx hy

/-- Stage 2 ends the conversion, in each of its three cases. -/
theorem Source.converted_reshaped (hwf : s.mem.wf = true) (hw : s.rawTgt.wf = true) (hr : Reshaped c d s.rawTgt)
    (hlevels : d.levels = c.levels) : Converted s d := by
  cases hr with
  | recoded hp image =>
    refine h.converted_raw hT hwf image hlevels (fun i x y hi hx hy => ?_) (fun h0 => absurd hp h0) fun h0 => absurd hp h0
    obtain ⟨col, found, hfetch, hcol⟩ := h.fetch hi hx hy
    refine ⟨col, hcol, fun _ => ?_, fun h0 => absurd hp h0, fun h0 => absurd hp h0⟩
    rw [State.recodedItem, hfetch, Option.map_some, Option.getD_some]
  | repacked hp happ image hbuf hcount hfind =>
    have hk := h.kept_iff.1 happ
    obtain rfl := h.same hk.1
    refine h.converted_raw hT hwf image hlevels (fun i x y hi hx hy => ?_) (fun _ _ => ⟨hbuf, hcount, hfind⟩)
      fun _ hno => absurd hk hno
    obtain ⟨col, found, hfetch, hcol⟩ := h.fetch hi hx hy
    obtain ⟨old, hold, hlt⟩ := h.image.item hi hx hy
    refine ⟨col, hcol, fun h0 => absurd h0 hp, fun _ _ => ⟨old, hold, ?_⟩, fun _ hno => absurd hk hno⟩
    rw [State.sourceIndex, hold, Option.getD_some]
    exact cutIndex_sourceIndex h.image.wf h.image.raw hk.2.1 hlt
  | palettized hp happ image hentries hlen hpal =>
    have hk : ¬ keepsPalette s := mt h.kept_iff.2 happ
    rw [h.newPalette] at hentries hlen hpal image
    refine h.converted_raw hT hwf image hlevels (fun i x y hi hx hy => ?_) (fun _ hyes => absurd hyes hk)
      fun _ _ => ⟨hentries, hlen, hpal⟩
    obtain ⟨col, found, hfetch, hcol⟩ := h.fetch hi hx hy
    refine ⟨col, hcol, fun h0 => absurd h0 hp, fun _ hyes => absurd hyes hk, fun _ _ => ?_⟩
    have hne : s.newPalette s.rawTgt.palMode ≠ [] := h.newPalette _ ▸ h.image.newPalette_ne_nil _
    rw [State.mappedIndex, hfetch, Option.map_some, Option.getD_some, h.strategy]
    exact cutIndex_of_lt ((mapColour_lt _ hne _).trans_le (newPalette_length_le s _))

omit h

/-- Stage 1 ends the conversion of a compressed source to a direct target. -/
theorem converted_decoded {ty : BlockType} (hty : compType s.imgDesc.comp = some ty) (hp : s.rawTgt.palMode = palNone)
    (hd : RawResult s d s.rawTgt (fun i => s.decodedItem ty i s.rawTgt) (fun _ => MipRegs.zero))
    (hchk : ∀ i, i < d.levels → firstRaise (blockMipChecks s ty i 1) = none) : Converted s d := by
  have hdirect : d.imgDesc.isIndexed = true → False := fun hi => by
    rw [hd.desc, not_isIndexed_of_palNone hp] at hi
    exact Bool.false_ne_true hi
  refine ⟨hd.levels.frame, .inl hd.image, hd.levels.pos, hd.levels.le, fun _ => hd.desc,
    fun ty' hty' => by rw [hT] at hty'; exact absurd hty' nofun,
    levelsConverted_raw hT hd.image hd.desc hd.levels.ldim (fun _ i hi => by rw [hd.levels.len i hi, hd.levels.size i hi])
      (fun _ i hi h16 => hd.levels.beyond i hi h16), fun hi => (hdirect hi).elim, fun hi => (hdirect hi).elim, fun _ => ?_,
    no_blocks_of_raw hT d, hd.levels.live⟩
  refine texels_of_holds (fun i hi => by rw [hd.desc]; exact hd.holds i hi) fun i x y hi hx hy => ?_
  rw [hd.desc]
  exact ⟨_, texelColour_compressed hty (hchk i hi) hx hy, fun _ => rfl, fun h0 => absurd hp h0, fun h0 => absurd hp h0⟩

end

/-! ### A compressed result -/

theorem blockBytes_of_compType {k : BitVec 3} {ty : BlockType} (h : compType k = some ty) :
    blockBytes ty = if k = 1 then 8 else 16 := by
  have hall : ∀ k : BitVec 3, (compType k).all (fun ty => decide (blockBytes ty = if k = 1 then 8 else 16)) = true := by decide
  have := hall k
  rw [h] at this
  exact of_decide_eq_true this

/-- Stage 3 ends the conversion to a compressed target. -/
theorem Source.converted_blocks {s c d : State} {ty : BlockType} {alpha : Bool} (h : Source s c) (hwf : s.mem.wf = true)
    (hty : compType s.tgtDesc.comp = some ty) (hd : BlockResult c d ty (compressedDesc (virtualRaster ty alpha) s.tgtDesc))
    (hlevels : d.levels = c.levels) (hscan : alphaScan 3 c = .ok alpha)
    (hc : c = if s.imgDesc.comp = 0 then s else (runStage1 s s.tgtDesc).state) : Converted s d := by
  have hT : s.tgtDesc.comp ≠ 0 := fun h0 => by rw [h0] at hty; exact absurd hty nofun
  have hdirect : d.imgDesc.isIndexed = true → False := fun hi => by
    rw [hd.desc] at hi
    exact Bool.false_ne_true hi
  have hdims (i : Nat) (hi : i < d.levels) := h.dims (hi.trans_le hd.levels.le)
  have hsdim (i : Nat) (hi : i < d.levels) : d.sw i = roundup (s.lw i) 4 ∧ d.sh i = roundup (s.lh i) 4 := by
    obtain ⟨hlw, hlh⟩ := hdims i hi
    rw [← hlw, ← hlh]
    exact hd.sdim i hi
  refine ⟨h.frame.trans hd.levels.frame, .inr ⟨ty, hd.image⟩, hd.levels.pos, hd.levels.le.trans h.le, fun h0 => absurd h0 hT,
    fun ty' hty' => ?_, ⟨fun i hi => ⟨h.ldim_result hd.levels i hi, fun h0 => absurd h0 hT, fun _ => ?_,
      fun _ => by rw [hd.levels.len i hi, hd.levels.size i hi]⟩, h.beyond hd.levels hlevels⟩,
    fun hi => (hdirect hi).elim, fun hi => (hdirect hi).elim, fun h0 => absurd h0 hT, fun ty' hty' i bx by' hi hbx hby => ?_,
    h.live_result hwf hd.levels⟩
  · obtain rfl := Option.some.inj (hty.symm.trans hty')
    exact ⟨alpha, hd.desc, hc ▸ hscan⟩
  · obtain ⟨hsw, hsh⟩ := hsdim i hi
    obtain ⟨hlw, hlh⟩ := hdims i hi
    refine ⟨hsw, hsh, ?_⟩
    rw [hd.levels.size i hi, encodedSize, hlw, hlh, hsw, hsh, blockBytes_of_compType hty]
  · obtain rfl := Option.some.inj (hty.symm.trans hty')
    obtain ⟨hsw, hsh⟩ := hsdim i hi
    obtain ⟨hlw, hlh⟩ := hdims i hi
    have hci : i < c.levels := hi.trans_le hd.levels.le
    have hmip := h.image.mips i hci
    obtain ⟨hw0, hh0⟩ := h.image.dims_pos i hci
    rw [hsw] at hbx
    rw [hsh] at hby
    obtain ⟨G, hG, hread⟩ := hd.blocks i hi (bx, by') (mem_coords.2 ⟨by rw [hlw]; exact hbx, by rw [hlh]; exact hby⟩)
    obtain ⟨G', hG', hlen, hcol⟩ := levelColours_block h.image.header h.image.raw hmip (bx, by')
    obtain rfl : G' = G := Option.some.inj (hG'.symm.trans hG)
    refine ⟨G', hlen, fun k hk => ?_, ?_⟩
    · obtain ⟨found, hfetch⟩ := hcol k hk
      rw [hlw, hlh] at hfetch
      rw [← h.colour i _ _ hci (by omega) (by omega)]
      exact texelColour_raw h.image.raw hfetch
    · rw [hsw, ← hlw, ← h.frame.alphaRampRule]
      exact hread

end Sys2Proof.Machine
end

section
/-! The obligations that CONVERT and NEGOTIATE_AND_CONVERT complete (spec/42_conversion_engine.md R252, R253, R280, spec/44_negotiator.md
R333): with an allocator that gives fresh handles no stage fails, and what the stages leave is what R280 lists. -/

namespace Sys2Proof.Machine

/-! ### Stages with a ready allocator -/

/-- Case (c) with a ready allocator: one handle for the palette, one for each level. -/
theorem palettizeWith_ready {s : State} {hs : List Word} {D : Desc} {P : List Colour} (hready : Ready s hs)
    (hP : P.length * D.entryBytes ≤ Config.maxBufLen) (hmax : ∀ i, i < s.levels → levelSize D s i ≤ Config.maxBufLen)
    (hcnt : s.levels + 1 ≤ hs.length) : ¬ (palettizeWith s D P).OutOfMemory := by
  rintro ⟨e, he, hcode⟩
  obtain ⟨u, g, ha, hans, hnew⟩ := (RunR.start s (paletteSizes D s P) hready).next hready (by simp; omega) hP
  simp only [palettizeWith, ha] at he
  split at he
  · obtain rfl := Option.some.inj he
    exact absurd hcode nofun
  · next m hm =>
    have hbase : RunR s (paletteSizes D s P) hs [g] (u.setMem m) :=
      ⟨(Run.start s (paletteSizes D s P)).round (new := []) ha (writePalette_wrote P hm), hans, hnew⟩
    rcases hrun : allocLevels 2 (levelSize D s) (indexLevel D P) (List.range s.levels) [g] (u.setMem m) with ⟨t, e' | new⟩
    · rw [hrun] at he
      obtain rfl := Option.some.inj he
      exact (allocLevels_ready hready (fun _ _ _ _ => indexLevel_wrote)
        (fun i => by rw [List.length_singleton, Nat.add_comm]; rfl) hmax (by simp; omega) hbase hrun).1 _ rfl hcode
    · rw [hrun] at he
      exact absurd he nofun

section
variable {s : State} (hs : RawImage s) {answers : List Word} (hready : Ready s answers)
include hs hready

theorem RawImage.stage2_ready {D : Desc} (hmax : ∀ i, i < s.levels → levelSize D s i ≤ Config.maxBufLen)
    (hcnt : s.levels + 1 ≤ answers.length) : ¬ (stage2 s D).OutOfMemory := by
  have hcnt' : s.levels ≤ answers.length := by omega
  by_cases hp : D.palMode = palNone
  · rintro ⟨e, he, hcode⟩
    rw [stage2_recode hp] at he
    exact levelStage_ready (commit := commitRecode D) hready (fun _ _ _ _ => recodeLevel_wrote) hmax hcnt' e he hcode
  by_cases happ : repackApplies s D = true
  · rintro ⟨e, he, hcode⟩
    rw [stage2_repack hp happ] at he
    exact levelStage_ready (commit := commitRepack D) hready (fun _ _ _ _ => repackLevel_wrote) hmax hcnt' e he hcode
  · rw [stage2_palettize hp happ, hs.palettize_eq]
    refine palettizeWith_ready hready ?_ hmax hcnt
    have hlen := (newPalette_length_le s D.palMode).trans (maxEntries_bounds D.palMode).2
    have hbytes : D.entryBytes ≤ 4 := by have := entryBytes_cases D; omega
    exact (Nat.mul_le_mul hlen hbytes).trans (by decide)

/-- The blocks of a level whose padded dimensions fit 16 bits fit a buffer. -/
theorem RawImage.stage3_ready {ty : BlockType} {T : Desc} (hfit : paddedFit s) (hcnt : s.levels ≤ answers.length) :
    ¬ (stage3 s ty T).OutOfMemory := by
  obtain ⟨alpha, hscan⟩ := hs.scan 3
  rintro ⟨e, he, hcode⟩
  rw [stage3, hscan] at he
  refine levelStage_ready (commit := commitStage3 ty (virtualRaster ty alpha) T) hready (fun _ _ _ _ => encodeLevel_wrote)
    (fun i hi => ?_) hcnt e he hcode
  obtain ⟨hlw, hlh⟩ := hfit i hi
  have hpadw := roundup4 (s.lw i)
  have hpadh := roundup4 (s.lh i)
  have hbytes : blockBytes ty ≤ 16 := by cases ty <;> decide
  exact (Nat.mul_le_mul (Nat.mul_le_mul (show roundup (s.lw i) 4 / 4 ≤ 16383 by omega)
    (show roundup (s.lh i) 4 / 4 ≤ 16383 by omega)) hbytes).trans (by decide)

end

/-- Stage 1 of a source whose level 0 passes its check, with an allocator that gives fresh handles. -/
theorem EntryPassed.stage1_completes {s : State} {ty : BlockType} {hs : List Word} (hin : EntryPassed s) (hwf : s.mem.wf = true)
    (hty : compType s.imgDesc.comp = some ty) (hchk0 : firstRaise (blockMipChecks s ty 0 1) = none) (hready : Ready s hs)
    (hfresh : ∀ g ∈ hs, g ∉ s.imageHandles) (hmax : levelsFit (Machine.stage1Format s.tgtDesc) s) (hcnt : s.levels ≤ hs.length) :
    ∃ d, stage1 s ty s.tgtDesc = ⟨d, none⟩
      ∧ RawResult s d (Machine.stage1Format s.tgtDesc) (fun i => s.decodedItem ty i (Machine.stage1Format s.tgtDesc))
          (fun _ => MipRegs.zero)
      ∧ (∀ i, i < d.levels → firstRaise (blockMipChecks s ty i 1) = none) ∧ Ready d (hs.drop d.levels) := by
  obtain ⟨hw, hraw, hp⟩ := hin.stage1Format
  have hclean := cleanRuns_of_ready (sz := levelSize (Machine.stage1Format s.tgtDesc) s) hready hfresh hmax hcnt
  rcases stage1_outcome (ty := ty) hclean hin.levels_pos hw hraw with
    ⟨new, u, hcommit, hr, hle, hpos, hf, hchk⟩ | ⟨e, -, herr⟩ | ⟨new, v, u1, hlt, hr, ha, -⟩
  · have hresult := stage1_commit hin.header hty hwf hw hraw hp hr.run (hclean.clean new u hr) hle hpos hf hchk
    have hlevels : (commitStage1 (Machine.stage1Format s.tgtDesc) new u).levels = new.length := by
      have h16 := hle.trans hin.levels_le
      show bits (BitVec.ofNat 32 new.length) 0 5 = new.length
      simp [bits]
      omega
    refine ⟨_, hcommit, hresult, fun i hi => hchk i (hlevels ▸ hi), ?_⟩
    rw [hlevels]
    exact hr.rest hready rfl fun g hg => free_live hg
  · exact absurd (hchk0.symm.trans herr) nofun
  · obtain ⟨u1', g, hnext, -⟩ := hr.next hready (hlt.trans_le hcnt) (hmax _ hlt)
    exact absurd (congrArg Prod.snd (ha.symm.trans hnext)) nofun

/-- The intermediate holds the colours of the compressed source, bit for bit (42_conversion_engine R260). -/
theorem source_decoded {s d : State} {ty : BlockType} (hty : compType s.imgDesc.comp = some ty)
    (hd : RawResult s d intermediate (fun i => s.decodedItem ty i intermediate) (fun _ => MipRegs.zero))
    (hchk : ∀ i, i < d.levels → firstRaise (blockMipChecks s ty i 1) = none) (hkeep : Keep s d) : Source s d := by
  have hc : s.imgDesc.comp ≠ 0 := fun h0 => by rw [h0] at hty; exact absurd hty nofun
  refine ⟨hd.levels.frame, hd.image, hd.levels.wf, hd.levels.le, hd.levels.ldim, fun i x y hi hx hy => ?_, hkeep, hd.levels.live,
    fun h0 => absurd h0 hc, fun _ => ⟨by rw [hd.desc]; rfl, hd.levels.beyond⟩⟩
  have hitem := (hd.holds i hi).items x y hx hy
  rw [← hd.desc, ← (hd.levels.logical hi).1] at hitem
  have hfetch : d.fetchLevel i x y = _ := fetchTexel_direct (by rw [hd.desc]; rfl) hitem
  rw [texelColour_raw hd.image.raw hfetch, texelColour_compressed hty (hchk i hi) hx hy, hd.desc]
  exact congrArg some (decode_encode_8888 _)

/-! ### The pipeline -/

theorem pipeline_of_stages {s s1 s2 s3 : State} {T T' : Desc} (h1 : runStage1 s T = ⟨s1, none⟩) (h2 : runStage2 s1 T T' = ⟨s2, none⟩)
    (h3 : runStage3 s2 T = ⟨s3, none⟩) : pipeline s T T'
      = finishPipeline s3 (!s.imgDesc.isRaw || reshapes s1 T T' || !T.isRaw) (decide (s1.levels < s.levels)) := by
  simp only [pipeline, h1, h2, h3]

/-- Where some stage ran, the pipeline ends with the rescan of what the stages left. -/
theorem pipeline_of_converted {s s1 s2 d : State} (h1 : runStage1 s s.tgtDesc = ⟨s1, none⟩)
    (h2 : runStage2 s1 s.tgtDesc s.rawTgt = ⟨s2, none⟩) (h3 : runStage3 s2 s.tgtDesc = ⟨d, none⟩) (hran : someStageRuns s = true)
    (hd : RawImage d ∨ ∃ ty, BlockImage d ty) : ∃ a truncated, alphaScan 4 d = .ok a
      ∧ pipeline s s.tgtDesc s.rawTgt = ⟨(d.setHasAlpha a).settlePalette, true, truncated, none⟩ := by
  obtain ⟨a, ha⟩ : ∃ a, alphaScan 4 d = .ok a := hd.elim (·.scan 4) fun ⟨_, hb⟩ => hb.scan 4
  refine ⟨a, decide (s1.levels < s.levels), ha, ?_⟩
  rw [pipeline_of_stages h1 h2 h3, ran_eq_someStageRuns h1, hran, finishPipeline, if_pos rfl, ha]

theorem rawTgt_palMode (s : State) : s.rawTgt.palMode = s.tgtDesc.palMode := by
  rw [State.rawTgt, rawTarget_eq]
  split <;> rfl

theorem runStage3_raw {s : State} {T : Desc} (hT : T.comp = 0) : runStage3 s T = ⟨s, none⟩ := by
  rw [runStage3, hT]
  rfl

theorem runStage2_skipped {s : State} {T D : Desc} (h : reshapes s T D = false) : runStage2 s T D = ⟨s, none⟩ := by
  rw [runStage2, h]
  rfl

/-- Stages 2 and 3 from the image they work on, where it is not yet the target (42_conversion_engine R253). -/
theorem Source.completes {s c : State} {hs : List Word} (h : Source s c) (hin : EntryPassed s) (hwf : s.mem.wf = true)
    (h1 : runStage1 s s.tgtDesc = ⟨c, none⟩) (hne : s.tgtDesc.comp = 0 → c.imgDesc ≠ s.rawTgt)
    (hfits : s.tgtDesc.comp = 0 → levelsFit s.rawTgt s) (hpadded : s.tgtDesc.comp ≠ 0 → paddedFit s) (hready : Ready c hs)
    (hcnt : c.levels + 1 ≤ hs.length) : ∃ s2 d, runStage2 c s.tgtDesc s.rawTgt = ⟨s2, none⟩
      ∧ runStage3 s2 s.tgtDesc = ⟨d, none⟩ ∧ Converted s d := by
  by_cases hT : s.tgtDesc.comp = 0
  · obtain ⟨hw, hc⟩ := hin.rawTgt hT
    have hre : reshapes c s.tgtDesc s.rawTgt = true := by
      simp [reshapes, Desc.isRaw, h.image.raw, hT, hne hT]
    have hrun : runStage2 c s.tgtDesc s.rawTgt = stage2 c s.rawTgt := if_pos hre
    obtain ⟨d, hd, hresult⟩ := (h.image.stage2_outcome h.wf hw hc fun happ => by
      rw [h.same (h.kept_iff.1 happ).1]
      exact hin.distinct).resolve_right (h.image.stage2_ready hready (fun i hi => by
        rw [levelSize, (h.dims hi).1, (h.dims hi).2]
        exact hfits hT i (hi.trans_le h.le)) hcnt)
    have hlevels := stage2_levels c s.rawTgt
    rw [hd] at hlevels
    exact ⟨d, d, hrun.trans hd, runStage3_raw hT, h.converted_reshaped hT hwf hw hresult hlevels⟩
  · obtain ⟨ty, hty⟩ := hin.type_of_compressed hT
    have hfit : paddedFit c := fun i hi => by
      rw [(h.dims hi).1, (h.dims hi).2]
      exact hpadded hT i (hi.trans_le h.le)
    have hrun : runStage3 c s.tgtDesc = stage3 c ty s.tgtDesc := by rw [runStage3, hty]
    obtain ⟨alpha, d, hscan, hd, hresult⟩ := (h.image.stage3_outcome h.wf hty (hin.compressed_wf hty) hfit).resolve_right
      (h.image.stage3_ready hready hfit (Nat.le_of_succ_le hcnt))
    have hlevels := stage3_levels c ty s.tgtDesc
    rw [hd] at hlevels
    refine ⟨c, d, runStage2_skipped ?_, hrun.trans hd, h.converted_blocks hwf hty hresult hlevels hscan ?_⟩
    · simp only [reshapes, Desc.isRaw, decide_eq_false hT, Bool.and_false, Bool.false_and]
    · split
      · next hc => exact h.same hc
      · rw [h1]

/-- Every stage that a ready CONVERT runs commits. -/
theorem converted_of_ready {s : State} (hwf : s.mem.wf = true) (h : convertReady s) (hran : someStageRuns s = true) :
    ∃ s1 s2 d, runStage1 s s.tgtDesc = ⟨s1, none⟩ ∧ runStage2 s1 s.tgtDesc s.rawTgt = ⟨s2, none⟩
      ∧ runStage3 s2 s.tgtDesc = ⟨d, none⟩ ∧ Converted s d := by
  obtain ⟨-, -, hchecks, hlevel0, hfits1, hfits, hpadded, hs, rest, hans, hlen, hnodup, hfresh⟩ := h
  have hin := entryPassed_of_convertChecks hchecks
  have hlevels := hin.levels_le
  have hready : Ready s hs := ⟨⟨rest, hans⟩, hnodup, fun g hg => ⟨(hfresh g hg).1, (hfresh g hg).2.1⟩⟩
  by_cases hc : s.imgDesc.comp = 0
  · have h1 : runStage1 s s.tgtDesc = ⟨s, none⟩ := by
      rw [runStage1, hc]
      rfl
    have hne : s.tgtDesc.comp = 0 → s.imgDesc ≠ s.rawTgt := fun hT heq => by
      rw [someStageRuns, decide_eq_true hc, decide_eq_true hT, decide_eq_true heq] at hran
      exact absurd hran (by decide)
    obtain ⟨s2, d, h2, h3, hd⟩ := (source_self (hin.raw hc) hwf).completes hin hwf h1 hne hfits hpadded hready (by omega)
    exact ⟨s, s2, d, h1, h2, h3, hd⟩
  · obtain ⟨ty, hty⟩ := Option.ne_none_iff_exists'.1 fun hnone => hc ((compType_none_iff hin.wf).1 hnone)
    obtain ⟨c, hcommit, hresult, hchk, hready1⟩ := hin.stage1_completes hwf hty (hlevel0 ty hty) hready
      (fun g hg => (hfresh g hg).2.2) (hfits1 hc) (by omega)
    have h1 : runStage1 s s.tgtDesc = ⟨c, none⟩ := by rw [runStage1, hty]; exact hcommit
    by_cases hdirect : s.tgtDesc.comp = 0 ∧ s.tgtDesc.palMode = palNone
    · have hT' : s.rawTgt = s.tgtDesc := rawTarget_of_direct _ hdirect.2
      rw [show Machine.stage1Format s.tgtDesc = s.rawTgt from (if_pos hdirect).trans hT'.symm] at hresult
      refine ⟨c, c, c, h1, runStage2_skipped ?_, runStage3_raw hdirect.1,
        converted_decoded hdirect.1 hty (hT' ▸ hdirect.2) hresult hchk⟩
      simp [reshapes, hresult.desc]
    · rw [show Machine.stage1Format s.tgtDesc = intermediate from if_neg hdirect] at hresult
      have hkeep := stage1_keep s ty s.tgtDesc
      rw [hcommit] at hkeep
      have hle := hresult.levels.le
      obtain ⟨s2, d, h2, h3, hd⟩ := (source_decoded hty hresult hchk hkeep).completes hin hwf h1 (fun hT heq => hdirect ⟨hT, by
        rw [← rawTgt_palMode, ← heq, hresult.desc]
        rfl⟩) hfits hpadded hready1 (by rw [List.length_drop]; omega)
      exact ⟨c, s2, d, h1, h2, h3, hd⟩

/-! ### The source that is the target already -/

/-- Where no stage runs the image is T' already, and indexed; it stays as it is (42_conversion_engine R253, R281). -/
theorem convertedTo_of_no_stage {s : State} {truncated : Bool} (hin : EntryPassed s) (hne : s.imgDesc ≠ s.tgtDesc)
    (hran : someStageRuns s = false) (opc : Byte) (hconv : convertImage s = ⟨s, false, truncated, none⟩) :
    convertedTo s ((convertImage s).finish opc) := by
  obtain ⟨htruncated, -, herr⟩ := convFinish_flags (convertImage s) opc
  have hchain := convertImage_truncated s
  rw [← convFinish_levels (convertImage s) opc, ← htruncated] at hchain
  have herr0 := herr.2 (by rw [hconv])
  rw [hconv, ConvOut.finish] at hchain herr0 ⊢
  obtain ⟨-, -, -, -, hchanged, -⟩ := complete_fields s opc false truncated
  obtain ⟨⟨hc, hT⟩, heq⟩ : (s.imgDesc.comp = 0 ∧ s.tgtDesc.comp = 0) ∧ s.imgDesc = s.rawTgt := by
    simpa [someStageRuns] using hran
  have hs := hin.raw hc
  have hp : s.imgDesc.palMode ≠ palNone := fun hp => hne (by
    rw [heq]
    exact rawTarget_of_direct _ (by rw [← rawTgt_palMode, ← heq, hp]))
  have hkept : keepsPalette s := by
    refine ⟨hc, hp, congrArg Desc.raster heq, congrArg Desc.order heq, ?_⟩
    rw [← heq, ← maxEntries_eq]
    exact (hs.palette hp).1
  have hindexed := (isIndexed_iff hs.wf hs.raw).2 hp
  refine ⟨herr0, hchanged.trans hran.symm, hchain, hin.levels_pos, Nat.le_refl _, fun _ => heq,
    fun ty hty => by rw [hT] at hty; exact absurd hty nofun,
    levelsConverted_raw (d := s) hT hs heq (fun _ _ => rfl) (fun h => absurd (hran.symm.trans h) (by decide))
      fun h => absurd hc h,
    ⟨fun hno => absurd (hindexed.symm.trans hno) (by decide), fun _ _ => ⟨rfl, rfl, rfl, fun _ => rfl⟩,
      fun _ hno => absurd hkept hno⟩,
    fun h => absurd (hran.symm.trans h) (by decide), fun _ => ⟨⟨rfl, rfl, rfl, rfl, rfl⟩, fun _ => ⟨rfl, fun _ => rfl⟩⟩, ?_,
    ⟨rfl, rfl⟩, hs.live_self, fun _ _ _ => ⟨rfl, fun _ => rfl⟩⟩
  rw [hran]
  rfl

/-- A ready CONVERT completes, whichever command runs it (42_conversion_engine R280). -/
theorem convertedTo_of_ready {s : State} (hwf : s.mem.wf = true) (h : convertReady s) (opc : Byte) :
    convertedTo s ((convertImage s).finish opc) := by
  obtain ⟨hst, hne, hchecks, -⟩ := id h
  have hpipe : convertImage s = pipeline s s.tgtDesc s.rawTgt := by
    rcases convertImage_cases s with ⟨hno, -⟩ | ⟨-, heq, -⟩ | ⟨-, -, e, herr, -⟩ | ⟨-, -, -, hp⟩
    · exact absurd (hst.symm.trans hno) (by decide)
    · exact absurd heq hne
    · exact absurd (hchecks.symm.trans herr) nofun
    · exact hp
  cases hran : someStageRuns s with
  | true =>
    obtain ⟨s1, s2, d, h1, h2, h3, hd⟩ := converted_of_ready hwf h hran
    obtain ⟨a, truncated, hscan, hp⟩ := pipeline_of_converted h1 h2 h3 hran hd.image
    exact hd.convertedTo hwf hran hscan opc (hpipe.trans hp)
  | false =>
    obtain ⟨⟨hc, hT⟩, heq⟩ : (s.imgDesc.comp = 0 ∧ s.tgtDesc.comp = 0) ∧ s.imgDesc = s.rawTgt := by
      simpa [someStageRuns] using hran
    have h1 : runStage1 s s.tgtDesc = ⟨s, none⟩ := by
      rw [runStage1, hc]
      rfl
    have h2 : runStage2 s s.tgtDesc s.rawTgt = ⟨s, none⟩ := runStage2_skipped (by simp [reshapes, ← heq])
    refine convertedTo_of_no_stage (truncated := decide (s.levels < s.levels)) (entryPassed_of_convertChecks hchecks) hne hran opc ?_
    rw [hpipe, pipeline_of_stages h1 h2 (runStage3_raw hT), ran_eq_someStageRuns h1, hran]
    rfl

/-- Settles O35: the pipeline of a ready CONVERT commits every stage it runs. -/
theorem convertCompletes : Obligations.ConvertCompletes := fun _ hinv hready =>
  ⟨_, rfl, finish_opcReported .., convertedTo_of_ready hinv.1 hready 0x07⟩

/-- Settles O50: CONVERT runs on the state with the negotiated target, and no stage writes TGT_FMT. -/
theorem negotiateAndConvertCompletes : Obligations.NegotiateAndConvertCompletes := by
  intro s T hneg hinv hready
  have hrun : exec .negotiateAndConvert s = .next ((convertImage (s.setTgtFmt T.toWord)).finish 0x09) := by
    have htarget : negotiateTarget s = .ok (s.setTgtFmt T.toWord) := by simp only [negotiateTarget, hneg]
    rw [exec, execNegotiateAndConvert, negotiateAndConvert, htarget]
  exact ⟨_, hrun, finish_opcReported .., ((convertImage_end _).frame 0x09).2,
    convertedTo_of_ready (s := s.setTgtFmt T.toWord) hinv.1 hready 0x09⟩

end Sys2Proof.Machine
end

section
/-! The obligations on the palettizer: the indices and the palette that case (c) of stage 2 writes, the palette that is built, and
linear elimination (spec/43_palettizer.md R300 to R308). -/

namespace Sys2Proof.Machine

/-! ### The indices -/

/-- Settles O43: every index the map answers is below the palette's length, which fits the target's mode. -/
theorem indexLevelIndices : Obligations.IndexLevelIndices := by
  intro s i D P h hh hraw hr hw hc hp hpos hfits hne hpal hb
  obtain ⟨m, hm, hidx⟩ := indexLevel_indexed (P := P) hh hraw hr hw hc hp hne hpal hb
  refine ⟨m, hm, fun x y hx hy => ?_, fun y j _ => hidx.padding.bytes y j,
    fun h4 ho y hy => hidx.padding.nibble_bytes (raw_wf hw hc).1 hb h4 ho hy, hidx.wrote.other⟩
  obtain ⟨c, found, hfetch⟩ := fetchLevel_of_checks hh hraw hr hx hy
  have hlt : mapColour s.strategy P c < P.length := mapColour_lt _ (List.length_pos_iff.1 hpos) c
  have hmapped : s.mappedIndex P i x y = mapColour s.strategy P c := by
    rw [State.mappedIndex, hfetch, Option.map_some, Option.getD_some]
  refine ⟨c, found, hfetch, hlt, ?_⟩
  rw [hidx.items x y hx hy, hmapped, cutIndex_of_lt (hlt.trans_le hfits)]

/-! ### Linear elimination -/

theorem distinctColours_append (l : List Colour) (c : Colour) :
    distinctColours (l ++ [c]) = if c ∈ distinctColours l then distinctColours l else distinctColours l ++ [c] := by
  rw [distinctColours, List.foldl_append]
  rfl

/-- The distinct colours are the seed's (43_palettizer R302). -/
theorem mem_distinctColours {seed : List Colour} {c : Colour} : c ∈ distinctColours seed ↔ c ∈ seed := by
  induction seed using List.reverseRecOn with
  | nil => exact Iff.rfl
  | append_singleton l d ih =>
    rw [distinctColours_append, List.mem_append, List.mem_singleton]
    split
    · next hd => exact ⟨fun h => .inl (ih.1 h), fun h => h.elim ih.2 fun hcd => hcd ▸ hd⟩
    · rw [List.mem_append, List.mem_singleton, ih]

/-- A colour that is new stands behind every colour seen before it. -/
theorem distinctColours_pairwise (seed : List Colour) :
    (distinctColours seed).Pairwise (fun a b => seed.idxOf a < seed.idxOf b) := by
  induction seed using List.reverseRecOn with
  | nil => exact .nil
  | append_singleton l d ih =>
    have hseen {a : Colour} (ha : a ∈ distinctColours l) : (l ++ [d]).idxOf a = l.idxOf a :=
      List.idxOf_append_of_mem (mem_distinctColours.1 ha)
    have hold : (distinctColours l).Pairwise (fun a b => (l ++ [d]).idxOf a < (l ++ [d]).idxOf b) :=
      ih.imp_of_mem fun ha hb hab => by rwa [hseen ha, hseen hb]
    rw [distinctColours_append]
    split
    · exact hold
    · next hd =>
      refine List.pairwise_append.2 ⟨hold, List.pairwise_singleton _ _, fun a ha b hb => ?_⟩
      obtain rfl := List.mem_singleton.1 hb
      rw [hseen ha, List.idxOf_append_of_notMem (mt mem_distinctColours.2 hd)]
      exact Nat.lt_add_right _ (List.idxOf_lt_length_of_mem (mem_distinctColours.1 ha))

/-- An exact match is found at its lowest index (43_palettizer R302). -/
theorem mapColour_of_mem {P : List Colour} {c : Colour} (h : c ∈ P) :
    P[mapColour false P c]? = some c ∧ ∀ j, j < mapColour false P c → P[j]? ≠ some c := by
  obtain ⟨k, hk⟩ : ∃ k, P.findIdx? (fun p => decide (p = c)) = some k :=
    Option.isSome_iff_exists.1 (List.findIdx?_isSome.trans (List.any_eq_true.2 ⟨c, h, decide_eq_true rfl⟩))
  have hmap : mapColour false P c = k := by simp [mapColour, hk]
  obtain ⟨hlt, hat, hbelow⟩ := List.findIdx?_eq_some_iff_getElem.1 hk
  rw [hmap]
  refine ⟨by rw [List.getElem?_eq_getElem hlt, of_decide_eq_true hat], fun j hj hjc => ?_⟩
  obtain ⟨hjlt, hjc⟩ := List.getElem?_eq_some_iff.1 hjc
  exact hbelow j hj (decide_eq_true hjc)

theorem mapColour_of_not_mem {P : List Colour} {c : Colour} (h : c ∉ P) : mapColour false P c = nearest P c := by
  have hnone : P.findIdx? (fun p => decide (p = c)) = none :=
    List.findIdx?_eq_none_iff.2 fun p hp => decide_eq_false fun hpc => h (hpc ▸ hp)
  simp [mapColour, hnone]

/-- Settles O46: the distinct colours by induction over the seed from its end, the map by whether the colour is in the palette. -/
theorem linearElimination : Obligations.LinearElimination :=
  ⟨fun seed => ⟨fun _ => mem_distinctColours, distinctColours_pairwise seed⟩,
    fun _ _ => ⟨fun hfit => if_pos hfit, fun hover => if_neg hover.not_ge⟩,
    fun _ _ => ⟨mapColour_of_mem, mapColour_of_not_mem⟩⟩

/-! ### The palette -/

/-- The seed of a checked level 0 is its colours in row-major order (43_palettizer R301). -/
theorem paletteSeed_of_checks {s : State} (hh : firstRaise (headerChecks s) = none) (hraw : s.imgDesc.comp = 0)
    (hr : firstRaise (rawMipChecks s 0) = none) :
    ∃ seed, paletteSeed s = some seed ∧ seed.length = s.lw 0 * s.lh 0
      ∧ ∀ x y, x < s.lw 0 → y < s.lh 0 → ∃ c found, s.fetchLevel 0 x y = some (c, found) ∧ seed[y * s.lw 0 + x]? = some c := by
  have hfetch : ∀ p ∈ coords (s.lw 0) (s.lh 0), ∃ c found, s.fetchLevel 0 p.1 p.2 = some (c, found) := by
    intro p hp
    obtain ⟨hx, hy⟩ := mem_coords.1 hp
    exact fetchLevel_of_checks hh hraw hr hx hy
  obtain ⟨seed, hseed, hlen, hcolour⟩ := levelColours_spec _ hfetch
  refine ⟨seed, hseed, hlen.trans (coords_length ..), fun x y hx hy => ?_⟩
  have hcoord := coords_get hx hy
  obtain ⟨hlt, -⟩ := List.getElem?_eq_some_iff.1 hcoord
  obtain ⟨found, hf⟩ := hcolour _ hlt
  rw [List.getD_eq_getElem?_getD, hcoord, Option.getD_some] at hf
  refine ⟨_, found, hf, ?_⟩
  rw [List.getD_eq_getElem _ _ (hlen ▸ hlt), List.getElem?_eq_getElem (hlen ▸ hlt)]

/-- The entries of the palette case (c) commits, their buffer's length and its contents (43_palettizer R305). Alloc answers a dead
handle, so that the buffer is none that the commit frees. -/
theorem RawImage.palettizeWith_palette {s t : State} {D : Desc} {P : List Colour} (hs : RawImage s) (hw : D.wf = true)
    (hc : D.comp = 0) (hP : P.length ≤ 256) (h : palettizeWith s D P = ⟨t, none⟩) :
    t.palEntries = P.length ∧ t.mem.len? t.palBuf = some (P.length * D.entryBytes) ∧ PaletteHolds D P t.palBuf t.mem := by
  rcases palettizeWith_cases s D P with
    ⟨palBuf, new, u, hcommit, hr, -, hf⟩ | ⟨_, _, hfail, -⟩ | ⟨_, _, _, hfail, -⟩ | ⟨_, _, _, _, _, _, hfail, -⟩
  · obtain rfl : t = commitPalettize D palBuf P.length new u := congrArg StageOut.state (h.symm.trans hcommit)
    have hsuperseded : u.superseded = s.superseded := by obtain ⟨_, rfl⟩ := hr.regs; rfl
    have hmem : (commitPalettize D palBuf P.length new u).mem = u.mem.freeAll s.superseded := hsuperseded ▸ dropPalette_mem u
    have hnot := hr.not_freed (hs.run_clean hr) superseded_sub
    refine ⟨?_, len_after hr hmem hnot (i := 0) (Nat.succ_pos _),
      hf.good (Good := fun _ => PaletteHolds D P) (k := 0) hmem hnot (Nat.succ_pos _) (palette_fills s hw hc P)⟩
    show bits (BitVec.ofNat 32 P.length) 0 9 = P.length
    simp [bits]
    omega
  all_goals exact absurd (congrArg StageOut.error (h.symm.trans hfail)) nofun

/-- Settles O45: the bound from the oracles' own bound, the seed from the checks of level 0, the entries from the commit. -/
theorem paletteBound : Obligations.PaletteBound := by
  refine ⟨fun _ => rfl, fun _ _ => rfl, fun _ _ => rfl, fun external seed n hseed hn => ?_,
    fun s hh hraw hr => paletteSeed_of_checks hh hraw hr, fun s t D seed hh hraw hmips hw hc hp hrun hseed => ?_⟩
  · have hne := buildPalette_ne_nil external n hseed
    exact ⟨List.length_pos_iff.2 hne, buildPalette_length_le external seed hn, mapColour_lt external hne⟩
  · have hs : RawImage s := ⟨hh, hraw, hmips⟩
    obtain ⟨hpos, hmax⟩ := maxEntries_bounds D.palMode
    simp only [palettize, hseed] at hrun
    exact hs.palettizeWith_palette hw hc ((buildPalette_length_le _ _ hpos).trans hmax) hrun

end Sys2Proof.Machine
end

section
/-! The obligations on the negotiator: what Negotiate answers in each of its branches, and the two commands that ask it
(spec/44_negotiator.md R330 to R333). -/

namespace Sys2Proof.Machine

/-! ### The codes Negotiate reads -/

/-- What Negotiate reads of a block type, by its COMP code (10_state R34, R40, 42_conversion_engine R271). -/
theorem compType_reads {c : BitVec 3} {ty : BlockType} (h : compType c = some ty) :
    c.toNat ≠ 0 ∧ (∀ caps, capsSupports caps ty = bit caps (c.toNat - 1))
      ∧ ∀ ha, virtualRaster ty ha
          = if c.toNat = 1 then (if ha then .r1555 else .r565) else if c.toNat ≤ 3 then .r4444 else .r8888 := by
  unfold compType at h
  split at h
  case h_6 => exact absurd h nofun
  all_goals
    next hc =>
      obtain rfl := Option.some.inj h
      rw [hc]
      exact ⟨by decide, fun _ => rfl, fun _ => rfl⟩

/-- A COMP code that is neither NONE nor reserved names a block type (10_state R40). -/
theorem exists_compType {c : BitVec 3} (h0 : c.toNat ≠ 0) (h6 : c.toNat ≠ 6) (h7 : c.toNat ≠ 7) : ∃ ty, compType c = some ty := by
  have hall : ∀ c : BitVec 3, c.toNat ≠ 0 → c.toNat ≠ 6 → c.toNat ≠ 7 → (compType c).isSome = true := by decide
  exact Option.isSome_iff_exists.1 (hall c h0 h6 h7)

/-- A RASTER code of a format with a pixel layout is that format's code (10_state R40). -/
theorem rasterOf_of_layout {c : BitVec 4} (h : 1 ≤ c.toNat ∧ c.toNat ≤ 8) :
    ∃ f ∈ rasterOf c, f ≠ .default ∧ f.code = c := by revert c; decide

theorem rasterOf_of_no_layout {c : BitVec 4} (h : ¬ (1 ≤ c.toNat ∧ c.toNat ≤ 8)) :
    rasterOf c = none ∨ rasterOf c = some .default := by revert c; decide

/-! ### The branches of Negotiate -/

/-- The codes Negotiate refuses (44_negotiator R330). -/
def Desc.NegotiateRefuses (S : Desc) : Prop := S.comp.toNat = 6 ∨ S.comp.toNat = 7 ∨ S.palMode = 3

/-- A compression that the capabilities lack (44_negotiator R330). -/
def Desc.CompUnsupported (S : Desc) (caps : Word) : Prop := S.comp.toNat ≠ 0 ∧ bit caps (S.comp.toNat - 1) = false

theorem Desc.negotiateRefuses_iff {S : Desc} :
    (S.reservedComp || decide (S.palMode = 3)) = true ↔ S.NegotiateRefuses := by
  unfold Desc.reservedComp Desc.NegotiateRefuses
  generalize S.comp = c
  generalize S.palMode = p
  revert c p; decide

section
variable {S : Desc} {ha : Bool} {caps : Word}

theorem negotiateDesc_of_refused (h : S.NegotiateRefuses) : negotiateDesc S ha caps = .error ⟨.formatError, 0, none⟩ :=
  if_pos (Desc.negotiateRefuses_iff.2 h)

/-- An unsupported compression is answered with its raw format. -/
theorem negotiateDesc_of_unsupported (h : ¬ S.NegotiateRefuses) (hu : S.CompUnsupported caps) :
    ∃ ty, compType S.comp = some ty ∧ negotiateDesc S ha caps
      = .ok (expandedDesc (virtualRaster ty ha) S.rowAlign (negotiatedOrder S.order (virtualRaster ty ha))) := by
  obtain ⟨ty, hty⟩ := exists_compType hu.1 (fun h6 => h (.inl h6)) (fun h7 => h (.inr (.inl h7)))
  obtain ⟨-, hcaps, -⟩ := compType_reads hty
  refine ⟨ty, hty, ?_⟩
  rw [negotiateDesc, if_neg (mt Desc.negotiateRefuses_iff.1 h), hty]
  exact if_neg (Bool.eq_false_iff.1 ((hcaps caps).trans hu.2))

/-- Past the compression, the palette decides. -/
theorem negotiateDesc_of_supported (h : ¬ S.NegotiateRefuses) (hu : ¬ S.CompUnsupported caps) :
    negotiateDesc S ha caps = negotiatePalette S caps := by
  rw [negotiateDesc, if_neg (mt Desc.negotiateRefuses_iff.1 h)]
  cases hty : compType S.comp with
  | none => rfl
  | some ty =>
    obtain ⟨hne, hcaps, -⟩ := compType_reads hty
    have hsupported : capsSupports caps ty = true := by
      rw [hcaps, ← Bool.not_eq_false]
      exact fun hbit => hu ⟨hne, hbit⟩
    exact if_pos hsupported

theorem negotiatePalette_kept (h : S.palMode = palNone ∨ bit caps 5 = true) : negotiatePalette S caps = .ok S := by
  refine if_neg fun ⟨hp, hbit⟩ => ?_
  rcases h with h | h
  · exact hp h
  · exact absurd (h.symm.trans hbit) nofun

/-- The palette dropped: entries of a format with a pixel layout become the texels. -/
theorem negotiatePalette_dropped (hp : S.palMode ≠ palNone) (hbit : bit caps 5 = false)
    (hr : 1 ≤ S.raster.toNat ∧ S.raster.toNat ≤ 8) :
    negotiatePalette S caps = .ok ⟨S.raster, BitVec.ofNat 8 (entryDepth S.rasterF), S.rowAlign, S.order, palNone, 0⟩ := by
  obtain ⟨f, hf, hdefault, hcode⟩ := rasterOf_of_layout hr
  have hraster : S.rasterF = f := by rw [Desc.rasterF, hf, Option.getD_some]
  rw [negotiatePalette, if_pos ⟨hp, hbit⟩, hf, hraster, ← hcode]
  cases f with
  | default => exact absurd rfl hdefault
  | _ => rfl

theorem negotiatePalette_refused (hp : S.palMode ≠ palNone) (hbit : bit caps 5 = false)
    (hr : ¬ (1 ≤ S.raster.toNat ∧ S.raster.toNat ≤ 8)) : negotiatePalette S caps = .error ⟨.formatError, 0, none⟩ := by
  rw [negotiatePalette, if_pos ⟨hp, hbit⟩]
  rcases rasterOf_of_no_layout hr with hnone | hdefault
  · rw [hnone]
  · rw [hdefault]

/-! ### Idempotence -/

/-- A raw descriptor without a palette needs no capability. -/
theorem negotiateDesc_of_direct (hc : S.comp = 0) (hp : S.palMode = palNone) : negotiateDesc S ha caps = .ok S := by
  have hlegal : ¬ S.NegotiateRefuses := by simp [Desc.NegotiateRefuses, hc, hp, palNone]
  have hsupported : ¬ S.CompUnsupported caps := fun hu => hu.1 (by rw [hc]; rfl)
  rw [negotiateDesc_of_supported hlegal hsupported, negotiatePalette_kept (.inl hp)]

theorem negotiatePalette_ok {T : Desc} (h : negotiatePalette S caps = .ok T) :
    T = S ∨ T.comp = 0 ∧ T.palMode = palNone := by
  by_cases hkept : S.palMode = palNone ∨ bit caps 5 = true
  · exact .inl (Except.ok.inj (h.symm.trans (negotiatePalette_kept hkept)))
  · obtain ⟨hp, hbit⟩ := not_or.1 hkept
    rw [Bool.not_eq_true] at hbit
    by_cases hr : 1 ≤ S.raster.toNat ∧ S.raster.toNat ≤ 8
    · obtain rfl := Except.ok.inj (h.symm.trans (negotiatePalette_dropped hp hbit hr))
      exact .inr ⟨rfl, rfl⟩
    · exact absurd (h.symm.trans (negotiatePalette_refused hp hbit hr)) nofun

/-- Negotiate answers its source, or a raw descriptor without a palette. -/
theorem negotiateDesc_ok {T : Desc} (h : negotiateDesc S ha caps = .ok T) : T = S ∨ T.comp = 0 ∧ T.palMode = palNone := by
  by_cases hrefused : S.NegotiateRefuses
  · exact absurd (h.symm.trans (negotiateDesc_of_refused hrefused)) nofun
  · by_cases hu : S.CompUnsupported caps
    · obtain ⟨ty, -, hexpanded⟩ := negotiateDesc_of_unsupported (ha := ha) hrefused hu
      obtain rfl := Except.ok.inj (h.symm.trans hexpanded)
      exact .inr ⟨rfl, rfl⟩
    · exact negotiatePalette_ok ((negotiateDesc_of_supported hrefused hu).symm.trans h)

end

/-- Settles O48: an answer is the source, which was answered with itself, or needs no capability. -/
theorem negotiateIdempotent : Obligations.NegotiateIdempotent := by
  intro S T ha caps h
  rcases negotiateDesc_ok h with rfl | ⟨hc, hp⟩
  · exact h
  · exact negotiateDesc_of_direct hc hp

/-! ### NEGOTIATE -/

section
variable {s : State}

theorem exec_negotiate_of_ok {T : Desc} (h : negotiateDesc s.imgDesc s.hasAlpha s.caps = .ok T) :
    exec .negotiate s = .next ((s.setTgtFmt T.toWord).complete 0x08 false false) := by
  rw [exec, execNegotiate, negotiateTarget, h, State.finish]

theorem exec_negotiate_of_error {e : Raise} (h : negotiateDesc s.imgDesc s.hasAlpha s.caps = .error e) :
    exec .negotiate s = .next (s.raiseError 0x08 e false) := by
  rw [exec, execNegotiate, negotiateTarget, h, State.finish]

end

/-- Settles O47: one clause for each branch of Negotiate. -/
theorem negotiateCommand : Obligations.NegotiateCommand := by
  refine ⟨rfl, fun s => ⟨fun hrefused => exec_negotiate_of_error (negotiateDesc_of_refused hrefused),
    fun hlegal => ⟨fun hu => ?_, fun hu hp hbit => ⟨fun hr => ?_, fun hr => ?_⟩, fun hu hkept => ?_⟩⟩⟩
  · obtain ⟨ty, hty, hexpanded⟩ := negotiateDesc_of_unsupported (ha := s.hasAlpha) hlegal hu
    obtain ⟨-, -, hvirtual⟩ := compType_reads hty
    rw [hvirtual] at hexpanded
    exact exec_negotiate_of_ok hexpanded
  · exact exec_negotiate_of_ok ((negotiateDesc_of_supported hlegal hu).trans (negotiatePalette_dropped hp hbit hr))
  · exact exec_negotiate_of_error ((negotiateDesc_of_supported hlegal hu).trans (negotiatePalette_refused hp hbit hr))
  · exact exec_negotiate_of_ok ((negotiateDesc_of_supported hlegal hu).trans (negotiatePalette_kept hkept))

/-! ### NEGOTIATE_AND_CONVERT -/

/-- The STATUS word of another command with the same end: only OPC is written anew. -/
theorem statusWord_opc (opc opc' : Byte) (err : Option Raise) (changed truncated : Bool) :
    statusWord opc' err changed truncated
      = (statusWord opc err changed truncated &&& ~~~ (0x0000FF00 : Word)) ||| (opc'.setWidth 32 <<< 8) := by
  refine BitVec.eq_of_getLsbD_eq fun i hi => ?_
  have hmask : (0x0000FF00 : Word).getLsbD i = decide (8 ≤ i ∧ i < 16) := by revert i; decide
  have hpast (h : 16 ≤ i) : opc'.getLsbD (i - 8) = false := BitVec.getLsbD_of_ge _ _ (by omega)
  rw [BitVec.getLsbD_or, BitVec.getLsbD_and, BitVec.getLsbD_not, hmask, BitVec.getLsbD_shiftLeft, BitVec.getLsbD_setWidth]
  unfold statusWord
  iterate 14 rw [BitVec.getLsbD_append]
  -- What is left is the part of the word that bit i falls in: below OPC, in it, or above.
  grind

theorem ConvOut.finish_opc (o : ConvOut) (opc opc' : Byte) :
    o.finish opc' = (o.finish opc).setStatus (((o.finish opc).status &&& ~~~ (0x0000FF00 : Word)) ||| (opc'.setWidth 32 <<< 8)) := by
  unfold ConvOut.finish
  split
  · exact congrArg (fun w => (o.state.setStatus w).advance) (statusWord_opc opc opc' none o.changed o.truncated)
  · next e _ => exact congrArg (fun w => (o.state.setStatus w).advance) (statusWord_opc opc opc' (some e) false o.truncated)

section
variable {s : State}

theorem exec_negotiateAndConvert_of_ok {T : Desc} (h : negotiateDesc s.imgDesc s.hasAlpha s.caps = .ok T) :
    exec .negotiateAndConvert s = .next ((convertImage (s.setTgtFmt T.toWord)).finish 0x09) := by
  rw [exec, execNegotiateAndConvert, negotiateAndConvert, negotiateTarget, h]

theorem exec_negotiateAndConvert_of_error {e : Raise} (h : negotiateDesc s.imgDesc s.hasAlpha s.caps = .error e) :
    exec .negotiateAndConvert s = .next (s.raiseError 0x09 e false) := by
  rw [exec, execNegotiateAndConvert, negotiateAndConvert, negotiateTarget, h]

/-- The identity fast path (42_conversion_engine R250). -/
theorem convertImage_of_identity (hs : s.isStandalone = true) (h : s.imgDesc = s.tgtDesc) :
    convertImage s = ⟨s, false, false, none⟩ := by
  rw [convertImage, if_neg (by simp [hs]), if_pos h]

end

/-- Settles O49: CONVERT runs on the state with the negotiated target, and ends with NEGOTIATE_AND_CONVERT's OPC. -/
theorem negotiateThenConvert : Obligations.NegotiateThenConvert := by
  refine ⟨rfl, fun s => ⟨fun e he => ⟨?_, exec_negotiateAndConvert_of_error he⟩, fun T hT => ⟨?_, fun heq hs => ?_⟩⟩⟩
  · rw [negotiateDesc_error he]
  · exact ⟨_, _, exec_negotiateAndConvert_of_ok hT, rfl, ConvOut.finish_opc _ 0x07 0x09, ((convertImage_end _).frame 0x09).2⟩
  · have hidentity : (s.setTgtFmt T.toWord).imgDesc = (s.setTgtFmt T.toWord).tgtDesc :=
      heq.symm.trans (ofWord_toWord T).symm
    rw [exec_negotiateAndConvert_of_ok hT, convertImage_of_identity (s := s.setTgtFmt T.toWord) hs hidentity, ConvOut.finish]

end Sys2Proof.Machine
end

section
/-! The obligation on the state an error leaves (spec/60_exceptions.md R353, spec/42_conversion_engine.md R252): a plain command and a
failed negotiation write only STATUS; CONVERT keeps what the stages before the failing one committed. -/

namespace Sys2Proof.Machine

/-! ### The state of the image where CONVERT fails -/

theorem onlyStatus.trans {s t u : State} (h : onlyStatus s t) (h' : onlyStatus t u) : onlyStatus s u := by
  obtain ⟨⟨hcaps, hpz, hargs⟩, ⟨hfmt, hpal, hcount, hmipCount, hmips⟩, hflags, htgt, hres, htb, hbuf, hramp⟩ := h
  obtain ⟨⟨hcaps', hpz', hargs'⟩, ⟨hfmt', hpal', hcount', hmipCount', hmips'⟩, hflags', htgt', hres', htb', hbuf', hramp'⟩ := h'
  exact ⟨⟨hcaps'.trans hcaps, hpz'.trans hpz, hargs'.trans hargs⟩,
    ⟨hfmt'.trans hfmt, hpal'.trans hpal, hcount'.trans hcount, hmipCount'.trans hmipCount, hmips'.trans hmips⟩,
    hflags'.trans hflags, htgt'.trans htgt, hres'.trans hres, htb'.trans htb,
    fun g => ⟨(hbuf' g).1.trans (hbuf g).1, fun j => ((hbuf' g).2 j).trans ((hbuf g).2 j)⟩, hramp'.trans hramp⟩

theorem onlyStatus_raiseError_of_untouched {s u : State} (h : Untouched s u) (opc : Byte) (e : Raise) (truncated : Bool) :
    onlyStatus s (u.raiseError opc e truncated) :=
  h.onlyStatus.1.trans (raiseError_onlyStatus u opc e truncated).1

/-- The state u in which CONVERT of s raises e, by the stage e names: the image of s, the one stage 1 committed, or the one all
three stages left (42_conversion_engine R252). -/
inductive ConvertFailed (s : State) (e : Raise) (u : State) : Prop
  | atStart (hstage : e.stage ≤ 1) (hu : Untouched s u)
  | afterStage1 (hstage : e.stage = 2 ∨ e.stage = 3) (hcommitted : (runStage1 s s.tgtDesc).error = none)
      (hu : Untouched (runStage1 s s.tgtDesc).state u)
  | afterStage3 (hstage : e.stage = 4)
      (hu : u = (runStage3 (runStage2 (runStage1 s s.tgtDesc).state s.tgtDesc s.rawTgt).state s.tgtDesc).state)

theorem ConvertFailed.raiseError_errorState {s u : State} {e : Raise} (h : ConvertFailed s e u) (he : e.Fits) (opc : Byte)
    (truncated : Bool) : convertErrorState s (u.raiseError opc e truncated) := by
  obtain ⟨-, -, hfield, -⟩ := raiseError_fields u opc truncated he
  rw [convertErrorState, hfield]
  cases h with
  | atStart hstage hu => exact .inl ⟨hstage, onlyStatus_raiseError_of_untouched hu ..⟩
  | afterStage1 hstage hcommitted hu => exact .inr (.inl ⟨hstage, hcommitted, onlyStatus_raiseError_of_untouched hu ..⟩)
  | afterStage3 hstage hu => exact .inr (.inr ⟨hstage, hu ▸ (raiseError_onlyStatus ..).1⟩)

/-- Where stage 3 fails the target is compressed, so stage 2 did not run (42_conversion_engine R253). -/
theorem runStage2_of_runStage3_error {s u : State} {T T' : Desc} (h : (runStage3 u T).error ≠ none) :
    runStage2 s T T' = ⟨s, none⟩ := by
  refine if_neg fun hre => h ?_
  obtain ⟨-, hraw, -⟩ := reshapes_raw hre
  have hnone : compType T.comp = none := by rw [hraw]; rfl
  rw [runStage3, hnone]

theorem StageOk.failed_of_eq {s u : State} {stage : Nat} {out : StageOut} {e : Raise} (h : StageOk s stage out)
    (hout : out = ⟨u, some e⟩) : Untouched s u ∧ e.stage = stage := by
  subst hout
  obtain ⟨hu, hstage, -⟩ := h.failed e rfl
  exact ⟨hu, hstage⟩

theorem pipeline_failed {s : State} {e : Raise} (he : (pipeline s s.tgtDesc s.rawTgt).error = some e) :
    ConvertFailed s e (pipeline s s.tgtDesc s.rawTgt).state := by
  rcases pipeline_cases s s.tgtDesc s.rawTgt with
    ⟨s1, e', h1, hp⟩ | ⟨s1, s2, e', h1, h2, hp⟩ | ⟨s1, s2, s3, e', h1, h2, h3, hp⟩ | ⟨s1, s2, s3, h1, h2, h3, hp⟩ <;> rw [hp] at he ⊢
  · obtain rfl := Option.some.inj he
    obtain ⟨hu, hstage⟩ := (runStage1_ok s s.tgtDesc).failed_of_eq h1
    exact .atStart hstage.le hu
  · obtain rfl := Option.some.inj he
    obtain ⟨hu, hstage⟩ := (runStage2_ok s1 s.tgtDesc s.rawTgt).failed_of_eq h2
    exact .afterStage1 (.inl hstage) (by rw [h1]) (by rwa [h1])
  · obtain rfl := Option.some.inj he
    obtain ⟨rfl, -⟩ := StageOut.mk.inj ((runStage2_of_runStage3_error (by rw [h3]; nofun)).symm.trans h2)
    obtain ⟨hu, hstage⟩ := (runStage3_ok s1 s.tgtDesc).failed_of_eq h3
    exact .afterStage1 (.inr hstage) (by rw [h1]) (by rwa [h1])
  · rcases finishPipeline_cases s3 (!s.imgDesc.isRaw || reshapes s1 s.tgtDesc s.rawTgt || !s.tgtDesc.isRaw)
      (decide (s1.levels < s.levels)) with ⟨-, hf⟩ | ⟨-, e', hscan, hf⟩ | ⟨-, a, -, hf⟩ <;> rw [hf] at he ⊢
    · exact absurd he nofun
    · obtain rfl := Option.some.inj he
      obtain ⟨-, hstage, -⟩ := alphaScan_error hscan
      exact .afterStage3 hstage (by rw [h1, h2, h3])
    · exact absurd he nofun

theorem convertImage_failed {s : State} {e : Raise} (he : (convertImage s).error = some e) :
    ConvertFailed s e (convertImage s).state := by
  rcases convertImage_cases s with ⟨-, h⟩ | ⟨-, -, h⟩ | ⟨-, -, e', hchecks, h⟩ | ⟨-, -, -, h⟩ <;> rw [h] at he ⊢
  · obtain rfl := Option.some.inj he
    exact .atStart (Nat.zero_le 1) (.refl s)
  · exact absurd he nofun
  · obtain rfl := Option.some.inj he
    exact .atStart ((convertChecks_error hchecks).1.trans_le (Nat.zero_le 1)) (.refl s)
  · exact pipeline_failed he

theorem ConvertEnd.error_fits {s : State} {o : ConvOut} {e : Raise} (h : ConvertEnd s o) (he : o.error = some e) : e.Fits := by
  cases h with
  | failed u truncated e' hu hfits => exact Option.some.inj he ▸ hfits
  | unchanged u truncated hu => exact absurd he nofun
  | rescanned u alpha truncated hu => exact absurd he nofun

/-- CONVERT's end with an error, under the opcode of either command that runs it (60_exceptions R353). -/
theorem convertImage_finish_errorState {s : State} {opc : Byte} (herr : ((convertImage s).finish opc).errField ≠ 0) :
    convertErrorState s ((convertImage s).finish opc) := by
  obtain ⟨-, -, hfield⟩ := convFinish_flags (convertImage s) opc
  obtain ⟨e, he⟩ := Option.ne_none_iff_exists'.1 (mt hfield.2 herr)
  have hfinish : (convertImage s).finish opc = (convertImage s).state.raiseError opc e (convertImage s).truncated := by
    rw [ConvOut.finish, he]
  rw [hfinish]
  exact (convertImage_failed he).raiseError_errorState ((convertImage_end s).error_fits he) ..

/-! ### The state any command's error leaves -/

theorem PlainEnd.onlyStatus_of_error {s t : State} {i : Instr} (h : PlainEnd s i t) (herr : t.errField ≠ 0) :
    onlyStatus s t ∧ sameOracle s t := by
  cases h with
  | failed e he =>
    obtain ⟨hstatus, horacle, -⟩ := raiseError_onlyStatus s i.opc e false
    exact ⟨hstatus, horacle⟩
  | done u hu => exact absurd (complete_errField ..) herr

/-- Settles O57: a plain command's error writes STATUS alone, and CONVERT's the same over what the failing stage started from. -/
theorem stateAfterError : Obligations.StateAfterError := by
  intro i s t h herr
  obtain ⟨-, hhost, -⟩ := registerFrame i s t h
  refine ⟨hhost, fun hc hn => ?_, ?_, ?_⟩
  · rcases exec_cases h with hplain | ⟨hi, -⟩ | ⟨hi, -⟩
    · exact hplain.onlyStatus_of_error herr
    · exact absurd hi hc
    · exact absurd hi hn
  · rintro rfl
    obtain rfl := Host.Outcome.next.inj h
    exact convertImage_finish_errorState herr
  · rintro rfl
    refine ⟨fun e he => ?_, fun T hT => ?_⟩
    · obtain rfl := Host.Outcome.next.inj ((exec_negotiateAndConvert_of_error he).symm.trans h)
      exact (raiseError_onlyStatus ..).1
    · obtain rfl := Host.Outcome.next.inj ((exec_negotiateAndConvert_of_ok hT).symm.trans h)
      exact convertImage_finish_errorState herr

end Sys2Proof.Machine
end

section
/-! The obligations on reset (spec/70_reset_and_hazards.md R380 to R382): what the registers read and which buffers are live after
it, the reset event as a host operation, and ALPHA_RAMP_RULE over every step. -/

namespace Sys2Proof.Machine

/-! ### The state after reset -/

theorem reg_reset (r : Reg) : State.reset.reg r = 0 := by
  cases r with
  | cmd | status | caps | pzCfg | imgFmt | imgFlags | palBuf | palCount | mipCount | tgtFmt => rfl
  | arg i | res i | tb i => exact Vector.getElem_replicate i.isLt
  | mipBuf i => exact congrArg MipRegs.buf (Vector.getElem_replicate i.isLt)
  | mipSdim i => exact congrArg MipRegs.sdim (Vector.getElem_replicate i.isLt)
  | mipLdim i => exact congrArg MipRegs.ldim (Vector.getElem_replicate i.isLt)
  | mipSize i => exact congrArg MipRegs.size (Vector.getElem_replicate i.isLt)

/-- After reset every offset reads 0, a register's and a reserved one (70_reset_and_hazards R380). -/
theorem readReg_reset (off : Nat) : State.reset.readReg off = 0 := by
  cases hr : regAt off with
  | none => exact readReg_of_reserved hr
  | some r =>
    rw [readReg_of_regAt hr, reg_reset]
    exact BitVec.zero_and

theorem live_reset (h : Word) : State.reset.mem.live h = false := rfl

/-- Settles O10: each register array holds one value throughout, the store is empty, and a read is of a register or reserved. -/
theorem resetState : Obligations.ResetState :=
  ⟨rfl, rfl, rfl, fun i => reg_reset (.arg i), fun i => reg_reset (.res i), fun i => reg_reset (.tb i), rfl, rfl, rfl, rfl, rfl,
    fun i => Vector.getElem_replicate i.isLt, rfl, live_reset, readReg_reset⟩

/-- Settles O60: the empty store is in canonical form, and every register is 0, STATUS among them. -/
theorem resetHasInv : Obligations.ResetHasInv := reset_machineInv

/-! ### The reset event -/

/-- The reset event gives every register its value after reset. -/
theorem readReg_hostReset (s : State) (off : Nat) : (hostReset s).readReg off = State.reset.readReg off := by
  cases hr : regAt off with
  | none => rw [readReg_of_reserved hr, readReg_of_reserved hr]
  | some r =>
    have hreg : (hostReset s).reg r = State.reset.reg r := by cases r <;> rfl
    rw [readReg_of_regAt hr, readReg_of_regAt hr, hreg]

/-- Settles O11: the event replaces the registers and the store, and carries over the oracles, the host and the rule. -/
theorem resetEvent : Obligations.ResetEvent := by
  intro s hop
  refine ⟨(hostReset s).advance, step_eq_hostStep hop, fun off => ?_, live_reset, rfl, rfl, rfl, ⟨rfl, rfl⟩,
    ⟨rfl, rfl, rfl, rfl⟩, rfl⟩
  rw [readReg_advance, readReg_hostReset, readReg_reset]

/-! ### What a step can do to the registers -/

/-- The state t differs from s at most in the buffer store, the allocator's answers and the host. -/
def RegistersKept (s t : State) : Prop := ∃ (hp : Heap) (agent : HostAgent), t = { s with heap := hp, host := agent }

theorem hostRead_registersKept {off : Nat} {k : Option Nat} {s t : State} (h : hostRead off k s = .next t) :
    RegistersKept s t := by
  unfold hostRead at h
  split at h
  · cases k <;> exact ⟨_, _, (Host.Outcome.next.inj h).symm⟩
  · exact absurd h nofun

theorem hostAlloc_registersKept {k n : Nat} {s t : State} (h : hostAlloc k n s = .next t) : RegistersKept s t := by
  unfold hostAlloc at h
  split at h
  · next hs1 =>
    obtain ⟨-, rfl⟩ := alloc_some hs1
    exact ⟨_, _, (Host.Outcome.next.inj h).symm⟩
  · next hs1 =>
    obtain ⟨rfl, -⟩ := alloc_none hs1
    exact ⟨_, _, (Host.Outcome.next.inj h).symm⟩

theorem hostPut_registersKept {g : Word} {off : Nat} {bs : List Byte} {s t : State} (h : hostPut g off bs s = .next t) :
    RegistersKept s t := by
  unfold hostPut at h
  split at h
  · exact ⟨_, _, (Host.Outcome.next.inj h).symm⟩
  · exact absurd h nofun

theorem hostGet_registersKept {g : Word} {off n : Nat} {s t : State} (h : hostGet g off n s = .next t) :
    RegistersKept s t := by
  unfold hostGet at h
  split at h
  · exact ⟨_, _, (Host.Outcome.next.inj h).symm⟩
  · exact absurd h nofun

theorem hostFree_registersKept {g : Word} {s t : State} (h : hostFree g s = .next t) : RegistersKept s t := by
  unfold hostFree at h
  split at h
  · exact ⟨_, _, (Host.Outcome.next.inj h).symm⟩
  · exact absurd h nofun

/-- The four ways a host operation goes on: a command is issued, a register is written, the registers are kept, or the reset
event happens. -/
inductive HostMove (s t : State) : Prop where
  | issued (w : Word) (h : issue w s = .next t)
  | wrote (off : Nat) (v : Word) (h : t = (s.writeReg off v).advance)
  | kept (h : RegistersKept s t)
  | reset (h : t = (hostReset s).advance)

theorem hostWrite_move {off : Nat} {v : Word} {s t : State} (h : hostWrite off v s = .next t) : HostMove s t := by
  by_cases hoff : off = 0
  · subst hoff
    exact .issued v h
  · exact .wrote off v (hostWrite_next hoff h)

theorem hostStep_move {op : HostOp} {s t : State} (h : hostStep op s = .next t) : HostMove s t := by
  cases op <;> simp only [hostStep] at h
  case rd off k => exact .kept (hostRead_registersKept h)
  case halloc k n => exact .kept (hostAlloc_registersKept h)
  case reset => exact .reset (Host.Outcome.next.inj h).symm
  case wr off v =>
    split at h
    · exact hostWrite_move h
    · exact absurd h nofun
  case hwrite v off bs =>
    split at h
    · exact .kept (hostPut_registersKept h)
    · exact absurd h nofun
  case hread v off n =>
    split at h
    · exact .kept (hostGet_registersKept h)
    · exact absurd h nofun
  case hfree v =>
    split at h
    · exact .kept (hostFree_registersKept h)
    · exact absurd h nofun

theorem step_move {s t : State} (h : step s = .next t) : HostMove s t := by
  unfold step at h
  split at h
  · exact hostStep_move h
  · exact absurd h nofun

/-! ### ALPHA_RAMP_RULE -/

theorem issue_alphaRampRule {w : Word} {s t : State} (h : issue w s = .next t) : t.alphaRampRule = s.alphaRampRule := by
  unfold issue at h
  split at h
  · next i _ =>
    obtain ⟨-, -, hramp, -⟩ := registerFrame i s t h
    exact hramp
  · exact Host.Outcome.next.inj h ▸ rfl

/-- ALPHA_RAMP_RULE is not a register: no offset writes it. -/
theorem writeReg_alphaRampRule (s : State) (off : Nat) (v : Word) : (s.writeReg off v).alphaRampRule = s.alphaRampRule := by
  cases hr : regAt off with
  | none => rw [writeReg_of_reserved hr]
  | some r =>
    rw [writeReg_of_regAt hr]
    cases r <;> rfl

/-- Settles O12: a command by its frame, a register write by the registers there are, the reset event by what it carries over. -/
theorem rampRuleFixed : Obligations.RampRuleFixed := by
  intro s t h
  cases step_move h with
  | issued w h => exact issue_alphaRampRule h
  | wrote off v h =>
    subst h
    exact writeReg_alphaRampRule s off v
  | kept h =>
    obtain ⟨hp, agent, rfl⟩ := h
    rfl
  | reset h =>
    subst h
    rfl

end Sys2Proof.Machine
end
